-- ==== Sys2Proof/Word.lean ====
section
/-! DEFINITION. Words and bytes (00_scope.md R8, R13: `XLEN` = 32, bit 0 least significant, unsigned). -/

namespace Sys2Proof

/-- One register word or bus address: `XLEN` = 32 bits (R8 `XLEN`, R13, R83). -/
abbrev Word := BitVec 32

/-- One data byte, or an 8-bit pin mask with bit `i` = pin `i` (R34, R117). -/
abbrev Byte := BitVec 8

end Sys2Proof
end

