-- ==== Sys2Proof/Config.lean ====
section
/-! DEFINITION. The configuration record of 00_scope.md R8, R9, R11 as plain data, the names of the registers a
layout places, and the free values: the spec's `draw` and its OPEN parameters (92_eei_decisions.md). The reference
instance with its numbers is in Machine/Layout.lean. -/

namespace Sys2Proof

/-- A bit range `[hi:lo]` of a register word (R13). -/
structure Field where
  hi : Nat
  lo : Nat
  deriving DecidableEq, Repr

/-- The registers of one GPIO port (10_state.md R35 to R41). -/
inductive GpioReg where
  | data | dir | afsel | den | lock | cr | pctl
  deriving DecidableEq, Repr

/-- The registers of one UART channel (10_state.md R45 to R51). `dr` is the one address that `DR_TX` (written) and
`DR_RX` (read) share (R51, 90_conflicts.md C4). -/
inductive UartReg where
  | dr | fr | ibrd | fbrd | lcrh | ctl
  deriving DecidableEq, Repr

/-- Every bus-visible register (10_state.md R57). No other address is valid. -/
inductive Reg where
  | ris | legacy | alt | gateGpio | gateUart
  | gpio (port : Nat) (r : GpioReg)
  | uart (channel : Nat) (r : UartReg)
  deriving DecidableEq, Repr

/-- `Layout` of R9: an address for every register, as base plus offset (20_memory.md R81), and a bit range for every
field. -/
structure Layout where
  sysBase : Word
  offRis : Word
  offLegacy : Word
  offAlt : Word
  offGateGpio : Word
  offGateUart : Word
  /-- One base per port; its length is `N_PORTS`. -/
  gpioBase : List Word
  offData : Word
  offDir : Word
  offAfsel : Word
  offDen : Word
  offLock : Word
  offCr : Word
  offPctl : Word
  /-- One base per channel; its length is `N_CHANNELS`. -/
  uartBase : List Word
  offDr : Word
  offFr : Word
  offIbrd : Word
  offFbrd : Word
  offLcrh : Word
  offCtl : Word
  /-- `CLK_RIS.PLLLOCK` (R28). -/
  pllLock : Field
  /-- `CLK_LEGACY` (R25). -/
  lSysdiv : Field
  diven : Field
  lPwrdn : Field
  lBypass : Field
  xtal : Field
  lOscsrc : Field
  /-- `CLK_ALT` (R26). -/
  altsel : Field
  sysdiv : Field
  pwrdn : Field
  bypass : Field
  oscsrc : Field
  /-- `GATE_GPIO.P[p]` (R29). -/
  gatePort : List Field
  /-- `GATE_UART.C[c]` (R30). -/
  gateChan : List Field
  /-- `GPIO[p].DATA.D`, `DIR.D`, `AFSEL.A`, `DEN.E`, `CR.C` (R35 to R37, R39, R41): bit `i` of each is pin `i`. -/
  dataD : Field
  dirD : Field
  afselA : Field
  denE : Field
  crC : Field
  /-- `GPIO[p].PCTL.F[i]` (R38). -/
  pctlF : List Field
  /-- The data byte of `DR_TX` and `DR_RX` (R50, R51). -/
  drData : Field
  /-- `UART[c].IBRD.DIVINT` (R46). -/
  divint : Field
  /-- `UART[c].FBRD.DIVFRAC` (R47). -/
  divfrac : Field
  /-- `UART[c].FR` (R49). -/
  txff : Field
  rxfe : Field
  /-- `UART[c].LCRH` (R48). -/
  wlen : Field
  fen : Field
  stp2 : Field
  pen : Field
  /-- `UART[c].CTL.EN` (R45). -/
  en : Field
  deriving DecidableEq, Repr

/-- `PINMUX[c]` (10_state.md R55): the port, pin mask and function code of channel `c`'s signals. -/
structure PinBinding where
  port : Nat
  pins : Byte
  fcode : BitVec 4
  deriving DecidableEq, Repr

/-- The parameters of R8 and R9. A value of this type never changes during a run (R11). -/
structure Config where
  /-- `XLEN`: the width of an address and of a register word. `Word` has the 32 bits that R15 and R83 give every
  register, and a configuration is well formed for that value only (log 12). -/
  xlen : Nat
  layout : Layout
  /-- `PROTECTED[p]`. -/
  protectedPins : List Byte
  /-- `GPIO_UNLOCK_KEY`. -/
  unlockKey : Word
  /-- `DRIVE_MASK[p]`. -/
  driveMask : List Byte
  /-- `FIFO_DEPTH`. -/
  fifoDepth : Nat
  /-- `XTAL_CODE_16MHZ`. -/
  xtalCode16MHz : Nat
  /-- `F_INT_OSC_HZ`, not negative (R32). -/
  intOscHz : Rat
  /-- `PINMUX[c]`. -/
  pinmux : List PinBinding
  /-- `CH_A`, `PORT_A`, `PINS_A`, `FCODE_A` and the same for B. -/
  chA : Nat
  chB : Nat
  portA : Nat
  portB : Nat
  pinsA : Byte
  pinsB : Byte
  fcodeA : BitVec 4
  fcodeB : BitVec 4
  greetingDelay : Nat
  ledPulseSpins : Nat
  colorClockReady : Byte
  colorConfigured : Byte
  colorTransmitted : Byte
  colorReceived : Byte
  deriving DecidableEq, Repr

/-! Free values. None has a body, so nothing is known of them: every theorem holds whatever they are. -/

/-- `draw(XLEN)` (R15): the `n`-th value the environment chooses. FREE VALUE (log 3). -/
opaque Config.freeWord : Nat → Word

/-- `F_INT_OSC_HZ`, OPEN (92_eei_decisions.md D7), not negative (R32). FREE VALUE (log 4). -/
opaque Config.openIntOscHz : NNRat
/-- `DRIVE_MASK[p]`, OPEN (D16). FREE VALUE (log 4). -/
opaque Config.openDriveMask : Nat → Byte
/-- `CH_A`, `CH_B`, OPEN (D29). FREE VALUE (log 4). -/
opaque Config.openChA : Nat
opaque Config.openChB : Nat
/-- `PORT_A`, `PORT_B`, OPEN (D29). FREE VALUE (log 4). -/
opaque Config.openPortA : Nat
opaque Config.openPortB : Nat
/-- `PINS_A`, `PINS_B`, OPEN (D29). FREE VALUE (log 4). -/
opaque Config.openPinsA : Byte
opaque Config.openPinsB : Byte
/-- `FCODE_A`, `FCODE_B`, OPEN (D29). FREE VALUE (log 4). -/
opaque Config.openFcodeA : BitVec 4
opaque Config.openFcodeB : BitVec 4
/-- `GREETING_DELAY`, `LED_PULSE_SPINS`, OPEN (D28). FREE VALUE (log 4). -/
opaque Config.openGreetingDelay : Nat
opaque Config.openLedPulseSpins : Nat
/-- The four `COLOR_*` operands, OPEN (D28). FREE VALUE (log 4). -/
opaque Config.openColor : Nat → Byte

end Sys2Proof
end

