-- ==== Sys2Proof/Machine/Layout.lean ====
section
/-! DEFINITION. Bit fields (R13, R116), the address of every register and the register at an address (R9, R81, R82),
the constants of R7, the reference layout `L_REF` (30_encoding.md R119 to R121) and when a configuration is well
formed (R9). -/

namespace Sys2Proof.Machine

/-! Fields of a word. -/

/-- The number of bits of a field. -/
def fieldWidth (f : Field) : Nat := f.hi - f.lo + 1

/-- `mask(hi,lo)` (R13). -/
def fieldMask (f : Field) : Word := BitVec.ofNat 32 (2 ^ fieldWidth f - 1) <<< f.lo

/-- `w[hi:lo]` as an unsigned value (R13). -/
def fieldGet (f : Field) (w : Word) : Nat := (w.extractLsb' f.lo (fieldWidth f)).toNat

/-- The value of a one-bit field. -/
def fieldFlag (f : Field) (w : Word) : Bool := w.getLsbD f.lo

/-- `(v << lo) & mask(hi,lo)`: a value put in a field's place (R116). -/
def fieldPut (f : Field) (v : Nat) : Word := (BitVec.ofNat 32 v <<< f.lo) &&& fieldMask f

/-- `1 << lo`: a one-bit field set (R116). -/
def fieldBit (f : Field) : Word := 1#32 <<< f.lo

/-- `(old & ~clr) | set` (R115): a bit in both masks ends set. -/
def clearThenSet (old set clr : Word) : Word := (old &&& ~~~clr) ||| set

/-! Constants of R7. -/

/-- `F_XTAL_HZ`. -/
def xtalHz : Nat := 16000000
/-- `F_PLL_HZ`. -/
def pllOutHz : Nat := 200000000
/-- `SYS_DIVISOR`. -/
def sysDivisor : Nat := 4
/-- `F_SYS_HZ`. -/
def sysHz : Nat := 50000000
/-- `BAUD`. -/
def baudRateWanted : Nat := 115200
/-- `BAUD_INT`. -/
def baudIntWanted : BitVec 16 := 27
/-- `BAUD_FRAC`. -/
def baudFracWanted : BitVec 6 := 8
/-- `OVERSAMPLE`. -/
def oversample : Nat := 16
/-- `FRAC_SCALE`. -/
def fracScale : Nat := 64
/-- `PINS_PER_PORT`. -/
def pinsPerPort : Nat := 8
/-- `WORD_LENGTH`, `STOP_BITS`; `PARITY` is none. -/
def wordLengthWanted : Nat := 8
def stopBitsWanted : Nat := 1
/-- `OSCSRC_EXTERNAL`: the cleared field selects the external crystal (R8, R26). -/
def oscsrcExternal : Nat := 0
/-- `SYSDIV_CODE(n) = n - 1` (R8, R26). -/
def sysdivCode (n : Nat) : Nat := n - 1
/-- `WLEN_CODE(n) = n - 5` (R8, R48). -/
def wlenCode (n : Nat) : Nat := n - 5

/-- `GREETING`: the 36 bytes of the source's message (R7, R207). -/
def greeting : List Byte :=
  [0x48, 0x65, 0x6C, 0x6C, 0x6F, 0x20, 0x45, 0x57, 0x55, 0x20, 0x49, 0x45,
   0x45, 0x45, 0x2C, 0x20, 0x66, 0x72, 0x6F, 0x6D, 0x20, 0x43, 0x6F, 0x64,
   0x79, 0x20, 0x42, 0x69, 0x72, 0x6B, 0x6C, 0x61, 0x6E, 0x64, 0x0A, 0x0D]

/-! Addresses. -/

/-- `N_PORTS`. -/
def nPorts (c : Config) : Nat := c.layout.gpioBase.length

/-- `N_CHANNELS`. -/
def nChannels (c : Config) : Nat := c.layout.uartBase.length

/-- A port register's offset (R81). -/
def gpioOffset (l : Layout) (r : GpioReg) : Word :=
  match r with
  | .data => l.offData
  | .dir => l.offDir
  | .afsel => l.offAfsel
  | .den => l.offDen
  | .lock => l.offLock
  | .cr => l.offCr
  | .pctl => l.offPctl

/-- A channel register's offset (R81). -/
def uartOffset (l : Layout) (r : UartReg) : Word :=
  match r with
  | .dr => l.offDr
  | .fr => l.offFr
  | .ibrd => l.offIbrd
  | .fbrd => l.offFbrd
  | .lcrh => l.offLcrh
  | .ctl => l.offCtl

/-- `addr(REG)`: base plus offset (R14, R81). -/
def addrOf (l : Layout) (r : Reg) : Word :=
  match r with
  | .ris => l.sysBase + l.offRis
  | .legacy => l.sysBase + l.offLegacy
  | .alt => l.sysBase + l.offAlt
  | .gateGpio => l.sysBase + l.offGateGpio
  | .gateUart => l.sysBase + l.offGateUart
  | .gpio p r => l.gpioBase.getD p 0 + gpioOffset l r
  | .uart c r => l.uartBase.getD c 0 + uartOffset l r

/-- The registers of one port (R57). -/
def portRegs (p : Nat) : List Reg :=
  [.gpio p .data, .gpio p .dir, .gpio p .afsel, .gpio p .den, .gpio p .lock, .gpio p .cr, .gpio p .pctl]

/-- The registers of one channel (R57). -/
def chanRegs (c : Nat) : List Reg :=
  [.uart c .dr, .uart c .fr, .uart c .ibrd, .uart c .fbrd, .uart c .lcrh, .uart c .ctl]

/-- The registers of the system-control block (R57). -/
def sysRegs : List Reg := [.ris, .legacy, .alt, .gateGpio, .gateUart]

/-- Every register a layout has (R57). -/
def allRegs (l : Layout) : List Reg :=
  sysRegs ++ (List.range l.gpioBase.length).flatMap portRegs ++ (List.range l.uartBase.length).flatMap chanRegs

/-- The register at an address, or none: "no other address is valid" (R57, R82). -/
def locate (l : Layout) (a : Word) : Option Reg := (allRegs l).find? fun r => addrOf l r == a

/-! When a configuration is well formed (R9). -/

/-- `XLEN` (R8): the native width of every register, 4 bytes (R15, R83). -/
def xlenRef : Nat := 32

/-- No value of a list occurs twice. -/
def distinct (ws : List Word) : Bool :=
  match ws with
  | [] => true
  | w :: rest => rest.all (fun v => v != w) && distinct rest

/-- The place the rules give an 8-bit field: pin `i` is bit `i` of the register, and a data byte is `[7:0]`. -/
def lowByte : Field := { hi := 7, lo := 0 }

/-- Nibble `i` of a port-control word (R34). -/
def nibble (i : Nat) : Field := { hi := 4 * i + 3, lo := 4 * i }

/-- The fields whose place the rules themselves write down: `[7:0]` for pins and data (R42, R50, R51, R172, R176),
nibble `i` of `PCTL` (R34, R42), `[15:0]` and `[5:0]` for the divisors (R187, R197). A layout that put one elsewhere
would break those rules, and R9 says that every rule holds for every well-formed layout (log 13). -/
def placedByRules (l : Layout) : Bool :=
  l.dataD == lowByte && l.dirD == lowByte && l.afselA == lowByte && l.denE == lowByte && l.crC == lowByte &&
  l.pctlF == (List.range 8).map nibble && l.drData == lowByte && l.divint == { hi := 15, lo := 0 } &&
  l.divfrac == { hi := 5, lo := 0 }

/-- A field has its width and lies within the word (R9 (2), (3)). -/
def fieldOk (w : Nat) (f : Field) : Bool := f.lo ≤ f.hi && f.hi < 32 && fieldWidth f == w

/-- Two fields share no bit (R9 (2)). -/
def fieldsApart (f g : Field) : Bool := f.hi < g.lo || g.hi < f.lo

/-- No two fields of a register overlap (R9 (2)). -/
def fieldsDisjoint (fs : List Field) : Bool :=
  match fs with
  | [] => true
  | f :: rest => rest.all (fieldsApart f) && fieldsDisjoint rest

/-- R9: distinct addresses, and every field in place, of its width, overlapping no other of its register. -/
def layoutWf (l : Layout) : Bool :=
  distinct ((allRegs l).map (addrOf l)) &&
  fieldOk 1 l.pllLock &&
  fieldOk 4 l.lSysdiv && fieldOk 1 l.diven && fieldOk 1 l.lPwrdn && fieldOk 1 l.lBypass && fieldOk 5 l.xtal &&
  fieldOk 2 l.lOscsrc && fieldsDisjoint [l.lSysdiv, l.diven, l.lPwrdn, l.lBypass, l.xtal, l.lOscsrc] &&
  fieldOk 1 l.altsel && fieldOk 6 l.sysdiv && fieldOk 1 l.pwrdn && fieldOk 1 l.bypass && fieldOk 3 l.oscsrc &&
  fieldsDisjoint [l.altsel, l.sysdiv, l.pwrdn, l.bypass, l.oscsrc] &&
  l.gatePort.all (fieldOk 1) && fieldsDisjoint l.gatePort && l.gatePort.length == l.gpioBase.length &&
  l.gateChan.all (fieldOk 1) && fieldsDisjoint l.gateChan && l.gateChan.length == l.uartBase.length &&
  fieldOk 1 l.txff && fieldOk 1 l.rxfe && fieldsDisjoint [l.txff, l.rxfe] &&
  fieldOk 2 l.wlen && fieldOk 1 l.fen && fieldOk 1 l.stp2 && fieldOk 1 l.pen &&
  fieldsDisjoint [l.wlen, l.fen, l.stp2, l.pen] &&
  fieldOk 1 l.en && placedByRules l

/-- A well-formed configuration: `XLEN` = 32 (R83), a well-formed layout, one entry per port or channel in every
per-instance table, a FIFO of at least one entry, a crystal code that its 5-bit field can hold, and an oscillator
frequency that is not negative (R8, R9, R32). The other OPEN parameters are not constrained. -/
def configWf (c : Config) : Bool :=
  layoutWf c.layout && c.xlen == xlenRef && decide (0 ≤ c.intOscHz) && c.protectedPins.length == nPorts c && c.driveMask.length == nPorts c &&
  c.pinmux.length == nChannels c && 1 ≤ c.fifoDepth && c.xtalCode16MHz < 32

/-- What D29 asks of the OPEN bindings of the service: two different existing channels, existing ports, and different
port and pin pairs. -/
def bindingsOk (c : Config) : Bool :=
  c.chA < nChannels c && c.chB < nChannels c && c.chA != c.chB && c.portA < nPorts c && c.portB < nPorts c &&
  (c.portA != c.portB || c.pinsA != c.pinsB)

/-! The reference instance `L_REF`. -/

/-- A one-bit field. -/
def bitAt (n : Nat) : Field := { hi := n, lo := n }

/-- `L_REF` (R119 to R121). PRESUMED by the spec itself: general knowledge of the TM4C123GH6PM (log 5). -/
def layoutRef : Layout where
  sysBase := 0x400FE000
  offRis := 0x050
  offLegacy := 0x060
  offAlt := 0x070
  offGateGpio := 0x608
  offGateUart := 0x618
  gpioBase := [0x40004000, 0x40005000, 0x40006000, 0x40007000, 0x40024000, 0x40025000]
  offData := 0x3FC
  offDir := 0x400
  offAfsel := 0x420
  offDen := 0x51C
  offLock := 0x520
  offCr := 0x524
  offPctl := 0x52C
  uartBase := [0x4000C000, 0x4000D000, 0x4000E000, 0x4000F000, 0x40010000, 0x40011000, 0x40012000, 0x40013000]
  offDr := 0x000
  offFr := 0x018
  offIbrd := 0x024
  offFbrd := 0x028
  offLcrh := 0x02C
  offCtl := 0x030
  pllLock := bitAt 6
  lSysdiv := { hi := 26, lo := 23 }
  diven := bitAt 22
  lPwrdn := bitAt 13
  lBypass := bitAt 11
  xtal := { hi := 10, lo := 6 }
  lOscsrc := { hi := 5, lo := 4 }
  altsel := bitAt 31
  sysdiv := { hi := 28, lo := 23 }
  pwrdn := bitAt 13
  bypass := bitAt 11
  oscsrc := { hi := 6, lo := 4 }
  gatePort := (List.range 6).map bitAt
  gateChan := (List.range 8).map bitAt
  dataD := lowByte
  dirD := lowByte
  afselA := lowByte
  denE := lowByte
  crC := lowByte
  pctlF := (List.range 8).map nibble
  drData := lowByte
  divint := { hi := 15, lo := 0 }
  divfrac := { hi := 5, lo := 0 }
  txff := bitAt 5
  rxfe := bitAt 4
  wlen := { hi := 6, lo := 5 }
  fen := bitAt 4
  stp2 := bitAt 3
  pen := bitAt 1
  en := bitAt 0

/-- Reference `PINMUX` (R121). -/
def pinmuxRef : List PinBinding :=
  [{ port := 0, pins := 0x03, fcode := 1 }, { port := 1, pins := 0x03, fcode := 1 },
   { port := 3, pins := 0xC0, fcode := 1 }, { port := 2, pins := 0xC0, fcode := 1 },
   { port := 2, pins := 0x30, fcode := 1 }, { port := 4, pins := 0x30, fcode := 1 },
   { port := 3, pins := 0x30, fcode := 1 }, { port := 4, pins := 0x03, fcode := 1 }]

/-- Reference `PROTECTED` (R120). -/
def protectedRef : List Byte := [0x00, 0x00, 0x0F, 0x80, 0x00, 0x01]

/-- Reference `GPIO_UNLOCK_KEY` (R120). -/
def unlockKeyRef : Word := 0x4C4F434B

/-- Reference `FIFO_DEPTH` (R121). -/
def fifoDepthRef : Nat := 16

/-- Reference `XTAL_CODE_16MHZ` (R119). -/
def xtalCodeRef : Nat := 0x15

/-- The reference configuration: `L_REF` and the reference values of R8; every OPEN parameter is a free value. -/
def configRef : Config where
  xlen := xlenRef
  layout := layoutRef
  protectedPins := protectedRef
  unlockKey := unlockKeyRef
  driveMask := (List.range 6).map Config.openDriveMask
  fifoDepth := fifoDepthRef
  xtalCode16MHz := xtalCodeRef
  intOscHz := Config.openIntOscHz.val
  pinmux := pinmuxRef
  chA := Config.openChA
  chB := Config.openChB
  portA := Config.openPortA
  portB := Config.openPortB
  pinsA := Config.openPinsA
  pinsB := Config.openPinsB
  fcodeA := Config.openFcodeA
  fcodeB := Config.openFcodeB
  greetingDelay := Config.openGreetingDelay
  ledPulseSpins := Config.openLedPulseSpins
  colorClockReady := Config.openColor 0
  colorConfigured := Config.openColor 1
  colorTransmitted := Config.openColor 2
  colorReceived := Config.openColor 3

/-! Reference reset words (R61 to R63, 93_implementation_defined.md G14), for what the spec leaves unspecified. -/

/-- `CLK_LEGACY` (G14). -/
def legacyResetRef : Word := 0x078E3AD1
/-- `CLK_ALT` (G14). -/
def altResetRef : Word := 0x07C06810

/-- Field `f` of a word set to a value, every other bit kept (R14, R116). -/
def fieldSet (f : Field) (v : Nat) (w : Word) : Word := clearThenSet w (fieldPut f v) (fieldMask f)

/-- `CLK_LEGACY` after reset (R61): powered down, bypassed, internal oscillator, no divider. What R61 leaves unspecified
(`XTAL`, `L_SYSDIV`, the oscillator's number, the other bits) is as in the reference word (log 9). -/
def legacyReset (l : Layout) : Word :=
  fieldSet l.lSysdiv 0xF <| fieldSet l.diven 0 <| fieldSet l.lPwrdn 1 <| fieldSet l.lBypass 1 <|
    fieldSet l.xtal 0x0B <| fieldSet l.lOscsrc 1 legacyResetRef

/-- `CLK_ALT` after reset (R61): not selected, powered down, bypassed, internal oscillator; the rest as in the reference
word (log 9). -/
def altReset (l : Layout) : Word :=
  fieldSet l.altsel 0 <| fieldSet l.sysdiv 0x0F <| fieldSet l.pwrdn 1 <| fieldSet l.bypass 1 <|
    fieldSet l.oscsrc 1 altResetRef
/-- The GPIO and UART registers with no reset value of their own (G14: "GPIO and UART registers 0"). -/
def periphResetRef : Word := 0
/-- `CR` after reset: `CR.C = ~PROTECTED[p] & 0xFF` (R62), its other bits 0 (G14). -/
def crReset (c : Config) (p : Nat) : Word := (~~~(c.protectedPins.getD p 0)).setWidth 32 <<< c.layout.crC.lo

end Sys2Proof.Machine
end

