-- ==== Sys2Proof/Machine/Operands.lean ====
section
/-! DEFINITION. Operand assembly (30_encoding.md R115 to R118), the line-control word (43_uart_channel.md R188), the
divisor arithmetic of R196 and the commit filter (10_state.md R42). -/

namespace Sys2Proof.Machine

/-- `nib(m)`: the or, over the pins `i` of the mask, of `0xF << 4i` (R42, R117). -/
def nibbleMask (m : Byte) : Word :=
  (List.range pinsPerPort).foldl (fun w i => if m.getLsbD i then w ||| (0xF#32 <<< (4 * i)) else w) 0#32

/-- `function_code * 0x11111111`: the code in every nibble (R117). -/
def replicateCode (f : BitVec 4) : Word := f.setWidth 32 * 0x11111111#32

/-- A pin mask or a byte as a register word (`zext`). -/
def byteWord (b : Byte) : Word := b.setWidth 32

/-- An 8-bit field of a word: pins or a data byte (R34, R50, R51). -/
def byteField (f : Field) (w : Word) : Byte := w.extractLsb' f.lo 8

/-- Bits of `old` where the mask is 1, of `v` elsewhere. -/
def keepBits (mask old v : Word) : Word := (old &&& mask) ||| (v &&& ~~~mask)

/-- The commit filter of an 8-bit field of pins (R42): the bits of uncommitted pins keep the old value, every other bit
takes the written one, and bits outside the field are plain storage. -/
def commitByte (f : Field) (committed : Byte) (old v : Word) : Word :=
  keepBits (byteWord (~~~committed) <<< f.lo) old v

/-- The bits of the fields `F[i]` of the pins of a mask (R42 `nib`). -/
def pinFieldsMask (fs : List Field) (m : Byte) : Word :=
  (List.range pinsPerPort).foldl (fun w i => if m.getLsbD i then w ||| fieldMask (fs.getD i (nibble i)) else w) 0#32

/-- The commit filter of `PCTL`, per pin (R42). -/
def commitNibbles (fs : List Field) (committed : Byte) (old v : Word) : Word :=
  keepBits (~~~pinFieldsMask fs committed) old v

/-- `lcrh_word(word_length, fifo_enabled)` (R188). -/
def lcrhWord (l : Layout) (wordLength : Nat) (fifo : Bool) : Word :=
  fieldPut l.wlen (wlenCode wordLength) ||| (if fifo then fieldBit l.fen else 0#32)

/-- `BAUD_DIVISORS(clock, baud)` (R196), exact and rounded half up, with the carry into the integer part. None for
`baud = 0`, which is outside its domain. -/
def baudDivisors (clock baud : Nat) : Option (Nat × Nat) :=
  if baud = 0 then none
  else
    let q := clock / (16 * baud)
    let rem := clock % (16 * baud)
    let f := (8 * rem + baud) / (2 * baud)
    if f = 64 then some (q + 1, 0) else some (q, f)

/-- The divisors a `UART_CONFIGURE` command can carry (R196): `1 <= int <= 65535`. -/
def baudUsable (d : Nat × Nat) : Bool := 1 ≤ d.1 && d.1 ≤ 65535

end Sys2Proof.Machine
end

