-- ==== Sys2Proof/Syntax.lean ====
section
/-! DEFINITION. The 26 operations of 30_encoding.md R114 with their operands (R113, R115 to R118), and the reasons for
which command words spell no operation (R122). -/

namespace Sys2Proof

/-- One constructor per row of spec/opcode_table.json. Port and channel numbers, the word length and the number of
stop bits are numbers; everything the spec treats as bits is a bit vector. -/
inductive Instr where
  /-- `READ` (R141). -/
  | read (address : Word)
  /-- `WRITE` (R142). -/
  | write (address word : Word)
  /-- `MODIFY` (R143). -/
  | modify (address setMask clearMask : Word)
  /-- `BRING_UP_CLOCK` (R150). -/
  | bringUpClock
  /-- `CLK_SEL_ALT` (R151). -/
  | clkSelAlt
  /-- `CLK_BYPASS_ON` (R152). -/
  | clkBypassOn
  /-- `CLK_DIVEN_OFF` (R153). -/
  | clkDivenOff
  /-- `CLK_SET_XTAL` (R154). -/
  | clkSetXtal
  /-- `CLK_SRC_EXT` (R155). -/
  | clkSrcExt
  /-- `CLK_PLL_ON` (R156). -/
  | clkPllOn
  /-- `CLK_SET_DIV` (R157). -/
  | clkSetDiv
  /-- `CLK_DIVEN_ON` (R158). -/
  | clkDivenOn
  /-- `CLK_WAIT_LOCK` (R160). -/
  | clkWaitLock
  /-- `CLK_BYPASS_OFF` (R161). -/
  | clkBypassOff
  /-- `IS_PLL_LOCKED` (R163). -/
  | isPllLocked
  /-- `ENABLE_PORT` (R171). -/
  | enablePort (port : Nat)
  /-- `CONFIGURE_PINS` (R172). -/
  | configurePins (port : Nat) (pinMask : Byte) (altCodes : Word) (makeDigital commitUnlock : Bool)
  /-- `DRIVE_PINS` (R176). -/
  | drivePins (port : Nat) (value : Byte)
  /-- `UART_CONFIGURE` (R186). -/
  | uartConfigure (channel port : Nat) (pinMask : Byte) (functionCode : BitVec 4) (baudInt : BitVec 16)
      (baudFrac : BitVec 6) (wordLength stopBits : Nat) (parity fifoEnabled : Bool)
  /-- `TRANSMIT_BYTE` (R190). -/
  | transmitByte (channel : Nat) (byte : Byte)
  /-- `RECEIVE_AVAILABLE` (R192). -/
  | receiveAvailable (channel : Nat)
  /-- `RECEIVE_BYTE` (R193). -/
  | receiveByte (channel : Nat)
  /-- `IS_TX_FIFO_FULL` (R195). -/
  | isTxFifoFull (channel : Nat)
  /-- `RUN_ECHO_SERVICE` (R205). -/
  | runEchoService
  /-- `LED_PULSE` (R210). -/
  | ledPulse (color : Byte)
  /-- `DELAY` (R211). -/
  | delay (count : Word)
  deriving DecidableEq, Repr

/-- Why command words spell no operation (R122): each is `Refused(IllegalCommand)`. -/
inductive DecodeError where
  /-- There is no header word. -/
  | noHeader
  /-- `op` is not in R114. -/
  | unassignedOpcode (op : Nat)
  /-- A field the format marks `-`, or a reserved bit of `g` or `w1`, is not zero. -/
  | reservedNotZero (op : Nat)
  /-- The words end before the operand words the opcode asks for (R110). -/
  | missingOperand (op : Nat)
  deriving DecidableEq, Repr

end Sys2Proof
end

