-- ==== Sys2Proof/WellFormed.lean ====
section
/-! DEFINITION. Which instructions the command encoding of 30_encoding.md R112, R113 can carry. Every other operand is
a bit vector of its field's own width, so there is nothing to check about it. Whether a port or channel EXISTS, and
whether a frame profile is supported, is checked when the command runs (R123, R124), not here. -/

namespace Sys2Proof

/-- A port or channel number fits its 4-bit field (R112 `a`, R113 `port_binding`). -/
def fitsNibble (n : Nat) : Bool := decide (n < 16)

/-- `word_length - 5` fits `g[4:3]` (R113). -/
def fitsWordLength (n : Nat) : Bool := decide (5 ≤ n) && decide (n ≤ 8)

/-- `stop_bits - 1` fits `g[2]` (R113). -/
def fitsStopBits (n : Nat) : Bool := decide (1 ≤ n) && decide (n ≤ 2)

/-- The instruction has an encoding (R112, R113). -/
def Instr.wellFormed (i : Instr) : Bool :=
  match i with
  | .read _ => true
  | .write _ _ => true
  | .modify _ _ _ => true
  | .bringUpClock => true
  | .clkSelAlt => true
  | .clkBypassOn => true
  | .clkDivenOff => true
  | .clkSetXtal => true
  | .clkSrcExt => true
  | .clkPllOn => true
  | .clkSetDiv => true
  | .clkDivenOn => true
  | .clkWaitLock => true
  | .clkBypassOff => true
  | .isPllLocked => true
  | .enablePort p => fitsNibble p
  | .configurePins p _ _ _ _ => fitsNibble p
  | .drivePins p _ => fitsNibble p
  | .uartConfigure c p _ _ _ _ wl sb _ _ => fitsNibble c && fitsNibble p && fitsWordLength wl && fitsStopBits sb
  | .transmitByte c _ => fitsNibble c
  | .receiveAvailable c => fitsNibble c
  | .receiveByte c => fitsNibble c
  | .isTxFifoFull c => fitsNibble c
  | .runEchoService => true
  | .ledPulse _ => true
  | .delay _ => true

end Sys2Proof
end

