-- ==== Sys2Proof/Decode.lean ====
section
/-! DEFINITION. The command encoding of 30_encoding.md R110 to R114, R122: `decode` reads one command from a list of
32-bit words (header first) and answers the words that follow it; `encode` writes a command's words. -/

namespace Sys2Proof

/-- `w[hi:lo]`, the unsigned value of a bit range (R13). -/
def bits (w : Word) (hi lo : Nat) : Nat := w.toNat / 2 ^ lo % 2 ^ (hi - lo + 1)

/-- The five fields of a header word (R112). -/
structure Header where
  op : Nat
  a : Nat
  m : Nat
  f : Nat
  g : Nat
  deriving DecidableEq, Repr

/-- Read the fields of a header word (R112). -/
def headerOf (w : Word) : Header :=
  { op := bits w 7 0, a := bits w 11 8, m := bits w 19 12, f := bits w 23 20, g := bits w 31 24 }

/-- Write a header word (R112). -/
def headerWord (h : Header) : Word :=
  BitVec.ofNat 32 (h.op + h.a * 2 ^ 8 + h.m * 2 ^ 12 + h.f * 2 ^ 20 + h.g * 2 ^ 24)

/-- Answer an instruction if no reserved bit is set (R122). -/
def acceptIfZero (nonzero : Bool) (op : Nat) (i : Instr) (rest : List Word) : Except DecodeError (Instr × List Word) :=
  if nonzero then .error (.reservedNotZero op) else .ok (i, rest)

/-- Format `N`: no operands (R113). -/
def formatN (h : Header) (ws : List Word) (i : Instr) : Except DecodeError (Instr × List Word) :=
  acceptIfZero (h.a != 0 || h.m != 0 || h.f != 0 || h.g != 0) h.op i ws

/-- Formats `R1` and `W`: one operand word (R113). -/
def formatR1 (h : Header) (ws : List Word) (k : Word → Instr) : Except DecodeError (Instr × List Word) :=
  match ws with
  | w1 :: rest => formatN h rest (k w1)
  | _ => .error (.missingOperand h.op)

/-- Format `R2`: two operand words (R113). -/
def formatR2 (h : Header) (ws : List Word) (k : Word → Word → Instr) : Except DecodeError (Instr × List Word) :=
  match ws with
  | w1 :: w2 :: rest => formatN h rest (k w1 w2)
  | _ => .error (.missingOperand h.op)

/-- Format `R3`: three operand words (R113). -/
def formatR3 (h : Header) (ws : List Word) (k : Word → Word → Word → Instr) : Except DecodeError (Instr × List Word) :=
  match ws with
  | w1 :: w2 :: w3 :: rest => formatN h rest (k w1 w2 w3)
  | _ => .error (.missingOperand h.op)

/-- Formats `P` and `C`: a port or channel number in `a` (R113). -/
def formatA (h : Header) (ws : List Word) (k : Nat → Instr) : Except DecodeError (Instr × List Word) :=
  acceptIfZero (h.m != 0 || h.f != 0 || h.g != 0) h.op (k h.a) ws

/-- Formats `PD` and `CB`: a number in `a` and a byte in `m` (R113). -/
def formatAM (h : Header) (ws : List Word) (k : Nat → Byte → Instr) : Except DecodeError (Instr × List Word) :=
  acceptIfZero (h.f != 0 || h.g != 0) h.op (k h.a (BitVec.ofNat 8 h.m)) ws

/-- Format `I`: a byte in `m` (R113). -/
def formatM (h : Header) (ws : List Word) (k : Byte → Instr) : Except DecodeError (Instr × List Word) :=
  acceptIfZero (h.a != 0 || h.f != 0 || h.g != 0) h.op (k (BitVec.ofNat 8 h.m)) ws

/-- Format `PC`: `CONFIGURE_PINS`; `g[0]` = `make_digital`, `g[1]` = `commit_unlock` (R113). -/
def formatPC (h : Header) (ws : List Word) : Except DecodeError (Instr × List Word) :=
  match ws with
  | w1 :: rest =>
    acceptIfZero (h.f != 0 || h.g / 4 != 0) h.op
      (.configurePins h.a (BitVec.ofNat 8 h.m) w1 (h.g % 2 == 1) (h.g / 2 % 2 == 1)) rest
  | _ => .error (.missingOperand h.op)

/-- Format `CC`: `UART_CONFIGURE`. `g[0]` = `fifo_enabled`, `g[1]` = `parity`, `g[2]` = `stop_bits - 1`,
`g[4:3]` = `word_length - 5`; `w1[15:0]`, `w1[21:16]` and `w1[27:24]` are the divisors and the port (R113). -/
def formatCC (h : Header) (ws : List Word) : Except DecodeError (Instr × List Word) :=
  match ws with
  | w1 :: rest =>
    acceptIfZero (h.g / 32 != 0 || bits w1 23 22 != 0 || bits w1 31 28 != 0) h.op
      (.uartConfigure h.a (bits w1 27 24) (BitVec.ofNat 8 h.m) (BitVec.ofNat 4 h.f) (BitVec.ofNat 16 (bits w1 15 0))
        (BitVec.ofNat 6 (bits w1 21 16)) (h.g / 8 % 4 + 5) (h.g / 4 % 2 + 1) (h.g / 2 % 2 == 1) (h.g % 2 == 1)) rest
  | _ => .error (.missingOperand h.op)

/-- The operation an opcode selects and the format of its operands (R113, R114), or a refusal that says why (R122). -/
def decodeBody (h : Header) (ws : List Word) : Except DecodeError (Instr × List Word) :=
  if h.op = 0x01 then formatR1 h ws .read
  else if h.op = 0x02 then formatR2 h ws .write
  else if h.op = 0x03 then formatR3 h ws .modify
  else if h.op = 0x10 then formatN h ws .bringUpClock
  else if h.op = 0x11 then formatN h ws .clkSelAlt
  else if h.op = 0x12 then formatN h ws .clkBypassOn
  else if h.op = 0x13 then formatN h ws .clkDivenOff
  else if h.op = 0x14 then formatN h ws .clkSetXtal
  else if h.op = 0x15 then formatN h ws .clkSrcExt
  else if h.op = 0x16 then formatN h ws .clkPllOn
  else if h.op = 0x17 then formatN h ws .clkSetDiv
  else if h.op = 0x18 then formatN h ws .clkDivenOn
  else if h.op = 0x19 then formatN h ws .clkWaitLock
  else if h.op = 0x1A then formatN h ws .clkBypassOff
  else if h.op = 0x1B then formatN h ws .isPllLocked
  else if h.op = 0x20 then formatA h ws .enablePort
  else if h.op = 0x21 then formatPC h ws
  else if h.op = 0x22 then formatAM h ws .drivePins
  else if h.op = 0x30 then formatCC h ws
  else if h.op = 0x31 then formatAM h ws .transmitByte
  else if h.op = 0x32 then formatA h ws .receiveAvailable
  else if h.op = 0x33 then formatA h ws .receiveByte
  else if h.op = 0x34 then formatA h ws .isTxFifoFull
  else if h.op = 0x40 then formatN h ws .runEchoService
  else if h.op = 0x41 then formatM h ws .ledPulse
  else if h.op = 0x42 then formatR1 h ws .delay
  else .error (.unassignedOpcode h.op)

/-- Read one command from the front of a word list (R110). -/
def decode (ws : List Word) : Except DecodeError (Instr × List Word) :=
  match ws with
  | [] => .error .noHeader
  | w0 :: rest => decodeBody (headerOf w0) rest

/-- How many words a command has, header included: a function of the opcode alone (R110, R113). An unassigned opcode
has its header only. -/
def commandLength (op : Nat) : Nat :=
  if op = 0x01 ∨ op = 0x21 ∨ op = 0x30 ∨ op = 0x42 then 2
  else if op = 0x02 then 3
  else if op = 0x03 then 4
  else 1

/-! The encoder, from the same tables. -/

/-- A header of format `N` (R113). -/
def opHeader (op : Nat) : Header := { op := op, a := 0, m := 0, f := 0, g := 0 }

/-- The words of an instruction, header first (R112 to R114). On a well-formed instruction `decode` reads it back. -/
def encode (i : Instr) : List Word :=
  match i with
  | .read a => [headerWord (opHeader 0x01), a]
  | .write a v => [headerWord (opHeader 0x02), a, v]
  | .modify a s c => [headerWord (opHeader 0x03), a, s, c]
  | .bringUpClock => [headerWord (opHeader 0x10)]
  | .clkSelAlt => [headerWord (opHeader 0x11)]
  | .clkBypassOn => [headerWord (opHeader 0x12)]
  | .clkDivenOff => [headerWord (opHeader 0x13)]
  | .clkSetXtal => [headerWord (opHeader 0x14)]
  | .clkSrcExt => [headerWord (opHeader 0x15)]
  | .clkPllOn => [headerWord (opHeader 0x16)]
  | .clkSetDiv => [headerWord (opHeader 0x17)]
  | .clkDivenOn => [headerWord (opHeader 0x18)]
  | .clkWaitLock => [headerWord (opHeader 0x19)]
  | .clkBypassOff => [headerWord (opHeader 0x1A)]
  | .isPllLocked => [headerWord (opHeader 0x1B)]
  | .enablePort p => [headerWord { opHeader 0x20 with a := p }]
  | .configurePins p m codes md cu =>
    [headerWord { opHeader 0x21 with a := p, m := m.toNat, g := md.toNat + 2 * cu.toNat }, codes]
  | .drivePins p v => [headerWord { opHeader 0x22 with a := p, m := v.toNat }]
  | .uartConfigure c p m f bi bf wl sb par fifo =>
    [headerWord { op := 0x30, a := c, m := m.toNat, f := f.toNat,
                  g := fifo.toNat + 2 * par.toNat + 4 * (sb - 1) + 8 * (wl - 5) },
     BitVec.ofNat 32 (bi.toNat + bf.toNat * 2 ^ 16 + p * 2 ^ 24)]
  | .transmitByte c b => [headerWord { opHeader 0x31 with a := c, m := b.toNat }]
  | .receiveAvailable c => [headerWord { opHeader 0x32 with a := c }]
  | .receiveByte c => [headerWord { opHeader 0x33 with a := c }]
  | .isTxFifoFull c => [headerWord { opHeader 0x34 with a := c }]
  | .runEchoService => [headerWord (opHeader 0x40)]
  | .ledPulse color => [headerWord { opHeader 0x41 with m := color.toNat }]
  | .delay n => [headerWord (opHeader 0x42), n]

/-! The host's entry: an instruction as one number, bit 0 the least significant bit of the header word. -/

/-- The first `n` 32-bit words of a number, the least significant first. -/
def wordsOf (n w : Nat) : List Word :=
  (List.range n).map fun k => BitVec.ofNat 32 (w / 2 ^ (32 * k))

/-- The command words of an instruction of `nbits` bits: as many words as its opcode asks for, every bit above `nbits`
zero. -/
def tableWords (nbits w : Nat) : List Word :=
  let v := w % 2 ^ nbits
  wordsOf (commandLength (v % 256)) v

/-- What `decode` reads from an instruction whose bits are `w`, numbered as spec/opcode_table.json numbers them. -/
def decodeTableWord (nbits w : Nat) : Option Instr :=
  match decode (tableWords nbits w) with
  | .ok (i, _) => some i
  | .error _ => none

end Sys2Proof
end

