-- ==== Sys2Proof/Machine/State.lean ====
section
/-! DEFINITION. The state of the machine (10_state.md R20 to R63), the steps of its autonomous agents as data
(00_scope.md R10), the sequencer's actions as data (30_encoding.md R128), the reasons a step ends the run
(60_exceptions.md R241) and the state right after reset (R60 to R64). -/

namespace Sys2Proof.Machine

/-- `ClockState` (R21), encoded 0..4 in this order. -/
inductive ClkStage where
  | defaultOscillator | sourceSelected | pllPoweringUp | pllLocked | dividerActive
  deriving DecidableEq, Repr

/-- The stages of SerialEchoService (R23), encoded 0..4 in this order. -/
inductive SvcStage where
  | booting | clockReady | channelsReady | greetingSent | echoing
  deriving DecidableEq, Repr

/-- One step of an agent other than the sequencer (R10). An event whose agent is not enabled changes nothing. -/
inductive AgentEvent where
  /-- The PLL asserts lock (R220). -/
  | pllLock
  /-- The transmitter of a channel sends the head of its FIFO (R223). -/
  | transmit (channel : Nat)
  /-- The line of a channel presents a byte (R225, R226). -/
  | line (channel : Nat) (byte : Byte)
  deriving DecidableEq, Repr

/-- `fmt` of a wire event: `(clk, int, frac, wlen, stop2, pen)` (R56, R222). -/
structure WireFormat where
  clk : Rat
  int : BitVec 16
  frac : BitVec 6
  wlen : Nat
  stop2 : Bool
  pen : Bool
  deriving DecidableEq, Repr

/-- One event of a channel's wire log (R56). -/
structure WireEvent where
  byte : Byte
  fmt : Option WireFormat
  routed : Bool
  deriving DecidableEq, Repr

/-- Whether a bus access reads or writes (R96). -/
inductive BusKind where
  | read | write
  deriving DecidableEq, Repr

/-- One entry of the bus trace (R96). -/
structure BusEvent where
  kind : BusKind
  address : Word
  value : Word
  deriving DecidableEq, Repr

/-- One GPIO port: its stored registers (R35 to R39, R41) and the hidden `unlocked` of R40. The word written to `LOCK`
is not stored (R40). `unlockRan` is the MODEL's own record that `CONFIGURE_PINS` ran its unlock micro-steps for this
port, which the view of R43 asks for and no register tells (log 14). -/
structure Port where
  data : Word
  dir : Word
  afsel : Word
  den : Word
  cr : Word
  pctl : Word
  unlocked : Bool
  unlockRan : Bool
  deriving DecidableEq, Repr

/-- One UART channel: its stored registers (R45 to R48), its two FIFOs oldest byte first (R52), its latched divisors
(R53) and its wire log oldest event first (R56). `FR` is computed (R49). -/
structure Channel where
  ctl : Word
  ibrd : Word
  fbrd : Word
  lcrh : Word
  txq : List Byte
  rxq : List Byte
  baudLatch : Option (BitVec 16 × BitVec 6)
  wireTx : List WireEvent
  deriving DecidableEq, Repr

/-- One action of the sequencer inside a command: the micro-steps that 30_encoding.md R128 expands commands into. -/
inductive Micro where
  /-- The operand range check of R123, R248 (4). -/
  | inRange (ports channels : List Nat)
  /-- `modify(address, set, clr)` (R143): two bus accesses. -/
  | modify (address set clr : Word)
  /-- `write(address, word)` (R142). -/
  | write (address word : Word)
  /-- The unlock micro-steps of `CONFIGURE_PINS` have run for a port (R43, R173). -/
  | noteUnlock (port : Nat)
  /-- A clock micro-step (R151 to R158, R161): `require clk_step = index`, one `modify`, `clk_step <- index + 1`, and
  `clk_stage <- stage` where the pseudocode assigns one. -/
  | clk (index : Nat) (stage : Option ClkStage) (address set clr : Word)
  /-- `CLK_WAIT_LOCK` (R160). -/
  | clkWait
  /-- The full-flag loop of `TRANSMIT_BYTE` (R190). -/
  | txWait (channel : Nat)
  /-- `DELAY(count)` (R211): idle sequencer steps. -/
  | idle (count : Nat)
  /-- `LED_PULSE(color)` (R210). -/
  | led (color : Byte)
  /-- `svc_stage <- stage` (R205). -/
  | stage (s : SvcStage)
  /-- One iteration of the echo loop up to the received byte (R208, R209). -/
  | echo
  /-- The end of one `step`: what follows in the list is done by the next one. -/
  | yield
  deriving DecidableEq, Repr

/-- The whole state. Every field is plain data. The last six fields are the MODEL's own (log 1, 2, 3, 6, 7, 8). -/
structure State where
  /-- `CLK_LEGACY` (R25). -/
  clkLegacy : Word
  /-- `CLK_ALT` (R26). -/
  clkAlt : Word
  /-- `CLK_RIS.PLLLOCK` (R28); every other bit of `CLK_RIS` is drawn at each read. -/
  risPllLock : Bool
  /-- `GATE_GPIO` (R29). -/
  gateGpio : Word
  /-- `GATE_UART` (R30). -/
  gateUart : Word
  /-- `pll_locked` (R31). -/
  pllLocked : Bool
  /-- `clk_step` (R22). -/
  clkStep : Nat
  /-- `clk_stage` (R21). -/
  clkStage : ClkStage
  /-- `svc_stage` (R23). -/
  svcStage : SvcStage
  /-- `GPIO[p]`, `p` counted from 0 (R33 to R42). -/
  ports : List Port
  /-- `UART[c]`, `c` counted from 0 (R44 to R53). -/
  channels : List Channel
  /-- The bus trace, oldest first (R96). -/
  trace : List BusEvent
  /-- The word the last completed command returned to the issuer, if it returns one (R111). -/
  result : Option Word
  /-- The configuration (R8, R9, R11). No step changes it. -/
  config : Config
  /-- The environment's choices to come: one entry for each later sequencer step (a bus access or an idle step), the
  agent steps taken just before it, in order. Where the list ends, no agent steps any more (R10, R91, R281). -/
  schedule : List (List AgentEvent)
  /-- How many values `draw` has given (R15). -/
  drawCount : Nat
  /-- The words of the commands still to be run (R110, R144). -/
  program : List Word
  /-- What is left of the command in progress: a busy-wait that has not ended (R160, R190) or the service (R205). -/
  pending : List Micro
  deriving DecidableEq, Repr

/-- Why a step ends the run with a fault. Each is `UndefinedBehavior` of R241, R242. `last` is the last defined state:
the state just before the access (R242, R248). -/
inductive Fault where
  /-- `UndefinedBehavior(InvalidAddress a)`: raised by a bus access to an address that is no register or by a write to a
  read-only register (R86), and, with no address, by a port or channel operand out of range (R123). Safe: the spec
  defines nothing after it. -/
  | invalidAddress (address : Option Word) (last : State)
  /-- `UndefinedBehavior(Unclocked a)`: raised by a bus access to a register whose clock gate is closed (R87). Safe: the
  spec defines nothing after it. -/
  | unclocked (address : Word) (last : State)
  deriving DecidableEq, Repr

/-- Why a step declines to go on (R243). No refusal carries a state: the state is the one before the step, with nothing
added to the trace (R256). -/
inductive Refusal where
  /-- Raised by `exec` alone, for an instruction that has no meaning yet. Safe. -/
  | notModelled (mnemonic : String)
  /-- `Refused(IllegalCommand)`: the command words spell no operation (R122); raised by `step`. Safe. -/
  | illegalCommand (why : DecodeError)
  /-- `Refused(UnsupportedProfile)`: `UART_CONFIGURE` with a profile other than 8 data bits, 1 stop bit, no parity
  (R124). Safe. -/
  | unsupportedProfile
  /-- `Refused(ConfigurationOrderingViolation)`: a clock operation out of order or the service not from reset (R164,
  R205). Safe. -/
  | configurationOrderingViolation
  /-- A command one of whose accesses is a write of `LCRH` that lowers the FIFO capacity below a queue's length (R52). The
  whole command is not executed (R243). Safe. -/
  | fifoShrink (channel : Nat)
  deriving DecidableEq, Repr

/-- What a shared operation answers: a value and the next state, or the end of the run. -/
inductive Res (α : Type) where
  | ok (value : α) (s : State)
  | fault (f : Fault)
  | refused (r : Refusal)
  deriving DecidableEq, Repr

/-- Whether a micro-step is done, must be taken up again by the next `step`, or leaves this list to the next `step`. -/
inductive Progress where
  | done
  | wait
  | become (rest : List Micro)
  deriving DecidableEq, Repr

/-- What a bus read returns: `known` gives the bits of `mask`, `fill` (a `draw`) every other bit (R84). -/
structure ReadValue where
  known : Word
  mask : Word
  fill : Word
  deriving DecidableEq, Repr

/-! Reset. -/

/-- Port `p` right after reset (R62). Unspecified bits hold the reference value (log 9). -/
def Port.reset (c : Config) (p : Nat) : Port where
  data := periphResetRef
  dir := periphResetRef
  afsel := periphResetRef
  den := periphResetRef
  cr := crReset c p
  pctl := periphResetRef
  unlocked := false
  unlockRan := false

/-- A channel right after reset (R63). Unspecified bits hold the reference value (log 9). -/
def Channel.reset : Channel where
  ctl := periphResetRef
  ibrd := periphResetRef
  fbrd := periphResetRef
  lcrh := periphResetRef
  txq := []
  rxq := []
  baudLatch := none
  wireTx := []

/-- The state right after power-on reset of a machine with configuration `c` (R60 to R64): the fields of the clock
registers have their reset values wherever the layout puts them. The first command is
`RUN_ECHO_SERVICE`, as 70_reset_and_hazards.md R262 says. -/
def State.resetOf (c : Config) : State where
  clkLegacy := legacyReset c.layout
  clkAlt := altReset c.layout
  risPllLock := false
  gateGpio := 0
  gateUart := 0
  pllLocked := false
  clkStep := 0
  clkStage := .defaultOscillator
  svcStage := .booting
  ports := (List.range (nPorts c)).map (Port.reset c)
  channels := (List.range (nChannels c)).map fun _ => Channel.reset
  trace := []
  result := none
  config := c
  schedule := []
  drawCount := 0
  program := encode .runEchoService
  pending := []

/-- The state right after power-on reset, under the reference configuration (R60 to R64). -/
def State.reset : State := State.resetOf configRef

end Sys2Proof.Machine
end

