-- ==== Sys2Proof/Machine/Flags.lean ====
section
/-! DEFINITION. Everything computed from the state: gates (R33, R44), the effective clock fields (R27), the system clock
(R32), the three status flags (R24, R49, R52), the format of a channel (R222), pin routing and levels (R55, R229, R230),
the frame on the wire (R224) and the two views of R43 and R54. -/

namespace Sys2Proof.Machine

/-! Gates. -/

/-- `port_clocked(p)` (R33). -/
def portClocked (s : State) (p : Nat) : Bool :=
  match s.config.layout.gatePort[p]? with
  | some f => fieldFlag f s.gateGpio
  | none => false

/-- `chan_clocked(c)` (R44). -/
def chanClocked (s : State) (c : Nat) : Bool :=
  match s.config.layout.gateChan[c]? with
  | some f => fieldFlag f s.gateUart
  | none => false

/-- The clock condition of a register (R57). -/
def clocked (s : State) (r : Reg) : Bool :=
  match r with
  | .ris => true
  | .legacy => true
  | .alt => true
  | .gateGpio => true
  | .gateUart => true
  | .gpio p _ => portClocked s p
  | .uart c _ => chanClocked s c

/-- Whether the bus may write a register: all but `CLK_RIS` and `FR` (R57, R86). -/
def writable (r : Reg) : Bool :=
  match r with
  | .ris => false
  | .uart _ .fr => false
  | _ => true

/-! The clock block. -/

/-- `CLK_ALT.ALTSEL` (R26). -/
def altSelected (s : State) : Bool := fieldFlag s.config.layout.altsel s.clkAlt

/-- `eff.SYSDIV` (R27). -/
def effSysdiv (s : State) : Nat :=
  if altSelected s then fieldGet s.config.layout.sysdiv s.clkAlt else fieldGet s.config.layout.lSysdiv s.clkLegacy

/-- `eff.PWRDN` (R27). -/
def effPwrdn (s : State) : Bool :=
  if altSelected s then fieldFlag s.config.layout.pwrdn s.clkAlt else fieldFlag s.config.layout.lPwrdn s.clkLegacy

/-- `eff.BYPASS` (R27). -/
def effBypass (s : State) : Bool :=
  if altSelected s then fieldFlag s.config.layout.bypass s.clkAlt else fieldFlag s.config.layout.lBypass s.clkLegacy

/-- `eff.OSCSRC` (R27). -/
def effOscsrc (s : State) : Nat :=
  if altSelected s then fieldGet s.config.layout.oscsrc s.clkAlt else fieldGet s.config.layout.lOscsrc s.clkLegacy

/-- `CLK_LEGACY.XTAL` (R25). -/
def xtalCode (s : State) : Nat := fieldGet s.config.layout.xtal s.clkLegacy

/-- `CLK_LEGACY.DIVEN` (R25). -/
def dividerOn (s : State) : Bool := fieldFlag s.config.layout.diven s.clkLegacy

/-- A frequency divided by a positive number. -/
def divHz (hz : Rat) (n : Nat) : Rat := mkRat hz.num (hz.den * n)

/-- `osc_hz` (R32). -/
def oscHz (s : State) : Option Rat :=
  if effOscsrc s = oscsrcExternal then some (xtalHz : Rat) else some s.config.intOscHz

/-- `pll_hz` (R32): only a locked PLL fed by the declared crystal has a frequency. -/
def pllHz (s : State) : Option Rat :=
  if s.pllLocked ∧ effOscsrc s = oscsrcExternal ∧ xtalCode s = s.config.xtalCode16MHz then some (pllOutHz : Rat)
  else none

/-- `raw_hz` (R32). -/
def rawHz (s : State) : Option Rat := if effBypass s then oscHz s else pllHz s

/-- `sysclk_hz` (R32). -/
def sysclkHz (s : State) : Option Rat :=
  if dividerOn s then (rawHz s).map (divHz · (effSysdiv s + 1)) else rawHz s

/-- `clk_stage` as a function of `clk_step` (the table of R22). -/
def stageOfStep (n : Nat) : ClkStage :=
  if n ≤ 4 then .defaultOscillator
  else if n = 5 then .sourceSelected
  else if n ≤ 8 then .pllPoweringUp
  else if n = 9 then .pllLocked
  else .dividerActive

/-! FIFOs and status flags. -/

/-- `cap(c)` (R52). -/
def fifoCap (c : Config) (ch : Channel) : Nat := if fieldFlag c.layout.fen ch.lcrh then c.fifoDepth else 1

/-- `FR.TXFF` (R24, R49). -/
def txFull (c : Config) (ch : Channel) : Bool := ch.txq.length == fifoCap c ch

/-- `FR.RXFE` (R24, R49). -/
def rxEmpty (ch : Channel) : Bool := ch.rxq.isEmpty

/-- `CTL.EN` (R45). -/
def enabled (c : Config) (ch : Channel) : Bool := fieldFlag c.layout.en ch.ctl

/-- `IBRD.DIVINT` (R46). -/
def divInt (l : Layout) (ch : Channel) : BitVec 16 := ch.ibrd.extractLsb' l.divint.lo 16

/-- `FBRD.DIVFRAC` (R47). -/
def divFrac (l : Layout) (ch : Channel) : BitVec 6 := ch.fbrd.extractLsb' l.divfrac.lo 6

/-- `fmt(c)` (R222): the latched divisors, not the registers, and the system clock of this instant. -/
def channelFormat (s : State) (ch : Channel) : Option WireFormat :=
  match ch.baudLatch, sysclkHz s with
  | some (i, f), some clk =>
    some { clk := clk, int := i, frac := f, wlen := fieldGet s.config.layout.wlen ch.lcrh,
           stop2 := fieldFlag s.config.layout.stp2 ch.lcrh, pen := fieldFlag s.config.layout.pen ch.lcrh }
  | _, _ => none

/-! Pins. -/

/-- `PCTL.F[i]` of a port-control word (R34, R38). -/
def pctlCode (l : Layout) (w : Word) (i : Nat) : BitVec 4 := w.extractLsb' (l.pctlF.getD i (nibble i)).lo 4

/-- `CR.C` of a port (R41): the pins whose configuration bits may be written. -/
def committedPins (l : Layout) (pt : Port) : Byte := byteField l.crC pt.cr

/-- A pin is routed by alternate function `fcode` (R55, R229). -/
def pinCarries (l : Layout) (pt : Port) (i : Nat) (fcode : BitVec 4) : Bool :=
  (byteField l.afselA pt.afsel).getLsbD i && pctlCode l pt.pctl i == fcode && (byteField l.denE pt.den).getLsbD i

/-- Every pin of a mask is routed by `fcode` on a clocked port. -/
def pinsRouted (s : State) (b : PinBinding) : Bool :=
  match s.ports[b.port]? with
  | some pt =>
    portClocked s b.port &&
      (List.range pinsPerPort).all fun i => !b.pins.getLsbD i || pinCarries s.config.layout pt i b.fcode
  | none => false

/-- `pin_routed(c)` (R55). -/
def pinRouted (s : State) (c : Nat) : Bool :=
  match s.config.pinmux[c]? with
  | some b => pinsRouted s b
  | none => false

/-- The level a pin drives as a digital output (R230); none where the spec says nothing of the level. -/
def pinLevel (s : State) (p i : Nat) : Option Bool :=
  match s.ports[p]? with
  | some pt =>
    let l := s.config.layout
    if portClocked s p && !(byteField l.afselA pt.afsel).getLsbD i && (byteField l.denE pt.den).getLsbD i &&
        (byteField l.dirD pt.dir).getLsbD i then
      some ((byteField l.dataD pt.data).getLsbD i)
    else none
  | none => none

/-- The channels whose signal a pin carries (R229): the pin belongs to the channel's `PINMUX` entry and is routed by its
function code, whether or not the port's gate is open. DESIGN CHOICE (log 17): where two `PINMUX` entries share a port,
a pin and a function code, the spec does not say whose signal the pin carries; the model prefers none of them and
answers every such channel, in rising order. -/
def pinChannels (s : State) (p i : Nat) : List Nat :=
  (List.range s.config.pinmux.length).filter fun c =>
    match s.config.pinmux[c]?, s.ports[p]? with
    | some b, some pt => b.port == p && b.pins.getLsbD i && pinCarries s.config.layout pt i b.fcode
    | _, _ => false

/-! The wire. -/

/-- The level of the line between frames: it idles high (R224). -/
def idleLevel : Bool := true

/-- The bits of one frame on the pin, in time order: start bit low, eight data bits least significant first, stop bit
high (R224). -/
def frameBits (b : Byte) : List Bool := false :: (List.range 8).map (fun i => b.getLsbD i) ++ [true]

/-- The baud rate of a format: `4 * clk / (64 * int + frac)` bits per second (R56, R196); none for an integer divisor
of 0, which has no defined rate (R123). -/
def baudRate (f : WireFormat) : Option Rat :=
  if f.int = 0#16 then none
  else some (mkRat (4 * f.clk.num) (f.clk.den * (64 * f.int.toNat + f.frac.toNat)))

/-- The time of one bit in seconds: `16 * (int + frac / 64) / clk` (R224); none where the format has no rate (R123) or
its clock stands still. -/
def bitTime (f : WireFormat) : Option Rat :=
  if f.int = 0#16 ∨ f.clk.num ≤ 0 then none
  else some (mkRat ((64 * f.int.toNat + f.frac.toNat) * f.clk.den) (4 * f.clk.num.toNat))

/-- A format has the one frame shape the spec gives: 8 data bits, 1 stop bit, no parity (R224). -/
def plainFrame (f : WireFormat) : Bool := f.wlen == wlenCode wordLengthWanted && !f.stop2 && !f.pen

/-- What one event of the wire log stands for (R224): the bits of its frame, where the spec gives the frame's shape; the
time of each bit, none for a frame of undefined timing; and whether the frame reaches the channel's transmit pin. -/
structure WireFrame where
  bits : Option (List Bool)
  bitTime : Option Rat
  onPin : Bool
  deriving DecidableEq, Repr

/-- The frame of an event (R224). The frame of an event with no format, or with another shape than 8 data bits, 1 stop
bit, no parity, has no bits that the spec states. -/
def wireFrame (e : WireEvent) : WireFrame where
  bits := e.fmt.bind fun f => if plainFrame f then some (frameBits e.byte) else none
  bitTime := e.fmt.bind bitTime
  onPin := e.routed

/-- The level of the transmit pin in bit time `k` counted from the start of a frame: a bit of the frame, and idle before
it and after it (R224). -/
def lineLevel (bits : List Bool) (k : Int) : Bool := if k < 0 then idleLevel else bits.getD k.toNat idleLevel

/-! Views (R43, R54): what the source's records hold, read from the registers. -/

/-- `PinGroupConfig` (R43). `commitUnlockPerformed` says whether `CONFIGURE_PINS` ran its unlock micro-steps for the port,
which is not `unlocked[p]`: a raw write of `LOCK` changes that one alone (log 14). -/
structure PinGroupConfig where
  clockGateEnabled : Bool
  alternateFunctions : Byte
  functionCodes : List (BitVec 4)
  digitalEnable : Byte
  commitUnlockPerformed : Bool
  deriving DecidableEq, Repr

/-- The view of port `p` (R43). -/
def pinGroupConfig (s : State) (p : Nat) : Option PinGroupConfig :=
  match s.ports[p]? with
  | some pt =>
    let l := s.config.layout
    some { clockGateEnabled := portClocked s p, alternateFunctions := byteField l.afselA pt.afsel,
           functionCodes := (List.range pinsPerPort).map (pctlCode l pt.pctl),
           digitalEnable := byteField l.denE pt.den, commitUnlockPerformed := pt.unlockRan }
  | none => none

/-- `UartConfig` (R54). -/
structure UartConfig where
  baseAddress : Word
  baudInt : BitVec 16
  baudFrac : BitVec 6
  wordLength : Nat
  stopBits : Nat
  parityEnabled : Bool
  fifoEnabled : Bool
  deriving DecidableEq, Repr

/-- The view of channel `c` (R54). -/
def uartConfig (s : State) (c : Nat) : Option UartConfig :=
  match s.channels[c]?, s.config.layout.uartBase[c]? with
  | some ch, some base =>
    some { baseAddress := base, baudInt := divInt s.config.layout ch, baudFrac := divFrac s.config.layout ch,
           wordLength := fieldGet s.config.layout.wlen ch.lcrh + 5,
           stopBits := (fieldFlag s.config.layout.stp2 ch.lcrh).toNat + 1,
           parityEnabled := fieldFlag s.config.layout.pen ch.lcrh,
           fifoEnabled := fieldFlag s.config.layout.fen ch.lcrh }
  | _, _ => none

end Sys2Proof.Machine
end

