-- ==== Sys2Proof/Machine/Ops.lean ====
section
/-! DEFINITION. The shared operations: the steps of the autonomous agents (45_hardware_agents.md R220 to R227), the two
bus primitives with every side effect (20_memory.md R84 to R88), the three RegisterAccess operations and the two
busy-waits over them, and the run of a command's micro-steps. The hardware has no exception entry and no return from one
(60_exceptions.md R247), so there is no operation for either; what it has instead are the faults and refusals of R241. -/

namespace Sys2Proof.Machine

/-! Results. -/

/-- Do `f` after `x`, unless `x` ended the run. -/
def Res.bind {α β : Type} (x : Res α) (f : α → State → Res β) : Res β :=
  match x with
  | .ok v s => f v s
  | .fault e => .fault e
  | .refused r => .refused r

/-! State updates. -/

/-- The state with channel `c` replaced. -/
def setChannel (s : State) (c : Nat) (ch : Channel) : State := { s with channels := s.channels.set c ch }

/-- The state with port `p` replaced. -/
def setPort (s : State) (p : Nat) (pt : Port) : State := { s with ports := s.ports.set p pt }

/-- Append one access to the bus trace (R96). -/
def logBus (k : BusKind) (a v : Word) (s : State) : State :=
  { s with trace := s.trace ++ [{ kind := k, address := a, value := v }] }

/-- One more `draw` was given (R15). -/
def countDraw (s : State) : State := { s with drawCount := s.drawCount + 1 }

/-- A command starts: the last one's answer is gone (R111). -/
def clearResult (s : State) : State := { s with result := none }

/-- A command returned a word (R111). -/
def putResult (s : State) (w : Word) : State := { s with result := some w }

/-- The state with these micro-steps left to be done. -/
def setPending (s : State) (ms : List Micro) : State := { s with pending := ms }

/-- The unlock micro-steps of `CONFIGURE_PINS` have run for port `p` (R43, log 14). -/
def noteUnlock (s : State) (p : Nat) : State :=
  { s with ports := s.ports.modify p fun pt => { pt with unlockRan := true } }

/-- `svc_stage <- st` (R23, R205). -/
def setSvcStage (s : State) (st : SvcStage) : State := { s with svcStage := st }

/-! Agents. -/

/-- Enabling condition of the PLL lock step (R220). -/
def pllEnabled (s : State) : Bool := !effPwrdn s && !s.pllLocked

/-- The PLL lock step (R220). -/
def pllLockStep (s : State) : State :=
  if pllEnabled s then { s with pllLocked := true, risPllLock := true } else s

/-- Enabling condition of the transmit step of channel `c` (R223). -/
def transmitEnabled (s : State) (c : Nat) (ch : Channel) : Bool :=
  chanClocked s c && enabled s.config ch && !ch.txq.isEmpty

/-- The transmit step of channel `c` (R223): the oldest byte leaves with the format and routing of this instant. -/
def transmitStep (s : State) (c : Nat) : State :=
  match s.channels[c]? with
  | some ch =>
    match ch.txq with
    | b :: q =>
      if transmitEnabled s c ch then
        setChannel s c
          { ch with
            txq := q
            wireTx := ch.wireTx ++ [{ byte := b, fmt := channelFormat s ch, routed := pinRouted s c }] }
      else s
    | [] => s
  | none => s

/-- When a presented byte is received (R225); otherwise it is lost without trace (R226). -/
def lineAccepts (s : State) (c : Nat) (ch : Channel) : Bool :=
  chanClocked s c && enabled s.config ch && pinRouted s c && (channelFormat s ch).isSome &&
    decide (ch.rxq.length < fifoCap s.config ch)

/-- The line of channel `c` presents a byte (R225, R226). -/
def lineStep (s : State) (c : Nat) (b : Byte) : State :=
  match s.channels[c]? with
  | some ch => if lineAccepts s c ch then setChannel s c { ch with rxq := ch.rxq ++ [b] } else s
  | none => s

/-- One agent event; nothing else changes state between two bus accesses (R231). -/
def agentStep (s : State) (e : AgentEvent) : State :=
  match e with
  | .pllLock => pllLockStep s
  | .transmit c => transmitStep s c
  | .line c b => lineStep s c b

/-- The agent steps scheduled before the next sequencer step (R10, R91). -/
def tick (s : State) : State :=
  match s.schedule with
  | [] => s
  | evs :: rest => evs.foldl agentStep { s with schedule := rest }

/-- `n` idle sequencer steps over a schedule: each lets the agents scheduled before it step (R211). -/
def idleOver (sched : List (List AgentEvent)) (n : Nat) (s : State) : State :=
  match sched, n with
  | [], _ => { s with schedule := [] }
  | evs :: rest, 0 => { s with schedule := evs :: rest }
  | evs :: rest, n + 1 => idleOver rest n (evs.foldl agentStep { s with schedule := rest })

/-- `DELAY(n)` (R211): `n` steps that access nothing. -/
def idle (n : Nat) (s : State) : State := idleOver s.schedule n s

/-! The bus. -/

/-- The word a read returns: the known bits where `mask` is set, drawn bits elsewhere (R28, R49, R51). -/
def ReadValue.word (v : ReadValue) : Word := (v.known &&& v.mask) ||| (v.fill &&& ~~~v.mask)

/-- A one-bit field of the word a read returns. -/
def ReadValue.flag (v : ReadValue) (f : Field) : Bool :=
  if v.mask.getLsbD f.lo then v.known.getLsbD f.lo else v.fill.getLsbD f.lo

/-- `word[7:0]` of what a read returns. Where all eight bits are known no drawn bit is looked at. -/
def ReadValue.low8 (v : ReadValue) : Byte :=
  if v.mask &&& 0xFF#32 = 0xFF#32 then v.known.setWidth 8 else v.word.setWidth 8

/-- A read whose every bit is known. -/
def exactly (w : Word) : ReadValue := { known := w, mask := BitVec.allOnes 32, fill := 0 }

/-- A read of `known` in the bits of `mask`; the environment draws every other bit (R15 `draw`). -/
def drawn (known mask : Word) (s : State) : Res ReadValue :=
  .ok { known := known, mask := mask, fill := Config.freeWord s.drawCount } (countDraw s)

/-- A flag in its field's place. -/
def flagWord (f : Field) (b : Bool) : Word := if b then fieldBit f else 0#32

/-- Read a register of a port (R35 to R41). -/
def readPort (pt : Port) (r : GpioReg) : Word :=
  match r with
  | .data => pt.data
  | .dir => pt.dir
  | .afsel => pt.afsel
  | .den => pt.den
  | .lock => if pt.unlocked then 0 else 1
  | .cr => pt.cr
  | .pctl => pt.pctl

/-- Read a register of channel `c` (R45 to R51): `FR` is composed from the FIFOs, `DR` pops the receive FIFO. -/
def readChannel (s : State) (c : Nat) (ch : Channel) (r : UartReg) : Res ReadValue :=
  match r with
  | .dr =>
    match ch.rxq with
    | b :: q =>
      drawn (byteWord b <<< s.config.layout.drData.lo) (fieldMask s.config.layout.drData)
        (setChannel s c { ch with rxq := q })
    | [] => drawn 0#32 0#32 s
  | .fr =>
    drawn (flagWord s.config.layout.txff (txFull s.config ch) ||| flagWord s.config.layout.rxfe (rxEmpty ch))
      (fieldBit s.config.layout.txff ||| fieldBit s.config.layout.rxfe) s
  | .ibrd => .ok (exactly ch.ibrd) s
  | .fbrd => .ok (exactly ch.fbrd) s
  | .lcrh => .ok (exactly ch.lcrh) s
  | .ctl => .ok (exactly ch.ctl) s

/-- The read value of a register, with its side effect (R84, R88). `a` is the address the bus gave. -/
def readReg (a : Word) (r : Reg) (s : State) : Res ReadValue :=
  match r with
  | .ris =>
    drawn (flagWord s.config.layout.pllLock s.risPllLock) (fieldBit s.config.layout.pllLock) s
  | .legacy => .ok (exactly s.clkLegacy) s
  | .alt => .ok (exactly s.clkAlt) s
  | .gateGpio => .ok (exactly s.gateGpio) s
  | .gateUart => .ok (exactly s.gateUart) s
  | .gpio p g =>
    match s.ports[p]? with
    | some pt => .ok (exactly (readPort pt g)) s
    | none => .fault (.invalidAddress (some a) s)
  | .uart c u =>
    match s.channels[c]? with
    | some ch => readChannel s c ch u
    | none => .fault (.invalidAddress (some a) s)

/-- What a write of a clock-control register does to `pll_locked` (R31): it falls if `eff.PWRDN` is 1 after the write, or
if the write changed `eff.OSCSRC` or `CLK_LEGACY.XTAL`. -/
def afterClockWrite (old new : State) : State :=
  if effPwrdn new || effOscsrc old != effOscsrc new || xtalCode old != xtalCode new then { new with pllLocked := false }
  else new

/-- Write a register of a port (R35 to R42). -/
def writePort (c : Config) (pt : Port) (r : GpioReg) (v : Word) : Port :=
  match r with
  | .data => { pt with data := v }
  | .dir => { pt with dir := v }
  | .afsel => { pt with afsel := commitByte c.layout.afselA (committedPins c.layout pt) pt.afsel v }
  | .den => { pt with den := commitByte c.layout.denE (committedPins c.layout pt) pt.den v }
  | .lock => { pt with unlocked := v == c.unlockKey }
  | .cr => if pt.unlocked then { pt with cr := v } else pt
  | .pctl => { pt with pctl := commitNibbles c.layout.pctlF (committedPins c.layout pt) pt.pctl v }

/-- Push a byte on the transmit FIFO; with no room it is discarded (R50). -/
def pushTx (c : Config) (ch : Channel) (b : Byte) : Channel :=
  if ch.txq.length < fifoCap c ch then { ch with txq := ch.txq ++ [b] } else ch

/-- A write of `LCRH` (R48, R53): the word is stored and the divisors are latched, whatever the value. -/
def latchLine (l : Layout) (ch : Channel) (v : Word) : Channel :=
  { ch with lcrh := v, baudLatch := some (divInt l ch, divFrac l ch) }

/-- The write lowers `cap(c)` below the length of a queue (R52). -/
def shrinks (c : Config) (ch : Channel) (v : Word) : Bool :=
  let cap' := fifoCap c { ch with lcrh := v }
  decide (cap' < fifoCap c ch) && (decide (cap' < ch.txq.length) || decide (cap' < ch.rxq.length))

/-- Write a register of channel `c` (R45 to R53). -/
def writeChannel (s : State) (c : Nat) (ch : Channel) (r : UartReg) (a v : Word) : Res Unit :=
  match r with
  | .dr => .ok () (setChannel s c (pushTx s.config ch (byteField s.config.layout.drData v)))
  | .fr => .fault (.invalidAddress (some a) s)
  | .ibrd => .ok () (setChannel s c { ch with ibrd := v })
  | .fbrd => .ok () (setChannel s c { ch with fbrd := v })
  | .lcrh =>
    if shrinks s.config ch v then .refused (.fifoShrink c)
    else .ok () (setChannel s c (latchLine s.config.layout ch v))
  | .ctl => .ok () (setChannel s c { ch with ctl := v })

/-- The write of a register, with its side effects (R85, R88). `a` is the address the bus gave. -/
def writeReg (a : Word) (r : Reg) (v : Word) (s : State) : Res Unit :=
  match r with
  | .ris => .fault (.invalidAddress (some a) s)
  | .legacy => .ok () (afterClockWrite s { s with clkLegacy := v })
  | .alt => .ok () (afterClockWrite s { s with clkAlt := v })
  | .gateGpio => .ok () { s with gateGpio := v }
  | .gateUart => .ok () { s with gateUart := v }
  | .gpio p g =>
    match s.ports[p]? with
    | some pt => .ok () (setPort s p (writePort s.config pt g v))
    | none => .fault (.invalidAddress (some a) s)
  | .uart c u =>
    match s.channels[c]? with
    | some ch => writeChannel s c ch u a v
    | none => .fault (.invalidAddress (some a) s)

/-- `MemRead(a, 4)` (R84), after the agent steps scheduled before it: the address and the access kind are checked first,
then the gate (R248), then the read, its side effect and its trace entry are one step (R89). -/
def busRead (a : Word) (s0 : State) : Res ReadValue :=
  let s := tick s0
  match locate s.config.layout a with
  | some r =>
    if clocked s r then (readReg a r s).bind fun v t => .ok v (logBus .read a v.word t)
    else .fault (.unclocked a s)
  | none => .fault (.invalidAddress (some a) s)

/-- `MemWrite(a, 4, v)` (R85), after the agent steps scheduled before it; checks in the order of R248. -/
def busWrite (a v : Word) (s0 : State) : Res Unit :=
  let s := tick s0
  match locate s.config.layout a with
  | some r =>
    if writable r then
      if clocked s r then (writeReg a r v s).bind fun _ t => .ok () (logBus .write a v t)
      else .fault (.unclocked a s)
    else .fault (.invalidAddress (some a) s)
  | none => .fault (.invalidAddress (some a) s)

/-- `modify(address, set, clr)` (R143): a read, then a write of `(old & ~clr) | set`; agents may step between. -/
def busModify (a set clr : Word) (s : State) : Res Unit :=
  (busRead a s).bind fun old t => busWrite a (clearThenSet old.word set clr) t

/-- A busy-wait: read the register until the test holds, at most `fuel` times. The answer says whether it held. -/
def pollFor (a : Word) (test : ReadValue → Bool) (fuel : Nat) (s : State) : Res Bool :=
  match fuel with
  | 0 => .ok false s
  | n + 1 => (busRead a s).bind fun v t => if test v then .ok true t else pollFor a test n t

/-- A busy-wait inside one `step` (R160, R190): one read, and one more for each schedule entry left. If the test has not
held by then no agent has a step left to take, and the wait goes on in the next `step`, without bound (R244). -/
def poll (a : Word) (test : ReadValue → Bool) (s : State) : Res Bool := pollFor a test (s.schedule.length + 1) s

/-! Micro-steps. -/

/-- `LED_PULSE(color)` (R210): the hook of the excluded LED indicator takes a color and lets `LED_PULSE_SPINS` steps pass;
the color changes nothing (R8). -/
def ledPulse (_color : Byte) (s : State) : State := idle s.config.ledPulseSpins s

/-- A check that a port or channel number exists (R123). -/
def inRange (s : State) (ports channels : List Nat) : Bool :=
  ports.all (fun p => decide (p < nPorts s.config)) && channels.all (fun c => decide (c < nChannels s.config))

/-- Advance the clock sequencer (R22), with the stage the pseudocode assigns, if it assigns one (R150). -/
def advanceClock (index : Nat) (stage : Option ClkStage) (s : State) : State :=
  { s with clkStep := index + 1, clkStage := stage.getD s.clkStage }

/-- `done` if the wait ended, `wait` if the next `step` must take it up again. -/
def waited (ended : Bool) : Progress := if ended then .done else .wait

/-- Address of a channel register. -/
def uartAddr (s : State) (c : Nat) (r : UartReg) : Word := addrOf s.config.layout (.uart c r)

/-- What the echo loop goes on with: after a received byte its transmission, a pulse and the next iteration, otherwise
the next iteration (R205, R208). -/
def echoNext (s : State) (got : Option Byte) : List Micro :=
  match got with
  | some b =>
    [.txWait s.config.chA, .write (uartAddr s s.config.chA .dr) (byteWord b), .led s.config.colorTransmitted, .yield, .echo]
  | none => [.echo]

/-- One iteration of the echo loop up to the received byte (R208, R209): a pulse, one read of `FR`, and, if a byte is
there, one read of `DR`. -/
def echoOnce (s0 : State) : Res Progress :=
  let s := ledPulse s0.config.colorReceived s0
  (busRead (uartAddr s s.config.chA .fr) s).bind fun r t =>
    if r.flag t.config.layout.rxfe then .ok (.become (echoNext t none)) t
    else (busRead (uartAddr t t.config.chA .dr) t).bind fun d u => .ok (.become (echoNext u (some d.low8))) u

/-- Run one micro-step (R128). -/
def runMicro (m : Micro) (s : State) : Res Progress :=
  match m with
  | .inRange ps cs => if inRange s ps cs then .ok .done s else .fault (.invalidAddress none s)
  | .modify a st cl => (busModify a st cl s).bind fun _ t => .ok .done t
  | .write a v => (busWrite a v s).bind fun _ t => .ok .done t
  | .noteUnlock p => .ok .done (noteUnlock s p)
  | .clk k stage a st cl =>
    if s.clkStep = k then (busModify a st cl s).bind fun _ t => .ok .done (advanceClock k stage t)
    else .refused .configurationOrderingViolation
  | .clkWait =>
    if s.clkStep = 8 then
      (poll (addrOf s.config.layout .ris) (fun r => r.flag s.config.layout.pllLock) s).bind fun ended t =>
        .ok (waited ended) (if ended then advanceClock 8 (some .pllLocked) t else t)
    else .refused .configurationOrderingViolation
  | .txWait c =>
    (poll (uartAddr s c .fr) (fun r => !r.flag s.config.layout.txff) s).bind fun ended t => .ok (waited ended) t
  | .idle n => .ok .done (idle n s)
  | .led color => .ok .done (ledPulse color s)
  | .stage st => .ok .done (setSvcStage s st)
  | .echo => echoOnce s
  | .yield => .ok (.become []) s

/-- Run micro-steps in order (R144) until the list ends, a wait has not ended, or the list yields; what is left stays
pending. -/
def runMicros (ms : List Micro) (s : State) : Host.Outcome State Fault Refusal :=
  match ms with
  | [] => .next (setPending s [])
  | m :: rest =>
    match runMicro m s with
    | .ok .done t => runMicros rest t
    | .ok .wait t => .next (setPending t (m :: rest))
    | .ok (.become ms') t => .next (setPending t (ms' ++ rest))
    | .fault f => .fault f
    | .refused r => .refused r

/-- A command that returns nothing (R111): its micro-steps. -/
def runCommand (ms : List Micro) (s : State) : Host.Outcome State Fault Refusal := runMicros ms (clearResult s)

/-- A command that returns one word (R111). -/
def answer (r : Res Word) : Host.Outcome State Fault Refusal :=
  match r with
  | .ok w s => .next (setPending (putResult s w) [])
  | .fault f => .fault f
  | .refused r => .refused r

/-- 0 or 1 as a result word (R111). -/
def boolWord (b : Bool) : Word := if b then 1#32 else 0#32

end Sys2Proof.Machine
end

