-- ==== Sys2Proof/Machine/ClockController.lean ====
section
/-! DEFINITION. The operation family ClockController (41_clock_controller.md R150 to R164). Each micro-step's masks are the
field updates of 30_encoding.md R116 over the configuration's layout; under `L_REF` they are the numbers of R129. -/

namespace Sys2Proof.Machine

/-- `CLK_ALT.ALTSEL <- 1` (R151). -/
def selAltStep (c : Config) : Micro := .clk 0 none (addrOf c.layout .alt) (fieldBit c.layout.altsel) 0#32

/-- `CLK_ALT.BYPASS <- 1` (R152). -/
def bypassOnStep (c : Config) : Micro := .clk 1 none (addrOf c.layout .alt) (fieldBit c.layout.bypass) 0#32

/-- `CLK_LEGACY.DIVEN <- 0` (R153). -/
def divenOffStep (c : Config) : Micro := .clk 2 none (addrOf c.layout .legacy) 0#32 (fieldBit c.layout.diven)

/-- `CLK_LEGACY.XTAL <- XTAL_CODE_16MHZ` (R154). -/
def setXtalStep (c : Config) : Micro :=
  .clk 3 none (addrOf c.layout .legacy) (fieldPut c.layout.xtal c.xtalCode16MHz) (fieldMask c.layout.xtal)

/-- `CLK_ALT.OSCSRC <- 0`, `clk_stage <- SOURCE_SELECTED` (R155). -/
def srcExtStep (c : Config) : Micro :=
  .clk 4 (some .sourceSelected) (addrOf c.layout .alt) 0#32 (fieldMask c.layout.oscsrc)

/-- `CLK_ALT.PWRDN <- 0`, `clk_stage <- PLL_POWERING_UP` (R156). -/
def pllOnStep (c : Config) : Micro :=
  .clk 5 (some .pllPoweringUp) (addrOf c.layout .alt) 0#32 (fieldBit c.layout.pwrdn)

/-- `CLK_ALT.SYSDIV <- SYSDIV_CODE(4)` (R157). -/
def setDivStep (c : Config) : Micro :=
  .clk 6 none (addrOf c.layout .alt) (fieldPut c.layout.sysdiv (sysdivCode sysDivisor)) (fieldMask c.layout.sysdiv)

/-- `CLK_LEGACY.DIVEN <- 1` (R158). -/
def divenOnStep (c : Config) : Micro := .clk 7 none (addrOf c.layout .legacy) (fieldBit c.layout.diven) 0#32

/-- `CLK_ALT.BYPASS <- 0`, `clk_stage <- DIVIDER_ACTIVE` (R161). -/
def bypassOffStep (c : Config) : Micro :=
  .clk 9 (some .dividerActive) (addrOf c.layout .alt) 0#32 (fieldBit c.layout.bypass)

/-- The ten micro-steps of `BRING_UP_CLOCK` in their one order (R150, R159). -/
def bringUpSteps (c : Config) : List Micro :=
  [selAltStep c, bypassOnStep c, divenOffStep c, setXtalStep c, srcExtStep c, pllOnStep c, setDivStep c, divenOnStep c,
   .clkWait, bypassOffStep c]

/-- `BRING_UP_CLOCK` (R150). The first micro-step's `require` is the operation's own (R164). -/
def execBringUpClock (s : State) : Host.Outcome State Fault Refusal := runCommand (bringUpSteps s.config) s

/-- `CLK_SEL_ALT` (R151). -/
def execClkSelAlt (s : State) : Host.Outcome State Fault Refusal := runCommand [selAltStep s.config] s

/-- `CLK_BYPASS_ON` (R152). -/
def execClkBypassOn (s : State) : Host.Outcome State Fault Refusal := runCommand [bypassOnStep s.config] s

/-- `CLK_DIVEN_OFF` (R153). -/
def execClkDivenOff (s : State) : Host.Outcome State Fault Refusal := runCommand [divenOffStep s.config] s

/-- `CLK_SET_XTAL` (R154). -/
def execClkSetXtal (s : State) : Host.Outcome State Fault Refusal := runCommand [setXtalStep s.config] s

/-- `CLK_SRC_EXT` (R155). -/
def execClkSrcExt (s : State) : Host.Outcome State Fault Refusal := runCommand [srcExtStep s.config] s

/-- `CLK_PLL_ON` (R156). -/
def execClkPllOn (s : State) : Host.Outcome State Fault Refusal := runCommand [pllOnStep s.config] s

/-- `CLK_SET_DIV` (R157). -/
def execClkSetDiv (s : State) : Host.Outcome State Fault Refusal := runCommand [setDivStep s.config] s

/-- `CLK_DIVEN_ON` (R158). -/
def execClkDivenOn (s : State) : Host.Outcome State Fault Refusal := runCommand [divenOnStep s.config] s

/-- `CLK_WAIT_LOCK` (R160): unbounded; while `PLLLOCK` stays 0 the command stays pending (R244). -/
def execClkWaitLock (s : State) : Host.Outcome State Fault Refusal := runCommand [.clkWait] s

/-- `CLK_BYPASS_OFF` (R161). -/
def execClkBypassOff (s : State) : Host.Outcome State Fault Refusal := runCommand [bypassOffStep s.config] s

/-- `IS_PLL_LOCKED` (R163): one read of the sticky status bit. -/
def execIsPllLocked (s : State) : Host.Outcome State Fault Refusal :=
  answer ((busRead (addrOf s.config.layout .ris) (clearResult s)).bind fun v t =>
    .ok (boolWord (v.flag s.config.layout.pllLock)) t)

end Sys2Proof.Machine
end

