-- ==== Sys2Proof/Machine/GpioPort.lean ====
section
/-! DEFINITION. The operation family GpioPort (42_gpio_port.md R170 to R177). -/

namespace Sys2Proof.Machine

/-- Address of a port register. -/
def gpioAddr (c : Config) (p : Nat) (r : GpioReg) : Word := addrOf c.layout (.gpio p r)

/-- `1 << lo(P[p])`; 0 for a port that does not exist, which the range check has turned away. -/
def portGateBit (c : Config) (p : Nat) : Word :=
  match c.layout.gatePort[p]? with
  | some f => fieldBit f
  | none => 0#32

/-- `GATE_GPIO.P[p] <- 1` (R171). -/
def enablePortSteps (c : Config) (p : Nat) : List Micro :=
  [.inRange [p] [], .modify (addrOf c.layout .gateGpio) (portGateBit c p) 0#32]

/-- The key write and the commit update (R173), after which the view of the port says so (R43). -/
def unlockSteps (c : Config) (p : Nat) (pinMask : Byte) : List Micro :=
  [.write (gpioAddr c p .lock) c.unlockKey, .modify (gpioAddr c p .cr) (byteWord pinMask) 0#32,
   .noteUnlock p]

/-- The routing micro-steps (R174). -/
def routeSteps (c : Config) (p : Nat) (pinMask : Byte) (altCodes : Word) : List Micro :=
  [.modify (gpioAddr c p .afsel) (byteWord pinMask) 0#32,
   .modify (gpioAddr c p .pctl) (altCodes &&& nibbleMask pinMask) (nibbleMask pinMask)]

/-- The digital-enable micro-step (R175). -/
def digitalSteps (c : Config) (p : Nat) (pinMask : Byte) : List Micro :=
  [.modify (gpioAddr c p .den) (byteWord pinMask) 0#32]

/-- The micro-steps of `CONFIGURE_PINS` after its range check (R172). -/
def configurePinsSteps (c : Config) (p : Nat) (pinMask : Byte) (altCodes : Word) (makeDigital commitUnlock : Bool) :
    List Micro :=
  (if commitUnlock then unlockSteps c p pinMask else []) ++ routeSteps c p pinMask altCodes ++
    (if makeDigital then digitalSteps c p pinMask else [])

/-- `ENABLE_PORT` (R171). -/
def execEnablePort (port : Nat) (s : State) : Host.Outcome State Fault Refusal :=
  runCommand (enablePortSteps s.config port) s

/-- `CONFIGURE_PINS` (R172). -/
def execConfigurePins (port : Nat) (pinMask : Byte) (altCodes : Word) (makeDigital commitUnlock : Bool) (s : State) :
    Host.Outcome State Fault Refusal :=
  runCommand (.inRange [port] [] :: configurePinsSteps s.config port pinMask altCodes makeDigital commitUnlock) s

/-- `DRIVE_MASK[p]` as a word (R8, R176). -/
def driveMaskWord (c : Config) (p : Nat) : Word := byteWord (c.driveMask.getD p 0)

/-- `DRIVE_PINS` (R176). -/
def execDrivePins (port : Nat) (value : Byte) (s : State) : Host.Outcome State Fault Refusal :=
  runCommand
    [.inRange [port] [],
     .modify (gpioAddr s.config port .data) (byteWord value &&& driveMaskWord s.config port) (driveMaskWord s.config port)] s

end Sys2Proof.Machine
end

