-- ==== Sys2Proof/Machine/UartChannel.lean ====
section
/-! DEFINITION. The operation family UartChannel (43_uart_channel.md R185 to R195). -/

namespace Sys2Proof.Machine

/-- `1 << lo(C[c])`; 0 for a channel that does not exist, which the range check has turned away. -/
def chanGateBit (c : Config) (ch : Nat) : Word :=
  match c.layout.gateChan[ch]? with
  | some f => fieldBit f
  | none => 0#32

/-- Address of a channel register. -/
def chanAddr (c : Config) (ch : Nat) (r : UartReg) : Word := addrOf c.layout (.uart ch r)

/-- `commit_unlock = ((pin_mask & PROTECTED[P]) != 0)` (R186 corner case 2). -/
def needsUnlock (c : Config) (p : Nat) (pinMask : Byte) : Bool := (pinMask &&& c.protectedPins.getD p 0) != 0#8

/-- The micro-steps of `UART_CONFIGURE` after the profile check, in the order of R186: channel gate, `ENABLE_PORT`,
`CONFIGURE_PINS`, transceiver enable, integer then fractional divisor (R187), line control last (R188, R189). -/
def uartConfigureSteps (c : Config) (ch p : Nat) (pinMask : Byte) (fcode : BitVec 4) (bi : BitVec 16) (bf : BitVec 6)
    (wordLength : Nat) (fifo : Bool) : List Micro :=
  [.inRange [p] [ch], .modify (addrOf c.layout .gateUart) (chanGateBit c ch) 0#32] ++ enablePortSteps c p ++
    configurePinsSteps c p pinMask (replicateCode fcode) true (needsUnlock c p pinMask) ++
    [.modify (chanAddr c ch .ctl) (fieldBit c.layout.en) 0#32,
     .write (chanAddr c ch .ibrd) (bi.setWidth 32), .write (chanAddr c ch .fbrd) (bf.setWidth 32),
     .write (chanAddr c ch .lcrh) (lcrhWord c.layout wordLength fifo)]

/-- The one supported frame profile (R124): 8 data bits, 1 stop bit, no parity. -/
def profileSupported (wordLength stopBits : Nat) (parity : Bool) : Bool :=
  wordLength == wordLengthWanted && stopBits == stopBitsWanted && !parity

/-- `UART_CONFIGURE` (R186): the profile is checked before the operand ranges (R248). -/
def execUartConfigure (channel port : Nat) (pinMask : Byte) (functionCode : BitVec 4) (baudInt : BitVec 16)
    (baudFrac : BitVec 6) (wordLength stopBits : Nat) (parity fifoEnabled : Bool) (s : State) :
    Host.Outcome State Fault Refusal :=
  if profileSupported wordLength stopBits parity then
    runCommand
      (uartConfigureSteps s.config channel port pinMask functionCode baudInt baudFrac wordLength fifoEnabled) s
  else .refused .unsupportedProfile

/-- The micro-steps of `TRANSMIT_BYTE` (R190): wait for room, then one write of the data register. -/
def transmitSteps (c : Config) (ch : Nat) (b : Byte) : List Micro := [.txWait ch, .write (chanAddr c ch .dr) (byteWord b)]

/-- `TRANSMIT_BYTE` (R190): unbounded; while the transmit FIFO stays full the command stays pending (R244). -/
def execTransmitByte (channel : Nat) (byte : Byte) (s : State) : Host.Outcome State Fault Refusal :=
  runCommand (.inRange [] [channel] :: transmitSteps s.config channel byte) s

/-- One read of a channel register whose answer is one word, after the range check (R123, R248). -/
def readChannelFor (channel : Nat) (r : UartReg) (f : ReadValue → Word) (s : State) :
    Host.Outcome State Fault Refusal :=
  if inRange s [] [channel] then
    answer ((busRead (chanAddr s.config channel r) (clearResult s)).bind fun v t => .ok (f v) t)
  else .fault (.invalidAddress none s)

/-- `RECEIVE_AVAILABLE` (R192): the receive-empty flag, negated. -/
def execReceiveAvailable (channel : Nat) (s : State) : Host.Outcome State Fault Refusal :=
  readChannelFor channel .fr (fun v => boolWord (!v.flag s.config.layout.rxfe)) s

/-- `RECEIVE_BYTE` (R193): bits above 7 of the data word are discarded. With no data the byte is drawn (U6). -/
def execReceiveByte (channel : Nat) (s : State) : Host.Outcome State Fault Refusal :=
  readChannelFor channel .dr (fun v => byteWord v.low8) s

/-- `IS_TX_FIFO_FULL` (R195). -/
def execIsTxFifoFull (channel : Nat) (s : State) : Host.Outcome State Fault Refusal :=
  readChannelFor channel .fr (fun v => boolWord (v.flag s.config.layout.txff)) s

end Sys2Proof.Machine
end

