-- ==== Sys2Proof/Machine/EchoService.lean ====
section
/-! DEFINITION. The operation family SerialEchoService (44_serial_echo_service.md R205 to R212). The service never
completes: each `step` runs the constituent operations up to the next `yield`, and what follows stays pending. -/

namespace Sys2Proof.Machine

/-- One byte of the greeting (R207): transmit, pulse, delay. -/
def greetingByteSteps (c : Config) (b : Byte) : List Micro :=
  transmitSteps c c.chA b ++ [.led c.colorTransmitted, .idle c.greetingDelay, .yield]

/-- From CHANNELS_READY on: the greeting once, then the echo loop (R207, R208). -/
def greetingSteps (c : Config) : List Micro :=
  greeting.flatMap (greetingByteSteps c) ++ [.stage .greetingSent, .yield, .stage .echoing, .yield, .echo]

/-- From CLOCK_READY on: channel A, then channel B, with the divisors of the wire format (R206). -/
def channelsSteps (c : Config) : List Micro :=
  uartConfigureSteps c c.chA c.portA c.pinsA c.fcodeA baudIntWanted baudFracWanted wordLengthWanted true ++ [.yield] ++
    uartConfigureSteps c c.chB c.portB c.pinsB c.fcodeB baudIntWanted baudFracWanted wordLengthWanted true ++
    [.led c.colorConfigured, .stage .channelsReady, .yield]

/-- The whole service in the order of R205. -/
def serviceSteps (c : Config) : List Micro :=
  bringUpSteps c ++ [.led c.colorClockReady, .stage .clockReady, .yield] ++ channelsSteps c ++ greetingSteps c

/-- `RUN_ECHO_SERVICE` (R205): only from reset (R164); this step runs up to CLOCK_READY, or to the PLL-lock wait if that
does not end. -/
def execRunEchoService (s : State) : Host.Outcome State Fault Refusal :=
  if s.svcStage = .booting ∧ s.clkStep = 0 then runCommand (serviceSteps s.config) s
  else .refused .configurationOrderingViolation

/-- `LED_PULSE` (R210): `DELAY(LED_PULSE_SPINS)` and nothing else. -/
def execLedPulse (color : Byte) (s : State) : Host.Outcome State Fault Refusal := runCommand [.led color] s

/-- `DELAY` (R211). -/
def execDelay (count : Word) (s : State) : Host.Outcome State Fault Refusal := runCommand [.idle count.toNat] s

end Sys2Proof.Machine
end

