-- ==== Sys2Proof/Machine/RegisterAccess.lean ====
section
/-! DEFINITION. The operation family RegisterAccess (40_register_access.md R141 to R143). -/

namespace Sys2Proof.Machine

/-- `READ` (R141). -/
def execRead (address : Word) (s : State) : Host.Outcome State Fault Refusal :=
  answer ((busRead address (clearResult s)).bind fun v t => .ok v.word t)

/-- `WRITE` (R142). -/
def execWrite (address word : Word) (s : State) : Host.Outcome State Fault Refusal :=
  runCommand [.write address word] s

/-- `MODIFY` (R143): a read, then a write; if the read faults the write does not happen. -/
def execModify (address setMask clearMask : Word) (s : State) : Host.Outcome State Fault Refusal :=
  runCommand [.modify address setMask clearMask] s

end Sys2Proof.Machine
end

