-- ==== Sys2Proof/Machine/Dispatch.lean ====
section
/-! DEFINITION. One arm per instruction: the opcode map of 30_encoding.md R114. -/

namespace Sys2Proof.Machine

def exec (i : Instr) (s : State) : Host.Outcome State Fault Refusal :=
  match i with
  | .read a => Sys2Proof.Machine.execRead a s
  | .write a v => Sys2Proof.Machine.execWrite a v s
  | .modify a st cl => Sys2Proof.Machine.execModify a st cl s
  | .bringUpClock => Sys2Proof.Machine.execBringUpClock s
  | .clkSelAlt => Sys2Proof.Machine.execClkSelAlt s
  | .clkBypassOn => Sys2Proof.Machine.execClkBypassOn s
  | .clkDivenOff => Sys2Proof.Machine.execClkDivenOff s
  | .clkSetXtal => Sys2Proof.Machine.execClkSetXtal s
  | .clkSrcExt => Sys2Proof.Machine.execClkSrcExt s
  | .clkPllOn => Sys2Proof.Machine.execClkPllOn s
  | .clkSetDiv => Sys2Proof.Machine.execClkSetDiv s
  | .clkDivenOn => Sys2Proof.Machine.execClkDivenOn s
  | .clkWaitLock => Sys2Proof.Machine.execClkWaitLock s
  | .clkBypassOff => Sys2Proof.Machine.execClkBypassOff s
  | .isPllLocked => Sys2Proof.Machine.execIsPllLocked s
  | .enablePort p => Sys2Proof.Machine.execEnablePort p s
  | .configurePins p m codes md cu => Sys2Proof.Machine.execConfigurePins p m codes md cu s
  | .drivePins p v => Sys2Proof.Machine.execDrivePins p v s
  | .uartConfigure c p m f bi bf wl sb par fifo => Sys2Proof.Machine.execUartConfigure c p m f bi bf wl sb par fifo s
  | .transmitByte c b => Sys2Proof.Machine.execTransmitByte c b s
  | .receiveAvailable c => Sys2Proof.Machine.execReceiveAvailable c s
  | .receiveByte c => Sys2Proof.Machine.execReceiveByte c s
  | .isTxFifoFull c => Sys2Proof.Machine.execIsTxFifoFull c s
  | .runEchoService => Sys2Proof.Machine.execRunEchoService s
  | .ledPulse color => Sys2Proof.Machine.execLedPulse color s
  | .delay n => Sys2Proof.Machine.execDelay n s

end Sys2Proof.Machine
end

