-- ==== Sys2Proof/Machine/Step.lean ====
section
/-! DEFINITION. One step of the machine: the command in progress goes on, or the next command starts
(40_register_access.md R144). -/

namespace Sys2Proof.Machine

/-- One step. With a command in progress (a wait that has not ended, or the service) it goes on. Otherwise the next
command is read from the program and run; words that spell no command are refused (R122). With no command left the
program is completed (R241, R282) and only agents step. -/
def step (s : State) : Host.Outcome State Fault Refusal :=
  match s.pending with
  | m :: ms => runMicros (m :: ms) s
  | [] =>
    match s.program with
    | [] => .next (tick s)
    | w :: ws =>
      match decode (w :: ws) with
      | .ok (i, rest) => exec i { s with program := rest }
      | .error why => .refused (.illegalCommand why)

/-- The state with one instruction as its program, so that the very next step runs it (log 7). -/
def State.withFetchWord (s : State) (nbits w : Nat) : State := { s with program := tableWords nbits w, pending := [] }

end Sys2Proof.Machine
end

