-- ==== Sys2Proof/Safety.lean ====
section
/-! DEFINITION. The terms that claims are stated in: when a run is completed, what a reset state is when the spec leaves
bits open (10_state.md R60 to R63), the invariant of the machine, the part of the state that only the sequencer changes,
the bytes a channel has been given to send, and the replay-order property of R271. -/

namespace Sys2Proof.Machine

/-- The program is `Completed` (60_exceptions.md R241, R282). -/
def State.completed (s : State) : Bool := s.program.isEmpty && s.pending.isEmpty

/-- A run of `n` steps reaches a next state: no fault, no refusal. -/
def runsTo (n : Nat) (s t : State) : Prop := Sys2Proof.core.run n s = .next t

/-- No agent steps from here on: the runs in which the environment does nothing (R221, R281). -/
def State.quiet (s : State) : Prop := s.schedule = []

/-! Illegal command words, as R113, R114 and R122 list them. -/

/-- The bits of a header word that its opcode's format marks `-` or reserves; none for an opcode that is not in R114. -/
def reservedBits (op : Nat) : Option Word :=
  if op ∈ [0x01, 0x02, 0x03, 0x10, 0x11, 0x12, 0x13, 0x14, 0x15, 0x16, 0x17, 0x18, 0x19, 0x1A, 0x1B, 0x40, 0x42] then
    some 0xFFFFFF00
  else if op ∈ [0x20, 0x32, 0x33, 0x34] then some 0xFFFFF000
  else if op ∈ [0x22, 0x31] then some 0xFFF00000
  else if op = 0x21 then some 0xFCF00000
  else if op = 0x30 then some 0xE0000000
  else if op = 0x41 then some 0xFFF00F00
  else none

/-- A header word and the words after it that spell no operation (R122). -/
def illegalCommand (w0 : Word) (ws : List Word) : Prop :=
  match reservedBits (bits w0 7 0) with
  | none => True
  | some m => w0 &&& m ≠ 0#32 ∨ (bits w0 7 0 = 0x30 ∧ ∃ w1, ws.head? = some w1 ∧ w1 &&& 0xF0C00000#32 ≠ 0#32)

/-! Reset, as the spec gives it. -/

/-- Port `p` is as R62 says; the registers R62 leaves unspecified hold any value. -/
def portAtReset (c : Config) (p : Nat) (pt : Port) : Prop :=
  pt.unlocked = false ∧ pt.unlockRan = false ∧ committedPins c.layout pt = ~~~(c.protectedPins.getD p 0)

/-- A channel is as R63 says; the registers R63 leaves unspecified hold any value. -/
def chanAtReset (l : Layout) (ch : Channel) : Prop :=
  ch.txq = [] ∧ ch.rxq = [] ∧ ch.baudLatch = none ∧ ch.wireTx = [] ∧
    fieldFlag l.stp2 ch.lcrh = false ∧ fieldFlag l.pen ch.lcrh = false ∧ fieldFlag l.en ch.ctl = false

/-- The clock registers are as R61 says; the fields R61 leaves unspecified hold any value. -/
def clockAtReset (s : State) : Prop :=
  s.pllLocked = false ∧ s.risPllLock = false ∧
    fieldFlag s.config.layout.altsel s.clkAlt = false ∧
    fieldFlag s.config.layout.lPwrdn s.clkLegacy = true ∧ fieldFlag s.config.layout.pwrdn s.clkAlt = true ∧
    fieldFlag s.config.layout.lBypass s.clkLegacy = true ∧ fieldFlag s.config.layout.bypass s.clkAlt = true ∧
    fieldGet s.config.layout.lOscsrc s.clkLegacy ≠ oscsrcExternal ∧
    fieldGet s.config.layout.oscsrc s.clkAlt ≠ oscsrcExternal ∧
    fieldFlag s.config.layout.diven s.clkLegacy = false

/-- A state right after power-on reset (R60 to R63), whatever the values R61 to R63 leave unspecified. -/
def State.AtReset (s : State) : Prop :=
  s.clkStep = 0 ∧ s.clkStage = .defaultOscillator ∧ s.svcStage = .booting ∧ clockAtReset s ∧
    s.gateGpio = 0 ∧ s.gateUart = 0 ∧
    s.ports.length = nPorts s.config ∧ (∀ p pt, s.ports[p]? = some pt → portAtReset s.config p pt) ∧
    s.channels.length = nChannels s.config ∧ (∀ ch ∈ s.channels, chanAtReset s.config.layout ch) ∧
    s.trace = [] ∧ s.pending = []

/-! The invariant. -/

/-- The number of a service stage (R23). -/
def svcIndex (st : SvcStage) : Nat :=
  match st with
  | .booting => 0
  | .clockReady => 1
  | .channelsReady => 2
  | .greetingSent => 3
  | .echoing => 4

/-- A clock micro-step left over advances inside 0..10, is not the wait gate, and assigns the stage of the table of R22. -/
def microOk (m : Micro) : Bool :=
  match m with
  | .clk k stage _ _ _ => k < 10 && k != 8 && stage.getD (stageOfStep k) == stageOfStep (k + 1)
  | _ => true

/-- The service stages that micro-steps will assign follow one another from stage number `n` (R23: strictly forward). -/
def stagesForward (n : Nat) (ms : List Micro) : Bool :=
  match ms with
  | [] => true
  | .stage st :: rest => svcIndex st == n + 1 && stagesForward (n + 1) rest
  | _ :: rest => stagesForward n rest

/-- The FIFOs of a channel hold at most `cap(c)` bytes (R52). -/
def fifosFit (c : Config) (ch : Channel) : Bool :=
  decide (ch.txq.length ≤ fifoCap c ch) && decide (ch.rxq.length ≤ fifoCap c ch)

/-- The invariant that every step keeps. -/
structure State.Inv (s : State) : Prop where
  /-- The configuration is well formed (R9). -/
  config : configWf s.config = true
  /-- One entry per port (R8). -/
  ports : s.ports.length = nPorts s.config
  /-- One entry per channel (R8). -/
  channels : s.channels.length = nChannels s.config
  /-- `clk_step` is 0..10 (R22). -/
  clkStep : s.clkStep ≤ 10
  /-- `clk_stage` is the function of `clk_step` of R22. -/
  clkStage : s.clkStage = stageOfStep s.clkStep
  /-- The FIFOs hold at most `cap(c)` bytes (R52). -/
  fifos : ∀ ch ∈ s.channels, fifosFit s.config ch = true
  /-- A locked PLL has its status bit set: R220 sets both and R28 never clears the bit. -/
  lockSeen : s.pllLocked = true → s.risPllLock = true
  /-- A locked PLL is powered (R31 (a), R220). -/
  lockPowered : s.pllLocked = true → effPwrdn s = false
  /-- Past the wait gate the lock status has been seen (R160). -/
  gated : 9 ≤ s.clkStep → s.risPllLock = true
  /-- What is left of a command keeps these (R22). -/
  micros : s.pending.all microOk = true
  /-- What is left of the service moves its stage strictly forward (R23). -/
  forward : stagesForward (svcIndex s.svcStage) s.pending = true

/-! What only the sequencer changes, and what agents change too (R231). -/

/-- The part of a channel that no agent writes (R228, R231). -/
structure ChanRegs where
  ctl : Word
  ibrd : Word
  fbrd : Word
  lcrh : Word
  baudLatch : Option (BitVec 16 × BitVec 6)
  deriving DecidableEq, Repr

/-- The registers of a channel. -/
def chanRegsOf (ch : Channel) : ChanRegs :=
  { ctl := ch.ctl, ibrd := ch.ibrd, fbrd := ch.fbrd, lcrh := ch.lcrh, baudLatch := ch.baudLatch }

/-- The part of the state that no agent writes: every register, gate, stage and port (R231). -/
structure SoftView where
  clkLegacy : Word
  clkAlt : Word
  gateGpio : Word
  gateUart : Word
  clkStep : Nat
  clkStage : ClkStage
  svcStage : SvcStage
  ports : List Port
  channels : List ChanRegs
  config : Config
  program : List Word
  deriving DecidableEq, Repr

/-- The registers of the machine. -/
def State.soft (s : State) : SoftView :=
  { clkLegacy := s.clkLegacy, clkAlt := s.clkAlt, gateGpio := s.gateGpio, gateUart := s.gateUart, clkStep := s.clkStep,
    clkStage := s.clkStage, svcStage := s.svcStage, ports := s.ports, channels := s.channels.map chanRegsOf,
    config := s.config, program := s.program }

/-- The hidden part of a channel that agents write too. -/
structure ChanQueues where
  txq : List Byte
  rxq : List Byte
  wireTx : List WireEvent
  deriving DecidableEq, Repr

/-- The queues and the wire log of a channel. -/
def chanQueuesOf (ch : Channel) : ChanQueues := { txq := ch.txq, rxq := ch.rxq, wireTx := ch.wireTx }

/-- The part of the state that agents write (R220, R223, R225). -/
structure HiddenView where
  pllLocked : Bool
  risPllLock : Bool
  queues : List ChanQueues
  deriving DecidableEq, Repr

/-- The lock and the queues of the machine. With `soft`, `trace`, `result`, `schedule`, `drawCount` and `pending` it makes
up the whole state. -/
def State.hidden (s : State) : HiddenView :=
  { pllLocked := s.pllLocked, risPllLock := s.risPllLock, queues := s.channels.map chanQueuesOf }

/-- What a register of plain storage holds, as a read returns it (R57): none for `CLK_RIS`, `FR` and `DR`. -/
def plainWord (s : State) (r : Reg) : Option Word :=
  match r with
  | .ris => none
  | .legacy => some s.clkLegacy
  | .alt => some s.clkAlt
  | .gateGpio => some s.gateGpio
  | .gateUart => some s.gateUart
  | .gpio p .data => s.ports[p]?.map (·.data)
  | .gpio p .dir => s.ports[p]?.map (·.dir)
  | .gpio p .afsel => s.ports[p]?.map (·.afsel)
  | .gpio p .den => s.ports[p]?.map (·.den)
  | .gpio p .lock => s.ports[p]?.map fun pt => if pt.unlocked then 0#32 else 1#32
  | .gpio p .cr => s.ports[p]?.map (·.cr)
  | .gpio p .pctl => s.ports[p]?.map (·.pctl)
  | .uart _ .dr => none
  | .uart _ .fr => none
  | .uart c .ibrd => s.channels[c]?.map (·.ibrd)
  | .uart c .fbrd => s.channels[c]?.map (·.fbrd)
  | .uart c .lcrh => s.channels[c]?.map (·.lcrh)
  | .uart c .ctl => s.channels[c]?.map (·.ctl)

/-- Whether a register that is written takes bit `j` of the word: `AFSEL`, `DEN` and `PCTL` only for committed pins (R42),
`CR` only while unlocked (R41), every other register the whole word. -/
def takesBit (s : State) (r : Reg) (j : Nat) : Bool :=
  match r with
  | .gpio p g =>
    match s.ports[p]?, g with
    | some pt, .afsel => decide (8 ≤ j) || pt.cr.getLsbD j
    | some pt, .den => decide (8 ≤ j) || pt.cr.getLsbD j
    | some pt, .pctl => pt.cr.getLsbD (j / 4)
    | some pt, .cr => pt.unlocked
    | _, _ => true
  | _ => true

/-- A line-control word `v` lowers the capacity of the FIFOs of a channel below the length of one of them (R52). -/
def lowersBelow (c : Config) (ch : Channel) (v : Word) : Prop :=
  let room := if fieldFlag c.layout.fen v then c.fifoDepth else 1
  room < fifoCap c ch ∧ (room < ch.txq.length ∨ room < ch.rxq.length)

/-- Every byte channel `c` was given to send, oldest first: the wire log, then the transmit FIFO (R223, R282). -/
def sent (s : State) (c : Nat) : List Byte :=
  match s.channels[c]? with
  | some ch => ch.wireTx.map (·.byte) ++ ch.txq
  | none => []

/-- A bit number lies outside a field. -/
def outside (f : Field) (j : Nat) : Prop := j < f.lo ∨ f.hi < j

/-- The wire format of the source: 115200 baud 8N1 from 50 MHz (R56). -/
def sourceFormat : WireFormat := { clk := 50000000, int := 27, frac := 8, wlen := 3, stop2 := false, pen := false }

/-! Traces. -/

/-- The read half and the write half of one `MODIFY` in the trace (R96, R143). -/
def modifyTrace (a old new : Word) : List BusEvent :=
  [{ kind := .read, address := a, value := old }, { kind := .write, address := a, value := new }]

/-- One write in the trace. -/
def writeTrace (a v : Word) : List BusEvent := [{ kind := .write, address := a, value := v }]

/-- No write of an address stands in a trace. -/
def noWriteTo (a : Word) (tr : List BusEvent) : Bool := tr.all fun e => e.kind == .read || e.address != a

/-- R271 for channel `c`: every write of a divisor register is followed by a write of `LCRH`. -/
def replayOrder (l : Layout) (c : Nat) (tr : List BusEvent) : Prop :=
  ∀ before after a v, (a = addrOf l (.uart c .ibrd) ∨ a = addrOf l (.uart c .fbrd)) →
    tr = before ++ { kind := .write, address := a, value := v } :: after →
    noWriteTo (addrOf l (.uart c .lcrh)) after = false

/-- The accesses of a trace without their values: which register, read or written. -/
def accesses (tr : List BusEvent) : List (BusKind × Word) := tr.map fun e => (e.kind, e.address)

/-- The two accesses of one `MODIFY` (R143). -/
def modifyOf (a : Word) : List (BusKind × Word) := [(.read, a), (.write, a)]

/-- The issuer's side of a completed command that made `accesses` sequencer steps and `draws` draws: what it returned,
nothing left over, and that many schedule entries used. -/
structure Issued (s t : State) (answer : Option Word) (accesses draws : Nat) : Prop where
  result : t.result = answer
  pending : t.pending = []
  schedule : t.schedule = s.schedule.drop accesses
  drawCount : t.drawCount = s.drawCount + draws

/-- An instruction ends at its first access with the fault `InvalidAddress a` (R86); the last state is the one just before
that access (R242, R256). -/
def FaultsInvalid (i : Instr) (s : State) (a : Word) : Prop :=
  ∃ last, exec i s = .fault (.invalidAddress (some a) last) ∧ last.soft = s.soft ∧ last.hidden = (tick s).hidden ∧
    last.trace = s.trace

/-- An instruction ends at its first access with the fault `Unclocked a` (R87). -/
def FaultsUnclocked (i : Instr) (s : State) (a : Word) : Prop :=
  ∃ last, exec i s = .fault (.unclocked a last) ∧ last.soft = s.soft ∧ last.hidden = (tick s).hidden ∧
    last.trace = s.trace

/-- An instruction ends before any access because a port or channel operand names none (R123, R248 (4)). -/
def FaultsOutOfRange (i : Instr) (s : State) : Prop :=
  ∃ last, exec i s = .fault (.invalidAddress none last) ∧ last.soft = s.soft ∧ last.hidden = s.hidden ∧
    last.trace = s.trace

/-- `WRITE` completes: the registers become `soft'`, what is hidden is what the agents scheduled before the access left,
and the trace holds the one write. With `Issued` this says what every part of the next state is. -/
def WriteDone (s : State) (a v : Word) (soft' : SoftView) : Prop :=
  ∃ t, exec (.write a v) s = .next t ∧ t.soft = soft' ∧ t.hidden = (tick s).hidden ∧
    t.trace = s.trace ++ writeTrace a v ∧ Issued s t none 1 0

/-- The clock sequencer made its micro-step `k` by instruction `i`: one `MODIFY` of the clock-control register at `a`, from
`old` to a word `new` for which `good` holds and which differs from `old` in the field `f` at most; `put new` are the
registers with that word in place. The stages moved on (R22); the queues and the lock are what the agents scheduled before
the two accesses left, but for `pll_locked`, which may fall by the rule of R31; nothing else changed. -/
def ClkStepDone (i : Instr) (s : State) (k : Nat) (f : Field) (put : Word → SoftView) (a old : Word)
    (good : Word → Prop) : Prop :=
  ∃ t new, exec i s = .next t ∧ good new ∧ (∀ j, outside f j → new.getLsbD j = old.getLsbD j) ∧
    t.soft = { put new with clkStep := k + 1, clkStage := stageOfStep (k + 1) } ∧
    t.trace = s.trace ++ modifyTrace a old new ∧ Issued s t none 2 0 ∧
    t.hidden = { (idle 2 s).hidden with
      pllLocked := (idle 2 s).pllLocked && !(effPwrdn t || effOscsrc s != effOscsrc t || xtalCode s != xtalCode t) }

/-- The registers and stages of the clock block after a completed bring-up (R150, R162), whether or not the PLL is locked
still: raw accesses may have unlocked it after the status bit was set (R28, R31). -/
structure ClockProgrammed (s : State) : Prop where
  clkStep : s.clkStep = 10
  clkStage : s.clkStage = .dividerActive
  altsel : fieldFlag s.config.layout.altsel s.clkAlt = true
  bypass : fieldFlag s.config.layout.bypass s.clkAlt = false
  oscsrc : fieldGet s.config.layout.oscsrc s.clkAlt = oscsrcExternal
  pwrdn : fieldFlag s.config.layout.pwrdn s.clkAlt = false
  sysdiv : fieldGet s.config.layout.sysdiv s.clkAlt = sysdivCode sysDivisor
  diven : fieldFlag s.config.layout.diven s.clkLegacy = true
  xtal : fieldGet s.config.layout.xtal s.clkLegacy = s.config.xtalCode16MHz
  risPllLock : s.risPllLock = true

/-- The clock block after a completed bring-up with the PLL locked (R162): the system clock is 50 MHz. -/
structure ClockUp (s : State) : Prop extends ClockProgrammed s where
  pllLocked : s.pllLocked = true
  sysclk : sysclkHz s = some (sysHz : Rat)

/-- A bit number lies outside every field of `CLK_ALT` that the bring-up writes. -/
def outsideAltFields (l : Layout) (j : Nat) : Prop :=
  outside l.altsel j ∧ outside l.bypass j ∧ outside l.oscsrc j ∧ outside l.pwrdn j ∧ outside l.sysdiv j

/-- A bit number lies outside every field of `CLK_LEGACY` that the bring-up writes. -/
def outsideLegacyFields (l : Layout) (j : Nat) : Prop := outside l.diven j ∧ outside l.xtal j

/-- What `CONFIGURE_PINS` makes of a port (R172 to R175, R177): commit bits are added under the mask if it unlocks;
alternate-function, port-control and digital-enable bits change for pins of the mask that are committed, and for no
other pin; `DATA`, `DIR` and every bit above the pins stay. -/
structure PinsConfigured (pt pt' : Port) (mask : Byte) (codes : Word) (digital unlock : Bool) : Prop where
  data : pt'.data = pt.data
  dir : pt'.dir = pt.dir
  unlocked : pt'.unlocked = (pt.unlocked || unlock)
  unlockRan : pt'.unlockRan = (pt.unlockRan || unlock)
  cr : ∀ j, pt'.cr.getLsbD j = (pt.cr.getLsbD j || (unlock && mask.getLsbD j))
  afsel : ∀ j, pt'.afsel.getLsbD j = (pt.afsel.getLsbD j || (mask.getLsbD j && pt'.cr.getLsbD j))
  den : ∀ j, pt'.den.getLsbD j = (pt.den.getLsbD j || (digital && mask.getLsbD j && pt'.cr.getLsbD j))
  pctl : ∀ i k, k < 4 → pt'.pctl.getLsbD (4 * i + k) =
    if mask.getLsbD i && pt'.cr.getLsbD i then codes.getLsbD (4 * i + k) else pt.pctl.getLsbD (4 * i + k)

/-- Channel `c` is configured with latched divisors `bi`, `bf` (R186 to R188): its gate is open, it is enabled, and its
line control is 8 data bits, 1 stop bit, no parity. -/
structure ChannelUp (s : State) (c : Nat) (bi : BitVec 16) (bf : BitVec 6) (fifo : Bool) : Prop where
  clocked : chanClocked s c = true
  regs : ∃ ch, s.channels[c]? = some ch ∧ enabled s.config ch = true ∧ divInt s.config.layout ch = bi ∧
    divFrac s.config.layout ch = bf ∧
    ch.baudLatch = some (bi, bf) ∧ fieldGet s.config.layout.wlen ch.lcrh = wlenCode wordLengthWanted ∧
    fieldFlag s.config.layout.fen ch.lcrh = fifo ∧ fieldFlag s.config.layout.stp2 ch.lcrh = false ∧
    fieldFlag s.config.layout.pen ch.lcrh = false

/-- What `UART_CONFIGURE` of channel `c` on port `p` makes of the machine (R186 to R188): both gates open, the pins
configured (with the unlock exactly if the mask meets a protected pin), the transceiver enabled, the divisors written and
latched. No other bit or register changes, nothing is queued for sending, and with no agent scheduled nothing else
changes at all. -/
def UartConfigured (s t : State) (c p : Nat) (mask : Byte) (f : BitVec 4) (bi : BitVec 16) (bf : BitVec 6) (fifo : Bool)
    (pt : Port) (ch : Channel) (fp fc : Field) : Prop :=
  let unlock := (mask &&& s.config.protectedPins.getD p 0) != 0#8
  ∃ pt' ctl new, ChannelUp t c bi bf fifo ∧ portClocked t p = true ∧
    PinsConfigured pt pt' mask (replicateCode f) true unlock ∧
    (∀ j, outside fp j → t.gateGpio.getLsbD j = s.gateGpio.getLsbD j) ∧
    (∀ j, outside fc j → t.gateUart.getLsbD j = s.gateUart.getLsbD j) ∧
    (∀ j, outside s.config.layout.en j → ctl.getLsbD j = ch.ctl.getLsbD j) ∧
    t.soft = { s.soft with
      gateGpio := t.gateGpio, gateUart := t.gateUart, ports := s.ports.set p pt',
      channels := s.soft.channels.set c
        { ctl := ctl, ibrd := bi.setWidth 32, fbrd := bf.setWidth 32,
          lcrh := lcrhWord s.config.layout 8 fifo, baudLatch := some (bi, bf) } } ∧
    (∀ c', sent t c' = sent s c') ∧ (s.quiet → t.hidden = s.hidden) ∧ t.trace = s.trace ++ new ∧
    accesses new =
      modifyOf (addrOf s.config.layout .gateUart) ++ modifyOf (addrOf s.config.layout .gateGpio) ++
        (if unlock then (BusKind.write, gpioAddr s.config p .lock) :: modifyOf (gpioAddr s.config p .cr) else []) ++
        modifyOf (gpioAddr s.config p .afsel) ++ modifyOf (gpioAddr s.config p .pctl) ++
        modifyOf (gpioAddr s.config p .den) ++ modifyOf (chanAddr s.config c .ctl) ++
        [(.write, chanAddr s.config c .ibrd), (.write, chanAddr s.config c .fbrd), (.write, chanAddr s.config c .lcrh)] ∧
    Issued s t none new.length 0 ∧
    (s.config.pinmux[c]? = some { port := p, pins := mask, fcode := f } →
      (unlock = true ∨ ∀ i, i < 8 → mask.getLsbD i = true → pt.cr.getLsbD i = true) → pinRouted t c = true)

/-- The lock event that ends the wait of `BRING_UP_CLOCK`: it is scheduled once `CLK_PLL_ON` has made its two accesses,
the eleventh and the twelfth of the bring-up (R156, R220). -/
def lockComes (s : State) : Prop := ∃ k evs, 12 ≤ k ∧ s.schedule[k]? = some evs ∧ AgentEvent.pllLock ∈ evs

/-- The wait of `BRING_UP_CLOCK` is sure to end: the sticky status bit is set already (R28), or the PLL is not locked and
its lock comes. -/
def waitEnds (s : State) : Prop := s.risPllLock = true ∨ (s.pllLocked = false ∧ lockComes s)

/-- The bytes that a schedule has the line of channel `c` present, in order. -/
def lineBytes (c : Nat) (sched : List (List AgentEvent)) : List Byte :=
  sched.flatten.filterMap fun e =>
    match e with
    | .line c' b => if c' = c then some b else none
    | _ => none

/-! Infinite runs and fairness (R281). -/

/-- An infinite run: before each step the environment gives the agents' steps for it, whatever it likes (R10, R281). -/
def IsRun (ρ : Nat → State) : Prop :=
  ∀ n, ∃ sched, step { ρ n with schedule := sched } = .next (ρ (n + 1))

/-- A command is under way: it is the next one, or these micro-steps of it are left. -/
def underWay (s : State) (i : Instr) (left : List Micro) : Prop :=
  s.pending = left ∨ (s.pending = [] ∧ ∃ rest, decode s.program = .ok (i, rest))

/-- `PLL_FAIR` (R281): a lock step that stays enabled is eventually taken. Taking it ends its being enabled (R220), so it
does not stay enabled for ever. -/
def PllFair (ρ : Nat → State) : Prop := ∀ n, ∃ m, n ≤ m ∧ pllEnabled (ρ m) = false

/-- The transmit step of channel `c` is enabled (R223). -/
def canTransmit (s : State) (c : Nat) : Bool :=
  match s.channels[c]? with
  | some ch => transmitEnabled s c ch
  | none => false

/-- The bytes that channel `c` put on its wire, oldest first (R56). -/
def wireBytes (s : State) (c : Nat) : List Byte :=
  match s.channels[c]? with
  | some ch => ch.wireTx.map (·.byte)
  | none => []

/-- `TX_FAIR(c)` (R281): a transmit step of channel `c` that stays enabled is eventually taken, which the wire log shows
(only that step adds to it, R223). -/
def TxFair (ρ : Nat → State) (c : Nat) : Prop :=
  ∀ n, ∃ m, n ≤ m ∧ (canTransmit (ρ m) c = false ∨ (wireBytes (ρ m) c).length < (wireBytes (ρ (m + 1)) c).length)

/-- Channel `c` has its gate open and is enabled (R44, R45). -/
def channelRuns (s : State) (c : Nat) : Bool :=
  chanClocked s c && (s.channels[c]?).any (enabled s.config)

/-- The echo loop stands between two steps with these bytes read and not yet sent: none, or the one just received. -/
def InHand (s : State) (hand : List Byte) : Prop :=
  (s.pending = [.echo] ∧ hand = []) ∨ ∃ b, s.pending = echoNext s (some b) ∧ hand = [b]

/-- The receive FIFO of channel `c`. -/
def received (s : State) (c : Nat) : List Byte :=
  match s.channels[c]? with
  | some ch => ch.rxq
  | none => []

/-- Every event on the wire of channel `c` has the source's format (R212). -/
def wireInSourceFormat (s : State) (c : Nat) : Prop :=
  ∀ ch, s.channels[c]? = some ch → ∀ e ∈ ch.wireTx, e.fmt = some sourceFormat

/-- What no step undoes: the configuration stays, the trace and the wire logs only grow, the stages only move forward and
the lock status is sticky (R11, R21 to R23, R28, R56, R96). -/
structure Forward (s t : State) : Prop where
  config : t.config = s.config
  trace : s.trace <+: t.trace
  clkStep : s.clkStep ≤ t.clkStep
  svcStage : svcIndex s.svcStage ≤ svcIndex t.svcStage
  sticky : s.risPllLock = true → t.risPllLock = true
  wires : ∀ (c : Nat) (ch : Channel), s.channels[c]? = some ch → ∃ ch' : Channel, t.channels[c]? = some ch' ∧ ch.wireTx <+: ch'.wireTx

end Sys2Proof.Machine
end

