-- ==== Sys2Proof/Certificates/Slice0/Obligations.lean ====
section
/-! DEFINITION. The statements about this machine, from the numbered rules of spec/. A statement with a hypothesis on
`configWf` holds for every well-formed layout (00_scope.md R9); `idle n s` is the state after the agents of the next `n`
schedule entries have stepped (log 1), `tick s` the same for one. -/

open Sys2Proof Sys2Proof.Machine

/-! Encoding. -/

/-- R112 to R114: no bit of an encoding is dropped, for every operation and every operand. -/
def Obligations.DecodeReadsBackEveryEncoding : Prop :=
  ∀ (i : Instr) (rest : List Word), i.wellFormed = true → decode (encode i ++ rest) = .ok (i, rest)

/-- R110, R112 to R114: a command has one spelling, and its length is a function of its opcode. -/
def Obligations.EveryDecodedCommandIsItsEncoding : Prop :=
  ∀ (ws rest : List Word) (i : Instr), decode ws = .ok (i, rest) →
    ws = encode i ++ rest ∧ i.wellFormed = true ∧ (encode i).length = commandLength (bits (ws.headD 0) 7 0)

/-- Words of 95_test_vectors.md (E1, E3, E9, E11, E15, E20) decode to the operations they are listed for. -/
def Obligations.ListedCommandWordsDecode : Prop :=
  decode [0x00000001, 0x400FE070] = .ok (.read 0x400FE070, []) ∧
    decode [0x00000003, 0x400FE060, 0x540, 0x7C0] = .ok (.modify 0x400FE060 0x540 0x7C0, []) ∧
    decode [0x030C0321, 0x11000000] = .ok (.configurePins 3 0xC0 0x11000000 true true, []) ∧
    decode [0x19103030, 0x0008001B] = .ok (.uartConfigure 0 0 0x03 1 27 8 8 1 false true, []) ∧
    decode [0x00041031] = .ok (.transmitByte 0 0x41, []) ∧
    decode [0x00000042, 0x000003E8] = .ok (.delay 1000, [])

/-- R122: words that spell no operation are refused, and every other header with its operand words spells one. -/
def Obligations.IllegalCommandsAreRefused : Prop :=
  (∀ (s : State) (w0 : Word) (ws : List Word), s.pending = [] → s.program = w0 :: ws → illegalCommand w0 ws →
    ∃ why, step s = .refused (.illegalCommand why)) ∧
  (∀ (w0 : Word) (ws : List Word), ¬ illegalCommand w0 ws → commandLength (bits w0 7 0) ≤ ws.length + 1 →
    ∃ i rest, decode (w0 :: ws) = .ok (i, rest))

/-! The step. -/

/-- R144: commands run in order, the next one only after the last has run to its end. -/
def Obligations.StepRunsTheDecodedCommand : Prop :=
  ∀ s : State,
    (∀ i rest, s.pending = [] → decode s.program = .ok (i, rest) → step s = exec i { s with program := rest }) ∧
    (∀ why, s.pending = [] → s.program ≠ [] → decode s.program = .error why → step s = .refused (.illegalCommand why)) ∧
    (s.pending = [] → s.program = [] → step s = .next (tick s)) ∧
    (s.pending ≠ [] → step s = runMicros s.pending s)

/-- From every state, reachable or not, in which the invariant holds, every step keeps it. -/
def Obligations.EveryStepKeepsTheInvariant : Prop := ∀ s t : State, s.Inv → step s = .next t → t.Inv

/-- The invariant holds right after reset, under every well-formed configuration (reset values: log 9). -/
def Obligations.ResetSatisfiesTheInvariant : Prop :=
  State.reset.Inv ∧ ∀ c : Config, configWf c = true → (State.resetOf c).Inv

/-- R11, R21 to R23, R28, R56, R96: the configuration is fixed, the trace and the wire logs only grow, the stages only
move forward, the lock status bit is never cleared. -/
def Obligations.EveryStepMovesForward : Prop := ∀ s t : State, s.Inv → step s = .next t → Forward s t

/-- R231: a register, a pin group's lock and a latched divisor pair change only by a bus write, and the write stands in
the trace. Nothing changes by itself. -/
def Obligations.RegistersChangeOnlyByBusWrites : Prop :=
  ∀ s t : State, step s = .next t → ∃ new, t.trace = s.trace ++ new ∧
    (∀ r ∈ allRegs s.config.layout, noWriteTo (addrOf s.config.layout r) new = true → plainWord t r = plainWord s r) ∧
    (∀ c, c < nChannels s.config → noWriteTo (addrOf s.config.layout (.uart c .lcrh)) new = true →
      (t.channels[c]?).map (·.baudLatch) = (s.channels[c]?).map (·.baudLatch))

/-! Reset. -/

/-- R60 to R63, with `sysclk_hz` of R61: of the reference configuration, and of every well-formed one, whatever the places
its layout gives the fields. -/
def Obligations.ResetIsAsTheSpecSays : Prop :=
  (State.reset.AtReset ∧ sysclkHz State.reset = some State.reset.config.intOscHz) ∧
    ∀ c : Config, configWf c = true → (State.resetOf c).AtReset ∧ sysclkHz (State.resetOf c) = some c.intOscHz

/-- R261: right after reset no agent is enabled, whatever the bits that R61 to R63 leave unspecified. -/
def Obligations.NothingMovesAtReset : Prop :=
  ∀ s : State, configWf s.config = true → s.AtReset →
    (∀ e, agentStep s e = s) ∧ (∀ n, (idle n s).soft = s.soft ∧ (idle n s).hidden = s.hidden) ∧
    sysclkHz s = some s.config.intOscHz ∧
    (∀ ch ∈ s.channels, txFull s.config ch = false ∧ rxEmpty ch = true) ∧
    (∀ c u, c < nChannels s.config → clocked s (.uart c u) = false) ∧
    (∀ p g, p < nPorts s.config → clocked s (.gpio p g) = false) ∧
    (∃ t, exec .isPllLocked s = .next t ∧ t.result = some 0#32)

/-! The bus. -/

/-- R86: an access to an address that is no register, and a write of a read-only register, is the fault
`InvalidAddress`; `MODIFY` of a read-only register has read it by then (R143, R256). -/
def Obligations.InvalidAccessesFault : Prop :=
  ∀ (s : State) (a v st cl : Word),
    (locate s.config.layout a = none →
      FaultsInvalid (.read a) s a ∧ FaultsInvalid (.write a v) s a ∧ FaultsInvalid (.modify a st cl) s a) ∧
    ((locate s.config.layout a = some .ris ∨ ∃ c, locate s.config.layout a = some (.uart c .fr)) →
      FaultsInvalid (.write a v) s a ∧
      (∀ r, locate s.config.layout a = some r → clocked s r = true → s.channels.length = nChannels s.config →
        ∃ last w, exec (.modify a st cl) s = .fault (.invalidAddress (some a) last) ∧ last.soft = s.soft ∧
          last.trace = s.trace ++ [{ kind := .read, address := a, value := w }]))

/-- R87, R248: an access to a register whose gate is closed is the fault `Unclocked`; a write of `FR` is invalid first. -/
def Obligations.UnclockedAccessesFault : Prop :=
  ∀ (s : State) (r : Reg) (v st cl : Word), configWf s.config = true → r ∈ allRegs s.config.layout →
    clocked s r = false →
    FaultsUnclocked (.read (addrOf s.config.layout r)) s (addrOf s.config.layout r) ∧
    FaultsUnclocked (.modify (addrOf s.config.layout r) st cl) s (addrOf s.config.layout r) ∧
    (writable r = true → FaultsUnclocked (.write (addrOf s.config.layout r) v) s (addrOf s.config.layout r)) ∧
    (writable r = false → FaultsInvalid (.write (addrOf s.config.layout r) v) s (addrOf s.config.layout r))

/-- R84, R141: `READ` of a register of plain storage, and of `LOCK`, returns the stored word and changes nothing. -/
def Obligations.ReadReturnsTheStoredWord : Prop :=
  ∀ (s : State) (r : Reg) (w : Word), configWf s.config = true → r ∈ allRegs s.config.layout → clocked s r = true →
    plainWord s r = some w →
    ∃ t, exec (.read (addrOf s.config.layout r)) s = .next t ∧ t.soft = s.soft ∧ t.hidden = (tick s).hidden ∧
      t.trace = s.trace ++ [{ kind := .read, address := addrOf s.config.layout r, value := w }] ∧
      Issued s t (some w) 1 0

/-- R28, R49: `READ` of `CLK_RIS` and of `FR` returns the status flags of that instant; every other bit is a draw of the
environment (log 3), whatever it is. -/
def Obligations.ReadOfStatusRegistersReturnsTheFlags : Prop :=
  ∀ s : State, configWf s.config = true →
    (∃ t w, exec (.read (addrOf s.config.layout .ris)) s = .next t ∧
      fieldFlag s.config.layout.pllLock w = (tick s).risPllLock ∧
      (∀ j, j ≠ s.config.layout.pllLock.lo → w.getLsbD j = (Config.freeWord s.drawCount).getLsbD j) ∧
      t.soft = s.soft ∧ t.hidden = (tick s).hidden ∧
      t.trace = s.trace ++ [{ kind := .read, address := addrOf s.config.layout .ris, value := w }] ∧
      Issued s t (some w) 1 1) ∧
    (∀ c ch, c < nChannels s.config → chanClocked s c = true → (tick s).channels[c]? = some ch →
      ∃ t w, exec (.read (addrOf s.config.layout (.uart c .fr))) s = .next t ∧
        fieldFlag s.config.layout.txff w = decide (ch.txq.length = fifoCap s.config ch) ∧
        fieldFlag s.config.layout.rxfe w = decide (ch.rxq.length = 0) ∧
        (∀ j, j ≠ s.config.layout.txff.lo → j ≠ s.config.layout.rxfe.lo →
          w.getLsbD j = (Config.freeWord s.drawCount).getLsbD j) ∧
        t.soft = s.soft ∧ t.hidden = (tick s).hidden ∧
        t.trace = s.trace ++ [{ kind := .read, address := addrOf s.config.layout (.uart c .fr), value := w }] ∧
        Issued s t (some w) 1 1)

/-- R51: `READ` of the data register pops the oldest received byte; with none the word is a draw of the environment
(log 3), whatever it is, and nothing changes. -/
def Obligations.ReadOfDataRegisterPopsTheOldestByte : Prop :=
  ∀ (s : State) (c : Nat) (ch : Channel), configWf s.config = true → c < nChannels s.config → chanClocked s c = true →
    (tick s).channels[c]? = some ch →
    ∃ t w, exec (.read (addrOf s.config.layout (.uart c .dr))) s = .next t ∧
      (∀ b q, ch.rxq = b :: q → w.setWidth 8 = b) ∧
      (∀ j, (ch.rxq = [] ∨ 8 ≤ j) → w.getLsbD j = (Config.freeWord s.drawCount).getLsbD j) ∧
      t.soft = s.soft ∧
      t.hidden = { (tick s).hidden with
        queues := (tick s).hidden.queues.set c { chanQueuesOf ch with rxq := ch.rxq.tail } } ∧
      t.trace = s.trace ++ [{ kind := .read, address := addrOf s.config.layout (.uart c .dr), value := w }] ∧
      Issued s t (some w) 1 1

/-- R25, R26, R31: `WRITE` of a clock-control register stores the word, and `pll_locked` falls in the same write if the PLL
is powered down after it or the effective source or the crystal code changed. -/
def Obligations.WriteOfClockControlMayUnlockThePll : Prop :=
  ∀ (s : State) (v : Word), configWf s.config = true →
    (∃ t, exec (.write (addrOf s.config.layout .legacy) v) s = .next t ∧ t.soft = { s.soft with clkLegacy := v } ∧
      t.hidden = { (tick s).hidden with
        pllLocked := (tick s).pllLocked && !(effPwrdn t || effOscsrc s != effOscsrc t || xtalCode s != xtalCode t) } ∧
      t.trace = s.trace ++ writeTrace (addrOf s.config.layout .legacy) v ∧ Issued s t none 1 0) ∧
    (∃ t, exec (.write (addrOf s.config.layout .alt) v) s = .next t ∧ t.soft = { s.soft with clkAlt := v } ∧
      t.hidden = { (tick s).hidden with
        pllLocked := (tick s).pllLocked && !(effPwrdn t || effOscsrc s != effOscsrc t || xtalCode s != xtalCode t) } ∧
      t.trace = s.trace ++ writeTrace (addrOf s.config.layout .alt) v ∧ Issued s t none 1 0)

/-- R29, R30, R35, R36, R45 to R47: `WRITE` of a register of plain storage stores the whole word and does nothing else;
a divisor write does not touch the latched divisors. -/
def Obligations.PlainWritesStoreTheWord : Prop :=
  ∀ (s : State) (v : Word), configWf s.config = true →
    WriteDone s (addrOf s.config.layout .gateGpio) v { s.soft with gateGpio := v } ∧
    WriteDone s (addrOf s.config.layout .gateUart) v { s.soft with gateUart := v } ∧
    (∀ p pt, p < nPorts s.config → portClocked s p = true → s.ports[p]? = some pt →
      WriteDone s (addrOf s.config.layout (.gpio p .data)) v { s.soft with ports := s.ports.set p { pt with data := v } } ∧
      WriteDone s (addrOf s.config.layout (.gpio p .dir)) v { s.soft with ports := s.ports.set p { pt with dir := v } }) ∧
    (∀ c ch, c < nChannels s.config → chanClocked s c = true → s.channels[c]? = some ch →
      WriteDone s (addrOf s.config.layout (.uart c .ctl)) v
        { s.soft with channels := s.soft.channels.set c { chanRegsOf ch with ctl := v } } ∧
      WriteDone s (addrOf s.config.layout (.uart c .ibrd)) v
        { s.soft with channels := s.soft.channels.set c { chanRegsOf ch with ibrd := v } } ∧
      WriteDone s (addrOf s.config.layout (.uart c .fbrd)) v
        { s.soft with channels := s.soft.channels.set c { chanRegsOf ch with fbrd := v } })

/-- R42: a write of `AFSEL`, `DEN` or `PCTL` changes only the bits of committed pins, and the bits above the pins. -/
def Obligations.CommitFilterKeepsUncommittedPins : Prop :=
  ∀ (s : State) (v : Word) (p : Nat) (pt : Port), configWf s.config = true → p < nPorts s.config →
    portClocked s p = true → s.ports[p]? = some pt →
    (∃ w, WriteDone s (addrOf s.config.layout (.gpio p .afsel)) v
        { s.soft with ports := s.ports.set p { pt with afsel := w } } ∧
      ∀ j, w.getLsbD j = if j < 8 ∧ pt.cr.getLsbD j = false then pt.afsel.getLsbD j else v.getLsbD j) ∧
    (∃ w, WriteDone s (addrOf s.config.layout (.gpio p .den)) v
        { s.soft with ports := s.ports.set p { pt with den := w } } ∧
      ∀ j, w.getLsbD j = if j < 8 ∧ pt.cr.getLsbD j = false then pt.den.getLsbD j else v.getLsbD j) ∧
    (∃ w, WriteDone s (addrOf s.config.layout (.gpio p .pctl)) v
        { s.soft with ports := s.ports.set p { pt with pctl := w } } ∧
      ∀ i k, i < 8 → k < 4 →
        w.getLsbD (4 * i + k) = if pt.cr.getLsbD i then v.getLsbD (4 * i + k) else pt.pctl.getLsbD (4 * i + k))

/-- R40, R41: the key unlocks and any other word locks, `LOCK` reads 0 unlocked and 1 locked, and `CR` takes a write only
while unlocked. -/
def Obligations.LockRegisterGuardsCommit : Prop :=
  ∀ (s : State) (v : Word) (p : Nat) (pt : Port), configWf s.config = true → p < nPorts s.config →
    portClocked s p = true → s.ports[p]? = some pt →
    WriteDone s (addrOf s.config.layout (.gpio p .lock)) v
      { s.soft with ports := s.ports.set p { pt with unlocked := v == s.config.unlockKey } } ∧
    (∃ t, exec (.read (addrOf s.config.layout (.gpio p .lock))) s = .next t ∧ t.soft = s.soft ∧
      t.result = some (if pt.unlocked then 0#32 else 1#32)) ∧
    (pt.unlocked = true → WriteDone s (addrOf s.config.layout (.gpio p .cr)) v
      { s.soft with ports := s.ports.set p { pt with cr := v } }) ∧
    (pt.unlocked = false → WriteDone s (addrOf s.config.layout (.gpio p .cr)) v s.soft) ∧
    (∃ t, exec (.read (addrOf s.config.layout (.gpio p .cr))) s = .next t ∧ t.soft = s.soft ∧ t.result = some pt.cr)

/-- R48, R52, R53: a write of `LCRH` stores the word and latches the divisor fields, whatever the value; it is refused
exactly where it lowers the FIFO capacity below a queue's length. -/
def Obligations.LineControlWriteLatchesTheDivisors : Prop :=
  ∀ (s : State) (v : Word) (c : Nat) (ch : Channel), configWf s.config = true → c < nChannels s.config →
    chanClocked s c = true → (tick s).channels[c]? = some ch →
    (¬ lowersBelow s.config ch v → WriteDone s (addrOf s.config.layout (.uart c .lcrh)) v
      { s.soft with channels := s.soft.channels.set c { chanRegsOf ch with
          lcrh := v, baudLatch := some (ch.ibrd.extractLsb' 0 16, ch.fbrd.extractLsb' 0 6) } }) ∧
    (lowersBelow s.config ch v → exec (.write (addrOf s.config.layout (.uart c .lcrh)) v) s = .refused (.fifoShrink c))

/-- R50: a write of the data register appends `v[7:0]` to the transmit FIFO if it has room, and else changes nothing. -/
def Obligations.WriteOfDataRegisterPushesOneByte : Prop :=
  ∀ (s : State) (v : Word) (c : Nat) (ch : Channel), configWf s.config = true → c < nChannels s.config →
    chanClocked s c = true → (tick s).channels[c]? = some ch →
    ∃ t, exec (.write (addrOf s.config.layout (.uart c .dr)) v) s = .next t ∧ t.soft = s.soft ∧
      t.hidden = { (tick s).hidden with queues := (tick s).hidden.queues.set c { chanQueuesOf ch with
        txq := if ch.txq.length < fifoCap s.config ch then ch.txq ++ [v.setWidth 8] else ch.txq } } ∧
      t.trace = s.trace ++ writeTrace (addrOf s.config.layout (.uart c .dr)) v ∧ Issued s t none 1 0

/-- R143: `MODIFY` is `READ`, then `WRITE` of `(old & ~clear_mask) | set_mask`, at every address; if the read faults the
write does not happen. -/
def Obligations.ModifyIsReadThenWrite : Prop :=
  ∀ (s : State) (a st cl : Word), s.pending = [] →
    (∀ t old, exec (.read a) s = .next t → t.result = some old →
      exec (.modify a st cl) s = exec (.write a ((old &&& ~~~cl) ||| st)) t) ∧
    (∀ f, exec (.read a) s = .fault f → exec (.modify a st cl) s = .fault f)

/-- R143: `MODIFY` of a register that reads as it is stored completes, writes back every bit outside its masks as read, sets
the bits of `set_mask` even where both masks have them, clears the other bits of `clear_mask`, and leaves every other
register alone. The register then holds each written bit that it takes (R41, R42) and its old bit elsewhere. `LOCK` alone
stores no word: `MODIFY` of it, with masks or without, unlocks if the word written is the key and locks otherwise (R40). A
write of `LCRH` that lowers the FIFO capacity below a queue's length at that instant is refused (R52). -/
def Obligations.ModifyChangesOnlyMaskedBits : Prop :=
  ∀ (s : State) (r : Reg) (w st cl : Word), configWf s.config = true → r ∈ allRegs s.config.layout →
    writable r = true → clocked s r = true → plainWord s r = some w →
    ∃ new : Word,
      (∀ j, new.getLsbD j = if st.getLsbD j then true else if cl.getLsbD j then false else w.getLsbD j) ∧
      ((∀ c ch, r = .uart c .lcrh → (idle 2 s).channels[c]? = some ch → ¬ lowersBelow s.config ch new) →
        ∃ t held, exec (.modify (addrOf s.config.layout r) st cl) s = .next t ∧
          t.trace = s.trace ++ modifyTrace (addrOf s.config.layout r) w new ∧ Issued s t none 2 0 ∧
          (∀ r' ∈ allRegs s.config.layout, r' ≠ r → plainWord t r' = plainWord s r') ∧
          (∀ c, sent t c = sent s c) ∧ plainWord t r = some held ∧
          ((∀ p, r ≠ .gpio p .lock) →
            ∀ j, held.getLsbD j = if takesBit s r j then new.getLsbD j else w.getLsbD j) ∧
          (∀ p, r = .gpio p .lock → held = if new = s.config.unlockKey then 0#32 else 1#32)) ∧
      (∀ c ch, r = .uart c .lcrh → (idle 2 s).channels[c]? = some ch → lowersBelow s.config ch new →
        exec (.modify (addrOf s.config.layout r) st cl) s = .refused (.fifoShrink c))

/-! The clock. -/

/-- R151, R152, R155, R156, R157, R161: the micro-steps on `CLK_ALT`, in turn. -/
def Obligations.AlternateClockMicroSteps : Prop :=
  ∀ s : State, configWf s.config = true → s.clkStage = stageOfStep s.clkStep →
    let l := s.config.layout
    let put := fun w => { s.soft with clkAlt := w }
    (s.clkStep = 0 → ClkStepDone .clkSelAlt s 0 l.altsel put (addrOf l .alt) s.clkAlt fun w => fieldFlag l.altsel w = true) ∧
    (s.clkStep = 1 → ClkStepDone .clkBypassOn s 1 l.bypass put (addrOf l .alt) s.clkAlt fun w => fieldFlag l.bypass w = true) ∧
    (s.clkStep = 4 → ClkStepDone .clkSrcExt s 4 l.oscsrc put (addrOf l .alt) s.clkAlt fun w => fieldGet l.oscsrc w = 0) ∧
    (s.clkStep = 5 → ClkStepDone .clkPllOn s 5 l.pwrdn put (addrOf l .alt) s.clkAlt fun w => fieldFlag l.pwrdn w = false) ∧
    (s.clkStep = 6 → ClkStepDone .clkSetDiv s 6 l.sysdiv put (addrOf l .alt) s.clkAlt fun w => fieldGet l.sysdiv w = 3) ∧
    (s.clkStep = 9 → ClkStepDone .clkBypassOff s 9 l.bypass put (addrOf l .alt) s.clkAlt fun w => fieldFlag l.bypass w = false)

/-- R153, R154, R158: the micro-steps on `CLK_LEGACY`, in turn. -/
def Obligations.LegacyClockMicroSteps : Prop :=
  ∀ s : State, configWf s.config = true → s.clkStage = stageOfStep s.clkStep →
    let l := s.config.layout
    let put := fun w => { s.soft with clkLegacy := w }
    (s.clkStep = 2 → ClkStepDone .clkDivenOff s 2 l.diven put (addrOf l .legacy) s.clkLegacy fun w => fieldFlag l.diven w = false) ∧
    (s.clkStep = 3 → ClkStepDone .clkSetXtal s 3 l.xtal put (addrOf l .legacy) s.clkLegacy fun w =>
      fieldGet l.xtal w = s.config.xtalCode16MHz) ∧
    (s.clkStep = 7 → ClkStepDone .clkDivenOn s 7 l.diven put (addrOf l .legacy) s.clkLegacy fun w => fieldFlag l.diven w = true)

/-- R160: `CLK_WAIT_LOCK` reads `CLK_RIS` until the first read that shows `PLLLOCK`, here the one after `k` others, writes
nothing and moves the stage on. -/
def Obligations.WaitLockEndsWithTheFirstLockedRead : Prop :=
  ∀ (s : State) (k : Nat), configWf s.config = true → s.clkStep = 8 → k ≤ s.schedule.length →
    (∀ j, j < k → (idle (j + 1) s).risPllLock = false) → (idle (k + 1) s).risPllLock = true →
    ∃ t reads, exec .clkWaitLock s = .next t ∧ t.soft = { s.soft with clkStep := 9, clkStage := .pllLocked } ∧
      t.hidden = (idle (k + 1) s).hidden ∧ t.trace = s.trace ++ reads ∧ reads.length = k + 1 ∧
      (∀ e ∈ reads, e.kind = .read ∧ e.address = addrOf s.config.layout .ris) ∧
      reads.map (fun e => fieldFlag s.config.layout.pllLock e.value) = List.replicate k false ++ [true] ∧
      Issued s t none (k + 1) (k + 1)

/-- R244: a wait that no agent ends goes on for ever; nothing times out, and nothing but the trace changes. How many
reads one step makes is the model's choice (log 8). -/
def Obligations.BusyWaitsNeverGiveUp : Prop :=
  ∀ s : State, configWf s.config = true → s.quiet →
    (s.clkStep = 8 → s.risPllLock = false →
      (∃ t, exec .clkWaitLock s = .next t ∧ t.pending = [.clkWait] ∧ t.soft = s.soft ∧ t.hidden = s.hidden) ∧
      ∀ rest n, s.pending = .clkWait :: rest → ∃ t, runsTo n s t ∧ t.pending = s.pending ∧ t.soft = s.soft ∧
        t.hidden = s.hidden ∧ t.schedule = []) ∧
    (∀ c ch, c < nChannels s.config → chanClocked s c = true → s.channels[c]? = some ch → txFull s.config ch = true →
      (∀ b, ∃ t, exec (.transmitByte c b) s = .next t ∧ t.pending = transmitSteps s.config c b ∧ t.soft = s.soft ∧
        t.hidden = s.hidden) ∧
      ∀ rest n, s.pending = .txWait c :: rest → ∃ t, runsTo n s t ∧ t.pending = s.pending ∧ t.soft = s.soft ∧
        t.hidden = s.hidden ∧ t.schedule = [])

/-- R164, R205: a clock operation out of its one forward order, and the service not from reset, are refused. -/
def Obligations.OutOfOrderClockOperationsAreRefused : Prop :=
  ∀ s : State,
    (∀ i k, (i, k) ∈ [(Instr.clkSelAlt, 0), (.clkBypassOn, 1), (.clkDivenOff, 2), (.clkSetXtal, 3), (.clkSrcExt, 4),
        (.clkPllOn, 5), (.clkSetDiv, 6), (.clkDivenOn, 7), (.clkWaitLock, 8), (.clkBypassOff, 9), (.bringUpClock, 0)] →
      s.clkStep ≠ k → exec i s = .refused .configurationOrderingViolation) ∧
    (¬ (s.svcStage = .booting ∧ s.clkStep = 0) → exec .runEchoService s = .refused .configurationOrderingViolation)

/-- R150, R159, R162: at `clk_step` 0 `BRING_UP_CLOCK` makes its writes in the one order and completes as soon as it reads
the status bit, else it is still waiting. When it completes, every register is as R162 says and every bit outside the
fields it names is as before; if the PLL is locked then, `sysclk_hz` is 50 000 000. From reset that is always so, as R162
derives, and it completes exactly if the PLL locks after `CLK_PLL_ON`; raw accesses before it may have left the sticky
status bit set over a PLL that is not locked (R28, R31). Which schedule entries come after `CLK_PLL_ON` is counted as log 1
says, and that a wait the schedule does not end leaves the step is log 8's cut. -/
def Obligations.BringUpClockReaches50MHz : Prop :=
  ∀ s : State, configWf s.config = true → s.clkStep = 0 →
    ∃ t, exec .bringUpClock s = .next t ∧ t.result = none ∧
      ((t.pending = [] ∧ t.risPllLock = true) ∨
        (t.pending = [.clkWait, bypassOffStep s.config] ∧ t.clkStep = 8 ∧ t.clkStage = .pllPoweringUp ∧
          t.risPllLock = false ∧ t.schedule = [])) ∧
      (waitEnds s → t.pending = []) ∧
      (t.pending = [] → ClockProgrammed t ∧ (t.pllLocked = true → ClockUp t) ∧
        (∀ j, outsideAltFields s.config.layout j → t.clkAlt.getLsbD j = s.clkAlt.getLsbD j) ∧
        (∀ j, outsideLegacyFields s.config.layout j → t.clkLegacy.getLsbD j = s.clkLegacy.getLsbD j) ∧
        t.soft = { s.soft with
          clkLegacy := t.clkLegacy, clkAlt := t.clkAlt, clkStep := 10, clkStage := .dividerActive } ∧
        (∀ c, sent t c = sent s c) ∧ (s.quiet → t.hidden.queues = s.hidden.queues) ∧
        ∃ new, t.trace = s.trace ++ new ∧
          (accesses new).filter (fun e => e.1 == .write) = ([.alt, .alt, .legacy, .legacy, .alt, .alt, .alt, .legacy, .alt].map
            fun r => (BusKind.write, addrOf s.config.layout r))) ∧
      (s.AtReset → (t.pending = [] ↔ lockComes s) ∧
        (t.pending = [] → ClockUp t ∧ t.hidden = { s.hidden with pllLocked := true, risPllLock := true }))

/-- R163: `IS_PLL_LOCKED` is one read, and answers the sticky status bit of that instant. -/
def Obligations.IsPllLockedAnswersTheStatusBit : Prop :=
  ∀ s : State, configWf s.config = true →
    ∃ t w, exec .isPllLocked s = .next t ∧ t.soft = s.soft ∧ t.hidden = (tick s).hidden ∧
      t.trace = s.trace ++ [{ kind := .read, address := addrOf s.config.layout .ris, value := w }] ∧
      Issued s t (some (if (tick s).risPllLock then 1#32 else 0#32)) 1 1

/-! Ports and pins. -/

/-- R171: `ENABLE_PORT` opens the gate of its port and leaves every other bit of `GATE_GPIO` as it was. -/
def Obligations.EnablePortOpensOneGate : Prop :=
  ∀ (s : State) (p : Nat) (f : Field), configWf s.config = true → s.config.layout.gatePort[p]? = some f →
    ∃ t new, exec (.enablePort p) s = .next t ∧ portClocked t p = true ∧
      (∀ j, outside f j → new.getLsbD j = s.gateGpio.getLsbD j) ∧ t.soft = { s.soft with gateGpio := new } ∧
      t.hidden = (idle 2 s).hidden ∧
      t.trace = s.trace ++ modifyTrace (addrOf s.config.layout .gateGpio) s.gateGpio new ∧ Issued s t none 2 0

/-- R172 to R175, R177: `CONFIGURE_PINS` makes its accesses in the one order and changes no bit outside its mask. -/
def Obligations.ConfigurePinsTouchesOnlyItsPins : Prop :=
  ∀ (s : State) (p : Nat) (pt : Port) (mask : Byte) (codes : Word) (digital unlock : Bool), configWf s.config = true →
    p < nPorts s.config → portClocked s p = true → s.ports[p]? = some pt →
    ∃ t pt' new, exec (.configurePins p mask codes digital unlock) s = .next t ∧
      PinsConfigured pt pt' mask codes digital unlock ∧ t.soft = { s.soft with ports := s.ports.set p pt' } ∧
      t.trace = s.trace ++ new ∧
      accesses new =
        (if unlock then (BusKind.write, gpioAddr s.config p .lock) :: modifyOf (gpioAddr s.config p .cr) else []) ++
          modifyOf (gpioAddr s.config p .afsel) ++ modifyOf (gpioAddr s.config p .pctl) ++
          (if digital then modifyOf (gpioAddr s.config p .den) else []) ∧
      (∀ c, sent t c = sent s c) ∧ (s.quiet → t.hidden = s.hidden) ∧ Issued s t none new.length 0

/-- R176, R230: `DRIVE_PINS` writes the data bits under `DRIVE_MASK` and no other; a pin that is a digital output shows
the level driven. -/
def Obligations.DrivePinsWritesUnderTheMask : Prop :=
  ∀ (s : State) (p : Nat) (pt : Port) (value : Byte), configWf s.config = true → p < nPorts s.config →
    portClocked s p = true → s.ports[p]? = some pt →
    let mask := s.config.driveMask.getD p 0
    ∃ t w, exec (.drivePins p value) s = .next t ∧
      (∀ j, w.getLsbD j = if mask.getLsbD j then value.getLsbD j else pt.data.getLsbD j) ∧
      t.soft = { s.soft with ports := s.ports.set p { pt with data := w } } ∧ t.hidden = (idle 2 s).hidden ∧
      t.trace = s.trace ++ modifyTrace (gpioAddr s.config p .data) pt.data w ∧ Issued s t none 2 0 ∧
      (∀ i, i < 8 → mask.getLsbD i = true → pt.afsel.getLsbD i = false → pt.den.getLsbD i = true →
        pt.dir.getLsbD i = true → pinLevel t p i = some (value.getLsbD i))

/-- R123, R248: a port or channel number that does not exist is a fault before any access. -/
def Obligations.OutOfRangeOperandsFault : Prop :=
  ∀ (s : State) (p c : Nat) (m : Byte) (w : Word) (f : BitVec 4) (bi : BitVec 16) (bf : BitVec 6) (x y : Bool),
    (nPorts s.config ≤ p → FaultsOutOfRange (.enablePort p) s ∧ FaultsOutOfRange (.configurePins p m w x y) s ∧
      FaultsOutOfRange (.drivePins p m) s) ∧
    (nChannels s.config ≤ c → FaultsOutOfRange (.transmitByte c m) s ∧ FaultsOutOfRange (.receiveAvailable c) s ∧
      FaultsOutOfRange (.receiveByte c) s ∧ FaultsOutOfRange (.isTxFifoFull c) s) ∧
    (nPorts s.config ≤ p ∨ nChannels s.config ≤ c → FaultsOutOfRange (.uartConfigure c p m f bi bf 8 1 false x) s)

/-- R87, R172, R176, R190 to R195: on a port or channel whose gate is closed the operation faults at its first access. -/
def Obligations.OperationsOnClosedGatesFault : Prop :=
  ∀ (s : State) (p c : Nat) (m : Byte) (w : Word) (x y : Bool), configWf s.config = true →
    (p < nPorts s.config → portClocked s p = false →
      FaultsUnclocked (.configurePins p m w x y) s (gpioAddr s.config p (if y then .lock else .afsel)) ∧
      FaultsUnclocked (.drivePins p m) s (gpioAddr s.config p .data)) ∧
    (c < nChannels s.config → chanClocked s c = false →
      FaultsUnclocked (.transmitByte c m) s (chanAddr s.config c .fr) ∧
      FaultsUnclocked (.receiveAvailable c) s (chanAddr s.config c .fr) ∧
      FaultsUnclocked (.receiveByte c) s (chanAddr s.config c .dr) ∧
      FaultsUnclocked (.isTxFifoFull c) s (chanAddr s.config c .fr))

/-! Channels. -/

/-- R186 to R188: on an existing port and channel `UART_CONFIGURE` with the supported profile either completes, with both
gates open, the pins configured (unlocked exactly if the mask meets a protected pin), the channel enabled, the divisors and
then the line control written, which latches them, and no other bit or register changed; or its line-control write would
lower the FIFO capacity below a queue's length, and the command is refused (R52). It completes if the FIFOs are switched
on, were off, or cannot hold more than one byte by then; with no agent scheduled it is refused exactly if one does. -/
def Obligations.UartConfigureBringsTheChannelUp : Prop :=
  ∀ (s : State) (c p : Nat) (mask : Byte) (f : BitVec 4) (bi : BitVec 16) (bf : BitVec 6) (fifo : Bool) (pt : Port)
    (ch : Channel) (fp fc : Field), configWf s.config = true → s.ports[p]? = some pt → s.channels[c]? = some ch →
    s.config.layout.gatePort[p]? = some fp → s.config.layout.gateChan[c]? = some fc →
    let i := Instr.uartConfigure c p mask f bi bf 8 1 false fifo
    (fifo = true ∨ fieldFlag s.config.layout.fen ch.lcrh = false ∨
        (ch.txq.length ≤ 1 ∧ ch.rxq.length + (lineBytes c s.schedule).length ≤ 1) → ∃ t, exec i s = .next t) ∧
      (∀ t, exec i s = .next t → UartConfigured s t c p mask f bi bf fifo pt ch fp fc) ∧
      ((∃ t, exec i s = .next t) ∨ exec i s = .refused (.fifoShrink c)) ∧
      (s.quiet → (exec i s = .refused (.fifoShrink c) ↔ lowersBelow s.config ch (lcrhWord s.config.layout 8 fifo)))

/-- R189, R271: in the trace of `UART_CONFIGURE` every divisor write of a channel is followed by a line-control write of
that channel. -/
def Obligations.DivisorsPrecedeLineControl : Prop :=
  ∀ (s t : State) (c p : Nat) (mask : Byte) (f : BitVec 4) (bi : BitVec 16) (bf : BitVec 6) (wl sb : Nat)
    (par fifo : Bool), configWf s.config = true → exec (.uartConfigure c p mask f bi bf wl sb par fifo) s = .next t →
    ∃ new, t.trace = s.trace ++ new ∧ ∀ c', c' < nChannels s.config → replayOrder s.config.layout c' new

/-- R124: a frame profile other than 8 data bits, 1 stop bit, no parity is refused, in every state and whatever the other
operands are; the supported profile never is, with the FIFOs on or off. -/
def Obligations.UnsupportedProfilesAreRefused : Prop :=
  ∀ (s : State) (c p : Nat) (m : Byte) (f : BitVec 4) (bi : BitVec 16) (bf : BitVec 6) (wl sb : Nat) (par fifo : Bool),
    exec (.uartConfigure c p m f bi bf wl sb par fifo) s = .refused .unsupportedProfile ↔ wl ≠ 8 ∨ sb ≠ 1 ∨ par = true

/-- R190: with room in the transmit FIFO `TRANSMIT_BYTE` reads the flag once, writes the byte once, and the byte is
queued. -/
def Obligations.TransmitByteQueuesTheByte : Prop :=
  ∀ (s : State) (c : Nat) (ch : Channel) (b : Byte), configWf s.config = true → c < nChannels s.config →
    chanClocked s c = true → (tick s).channels[c]? = some ch → ch.txq.length < fifoCap s.config ch →
    ∃ t w, exec (.transmitByte c b) s = .next t ∧ t.soft = s.soft ∧ sent t c = sent s c ++ [b] ∧
      (∀ c', c' ≠ c → sent t c' = sent s c') ∧
      t.trace = s.trace ++ { kind := .read, address := chanAddr s.config c .fr, value := w } ::
        writeTrace (chanAddr s.config c .dr) (b.setWidth 32) ∧
      fieldFlag s.config.layout.txff w = false ∧ Issued s t none 2 1 ∧
      ∃ ch2, (idle 2 s).channels[c]? = some ch2 ∧
        t.hidden = { (idle 2 s).hidden with
          queues := (idle 2 s).hidden.queues.set c { chanQueuesOf ch2 with txq := ch2.txq ++ [b] } }

/-- R190, R191: whatever the agents do, `TRANSMIT_BYTE` either is still waiting on a full FIFO, having written nothing, or
has made one write of the byte right after a read that showed room, and the byte is queued behind all others. That a step
leaves the wait pending once no schedule entry is left is the model's choice (log 8): in R190 it is one loop. -/
def Obligations.TransmitByteNeverWritesWhileFull : Prop :=
  ∀ (s t : State) (c : Nat) (b : Byte), configWf s.config = true → (∀ ch ∈ s.channels, fifosFit s.config ch = true) →
    exec (.transmitByte c b) s = .next t →
    ∃ reads, (∀ e ∈ reads, e.kind = .read ∧ e.address = chanAddr s.config c .fr) ∧
      ((t.pending = transmitSteps s.config c b ∧ t.trace = s.trace ++ reads ∧ t.schedule = [] ∧
          (∀ e ∈ reads, fieldFlag s.config.layout.txff e.value = true) ∧ ∀ c', sent t c' = sent s c') ∨
        (t.pending = [] ∧ t.trace = s.trace ++ reads ++ writeTrace (chanAddr s.config c .dr) (b.setWidth 32) ∧
          (∃ before e, reads = before ++ [e] ∧ fieldFlag s.config.layout.txff e.value = false ∧
            ∀ e' ∈ before, fieldFlag s.config.layout.txff e'.value = true) ∧
          sent t c = sent s c ++ [b] ∧ ∀ c', c' ≠ c → sent t c' = sent s c'))

/-- R192, R195: the two flag predicates are one read each, and answer the flag of that instant. -/
def Obligations.FlagPredicatesAnswerTheFlags : Prop :=
  ∀ (s : State) (c : Nat) (ch : Channel), configWf s.config = true → c < nChannels s.config →
    chanClocked s c = true → (tick s).channels[c]? = some ch →
    (∃ t w, exec (.receiveAvailable c) s = .next t ∧ t.soft = s.soft ∧ t.hidden = (tick s).hidden ∧
      t.trace = s.trace ++ [{ kind := .read, address := chanAddr s.config c .fr, value := w }] ∧
      Issued s t (some (if ch.rxq.length = 0 then 0#32 else 1#32)) 1 1) ∧
    (∃ t w, exec (.isTxFifoFull c) s = .next t ∧ t.soft = s.soft ∧ t.hidden = (tick s).hidden ∧
      t.trace = s.trace ++ [{ kind := .read, address := chanAddr s.config c .fr, value := w }] ∧
      Issued s t (some (if ch.txq.length = fifoCap s.config ch then 1#32 else 0#32)) 1 1)

/-- R193: `RECEIVE_BYTE` returns the oldest received byte and pops it; with none the byte is a draw (log 3), whatever it
is, nothing changes and the run goes on. -/
def Obligations.ReceiveBytePopsTheOldestByte : Prop :=
  ∀ (s : State) (c : Nat) (ch : Channel), configWf s.config = true → c < nChannels s.config →
    chanClocked s c = true → (tick s).channels[c]? = some ch →
    ∃ t w b, exec (.receiveByte c) s = .next t ∧ (∀ b' q, ch.rxq = b' :: q → b = b') ∧ t.soft = s.soft ∧
      (ch.rxq = [] → b = (Config.freeWord s.drawCount).setWidth 8) ∧
      t.hidden = { (tick s).hidden with
        queues := (tick s).hidden.queues.set c { chanQueuesOf ch with rxq := ch.rxq.tail } } ∧
      t.trace = s.trace ++ [{ kind := .read, address := chanAddr s.config c .dr, value := w }] ∧
      Issued s t (some (b.setWidth 32)) 1 1

/-! The divisor arithmetic and the wire. -/

/-- R196: `BAUD_DIVISORS` is the divisor rounded to the nearest 64th, an exact half going up, with the fraction in 6 bits;
for 50 000 000 and 115 200 it is (27, 8). -/
def Obligations.BaudDivisorsAreTheNearest : Prop :=
  (∀ clock baud int frac, baudDivisors clock baud = some (int, frac) →
    0 < baud ∧ frac < 64 ∧ 64 * int + frac = (8 * clock + baud) / (2 * baud)) ∧
  (∀ clock baud, 0 < baud → ∃ d, baudDivisors clock baud = some d) ∧
  baudDivisors 50000000 115200 = some (27, 8)

/-- R56, R123, R224: the source's format is 50 000 000 / 434 bits per second, its bit lasts 434 / 50 000 000 seconds, and
0x41 goes out as start 0, then 1 0 0 0 0 0 1 0, then stop 1, the line being high before and after; a format whose integer
divisor is 0 has no rate and no bit time. -/
def Obligations.SourceFormatOnTheWire : Prop :=
  baudRate sourceFormat = some (50000000 / 434) ∧ bitTime sourceFormat = some (434 / 50000000) ∧
    wireFrame { byte := 0x41, fmt := some sourceFormat, routed := true } =
      { bits := some [false, true, false, false, false, false, false, true, false, true],
        bitTime := some (434 / 50000000), onPin := true } ∧
    (∀ (bits : List Bool) (k : Int), k < 0 ∨ (bits.length : Int) ≤ k → lineLevel bits k = true) ∧
    (∀ f : WireFormat, f.int = 0 → baudRate f = none ∧ bitTime f = none)

/-- R222, R212: a channel configured with divisors 27 and 8 after the clock bring-up sends in the source's format. -/
def Obligations.ConfiguredChannelSendsInTheSourceFormat : Prop :=
  ∀ (s : State) (c : Nat) (fifo : Bool) (ch : Channel), ClockUp s → ChannelUp s c 27 8 fifo →
    s.channels[c]? = some ch → channelFormat s ch = some sourceFormat

/-! The agents. -/

/-- R220: the PLL locks if it is powered and not locked; it sets the lock and the status bit and nothing else. -/
def Obligations.PllLocksOnlyWhilePowered : Prop :=
  ∀ s : State,
    (effPwrdn s = false ∧ s.pllLocked = false →
      agentStep s .pllLock = { s with pllLocked := true, risPllLock := true }) ∧
    (¬ (effPwrdn s = false ∧ s.pllLocked = false) → agentStep s .pllLock = s)

/-- R223: the transmitter of a clocked and enabled channel sends the oldest byte with the format and the routing of that
instant, and does nothing else. -/
def Obligations.TransmitterSendsTheOldestByte : Prop :=
  ∀ (s : State) (c : Nat) (ch : Channel), s.channels[c]? = some ch →
    (∀ b q, chanClocked s c = true → fieldFlag s.config.layout.en ch.ctl = true → ch.txq = b :: q →
      agentStep s (.transmit c) = { s with channels := s.channels.set c { ch with
        txq := q
        wireTx := ch.wireTx ++ [{ byte := b, fmt := channelFormat s ch, routed := pinRouted s c }] } }) ∧
    (¬ (chanClocked s c = true ∧ fieldFlag s.config.layout.en ch.ctl = true ∧ ch.txq ≠ []) →
      agentStep s (.transmit c) = s)

/-- R225, R226: a byte on the line is queued if the channel is clocked, enabled, routed, has a format and has room, and is
lost without trace otherwise. -/
def Obligations.LineByteIsQueuedOrLost : Prop :=
  ∀ (s : State) (c : Nat) (b : Byte) (ch : Channel), s.channels[c]? = some ch →
    (chanClocked s c = true → fieldFlag s.config.layout.en ch.ctl = true → pinRouted s c = true →
      channelFormat s ch ≠ none → ch.rxq.length < fifoCap s.config ch →
      agentStep s (.line c b) = { s with channels := s.channels.set c { ch with rxq := ch.rxq ++ [b] } }) ∧
    (¬ (chanClocked s c = true ∧ fieldFlag s.config.layout.en ch.ctl = true ∧ pinRouted s c = true ∧
        channelFormat s ch ≠ none ∧ ch.rxq.length < fifoCap s.config ch) → agentStep s (.line c b) = s)

/-- R228: a step of one channel neither changes, enables nor disables anything of another, and steps of two channels
commute. -/
def Obligations.ChannelsAreIndependent : Prop :=
  ∀ (s : State) (c d : Nat) (e e' : AgentEvent), c ≠ d → (e = .transmit c ∨ ∃ b, e = .line c b) →
    (e' = .transmit d ∨ ∃ b, e' = .line d b) →
    (agentStep s e).channels[d]? = s.channels[d]? ∧
    (∀ ch, transmitEnabled (agentStep s e) d ch = transmitEnabled s d ch ∧
      lineAccepts (agentStep s e) d ch = lineAccepts s d ch) ∧
    agentStep (agentStep s e) e' = agentStep (agentStep s e') e

/-! The service. -/

/-- R205, R206: at BOOTING with `clk_step` 0 the service brings the clock up and is then CLOCK_READY, with the channel
configurations next; or it is still BOOTING, in the wait for the PLL. If the PLL is locked when it is CLOCK_READY, the clock
runs at 50 MHz; from reset it always is, and CLOCK_READY is reached exactly if the PLL locks after `CLK_PLL_ON`. That a
step ends at either place is the model's choice (log 8). -/
def Obligations.ServiceBringsTheClockUpFirst : Prop :=
  ∀ s : State, configWf s.config = true → s.svcStage = .booting → s.clkStep = 0 →
    ∃ t, exec .runEchoService s = .next t ∧
      ((t.svcStage = .clockReady ∧ t.risPllLock = true ∧ t.pending = channelsSteps s.config ++ greetingSteps s.config) ∨
        (t.svcStage = .booting ∧ t.clkStep = 8 ∧ t.risPllLock = false ∧ t.schedule = [] ∧
          t.pending = (serviceSteps s.config).drop 8)) ∧
      (waitEnds s → t.svcStage = .clockReady) ∧
      (t.svcStage = .clockReady → ClockProgrammed t ∧ (t.pllLocked = true → ClockUp t) ∧
        (∀ c, sent t c = sent s c) ∧
        t.soft = { s.soft with
          clkLegacy := t.clkLegacy, clkAlt := t.clkAlt, clkStep := 10, clkStage := .dividerActive,
          svcStage := .clockReady }) ∧
      (s.AtReset → (t.svcStage = .clockReady ↔ lockComes s) ∧ (t.svcStage = .clockReady → ClockUp t))

/-- R206: from CLOCK_READY the service configures channel A, then channel B, both with 27 and 8, and is CHANNELS_READY; the
clock still runs at 50 MHz, and nothing was sent. That two steps do it is the model's choice (log 8). -/
def Obligations.ServiceConfiguresBothChannels : Prop :=
  ∀ s : State, s.Inv → bindingsOk s.config = true → ClockUp s →
    s.pending = channelsSteps s.config ++ greetingSteps s.config →
    ∃ t, runsTo 2 s t ∧ ClockUp t ∧ ChannelUp t s.config.chA 27 8 true ∧ ChannelUp t s.config.chB 27 8 true ∧
      t.svcStage = .channelsReady ∧ t.pending = greetingSteps s.config ∧ ∀ c, sent t c = sent s c

/-- R207, R212 scenario C: with a channel A that exists (D29), if its line stays silent, then after any number of steps
what channel A was given to send is what it had plus a prefix of the greeting, all of it once GREETING_SENT is reached, and
never more; no other channel is given anything. -/
def Obligations.GreetingIsSentExactlyOnce : Prop :=
  ∀ s : State, s.Inv → s.config.chA < nChannels s.config → s.pending = greetingSteps s.config →
    lineBytes s.config.chA s.schedule = [] →
    received s s.config.chA = [] → ∀ n t, runsTo n s t →
      ∃ k, k ≤ 36 ∧ sent t s.config.chA = sent s s.config.chA ++ greeting.take k ∧
        (3 ≤ svcIndex t.svcStage → k = 36) ∧ ∀ c, c ≠ s.config.chA → sent t c = sent s c

/-- R208, R212: in the echo loop on a channel A that exists (D29), whatever the agents do, the bytes sent, the byte in hand
and the bytes received and not yet read are always, in this order, what they were plus bytes that the line presented since,
in the order presented: nothing is lost after reception, doubled, reordered or invented, and no other channel sends. -/
def Obligations.EchoIsFaithful : Prop :=
  ∀ (s : State) (hand : List Byte), s.Inv → s.config.chA < nChannels s.config → InHand s hand → ∀ n t, runsTo n s t →
    ∃ hand' got, InHand t hand' ∧ got.Sublist (lineBytes s.config.chA s.schedule) ∧
      sent t s.config.chA ++ hand' ++ received t s.config.chA =
        sent s s.config.chA ++ hand ++ received s s.config.chA ++ got ∧
      ∀ c, c ≠ s.config.chA → sent t c = sent s c

/-- R208: with room to send, the echo loop does send back every byte received, in order. That a byte takes two steps is the
model's choice (log 8). -/
def Obligations.EchoReturnsEveryByte : Prop :=
  ∀ (s : State) (ch : Channel), configWf s.config = true → s.quiet → s.pending = [.echo] →
    s.config.chA < nChannels s.config → chanClocked s s.config.chA = true →
    s.channels[s.config.chA]? = some ch → ch.txq.length + ch.rxq.length ≤ fifoCap s.config ch →
    ∃ t, runsTo (2 * ch.rxq.length) s t ∧ t.pending = [.echo] ∧ t.soft = s.soft ∧
      t.hidden = { s.hidden with
        queues := s.hidden.queues.set s.config.chA { chanQueuesOf ch with txq := ch.txq ++ ch.rxq, rxq := [] } }

/-- R194, R208, R209: an echo iteration that finds no byte pulses the LED and makes one read, of `FR`, and none of the data
register. That such an iteration is one step, which leaves the loop pending, is the model's choice (log 8): in R208 it is
one pass of an endless loop. -/
def Obligations.EchoPollWithoutDataReadsNoData : Prop :=
  ∀ (s : State) (ch : Channel), configWf s.config = true → s.pending = [.echo] →
    s.config.chA < nChannels s.config → chanClocked s s.config.chA = true →
    (idle (s.config.ledPulseSpins + 1) s).channels[s.config.chA]? = some ch → ch.rxq = [] →
    ∃ t w, step s = .next t ∧ t.pending = [.echo] ∧ t.soft = s.soft ∧
      t.hidden = (idle (s.config.ledPulseSpins + 1) s).hidden ∧
      t.trace = s.trace ++ [{ kind := .read, address := chanAddr s.config s.config.chA .fr, value := w }] ∧
      fieldFlag s.config.layout.rxfe w = true

/-- R206, R212: from the greeting on, the system clock stays at 50 MHz, channel A stays configured, and every byte it puts
on the wire is in the source's format. -/
def Obligations.ServiceSendsOnlyInTheSourceFormat : Prop :=
  ∀ s : State, s.Inv → ClockUp s → ChannelUp s s.config.chA 27 8 true → wireInSourceFormat s s.config.chA →
    (s.pending = greetingSteps s.config ∨ s.pending = [.echo]) → ∀ n t, runsTo n s t →
      ClockUp t ∧ ChannelUp t s.config.chA 27 8 true ∧ wireInSourceFormat t s.config.chA

/-- R210, R211: `DELAY` and `LED_PULSE` access nothing; they let the agents scheduled meanwhile step, and do nothing
else. -/
def Obligations.DelaysOnlyLetAgentsStep : Prop :=
  ∀ (s : State) (count : Word) (color : Byte),
    (∃ t, exec (.delay count) s = .next t ∧ t.soft = s.soft ∧ t.hidden = (idle count.toNat s).hidden ∧
      t.trace = s.trace ∧ Issued s t none count.toNat 0 ∧ ∀ c, sent t c = sent s c) ∧
    (∃ t, exec (.ledPulse color) s = .next t ∧ t.soft = s.soft ∧
      t.hidden = (idle s.config.ledPulseSpins s).hidden ∧ t.trace = s.trace ∧
      Issued s t none s.config.ledPulseSpins 0 ∧ ∀ c, sent t c = sent s c)

/-! The clock's frequency, and fairness. -/

/-- R32: `sysclk_hz` is the oscillator while bypassed, else the PLL's 200 MHz while it is locked on the declared crystal,
else nothing; with the divider on it is that divided by SYSDIV + 1; and it is never negative. -/
def Obligations.SystemClockFollowsTheRegisters : Prop :=
  ∀ s : State, configWf s.config = true →
    (effBypass s = true → rawHz s = some (if effOscsrc s = 0 then 16000000 else s.config.intOscHz)) ∧
    (effBypass s = false → s.pllLocked = true → effOscsrc s = 0 → xtalCode s = s.config.xtalCode16MHz →
      rawHz s = some 200000000) ∧
    (sysclkHz s = none ↔ effBypass s = false ∧
      ¬ (s.pllLocked = true ∧ effOscsrc s = 0 ∧ xtalCode s = s.config.xtalCode16MHz)) ∧
    (∀ raw, rawHz s = some raw → sysclkHz s = some (if dividerOn s then raw / ((effSysdiv s : Rat) + 1) else raw)) ∧
    (∀ hz, sysclkHz s = some hz → 0 ≤ hz)

/-- R281: in an infinite run that is fair to the PLL, `CLK_WAIT_LOCK` ends from any state with `eff.PWRDN` = 0, and
`BRING_UP_CLOCK` ends from reset, with the clock up; in one that is fair to the transmitter of a channel, `TRANSMIT_BYTE`
ends from any state with the gate open and `CTL.EN` = 1, and while the channel stays so every byte queued reaches the wire.
No line is assumed to be fair. What a run and its fairness are is said in terms of the model's steps (log 15). -/
def Obligations.FairRunsLeaveTheirWaits : Prop :=
  ∀ ρ : Nat → State, IsRun ρ → (ρ 0).Inv →
    (PllFair ρ →
      (∀ n, underWay (ρ n) .clkWaitLock [.clkWait] → effPwrdn (ρ n) = false →
        ∃ m, n < m ∧ (ρ m).clkStep = 9 ∧ (ρ m).pending = []) ∧
      (∀ rest, (ρ 0).AtReset → decode (ρ 0).program = .ok (.bringUpClock, rest) →
        ∃ m, ClockUp (ρ m) ∧ (ρ m).pending = [])) ∧
    (∀ c, c < nChannels (ρ 0).config → TxFair ρ c →
      (∀ n b, underWay (ρ n) (.transmitByte c b) (transmitSteps (ρ n).config c b) → channelRuns (ρ n) c = true →
        ∃ m, n < m ∧ (ρ m).pending = [] ∧ sent (ρ m) c = sent (ρ n) c ++ [b]) ∧
      (∀ n, (∀ m, n ≤ m → channelRuns (ρ m) c = true) → ∃ m, n ≤ m ∧ sent (ρ n) c <+: wireBytes (ρ m) c))
end

