-- ==== Sys2Proof/Laws/State.lean ====
section
/-! SUPPORT. One lemma per field per named update of the state, each true by rfl. -/

namespace Sys2Proof.Machine

/-! `setChannel`. -/

@[simp] theorem setChannel_clkLegacy (s : State) (c : Nat) (ch : Channel) : (setChannel s c ch).clkLegacy = s.clkLegacy := rfl
@[simp] theorem setChannel_clkAlt (s : State) (c : Nat) (ch : Channel) : (setChannel s c ch).clkAlt = s.clkAlt := rfl
@[simp] theorem setChannel_risPllLock (s : State) (c : Nat) (ch : Channel) : (setChannel s c ch).risPllLock = s.risPllLock := rfl
@[simp] theorem setChannel_gateGpio (s : State) (c : Nat) (ch : Channel) : (setChannel s c ch).gateGpio = s.gateGpio := rfl
@[simp] theorem setChannel_gateUart (s : State) (c : Nat) (ch : Channel) : (setChannel s c ch).gateUart = s.gateUart := rfl
@[simp] theorem setChannel_pllLocked (s : State) (c : Nat) (ch : Channel) : (setChannel s c ch).pllLocked = s.pllLocked := rfl
@[simp] theorem setChannel_clkStep (s : State) (c : Nat) (ch : Channel) : (setChannel s c ch).clkStep = s.clkStep := rfl
@[simp] theorem setChannel_clkStage (s : State) (c : Nat) (ch : Channel) : (setChannel s c ch).clkStage = s.clkStage := rfl
@[simp] theorem setChannel_svcStage (s : State) (c : Nat) (ch : Channel) : (setChannel s c ch).svcStage = s.svcStage := rfl
@[simp] theorem setChannel_ports (s : State) (c : Nat) (ch : Channel) : (setChannel s c ch).ports = s.ports := rfl
@[simp] theorem setChannel_channels (s : State) (c : Nat) (ch : Channel) : (setChannel s c ch).channels = s.channels.set c ch := rfl
@[simp] theorem setChannel_trace (s : State) (c : Nat) (ch : Channel) : (setChannel s c ch).trace = s.trace := rfl
@[simp] theorem setChannel_result (s : State) (c : Nat) (ch : Channel) : (setChannel s c ch).result = s.result := rfl
@[simp] theorem setChannel_config (s : State) (c : Nat) (ch : Channel) : (setChannel s c ch).config = s.config := rfl
@[simp] theorem setChannel_schedule (s : State) (c : Nat) (ch : Channel) : (setChannel s c ch).schedule = s.schedule := rfl
@[simp] theorem setChannel_drawCount (s : State) (c : Nat) (ch : Channel) : (setChannel s c ch).drawCount = s.drawCount := rfl
@[simp] theorem setChannel_program (s : State) (c : Nat) (ch : Channel) : (setChannel s c ch).program = s.program := rfl
@[simp] theorem setChannel_pending (s : State) (c : Nat) (ch : Channel) : (setChannel s c ch).pending = s.pending := rfl

/-! `setPort`. -/

@[simp] theorem setPort_clkLegacy (s : State) (p : Nat) (pt : Port) : (setPort s p pt).clkLegacy = s.clkLegacy := rfl
@[simp] theorem setPort_clkAlt (s : State) (p : Nat) (pt : Port) : (setPort s p pt).clkAlt = s.clkAlt := rfl
@[simp] theorem setPort_risPllLock (s : State) (p : Nat) (pt : Port) : (setPort s p pt).risPllLock = s.risPllLock := rfl
@[simp] theorem setPort_gateGpio (s : State) (p : Nat) (pt : Port) : (setPort s p pt).gateGpio = s.gateGpio := rfl
@[simp] theorem setPort_gateUart (s : State) (p : Nat) (pt : Port) : (setPort s p pt).gateUart = s.gateUart := rfl
@[simp] theorem setPort_pllLocked (s : State) (p : Nat) (pt : Port) : (setPort s p pt).pllLocked = s.pllLocked := rfl
@[simp] theorem setPort_clkStep (s : State) (p : Nat) (pt : Port) : (setPort s p pt).clkStep = s.clkStep := rfl
@[simp] theorem setPort_clkStage (s : State) (p : Nat) (pt : Port) : (setPort s p pt).clkStage = s.clkStage := rfl
@[simp] theorem setPort_svcStage (s : State) (p : Nat) (pt : Port) : (setPort s p pt).svcStage = s.svcStage := rfl
@[simp] theorem setPort_ports (s : State) (p : Nat) (pt : Port) : (setPort s p pt).ports = s.ports.set p pt := rfl
@[simp] theorem setPort_channels (s : State) (p : Nat) (pt : Port) : (setPort s p pt).channels = s.channels := rfl
@[simp] theorem setPort_trace (s : State) (p : Nat) (pt : Port) : (setPort s p pt).trace = s.trace := rfl
@[simp] theorem setPort_result (s : State) (p : Nat) (pt : Port) : (setPort s p pt).result = s.result := rfl
@[simp] theorem setPort_config (s : State) (p : Nat) (pt : Port) : (setPort s p pt).config = s.config := rfl
@[simp] theorem setPort_schedule (s : State) (p : Nat) (pt : Port) : (setPort s p pt).schedule = s.schedule := rfl
@[simp] theorem setPort_drawCount (s : State) (p : Nat) (pt : Port) : (setPort s p pt).drawCount = s.drawCount := rfl
@[simp] theorem setPort_program (s : State) (p : Nat) (pt : Port) : (setPort s p pt).program = s.program := rfl
@[simp] theorem setPort_pending (s : State) (p : Nat) (pt : Port) : (setPort s p pt).pending = s.pending := rfl

/-! `noteUnlock`. -/

@[simp] theorem noteUnlock_clkLegacy (s : State) (p : Nat) : (noteUnlock s p).clkLegacy = s.clkLegacy := rfl
@[simp] theorem noteUnlock_clkAlt (s : State) (p : Nat) : (noteUnlock s p).clkAlt = s.clkAlt := rfl
@[simp] theorem noteUnlock_risPllLock (s : State) (p : Nat) : (noteUnlock s p).risPllLock = s.risPllLock := rfl
@[simp] theorem noteUnlock_gateGpio (s : State) (p : Nat) : (noteUnlock s p).gateGpio = s.gateGpio := rfl
@[simp] theorem noteUnlock_gateUart (s : State) (p : Nat) : (noteUnlock s p).gateUart = s.gateUart := rfl
@[simp] theorem noteUnlock_pllLocked (s : State) (p : Nat) : (noteUnlock s p).pllLocked = s.pllLocked := rfl
@[simp] theorem noteUnlock_clkStep (s : State) (p : Nat) : (noteUnlock s p).clkStep = s.clkStep := rfl
@[simp] theorem noteUnlock_clkStage (s : State) (p : Nat) : (noteUnlock s p).clkStage = s.clkStage := rfl
@[simp] theorem noteUnlock_svcStage (s : State) (p : Nat) : (noteUnlock s p).svcStage = s.svcStage := rfl
@[simp] theorem noteUnlock_ports (s : State) (p : Nat) : (noteUnlock s p).ports = s.ports.modify p fun pt => { pt with unlockRan := true } := rfl
@[simp] theorem noteUnlock_channels (s : State) (p : Nat) : (noteUnlock s p).channels = s.channels := rfl
@[simp] theorem noteUnlock_trace (s : State) (p : Nat) : (noteUnlock s p).trace = s.trace := rfl
@[simp] theorem noteUnlock_result (s : State) (p : Nat) : (noteUnlock s p).result = s.result := rfl
@[simp] theorem noteUnlock_config (s : State) (p : Nat) : (noteUnlock s p).config = s.config := rfl
@[simp] theorem noteUnlock_schedule (s : State) (p : Nat) : (noteUnlock s p).schedule = s.schedule := rfl
@[simp] theorem noteUnlock_drawCount (s : State) (p : Nat) : (noteUnlock s p).drawCount = s.drawCount := rfl
@[simp] theorem noteUnlock_program (s : State) (p : Nat) : (noteUnlock s p).program = s.program := rfl
@[simp] theorem noteUnlock_pending (s : State) (p : Nat) : (noteUnlock s p).pending = s.pending := rfl

/-! `logBus`. -/

@[simp] theorem logBus_clkLegacy (s : State) (k : BusKind) (a v : Word) : (logBus k a v s).clkLegacy = s.clkLegacy := rfl
@[simp] theorem logBus_clkAlt (s : State) (k : BusKind) (a v : Word) : (logBus k a v s).clkAlt = s.clkAlt := rfl
@[simp] theorem logBus_risPllLock (s : State) (k : BusKind) (a v : Word) : (logBus k a v s).risPllLock = s.risPllLock := rfl
@[simp] theorem logBus_gateGpio (s : State) (k : BusKind) (a v : Word) : (logBus k a v s).gateGpio = s.gateGpio := rfl
@[simp] theorem logBus_gateUart (s : State) (k : BusKind) (a v : Word) : (logBus k a v s).gateUart = s.gateUart := rfl
@[simp] theorem logBus_pllLocked (s : State) (k : BusKind) (a v : Word) : (logBus k a v s).pllLocked = s.pllLocked := rfl
@[simp] theorem logBus_clkStep (s : State) (k : BusKind) (a v : Word) : (logBus k a v s).clkStep = s.clkStep := rfl
@[simp] theorem logBus_clkStage (s : State) (k : BusKind) (a v : Word) : (logBus k a v s).clkStage = s.clkStage := rfl
@[simp] theorem logBus_svcStage (s : State) (k : BusKind) (a v : Word) : (logBus k a v s).svcStage = s.svcStage := rfl
@[simp] theorem logBus_ports (s : State) (k : BusKind) (a v : Word) : (logBus k a v s).ports = s.ports := rfl
@[simp] theorem logBus_channels (s : State) (k : BusKind) (a v : Word) : (logBus k a v s).channels = s.channels := rfl
@[simp] theorem logBus_trace (s : State) (k : BusKind) (a v : Word) : (logBus k a v s).trace = s.trace ++ [{ kind := k, address := a, value := v }] := rfl
@[simp] theorem logBus_result (s : State) (k : BusKind) (a v : Word) : (logBus k a v s).result = s.result := rfl
@[simp] theorem logBus_config (s : State) (k : BusKind) (a v : Word) : (logBus k a v s).config = s.config := rfl
@[simp] theorem logBus_schedule (s : State) (k : BusKind) (a v : Word) : (logBus k a v s).schedule = s.schedule := rfl
@[simp] theorem logBus_drawCount (s : State) (k : BusKind) (a v : Word) : (logBus k a v s).drawCount = s.drawCount := rfl
@[simp] theorem logBus_program (s : State) (k : BusKind) (a v : Word) : (logBus k a v s).program = s.program := rfl
@[simp] theorem logBus_pending (s : State) (k : BusKind) (a v : Word) : (logBus k a v s).pending = s.pending := rfl

/-! `advanceClock`. -/

@[simp] theorem advanceClock_clkLegacy (s : State) (k : Nat) (st : Option ClkStage) : (advanceClock k st s).clkLegacy = s.clkLegacy := rfl
@[simp] theorem advanceClock_clkAlt (s : State) (k : Nat) (st : Option ClkStage) : (advanceClock k st s).clkAlt = s.clkAlt := rfl
@[simp] theorem advanceClock_risPllLock (s : State) (k : Nat) (st : Option ClkStage) : (advanceClock k st s).risPllLock = s.risPllLock := rfl
@[simp] theorem advanceClock_gateGpio (s : State) (k : Nat) (st : Option ClkStage) : (advanceClock k st s).gateGpio = s.gateGpio := rfl
@[simp] theorem advanceClock_gateUart (s : State) (k : Nat) (st : Option ClkStage) : (advanceClock k st s).gateUart = s.gateUart := rfl
@[simp] theorem advanceClock_pllLocked (s : State) (k : Nat) (st : Option ClkStage) : (advanceClock k st s).pllLocked = s.pllLocked := rfl
@[simp] theorem advanceClock_clkStep (s : State) (k : Nat) (st : Option ClkStage) : (advanceClock k st s).clkStep = k + 1 := rfl
@[simp] theorem advanceClock_clkStage (s : State) (k : Nat) (st : Option ClkStage) : (advanceClock k st s).clkStage = st.getD s.clkStage := rfl
@[simp] theorem advanceClock_svcStage (s : State) (k : Nat) (st : Option ClkStage) : (advanceClock k st s).svcStage = s.svcStage := rfl
@[simp] theorem advanceClock_ports (s : State) (k : Nat) (st : Option ClkStage) : (advanceClock k st s).ports = s.ports := rfl
@[simp] theorem advanceClock_channels (s : State) (k : Nat) (st : Option ClkStage) : (advanceClock k st s).channels = s.channels := rfl
@[simp] theorem advanceClock_trace (s : State) (k : Nat) (st : Option ClkStage) : (advanceClock k st s).trace = s.trace := rfl
@[simp] theorem advanceClock_result (s : State) (k : Nat) (st : Option ClkStage) : (advanceClock k st s).result = s.result := rfl
@[simp] theorem advanceClock_config (s : State) (k : Nat) (st : Option ClkStage) : (advanceClock k st s).config = s.config := rfl
@[simp] theorem advanceClock_schedule (s : State) (k : Nat) (st : Option ClkStage) : (advanceClock k st s).schedule = s.schedule := rfl
@[simp] theorem advanceClock_drawCount (s : State) (k : Nat) (st : Option ClkStage) : (advanceClock k st s).drawCount = s.drawCount := rfl
@[simp] theorem advanceClock_program (s : State) (k : Nat) (st : Option ClkStage) : (advanceClock k st s).program = s.program := rfl
@[simp] theorem advanceClock_pending (s : State) (k : Nat) (st : Option ClkStage) : (advanceClock k st s).pending = s.pending := rfl

/-! `countDraw`. -/

@[simp] theorem countDraw_clkLegacy (s : State) : (countDraw s).clkLegacy = s.clkLegacy := rfl
@[simp] theorem countDraw_clkAlt (s : State) : (countDraw s).clkAlt = s.clkAlt := rfl
@[simp] theorem countDraw_risPllLock (s : State) : (countDraw s).risPllLock = s.risPllLock := rfl
@[simp] theorem countDraw_gateGpio (s : State) : (countDraw s).gateGpio = s.gateGpio := rfl
@[simp] theorem countDraw_gateUart (s : State) : (countDraw s).gateUart = s.gateUart := rfl
@[simp] theorem countDraw_pllLocked (s : State) : (countDraw s).pllLocked = s.pllLocked := rfl
@[simp] theorem countDraw_clkStep (s : State) : (countDraw s).clkStep = s.clkStep := rfl
@[simp] theorem countDraw_clkStage (s : State) : (countDraw s).clkStage = s.clkStage := rfl
@[simp] theorem countDraw_svcStage (s : State) : (countDraw s).svcStage = s.svcStage := rfl
@[simp] theorem countDraw_ports (s : State) : (countDraw s).ports = s.ports := rfl
@[simp] theorem countDraw_channels (s : State) : (countDraw s).channels = s.channels := rfl
@[simp] theorem countDraw_trace (s : State) : (countDraw s).trace = s.trace := rfl
@[simp] theorem countDraw_result (s : State) : (countDraw s).result = s.result := rfl
@[simp] theorem countDraw_config (s : State) : (countDraw s).config = s.config := rfl
@[simp] theorem countDraw_schedule (s : State) : (countDraw s).schedule = s.schedule := rfl
@[simp] theorem countDraw_drawCount (s : State) : (countDraw s).drawCount = s.drawCount + 1 := rfl
@[simp] theorem countDraw_program (s : State) : (countDraw s).program = s.program := rfl
@[simp] theorem countDraw_pending (s : State) : (countDraw s).pending = s.pending := rfl

/-! `clearResult`. -/

@[simp] theorem clearResult_clkLegacy (s : State) : (clearResult s).clkLegacy = s.clkLegacy := rfl
@[simp] theorem clearResult_clkAlt (s : State) : (clearResult s).clkAlt = s.clkAlt := rfl
@[simp] theorem clearResult_risPllLock (s : State) : (clearResult s).risPllLock = s.risPllLock := rfl
@[simp] theorem clearResult_gateGpio (s : State) : (clearResult s).gateGpio = s.gateGpio := rfl
@[simp] theorem clearResult_gateUart (s : State) : (clearResult s).gateUart = s.gateUart := rfl
@[simp] theorem clearResult_pllLocked (s : State) : (clearResult s).pllLocked = s.pllLocked := rfl
@[simp] theorem clearResult_clkStep (s : State) : (clearResult s).clkStep = s.clkStep := rfl
@[simp] theorem clearResult_clkStage (s : State) : (clearResult s).clkStage = s.clkStage := rfl
@[simp] theorem clearResult_svcStage (s : State) : (clearResult s).svcStage = s.svcStage := rfl
@[simp] theorem clearResult_ports (s : State) : (clearResult s).ports = s.ports := rfl
@[simp] theorem clearResult_channels (s : State) : (clearResult s).channels = s.channels := rfl
@[simp] theorem clearResult_trace (s : State) : (clearResult s).trace = s.trace := rfl
@[simp] theorem clearResult_result (s : State) : (clearResult s).result = none := rfl
@[simp] theorem clearResult_config (s : State) : (clearResult s).config = s.config := rfl
@[simp] theorem clearResult_schedule (s : State) : (clearResult s).schedule = s.schedule := rfl
@[simp] theorem clearResult_drawCount (s : State) : (clearResult s).drawCount = s.drawCount := rfl
@[simp] theorem clearResult_program (s : State) : (clearResult s).program = s.program := rfl
@[simp] theorem clearResult_pending (s : State) : (clearResult s).pending = s.pending := rfl

/-! `putResult`. -/

@[simp] theorem putResult_clkLegacy (s : State) (w : Word) : (putResult s w).clkLegacy = s.clkLegacy := rfl
@[simp] theorem putResult_clkAlt (s : State) (w : Word) : (putResult s w).clkAlt = s.clkAlt := rfl
@[simp] theorem putResult_risPllLock (s : State) (w : Word) : (putResult s w).risPllLock = s.risPllLock := rfl
@[simp] theorem putResult_gateGpio (s : State) (w : Word) : (putResult s w).gateGpio = s.gateGpio := rfl
@[simp] theorem putResult_gateUart (s : State) (w : Word) : (putResult s w).gateUart = s.gateUart := rfl
@[simp] theorem putResult_pllLocked (s : State) (w : Word) : (putResult s w).pllLocked = s.pllLocked := rfl
@[simp] theorem putResult_clkStep (s : State) (w : Word) : (putResult s w).clkStep = s.clkStep := rfl
@[simp] theorem putResult_clkStage (s : State) (w : Word) : (putResult s w).clkStage = s.clkStage := rfl
@[simp] theorem putResult_svcStage (s : State) (w : Word) : (putResult s w).svcStage = s.svcStage := rfl
@[simp] theorem putResult_ports (s : State) (w : Word) : (putResult s w).ports = s.ports := rfl
@[simp] theorem putResult_channels (s : State) (w : Word) : (putResult s w).channels = s.channels := rfl
@[simp] theorem putResult_trace (s : State) (w : Word) : (putResult s w).trace = s.trace := rfl
@[simp] theorem putResult_result (s : State) (w : Word) : (putResult s w).result = some w := rfl
@[simp] theorem putResult_config (s : State) (w : Word) : (putResult s w).config = s.config := rfl
@[simp] theorem putResult_schedule (s : State) (w : Word) : (putResult s w).schedule = s.schedule := rfl
@[simp] theorem putResult_drawCount (s : State) (w : Word) : (putResult s w).drawCount = s.drawCount := rfl
@[simp] theorem putResult_program (s : State) (w : Word) : (putResult s w).program = s.program := rfl
@[simp] theorem putResult_pending (s : State) (w : Word) : (putResult s w).pending = s.pending := rfl

/-! `setPending`. -/

@[simp] theorem setPending_clkLegacy (s : State) (ms : List Micro) : (setPending s ms).clkLegacy = s.clkLegacy := rfl
@[simp] theorem setPending_clkAlt (s : State) (ms : List Micro) : (setPending s ms).clkAlt = s.clkAlt := rfl
@[simp] theorem setPending_risPllLock (s : State) (ms : List Micro) : (setPending s ms).risPllLock = s.risPllLock := rfl
@[simp] theorem setPending_gateGpio (s : State) (ms : List Micro) : (setPending s ms).gateGpio = s.gateGpio := rfl
@[simp] theorem setPending_gateUart (s : State) (ms : List Micro) : (setPending s ms).gateUart = s.gateUart := rfl
@[simp] theorem setPending_pllLocked (s : State) (ms : List Micro) : (setPending s ms).pllLocked = s.pllLocked := rfl
@[simp] theorem setPending_clkStep (s : State) (ms : List Micro) : (setPending s ms).clkStep = s.clkStep := rfl
@[simp] theorem setPending_clkStage (s : State) (ms : List Micro) : (setPending s ms).clkStage = s.clkStage := rfl
@[simp] theorem setPending_svcStage (s : State) (ms : List Micro) : (setPending s ms).svcStage = s.svcStage := rfl
@[simp] theorem setPending_ports (s : State) (ms : List Micro) : (setPending s ms).ports = s.ports := rfl
@[simp] theorem setPending_channels (s : State) (ms : List Micro) : (setPending s ms).channels = s.channels := rfl
@[simp] theorem setPending_trace (s : State) (ms : List Micro) : (setPending s ms).trace = s.trace := rfl
@[simp] theorem setPending_result (s : State) (ms : List Micro) : (setPending s ms).result = s.result := rfl
@[simp] theorem setPending_config (s : State) (ms : List Micro) : (setPending s ms).config = s.config := rfl
@[simp] theorem setPending_schedule (s : State) (ms : List Micro) : (setPending s ms).schedule = s.schedule := rfl
@[simp] theorem setPending_drawCount (s : State) (ms : List Micro) : (setPending s ms).drawCount = s.drawCount := rfl
@[simp] theorem setPending_program (s : State) (ms : List Micro) : (setPending s ms).program = s.program := rfl
@[simp] theorem setPending_pending (s : State) (ms : List Micro) : (setPending s ms).pending = ms := rfl

/-! `setSvcStage`. -/

@[simp] theorem setSvcStage_clkLegacy (s : State) (st : SvcStage) : (setSvcStage s st).clkLegacy = s.clkLegacy := rfl
@[simp] theorem setSvcStage_clkAlt (s : State) (st : SvcStage) : (setSvcStage s st).clkAlt = s.clkAlt := rfl
@[simp] theorem setSvcStage_risPllLock (s : State) (st : SvcStage) : (setSvcStage s st).risPllLock = s.risPllLock := rfl
@[simp] theorem setSvcStage_gateGpio (s : State) (st : SvcStage) : (setSvcStage s st).gateGpio = s.gateGpio := rfl
@[simp] theorem setSvcStage_gateUart (s : State) (st : SvcStage) : (setSvcStage s st).gateUart = s.gateUart := rfl
@[simp] theorem setSvcStage_pllLocked (s : State) (st : SvcStage) : (setSvcStage s st).pllLocked = s.pllLocked := rfl
@[simp] theorem setSvcStage_clkStep (s : State) (st : SvcStage) : (setSvcStage s st).clkStep = s.clkStep := rfl
@[simp] theorem setSvcStage_clkStage (s : State) (st : SvcStage) : (setSvcStage s st).clkStage = s.clkStage := rfl
@[simp] theorem setSvcStage_svcStage (s : State) (st : SvcStage) : (setSvcStage s st).svcStage = st := rfl
@[simp] theorem setSvcStage_ports (s : State) (st : SvcStage) : (setSvcStage s st).ports = s.ports := rfl
@[simp] theorem setSvcStage_channels (s : State) (st : SvcStage) : (setSvcStage s st).channels = s.channels := rfl
@[simp] theorem setSvcStage_trace (s : State) (st : SvcStage) : (setSvcStage s st).trace = s.trace := rfl
@[simp] theorem setSvcStage_result (s : State) (st : SvcStage) : (setSvcStage s st).result = s.result := rfl
@[simp] theorem setSvcStage_config (s : State) (st : SvcStage) : (setSvcStage s st).config = s.config := rfl
@[simp] theorem setSvcStage_schedule (s : State) (st : SvcStage) : (setSvcStage s st).schedule = s.schedule := rfl
@[simp] theorem setSvcStage_drawCount (s : State) (st : SvcStage) : (setSvcStage s st).drawCount = s.drawCount := rfl
@[simp] theorem setSvcStage_program (s : State) (st : SvcStage) : (setSvcStage s st).program = s.program := rfl
@[simp] theorem setSvcStage_pending (s : State) (st : SvcStage) : (setSvcStage s st).pending = s.pending := rfl

/-! `ledPulse`: the color changes nothing (R210). -/

@[simp] theorem ledPulse_eq (color : Byte) (s : State) : ledPulse color s = idle s.config.ledPulseSpins s := rfl

end Sys2Proof.Machine
end

