-- ==== Sys2Proof/Laws/Agents.lean ====
section
/-! SUPPORT. What the agents' steps change and leave alone (R220, R223, R225, R226, R231), once for each step, for the
steps scheduled before an access (`tick`) and for idle steps. -/

namespace Sys2Proof.Machine

/-! One agent step. -/

theorem pllLockStep_cases (s : State) :
    pllLockStep s = s ∨
      (pllEnabled s = true ∧ pllLockStep s = { s with pllLocked := true, risPllLock := true }) := by
  unfold pllLockStep
  split
  · exact .inr ⟨by assumption, rfl⟩
  · exact .inl rfl

theorem transmitStep_cases (s : State) (c : Nat) :
    transmitStep s c = s ∨
      ∃ ch b q, s.channels[c]? = some ch ∧ ch.txq = b :: q ∧ transmitEnabled s c ch = true ∧
        transmitStep s c = setChannel s c
          { ch with
            txq := q
            wireTx := ch.wireTx ++ [{ byte := b, fmt := channelFormat s ch, routed := pinRouted s c }] } := by
  unfold transmitStep
  split
  · rename_i ch hc
    split
    · rename_i b q hq
      split
      · rename_i he
        exact .inr ⟨ch, b, q, hc, hq, he, rfl⟩
      · exact .inl rfl
    · exact .inl rfl
  · exact .inl rfl

theorem lineStep_cases (s : State) (c : Nat) (b : Byte) :
    lineStep s c b = s ∨
      ∃ ch, s.channels[c]? = some ch ∧ lineAccepts s c ch = true ∧
        lineStep s c b = setChannel s c { ch with rxq := ch.rxq ++ [b] } := by
  unfold lineStep
  split
  · rename_i ch hc
    split
    · rename_i he
      exact .inr ⟨ch, hc, he, rfl⟩
    · exact .inl rfl
  · exact .inl rfl

/-- Everything one agent step can do (R231). -/
theorem agentStep_cases (s : State) (e : AgentEvent) :
    agentStep s e = s ∨
      (pllEnabled s = true ∧ agentStep s e = { s with pllLocked := true, risPllLock := true }) ∨
      (∃ c ch b q, s.channels[c]? = some ch ∧ ch.txq = b :: q ∧ transmitEnabled s c ch = true ∧
        agentStep s e = setChannel s c
          { ch with
            txq := q
            wireTx := ch.wireTx ++ [{ byte := b, fmt := channelFormat s ch, routed := pinRouted s c }] }) ∨
      (∃ c ch b, s.channels[c]? = some ch ∧ lineAccepts s c ch = true ∧
        agentStep s e = setChannel s c { ch with rxq := ch.rxq ++ [b] }) := by
  cases e with
  | pllLock => rcases pllLockStep_cases s with h | h <;> simp [agentStep, h]
  | transmit c =>
    rcases transmitStep_cases s c with h | ⟨ch, b, q, h1, h2, h3, h4⟩
    · exact .inl h
    · exact .inr (.inr (.inl ⟨c, ch, b, q, h1, h2, h3, h4⟩))
  | line c b =>
    rcases lineStep_cases s c b with h | ⟨ch, h1, h2, h3⟩
    · exact .inl h
    · exact .inr (.inr (.inr ⟨c, ch, b, h1, h2, h3⟩))

@[simp] theorem agentStep_clkLegacy (s : State) (e : AgentEvent) : (agentStep s e).clkLegacy = s.clkLegacy := by
  rcases agentStep_cases s e with h | ⟨-, h⟩ | ⟨_, _, _, _, -, -, -, h⟩ | ⟨_, _, _, -, -, h⟩ <;> simp [h]

@[simp] theorem agentStep_clkAlt (s : State) (e : AgentEvent) : (agentStep s e).clkAlt = s.clkAlt := by
  rcases agentStep_cases s e with h | ⟨-, h⟩ | ⟨_, _, _, _, -, -, -, h⟩ | ⟨_, _, _, -, -, h⟩ <;> simp [h]

@[simp] theorem agentStep_gateGpio (s : State) (e : AgentEvent) : (agentStep s e).gateGpio = s.gateGpio := by
  rcases agentStep_cases s e with h | ⟨-, h⟩ | ⟨_, _, _, _, -, -, -, h⟩ | ⟨_, _, _, -, -, h⟩ <;> simp [h]

@[simp] theorem agentStep_gateUart (s : State) (e : AgentEvent) : (agentStep s e).gateUart = s.gateUart := by
  rcases agentStep_cases s e with h | ⟨-, h⟩ | ⟨_, _, _, _, -, -, -, h⟩ | ⟨_, _, _, -, -, h⟩ <;> simp [h]

@[simp] theorem agentStep_clkStep (s : State) (e : AgentEvent) : (agentStep s e).clkStep = s.clkStep := by
  rcases agentStep_cases s e with h | ⟨-, h⟩ | ⟨_, _, _, _, -, -, -, h⟩ | ⟨_, _, _, -, -, h⟩ <;> simp [h]

@[simp] theorem agentStep_clkStage (s : State) (e : AgentEvent) : (agentStep s e).clkStage = s.clkStage := by
  rcases agentStep_cases s e with h | ⟨-, h⟩ | ⟨_, _, _, _, -, -, -, h⟩ | ⟨_, _, _, -, -, h⟩ <;> simp [h]

@[simp] theorem agentStep_svcStage (s : State) (e : AgentEvent) : (agentStep s e).svcStage = s.svcStage := by
  rcases agentStep_cases s e with h | ⟨-, h⟩ | ⟨_, _, _, _, -, -, -, h⟩ | ⟨_, _, _, -, -, h⟩ <;> simp [h]

@[simp] theorem agentStep_ports (s : State) (e : AgentEvent) : (agentStep s e).ports = s.ports := by
  rcases agentStep_cases s e with h | ⟨-, h⟩ | ⟨_, _, _, _, -, -, -, h⟩ | ⟨_, _, _, -, -, h⟩ <;> simp [h]

@[simp] theorem agentStep_trace (s : State) (e : AgentEvent) : (agentStep s e).trace = s.trace := by
  rcases agentStep_cases s e with h | ⟨-, h⟩ | ⟨_, _, _, _, -, -, -, h⟩ | ⟨_, _, _, -, -, h⟩ <;> simp [h]

@[simp] theorem agentStep_result (s : State) (e : AgentEvent) : (agentStep s e).result = s.result := by
  rcases agentStep_cases s e with h | ⟨-, h⟩ | ⟨_, _, _, _, -, -, -, h⟩ | ⟨_, _, _, -, -, h⟩ <;> simp [h]

@[simp] theorem agentStep_config (s : State) (e : AgentEvent) : (agentStep s e).config = s.config := by
  rcases agentStep_cases s e with h | ⟨-, h⟩ | ⟨_, _, _, _, -, -, -, h⟩ | ⟨_, _, _, -, -, h⟩ <;> simp [h]

@[simp] theorem agentStep_drawCount (s : State) (e : AgentEvent) : (agentStep s e).drawCount = s.drawCount := by
  rcases agentStep_cases s e with h | ⟨-, h⟩ | ⟨_, _, _, _, -, -, -, h⟩ | ⟨_, _, _, -, -, h⟩ <;> simp [h]

@[simp] theorem agentStep_program (s : State) (e : AgentEvent) : (agentStep s e).program = s.program := by
  rcases agentStep_cases s e with h | ⟨-, h⟩ | ⟨_, _, _, _, -, -, -, h⟩ | ⟨_, _, _, -, -, h⟩ <;> simp [h]

@[simp] theorem agentStep_pending (s : State) (e : AgentEvent) : (agentStep s e).pending = s.pending := by
  rcases agentStep_cases s e with h | ⟨-, h⟩ | ⟨_, _, _, _, -, -, -, h⟩ | ⟨_, _, _, -, -, h⟩ <;> simp [h]

@[simp] theorem agentStep_schedule (s : State) (e : AgentEvent) : (agentStep s e).schedule = s.schedule := by
  rcases agentStep_cases s e with h | ⟨-, h⟩ | ⟨_, _, _, _, -, -, -, h⟩ | ⟨_, _, _, -, -, h⟩ <;> simp [h]

/-- Replacing a channel by one with the same registers leaves the registers of the channels alone. -/
theorem map_set_same {s : State} {c : Nat} {ch ch' : Channel} (h : s.channels[c]? = some ch)
    (hr : chanRegsOf ch' = chanRegsOf ch) : (s.channels.set c ch').map chanRegsOf = s.channels.map chanRegsOf := by
  apply List.ext_getElem?
  intro i
  simp only [List.getElem?_map, List.getElem?_set]
  by_cases hi : c = i
  · subst hi
    obtain ⟨hlt, hget⟩ := List.getElem?_eq_some_iff.1 h
    simp [hlt, hget, hr]
  · simp [hi]

theorem agentStep_chanRegs (s : State) (e : AgentEvent) :
    (agentStep s e).channels.map chanRegsOf = s.channels.map chanRegsOf := by
  rcases agentStep_cases s e with h | ⟨-, h⟩ | ⟨c, ch, b, q, hc, -, -, h⟩ | ⟨c, ch, b, hc, -, h⟩
  · rw [h]
  · rw [h]
  · rw [h]; exact map_set_same hc rfl
  · rw [h]; exact map_set_same hc rfl

/-- No agent writes a register (R231). -/
@[simp] theorem agentStep_soft (s : State) (e : AgentEvent) : (agentStep s e).soft = s.soft := by
  simp [State.soft, agentStep_chanRegs]

/-- A byte given to a channel stays given: the transmitter only moves it from the FIFO to the wire (R223). -/
@[simp] theorem agentStep_sent (s : State) (e : AgentEvent) (c : Nat) : sent (agentStep s e) c = sent s c := by
  rcases agentStep_cases s e with h | ⟨-, h⟩ | ⟨c', ch, b, q, hc, hq, -, h⟩ | ⟨c', ch, b, hc, -, h⟩
  · rw [h]
  · rw [h]; rfl
  · rw [h]
    by_cases hcc : c' = c
    · subst hcc
      obtain ⟨hlt, hget⟩ := List.getElem?_eq_some_iff.1 hc
      simp [sent, hlt, hget, hq]
    · simp [sent, hcc]
  · rw [h]
    by_cases hcc : c' = c
    · subst hcc
      obtain ⟨hlt, hget⟩ := List.getElem?_eq_some_iff.1 hc
      simp [sent, hlt, hget]
    · simp [sent, hcc]

/-! A preorder that every elementary change of the machine respects is respected by everything built from them. -/

/-- The elementary changes of state: the schedule moves on, an agent steps, the trace grows, a value is drawn, a register
is read or written. -/
structure Elementary (R : State → State → Prop) : Prop where
  refl : ∀ s, R s s
  trans : ∀ {s t u}, R s t → R t u → R s u
  schedule : ∀ s l, R s { s with schedule := l }
  agent : ∀ s e, R s (agentStep s e)
  log : ∀ k a v s, R s (logBus k a v s)
  read : ∀ {a r s v t}, readReg a r s = .ok v t → R s t
  write : ∀ {a r v s t}, writeReg a r v s = .ok () t → R s t

/-- The same for the agents alone. -/
structure AgentRel (R : State → State → Prop) : Prop where
  refl : ∀ s, R s s
  trans : ∀ {s t u}, R s t → R t u → R s u
  schedule : ∀ s l, R s { s with schedule := l }
  agent : ∀ s e, R s (agentStep s e)

theorem Elementary.agents {R : State → State → Prop} (E : Elementary R) : AgentRel R :=
  ⟨E.refl, E.trans, E.schedule, E.agent⟩

theorem AgentRel.events {R : State → State → Prop} (E : AgentRel R) (evs : List AgentEvent) (s : State) :
    R s (evs.foldl agentStep s) := by
  induction evs generalizing s with
  | nil => exact E.refl s
  | cons e rest ih => exact E.trans (E.agent s e) (ih _)

theorem AgentRel.tick {R : State → State → Prop} (E : AgentRel R) (s : State) : R s (tick s) := by
  unfold Machine.tick
  split
  · exact E.refl s
  · exact E.trans (E.schedule s _) (E.events _ _)

theorem AgentRel.idleOver {R : State → State → Prop} (E : AgentRel R) (sched : List (List AgentEvent)) (n : Nat)
    (s : State) : R s (Machine.idleOver sched n s) := by
  induction sched generalizing n s with
  | nil => unfold Machine.idleOver; exact E.schedule s []
  | cons evs rest ih =>
    cases n with
    | zero => unfold Machine.idleOver; exact E.schedule s _
    | succ n => unfold Machine.idleOver; exact E.trans (E.schedule s rest) (E.trans (E.events _ _) (ih n _))

theorem AgentRel.idle {R : State → State → Prop} (E : AgentRel R) (n : Nat) (s : State) : R s (idle n s) :=
  E.idleOver s.schedule n s

/-- A function of the state that no agent changes. -/
theorem AgentRel.ofFun {β : Type} (f : State → β) (hs : ∀ s l, f { s with schedule := l } = f s)
    (ha : ∀ s e, f (agentStep s e) = f s) : AgentRel fun s t => f t = f s :=
  ⟨fun _ => rfl, fun h1 h2 => h2.trans h1, hs, ha⟩

/-! Agents before an access, and idle steps. -/

@[simp] theorem tick_clkLegacy (s : State) : (tick s).clkLegacy = s.clkLegacy :=
  (AgentRel.ofFun State.clkLegacy (fun _ _ => rfl) agentStep_clkLegacy).tick s

@[simp] theorem idle_clkLegacy (n : Nat) (s : State) : (idle n s).clkLegacy = s.clkLegacy :=
  (AgentRel.ofFun State.clkLegacy (fun _ _ => rfl) agentStep_clkLegacy).idle n s

@[simp] theorem tick_clkAlt (s : State) : (tick s).clkAlt = s.clkAlt :=
  (AgentRel.ofFun State.clkAlt (fun _ _ => rfl) agentStep_clkAlt).tick s

@[simp] theorem idle_clkAlt (n : Nat) (s : State) : (idle n s).clkAlt = s.clkAlt :=
  (AgentRel.ofFun State.clkAlt (fun _ _ => rfl) agentStep_clkAlt).idle n s

@[simp] theorem tick_gateGpio (s : State) : (tick s).gateGpio = s.gateGpio :=
  (AgentRel.ofFun State.gateGpio (fun _ _ => rfl) agentStep_gateGpio).tick s

@[simp] theorem idle_gateGpio (n : Nat) (s : State) : (idle n s).gateGpio = s.gateGpio :=
  (AgentRel.ofFun State.gateGpio (fun _ _ => rfl) agentStep_gateGpio).idle n s

@[simp] theorem tick_gateUart (s : State) : (tick s).gateUart = s.gateUart :=
  (AgentRel.ofFun State.gateUart (fun _ _ => rfl) agentStep_gateUart).tick s

@[simp] theorem idle_gateUart (n : Nat) (s : State) : (idle n s).gateUart = s.gateUart :=
  (AgentRel.ofFun State.gateUart (fun _ _ => rfl) agentStep_gateUart).idle n s

@[simp] theorem tick_clkStep (s : State) : (tick s).clkStep = s.clkStep :=
  (AgentRel.ofFun State.clkStep (fun _ _ => rfl) agentStep_clkStep).tick s

@[simp] theorem idle_clkStep (n : Nat) (s : State) : (idle n s).clkStep = s.clkStep :=
  (AgentRel.ofFun State.clkStep (fun _ _ => rfl) agentStep_clkStep).idle n s

@[simp] theorem tick_clkStage (s : State) : (tick s).clkStage = s.clkStage :=
  (AgentRel.ofFun State.clkStage (fun _ _ => rfl) agentStep_clkStage).tick s

@[simp] theorem idle_clkStage (n : Nat) (s : State) : (idle n s).clkStage = s.clkStage :=
  (AgentRel.ofFun State.clkStage (fun _ _ => rfl) agentStep_clkStage).idle n s

@[simp] theorem tick_svcStage (s : State) : (tick s).svcStage = s.svcStage :=
  (AgentRel.ofFun State.svcStage (fun _ _ => rfl) agentStep_svcStage).tick s

@[simp] theorem idle_svcStage (n : Nat) (s : State) : (idle n s).svcStage = s.svcStage :=
  (AgentRel.ofFun State.svcStage (fun _ _ => rfl) agentStep_svcStage).idle n s

@[simp] theorem tick_ports (s : State) : (tick s).ports = s.ports :=
  (AgentRel.ofFun State.ports (fun _ _ => rfl) agentStep_ports).tick s

@[simp] theorem idle_ports (n : Nat) (s : State) : (idle n s).ports = s.ports :=
  (AgentRel.ofFun State.ports (fun _ _ => rfl) agentStep_ports).idle n s

@[simp] theorem tick_trace (s : State) : (tick s).trace = s.trace :=
  (AgentRel.ofFun State.trace (fun _ _ => rfl) agentStep_trace).tick s

@[simp] theorem idle_trace (n : Nat) (s : State) : (idle n s).trace = s.trace :=
  (AgentRel.ofFun State.trace (fun _ _ => rfl) agentStep_trace).idle n s

@[simp] theorem tick_result (s : State) : (tick s).result = s.result :=
  (AgentRel.ofFun State.result (fun _ _ => rfl) agentStep_result).tick s

@[simp] theorem idle_result (n : Nat) (s : State) : (idle n s).result = s.result :=
  (AgentRel.ofFun State.result (fun _ _ => rfl) agentStep_result).idle n s

@[simp] theorem tick_config (s : State) : (tick s).config = s.config :=
  (AgentRel.ofFun State.config (fun _ _ => rfl) agentStep_config).tick s

@[simp] theorem idle_config (n : Nat) (s : State) : (idle n s).config = s.config :=
  (AgentRel.ofFun State.config (fun _ _ => rfl) agentStep_config).idle n s

@[simp] theorem tick_drawCount (s : State) : (tick s).drawCount = s.drawCount :=
  (AgentRel.ofFun State.drawCount (fun _ _ => rfl) agentStep_drawCount).tick s

@[simp] theorem idle_drawCount (n : Nat) (s : State) : (idle n s).drawCount = s.drawCount :=
  (AgentRel.ofFun State.drawCount (fun _ _ => rfl) agentStep_drawCount).idle n s

@[simp] theorem tick_program (s : State) : (tick s).program = s.program :=
  (AgentRel.ofFun State.program (fun _ _ => rfl) agentStep_program).tick s

@[simp] theorem idle_program (n : Nat) (s : State) : (idle n s).program = s.program :=
  (AgentRel.ofFun State.program (fun _ _ => rfl) agentStep_program).idle n s

@[simp] theorem tick_pending (s : State) : (tick s).pending = s.pending :=
  (AgentRel.ofFun State.pending (fun _ _ => rfl) agentStep_pending).tick s

@[simp] theorem idle_pending (n : Nat) (s : State) : (idle n s).pending = s.pending :=
  (AgentRel.ofFun State.pending (fun _ _ => rfl) agentStep_pending).idle n s

@[simp] theorem tick_soft (s : State) : (tick s).soft = s.soft :=
  (AgentRel.ofFun State.soft (fun _ _ => rfl) agentStep_soft).tick s

@[simp] theorem idle_soft (n : Nat) (s : State) : (idle n s).soft = s.soft :=
  (AgentRel.ofFun State.soft (fun _ _ => rfl) agentStep_soft).idle n s

@[simp] theorem tick_sent (s : State) (c : Nat) : sent (tick s) c = sent s c :=
  (AgentRel.ofFun (sent · c) (fun _ _ => rfl) (fun s e => agentStep_sent s e c)).tick s

@[simp] theorem idle_sent (n : Nat) (s : State) (c : Nat) : sent (idle n s) c = sent s c :=
  (AgentRel.ofFun (sent · c) (fun _ _ => rfl) (fun s e => agentStep_sent s e c)).idle n s

/-- What agents do to a channel: its registers stay, bytes only leave the head of the transmit FIFO, and bytes only join the
tail of the receive FIFO (R223, R225). -/
def Drained (ch ch' : Channel) : Prop :=
  chanRegsOf ch' = chanRegsOf ch ∧ ch'.txq <:+ ch.txq ∧ ch.rxq <+: ch'.rxq

theorem drained_agents : AgentRel fun s t =>
    ∀ (c : Nat) (ch : Channel), s.channels[c]? = some ch → ∃ ch', t.channels[c]? = some ch' ∧ Drained ch ch' where
  refl _ _ ch h := ⟨ch, h, rfl, List.suffix_refl _, List.prefix_refl _⟩
  trans h1 h2 := fun c ch h => by
    obtain ⟨ch1, hc1, r1, t1, x1⟩ := h1 c ch h
    obtain ⟨ch2, hc2, r2, t2, x2⟩ := h2 c ch1 hc1
    exact ⟨ch2, hc2, r2.trans r1, t2.trans t1, x1.trans x2⟩
  schedule _ _ _ ch h := ⟨ch, h, rfl, List.suffix_refl _, List.prefix_refl _⟩
  agent s e := fun c x h => by
    have key : ∀ (i : Nat) (old new : Channel), s.channels[i]? = some old → agentStep s e = setChannel s i new →
        Drained old new → ∃ ch', (agentStep s e).channels[c]? = some ch' ∧ Drained x ch' := by
      intro i old new hi he hd
      rw [he]
      obtain ⟨hlt, hget⟩ := List.getElem?_eq_some_iff.1 hi
      by_cases hic : i = c
      · subst hic
        rw [hi] at h; cases h
        exact ⟨new, by simp [hlt], hd⟩
      · exact ⟨x, by simp [hic, h], rfl, List.suffix_refl _, List.prefix_refl _⟩
    rcases agentStep_cases s e with hs | ⟨hp, hs⟩ | ⟨i, ch, b, q, hc, hq, -, hs⟩ | ⟨i, ch, b, hc, ha, hs⟩
    · exact ⟨x, by rw [hs]; exact h, rfl, List.suffix_refl _, List.prefix_refl _⟩
    · exact ⟨x, by rw [hs]; exact h, rfl, List.suffix_refl _, List.prefix_refl _⟩
    · exact key i ch _ hc hs ⟨rfl, by simp [hq], List.prefix_refl _⟩
    · exact key i ch _ hc hs ⟨rfl, List.suffix_refl _, by simp⟩

/-- With no agent scheduled nothing happens before an access. -/
theorem tick_quiet {s : State} (h : s.schedule = []) : tick s = s := by
  simp [tick, h]

theorem idle_quiet {s : State} (h : s.schedule = []) (n : Nat) : idle n s = s := by
  cases s; simp at h; subst h; simp [idle, idleOver]

theorem events_schedule (evs : List AgentEvent) (s : State) : (evs.foldl agentStep s).schedule = s.schedule := by
  induction evs generalizing s with
  | nil => rfl
  | cons e rest ih => simp [ih]

@[simp] theorem tick_schedule (s : State) : (tick s).schedule = s.schedule.tail := by
  unfold tick
  split <;> rename_i h <;> simp [h, events_schedule]

/-- One idle step is the agents' steps of one schedule entry (R211). -/
theorem idle_succ (n : Nat) (s : State) : idle (n + 1) s = idle n (tick s) := by
  unfold idle tick
  cases h : s.schedule with
  | nil => simp [idleOver, h]
  | cons evs rest => simp [idleOver, events_schedule]

theorem idle_zero (s : State) : idle 0 s = s := by
  cases s
  unfold idle
  rename_i sched _ _ _
  cases sched <;> simp [idleOver]

/-- A channel keeps its registers through agent steps. -/
theorem channel_of_soft {s t : State} (h : t.soft = s.soft) {c : Nat} {ch : Channel} (hc : s.channels[c]? = some ch) :
    ∃ ch', t.channels[c]? = some ch' ∧ chanRegsOf ch' = chanRegsOf ch := by
  have hm : t.channels.map chanRegsOf = s.channels.map chanRegsOf := congrArg SoftView.channels h
  have := congrArg (·[c]?) hm
  simp only [List.getElem?_map, hc, Option.map_some] at this
  cases ht : t.channels[c]? with
  | none => simp [ht] at this
  | some ch' => exact ⟨ch', rfl, by simpa [ht] using this⟩

theorem channels_length_of_soft {s t : State} (h : t.soft = s.soft) : t.channels.length = s.channels.length := by
  have hm : t.channels.map chanRegsOf = s.channels.map chanRegsOf := congrArg SoftView.channels h
  simpa using congrArg List.length hm

end Sys2Proof.Machine
end

