-- ==== Sys2Proof/Laws/Fields.lean ====
section
/-! SUPPORT. The laws of bit fields (R13, R115, R116), of what a bus read returns (R84), and of addresses (R9). -/

namespace Sys2Proof.Machine

/-! Bits of the masks. -/

theorem fieldOk_lo {w : Nat} {f : Field} (h : fieldOk w f = true) : f.lo < 32 := by
  simp [fieldOk] at h; omega

theorem fieldOk_width {w : Nat} {f : Field} (h : fieldOk w f = true) :
    f.lo ≤ f.hi ∧ f.hi < 32 ∧ fieldWidth f = w ∧ f.hi = f.lo + w - 1 ∧ 0 < w := by
  simp [fieldOk, fieldWidth] at h ⊢; omega

theorem fieldMask_bit {w : Nat} {f : Field} (h : fieldOk w f = true) (j : Nat) :
    (fieldMask f).getLsbD j = (decide (f.lo ≤ j) && decide (j ≤ f.hi)) := by
  obtain ⟨h1, h2, -, -, -⟩ := fieldOk_width h
  simp only [fieldMask, BitVec.getLsbD_shiftLeft, BitVec.getLsbD_ofNat, Nat.testBit_two_pow_sub_one, fieldWidth]
  by_cases hj : j < 32 <;> by_cases hl : f.lo ≤ j <;> by_cases hh : j ≤ f.hi <;> simp [hj, hl, hh] <;> omega

theorem fieldBit_bit {f : Field} (h : f.lo < 32) (j : Nat) : (fieldBit f).getLsbD j = decide (j = f.lo) := by
  simp only [fieldBit, BitVec.getLsbD_shiftLeft, BitVec.getLsbD_one]
  by_cases hj : j = f.lo
  · subst hj; simp [h]
  · simp only [hj, decide_false]
    by_cases hl : j < f.lo
    · simp [hl]
    · have : j - f.lo ≠ 0 := by omega
      simp [this]

theorem fieldPut_bit {w : Nat} {f : Field} (h : fieldOk w f = true) (v j : Nat) :
    (fieldPut f v).getLsbD j = (decide (f.lo ≤ j) && decide (j ≤ f.hi) && v.testBit (j - f.lo)) := by
  obtain ⟨h1, h2, -, -, -⟩ := fieldOk_width h
  simp only [fieldPut, BitVec.getLsbD_and, fieldMask_bit h, BitVec.getLsbD_shiftLeft, BitVec.getLsbD_ofNat]
  by_cases hl : f.lo ≤ j <;> by_cases hh : j ≤ f.hi <;> simp [hl, hh]
  have a : j < 32 := by omega
  have b : ¬ j < f.lo := by omega
  have c : j - f.lo < 32 := by omega
  simp [a, b, c]

@[simp] theorem clearThenSet_bit (old set clr : Word) (j : Nat) :
    (clearThenSet old set clr).getLsbD j = ((old.getLsbD j && !clr.getLsbD j) || set.getLsbD j) := by
  simp only [clearThenSet, BitVec.getLsbD_or, BitVec.getLsbD_and, BitVec.getLsbD_not]
  by_cases h : j < 32
  · simp [h]
  · simp [BitVec.getLsbD_of_ge old j (by omega)]

/-! The commit filter, bit by bit (R42). -/

theorem byteField_bit (f : Field) (w : Word) (j : Nat) :
    (byteField f w).getLsbD j = (decide (j < 8) && w.getLsbD (f.lo + j)) := by
  simp [byteField, BitVec.getLsbD_extractLsb']

theorem byteField_lowByte (w : Word) : byteField lowByte w = w.setWidth 8 := by
  apply BitVec.eq_of_getLsbD_eq
  intro i hi
  rw [byteField_bit, BitVec.getLsbD_setWidth]
  simp only [lowByte, Nat.zero_add]

theorem keepBits_bit (mask old v : Word) (j : Nat) :
    (keepBits mask old v).getLsbD j = if mask.getLsbD j then old.getLsbD j else v.getLsbD j := by
  simp only [keepBits, BitVec.getLsbD_or, BitVec.getLsbD_and, BitVec.getLsbD_not]
  by_cases hj : j < 32
  · cases mask.getLsbD j <;> simp [hj]
  · have e : ∀ w : Word, w.getLsbD j = false := fun w => BitVec.getLsbD_of_ge w j (by omega)
    simp [e]

theorem commitByte_bit (committed : Byte) (old v : Word) (j : Nat) :
    (commitByte lowByte committed old v).getLsbD j =
      if j < 8 ∧ committed.getLsbD j = false then old.getLsbD j else v.getLsbD j := by
  rw [commitByte, keepBits_bit]
  have e : (byteWord (~~~committed) <<< lowByte.lo).getLsbD j = (decide (j < 8) && !committed.getLsbD j) := by
    rw [show byteWord (~~~committed) <<< lowByte.lo = byteWord (~~~committed) by simp [lowByte], byteWord,
      BitVec.getLsbD_setWidth, BitVec.getLsbD_not]
    by_cases h8 : j < 8
    · have : j < 32 := by omega
      simp only [h8, this, decide_true, Bool.true_and]
    · simp [h8]
  rw [e]
  by_cases h8 : j < 8 <;> cases hc : committed.getLsbD j <;> simp [h8]

theorem nibbleMask_bit (m : Byte) (i k : Nat) (hi : i < 8) (hk : k < 4) :
    (nibbleMask m).getLsbD (4 * i + k) = m.getLsbD i := by
  simp only [nibbleMask, pinsPerPort]
  have : ∀ n ≤ 8, ((List.range n).foldl (fun w i => if m.getLsbD i then w ||| (0xF#32 <<< (4 * i)) else w)
      0#32).getLsbD (4 * i + k) = (decide (i < n) && m.getLsbD i) := by
    intro n hn
    induction n with
    | zero => simp
    | succ n ih =>
      rw [List.range_succ, List.foldl_append]
      simp only [List.foldl_cons, List.foldl_nil]
      have hs : (0xF#32 <<< (4 * n)).getLsbD (4 * i + k) = decide (i = n) := by
        rw [BitVec.getLsbD_shiftLeft]
        have hl : 4 * i + k < 32 := by omega
        by_cases h : i = n
        · subst h
          have : 4 * i + k - 4 * i = k := by omega
          rw [this]
          have hkk : (0xF#32).getLsbD k = true := by interval_cases k <;> rfl
          simp [hl, hkk]
        · by_cases h2 : 4 * i + k < 4 * n
          · simp [h2, h]
          · have h3 : 4 ≤ 4 * i + k - 4 * n := by omega
            have : (0xF#32).getLsbD (4 * i + k - 4 * n) = false := by
              have : 4 * i + k - 4 * n < 32 := by omega
              generalize 4 * i + k - 4 * n = x at *
              interval_cases x <;> rfl
            simp [this, h]
      split
      · rename_i hm
        rw [BitVec.getLsbD_or, ih (by omega), hs]
        by_cases h : i = n
        · subst h; simp [hm]
        · have : (i < n + 1) = (i < n) := by simp; omega
          simp [h, this]
      · rename_i hm
        rw [ih (by omega)]
        by_cases h : i = n
        · subst h; simp [hm]
        · have : (i < n + 1) = (i < n) := by simp; omega
          simp [this]
  rw [this 8 (by omega)]; simp [hi]

theorem pinFieldsMask_nibbles (m : Byte) : pinFieldsMask ((List.range 8).map nibble) m = nibbleMask m := rfl

theorem commitNibbles_bit (committed : Byte) (old v : Word) (i k : Nat) (hi : i < 8) (hk : k < 4) :
    (commitNibbles ((List.range 8).map nibble) committed old v).getLsbD (4 * i + k) =
      if committed.getLsbD i then v.getLsbD (4 * i + k) else old.getLsbD (4 * i + k) := by
  have hl : 4 * i + k < 32 := by omega
  rw [commitNibbles, keepBits_bit, pinFieldsMask_nibbles, BitVec.getLsbD_not, nibbleMask_bit _ i k hi hk]
  cases committed.getLsbD i <;> simp [hl]

/-! The fields whose place the rules give. -/

/-- What `placedByRules` says, field by field. -/
structure Placed (l : Layout) : Prop where
  dataD : l.dataD = lowByte
  dirD : l.dirD = lowByte
  afselA : l.afselA = lowByte
  denE : l.denE = lowByte
  crC : l.crC = lowByte
  pctlF : l.pctlF = (List.range 8).map nibble
  drData : l.drData = lowByte
  divint : l.divint = { hi := 15, lo := 0 }
  divfrac : l.divfrac = { hi := 5, lo := 0 }

theorem layoutWf_placed {l : Layout} (h : layoutWf l = true) : Placed l := by
  have h := (Bool.and_eq_true _ _ ▸ h : _ ∧ _).2
  simp only [placedByRules, Bool.and_eq_true, beq_iff_eq] at h
  obtain ⟨⟨⟨⟨⟨⟨⟨⟨h1, h2⟩, h3⟩, h4⟩, h5⟩, h6⟩, h7⟩, h8⟩, h9⟩ := h
  exact ⟨h1, h2, h3, h4, h5, h6, h7, h8, h9⟩

theorem pctlCode_placed {l : Layout} (h : Placed l) (w : Word) {i : Nat} (hi : i < 8) :
    pctlCode l w i = w.extractLsb' (4 * i) 4 := by
  simp [pctlCode, h.pctlF, hi, nibble]

theorem committedPins_bit {l : Layout} (h : Placed l) (pt : Port) (j : Nat) :
    (committedPins l pt).getLsbD j = (decide (j < 8) && pt.cr.getLsbD j) := by
  simp [committedPins, h.crC, byteField_bit, lowByte]

/-! Reading a field back. -/

theorem fieldGet_congr {f : Field} {w w' : Word} (hf : f.lo ≤ f.hi) (h : ∀ j, f.lo ≤ j → j ≤ f.hi → w.getLsbD j = w'.getLsbD j) :
    fieldGet f w = fieldGet f w' := by
  unfold fieldGet
  congr 1
  apply BitVec.eq_of_getLsbD_eq
  intro i hi
  simp only [BitVec.getLsbD_extractLsb']
  rw [h (f.lo + i) (by omega) (by unfold fieldWidth at hi; omega)]

theorem fieldGet_eq {f : Field} {w : Word} {v : Nat} (hv : v < 2 ^ fieldWidth f)
    (h : ∀ i, i < fieldWidth f → w.getLsbD (f.lo + i) = v.testBit i) : fieldGet f w = v := by
  have e : w.extractLsb' f.lo (fieldWidth f) = BitVec.ofNat (fieldWidth f) v := by
    apply BitVec.eq_of_getLsbD_eq
    intro i hi
    rw [BitVec.getLsbD_extractLsb', BitVec.getLsbD_ofNat]
    simp [hi, h i hi]
  unfold fieldGet
  rw [e, BitVec.toNat_ofNat, Nat.mod_eq_of_lt hv]

/-- A field update reads back (R116). -/
theorem fieldGet_update {w : Nat} {f : Field} (h : fieldOk w f = true) (old : Word) {v : Nat} (hv : v < 2 ^ w) :
    fieldGet f (clearThenSet old (fieldPut f v) (fieldMask f)) = v := by
  obtain ⟨h1, h2, h3, h4, h5⟩ := fieldOk_width h
  apply fieldGet_eq (by rw [h3]; exact hv)
  intro i hi
  have : f.lo + i ≤ f.hi := by omega
  simp [fieldPut_bit h, fieldMask_bit h, this]

/-- Clearing a field makes it 0 (R116). -/
theorem fieldGet_clear {w : Nat} {f : Field} (h : fieldOk w f = true) (old : Word) :
    fieldGet f (clearThenSet old 0#32 (fieldMask f)) = 0 := by
  obtain ⟨h1, h2, h3, h4, h5⟩ := fieldOk_width h
  apply fieldGet_eq (Nat.two_pow_pos _)
  intro i hi
  have : f.lo + i ≤ f.hi := by omega
  simp [fieldMask_bit h, this]

/-- A field update leaves every bit outside the field as it was (R116, R143). -/
theorem update_outside {w : Nat} {f : Field} (h : fieldOk w f = true) (old : Word) (v : Nat) {j : Nat}
    (hj : outside f j) : (clearThenSet old (fieldPut f v) (fieldMask f)).getLsbD j = old.getLsbD j := by
  have e : (decide (f.lo ≤ j) && decide (j ≤ f.hi)) = false := by rcases hj with hj | hj <;> simp <;> omega
  simp [fieldPut_bit h, fieldMask_bit h, e]

theorem clear_outside {w : Nat} {f : Field} (h : fieldOk w f = true) (old : Word) {j : Nat} (hj : outside f j) :
    (clearThenSet old 0#32 (fieldMask f)).getLsbD j = old.getLsbD j := by
  have e : (decide (f.lo ≤ j) && decide (j ≤ f.hi)) = false := by rcases hj with hj | hj <;> simp <;> omega
  simp [fieldMask_bit h, e]

theorem one_bit_field {f : Field} (h : fieldOk 1 f = true) : f.hi = f.lo := by
  have := fieldOk_width h; omega

theorem setBit_outside {f : Field} (h : fieldOk 1 f = true) (old : Word) {j : Nat} (hj : outside f j) :
    (clearThenSet old (fieldBit f) 0#32).getLsbD j = old.getLsbD j := by
  have : j ≠ f.lo := by have := one_bit_field h; rcases hj with hj | hj <;> omega
  simp [fieldBit_bit (fieldOk_lo h), this]

theorem clearBit_outside {f : Field} (h : fieldOk 1 f = true) (old : Word) {j : Nat} (hj : outside f j) :
    (clearThenSet old 0#32 (fieldBit f)).getLsbD j = old.getLsbD j := by
  have : j ≠ f.lo := by have := one_bit_field h; rcases hj with hj | hj <;> omega
  simp [fieldBit_bit (fieldOk_lo h), this]

/-- Setting a one-bit field (R116). -/
theorem fieldFlag_setBit {f : Field} (h : fieldOk 1 f = true) (old : Word) :
    fieldFlag f (clearThenSet old (fieldBit f) 0#32) = true := by
  simp [fieldFlag, fieldBit_bit (fieldOk_lo h)]

/-- Clearing a one-bit field (R116). -/
theorem fieldFlag_clearBit {f : Field} (h : fieldOk 1 f = true) (old : Word) :
    fieldFlag f (clearThenSet old 0#32 (fieldBit f)) = false := by
  simp [fieldFlag, fieldBit_bit (fieldOk_lo h)]

/-- A field keeps its value if the bits of a field apart from it are the only ones changed. -/
theorem fieldGet_of_outside {f g : Field} {w w' : Word} (hg : g.lo ≤ g.hi) (ha : fieldsApart f g = true)
    (h : ∀ j, outside f j → w'.getLsbD j = w.getLsbD j) : fieldGet g w' = fieldGet g w := by
  apply fieldGet_congr hg
  intro j h1 h2
  apply h
  simp [fieldsApart] at ha
  unfold outside; omega

theorem fieldFlag_of_outside {f g : Field} {w w' : Word} (hg : g.lo ≤ g.hi) (ha : fieldsApart f g = true)
    (h : ∀ j, outside f j → w'.getLsbD j = w.getLsbD j) : fieldFlag g w' = fieldFlag g w := by
  apply h
  simp [fieldsApart] at ha
  unfold outside; omega

/-! What a read returns. -/

@[simp] theorem exactly_word (w : Word) : (exactly w).word = w := by
  have h : w &&& BitVec.allOnes 32 = w := BitVec.and_allOnes
  simp only [exactly, ReadValue.word, h]
  simp

/-- Each bit of the word a read returns (R84). -/
theorem word_bit (v : ReadValue) (j : Nat) :
    v.word.getLsbD j = if v.mask.getLsbD j then v.known.getLsbD j else v.fill.getLsbD j := by
  simp only [ReadValue.word, BitVec.getLsbD_or, BitVec.getLsbD_and, BitVec.getLsbD_not]
  by_cases hj : j < 32
  · cases v.mask.getLsbD j <;> simp [hj]
  · have e : ∀ w : Word, w.getLsbD j = false := fun w => BitVec.getLsbD_of_ge w j (by omega)
    simp [e]

/-- The flag of a read is the bit of its word. -/
theorem flag_eq_word_bit (v : ReadValue) {f : Field} (h : f.lo < 32) : v.flag f = v.word.getLsbD f.lo := by
  simp only [ReadValue.flag, ReadValue.word, BitVec.getLsbD_or, BitVec.getLsbD_and, BitVec.getLsbD_not, h, decide_true,
    Bool.true_and]
  cases v.mask.getLsbD f.lo <;> simp

/-- A byte read through `[7:0]` with every bit of it known is that byte, whatever was drawn (R51). -/
theorem low8_lowByte (b : Byte) (fill : Word) :
    ReadValue.low8 { known := byteWord b <<< lowByte.lo, mask := fieldMask lowByte, fill := fill } = b := by
  have h1 : fieldMask lowByte = 0xFF#32 := rfl
  have h2 : byteWord b <<< lowByte.lo = byteWord b := by simp [lowByte]
  rw [h1, h2]
  simp [ReadValue.low8, byteWord]

/-- The low byte of a read is the low byte of its word. -/
theorem low8_eq_word (v : ReadValue) : v.low8 = v.word.setWidth 8 := by
  unfold ReadValue.low8
  split
  · rename_i h
    apply BitVec.eq_of_getLsbD_eq
    intro i hi
    have hb : v.mask.getLsbD i = true := by
      have := congrArg (fun w => w.getLsbD i) h
      have h2 : (0xFF#32).getLsbD i = true := by interval_cases i <;> decide
      simp only [BitVec.getLsbD_and, h2, Bool.and_true] at this
      exact this
    rw [BitVec.getLsbD_setWidth, BitVec.getLsbD_setWidth]
    simp only [ReadValue.word, BitVec.getLsbD_or, BitVec.getLsbD_and, BitVec.getLsbD_not, hb]
    simp
  · rfl

theorem flagWord_bit {f : Field} (h : f.lo < 32) (b : Bool) (j : Nat) :
    (flagWord f b).getLsbD j = (b && decide (j = f.lo)) := by
  cases b <;> simp [flagWord, fieldBit_bit h]

/-! Addresses. -/

theorem find_distinct {α : Type} (f : α → Word) (l : List α) (hd : distinct (l.map f) = true) {r : α} (hr : r ∈ l) :
    l.find? (fun x => f x == f r) = some r := by
  induction l with
  | nil => cases hr
  | cons x rest ih =>
    simp only [List.map_cons, distinct, Bool.and_eq_true, List.all_eq_true] at hd
    rcases List.mem_cons.1 hr with rfl | hr
    · simp
    · have : f x ≠ f r := by
        have := hd.1 (f r) (List.mem_map_of_mem hr)
        simpa using fun e => (by simpa using this : f r ≠ f x) e.symm
      rw [List.find?_cons_of_neg (by simpa using this)]
      exact ih hd.2 hr

/-- In a well-formed layout every register answers at its own address (R9, R80). -/
theorem locate_addrOf {l : Layout} (h : layoutWf l = true) {r : Reg} (hr : r ∈ allRegs l) :
    locate l (addrOf l r) = some r := by
  apply find_distinct _ _ _ hr
  simp only [layoutWf, Bool.and_eq_true] at h
  tauto

theorem mem_allRegs_sys (l : Layout) {r : Reg} (h : r ∈ sysRegs) : r ∈ allRegs l := by
  simp [allRegs, h]

theorem mem_allRegs_gpio {l : Layout} {p : Nat} (h : p < l.gpioBase.length) (r : GpioReg) : Reg.gpio p r ∈ allRegs l := by
  simp only [allRegs, List.mem_append, List.mem_flatMap, List.mem_range]
  exact .inl (.inr ⟨p, h, by cases r <;> simp [portRegs]⟩)

theorem mem_allRegs_uart {l : Layout} {c : Nat} (h : c < l.uartBase.length) (r : UartReg) : Reg.uart c r ∈ allRegs l := by
  simp only [allRegs, List.mem_append, List.mem_flatMap, List.mem_range]
  exact .inr ⟨c, h, by cases r <;> simp [chanRegs]⟩

/-- What a found register is: a system register, or one of an existing port or channel. -/
theorem locate_mem {l : Layout} {a : Word} {r : Reg} (h : locate l a = some r) : r ∈ allRegs l ∧ addrOf l r = a := by
  refine ⟨List.mem_of_find?_eq_some h, ?_⟩
  simpa using List.find?_some h

theorem mem_allRegs_cases {l : Layout} {r : Reg} (h : r ∈ allRegs l) :
    r ∈ sysRegs ∨ (∃ p g, p < l.gpioBase.length ∧ r = .gpio p g) ∨ (∃ c u, c < l.uartBase.length ∧ r = .uart c u) := by
  simp only [allRegs, List.mem_append, List.mem_flatMap, List.mem_range] at h
  rcases h with (h | ⟨p, hp, h⟩) | ⟨c, hc, h⟩
  · exact .inl h
  · simp only [portRegs, List.mem_cons, List.not_mem_nil, or_false] at h
    exact .inr (.inl (by rcases h with h | h | h | h | h | h | h <;> exact ⟨p, _, hp, h⟩))
  · simp only [chanRegs, List.mem_cons, List.not_mem_nil, or_false] at h
    exact .inr (.inr (by rcases h with h | h | h | h | h | h <;> exact ⟨c, _, hc, h⟩))

/-! Setting one field, and what that leaves of the others (R14, R61). -/

theorem fieldGet_fieldSet {w : Nat} {f : Field} (h : fieldOk w f = true) (old : Word) {v : Nat} (hv : v < 2 ^ w) :
    fieldGet f (fieldSet f v old) = v := fieldGet_update h old hv

theorem fieldSet_outside {w : Nat} {f : Field} (h : fieldOk w f = true) (old : Word) (v : Nat) {j : Nat}
    (hj : outside f j) : (fieldSet f v old).getLsbD j = old.getLsbD j := update_outside h old v hj

theorem fieldFlag_eq_get {f : Field} (h : fieldOk 1 f = true) (w : Word) : fieldFlag f w = (fieldGet f w == 1) := by
  have hw : fieldWidth f = 1 := (fieldOk_width h).2.2.1
  have hb : (w.extractLsb' f.lo 1).getLsbD 0 = w.getLsbD f.lo := by simp
  rw [fieldFlag, ← hb, fieldGet, hw]
  generalize w.extractLsb' f.lo 1 = b
  revert b; decide

theorem fieldGet_fieldSet_apart {a b : Nat} {f g : Field} (hf : fieldOk a f = true) (hg : fieldOk b g = true)
    (h : fieldsApart f g = true) (v : Nat) (w : Word) : fieldGet g (fieldSet f v w) = fieldGet g w := by
  refine fieldGet_congr (fieldOk_width hg).1 fun j h1 h2 => ?_
  refine fieldSet_outside hf w v ?_
  simp only [fieldsApart, Bool.or_eq_true, decide_eq_true_eq] at h
  unfold outside
  omega

/-- The reference configuration is well formed, whatever its free values. -/
theorem configRef_wf : configWf configRef = true := by
  have h0 : decide (0 ≤ configRef.intOscHz) = true := decide_eq_true Config.openIntOscHz.2
  rw [configWf, h0]
  rfl

end Sys2Proof.Machine
end

