-- ==== Sys2Proof/Laws/Bus.lean ====
section
/-! SUPPORT. What the shared operations can do: reading and writing a register, the two bus primitives, `MODIFY` and the
busy-waits (R84, R85, R143, R160, R190), each said once, and the two preorders that all of them respect. -/

namespace Sys2Proof.Machine

/-! `afterClockWrite` changes `pll_locked` at most (R31). -/

@[simp] theorem afterClockWrite_clkLegacy (s t : State) : (afterClockWrite s t).clkLegacy = t.clkLegacy := by
  unfold afterClockWrite; split <;> rfl

@[simp] theorem afterClockWrite_clkAlt (s t : State) : (afterClockWrite s t).clkAlt = t.clkAlt := by
  unfold afterClockWrite; split <;> rfl

@[simp] theorem afterClockWrite_risPllLock (s t : State) : (afterClockWrite s t).risPllLock = t.risPllLock := by
  unfold afterClockWrite; split <;> rfl

@[simp] theorem afterClockWrite_gateGpio (s t : State) : (afterClockWrite s t).gateGpio = t.gateGpio := by
  unfold afterClockWrite; split <;> rfl

@[simp] theorem afterClockWrite_gateUart (s t : State) : (afterClockWrite s t).gateUart = t.gateUart := by
  unfold afterClockWrite; split <;> rfl

@[simp] theorem afterClockWrite_clkStep (s t : State) : (afterClockWrite s t).clkStep = t.clkStep := by
  unfold afterClockWrite; split <;> rfl

@[simp] theorem afterClockWrite_clkStage (s t : State) : (afterClockWrite s t).clkStage = t.clkStage := by
  unfold afterClockWrite; split <;> rfl

@[simp] theorem afterClockWrite_svcStage (s t : State) : (afterClockWrite s t).svcStage = t.svcStage := by
  unfold afterClockWrite; split <;> rfl

@[simp] theorem afterClockWrite_ports (s t : State) : (afterClockWrite s t).ports = t.ports := by
  unfold afterClockWrite; split <;> rfl

@[simp] theorem afterClockWrite_channels (s t : State) : (afterClockWrite s t).channels = t.channels := by
  unfold afterClockWrite; split <;> rfl

@[simp] theorem afterClockWrite_trace (s t : State) : (afterClockWrite s t).trace = t.trace := by
  unfold afterClockWrite; split <;> rfl

@[simp] theorem afterClockWrite_result (s t : State) : (afterClockWrite s t).result = t.result := by
  unfold afterClockWrite; split <;> rfl

@[simp] theorem afterClockWrite_config (s t : State) : (afterClockWrite s t).config = t.config := by
  unfold afterClockWrite; split <;> rfl

@[simp] theorem afterClockWrite_schedule (s t : State) : (afterClockWrite s t).schedule = t.schedule := by
  unfold afterClockWrite; split <;> rfl

@[simp] theorem afterClockWrite_drawCount (s t : State) : (afterClockWrite s t).drawCount = t.drawCount := by
  unfold afterClockWrite; split <;> rfl

@[simp] theorem afterClockWrite_program (s t : State) : (afterClockWrite s t).program = t.program := by
  unfold afterClockWrite; split <;> rfl

@[simp] theorem afterClockWrite_pending (s t : State) : (afterClockWrite s t).pending = t.pending := by
  unfold afterClockWrite; split <;> rfl

theorem afterClockWrite_pllLocked (s t : State) :
    (afterClockWrite s t).pllLocked =
      (t.pllLocked && !(effPwrdn t || effOscsrc s != effOscsrc t || xtalCode s != xtalCode t)) := by
  unfold afterClockWrite
  by_cases h : (effPwrdn t || effOscsrc s != effOscsrc t || xtalCode s != xtalCode t) = true
  · rw [if_pos h, h]; simp
  · rw [if_neg h]; simp only [Bool.not_eq_true] at h; rw [h]; simp

/-! Reading a register. -/

theorem drawn_ok {k m : Word} {s t : State} {v : ReadValue} (h : drawn k m s = .ok v t) :
    v = { known := k, mask := m, fill := Config.freeWord s.drawCount } ∧ t = (countDraw s) := by
  simp only [drawn, Res.ok.injEq] at h
  exact ⟨h.1.symm, h.2.symm⟩

/-- A read changes nothing, or counts one draw, or pops one received byte and counts one draw (R84, R88). -/
theorem readReg_ok {a : Word} {r : Reg} {s t : State} {v : ReadValue} (h : readReg a r s = .ok v t) :
    t = s ∨ t = (countDraw s) ∨
      ∃ c ch b q, r = .uart c .dr ∧ s.channels[c]? = some ch ∧ ch.rxq = b :: q ∧
        (Placed s.config.layout → v.low8 = b) ∧
        t = countDraw (setChannel s c { ch with rxq := q }) := by
  cases r with
  | ris => exact .inr (.inl (drawn_ok h).2)
  | legacy => simp only [readReg, Res.ok.injEq] at h; exact .inl h.2.symm
  | alt => simp only [readReg, Res.ok.injEq] at h; exact .inl h.2.symm
  | gateGpio => simp only [readReg, Res.ok.injEq] at h; exact .inl h.2.symm
  | gateUart => simp only [readReg, Res.ok.injEq] at h; exact .inl h.2.symm
  | gpio p g =>
    simp only [readReg] at h
    split at h
    · simp only [Res.ok.injEq] at h; exact .inl h.2.symm
    · cases h
  | uart c u =>
    simp only [readReg] at h
    split at h
    · rename_i ch hc
      cases u with
      | dr =>
        simp only [readChannel] at h
        split at h
        · rename_i b q hq
          obtain ⟨hv, ht⟩ := drawn_ok h
          refine .inr (.inr ⟨c, ch, b, q, rfl, hc, hq, ?_, ht⟩)
          intro hpl
          rw [hv, hpl.drData]
          exact low8_lowByte b _
        · exact .inr (.inl (drawn_ok h).2)
      | fr => exact .inr (.inl (drawn_ok h).2)
      | ibrd => simp only [readChannel, Res.ok.injEq] at h; exact .inl h.2.symm
      | fbrd => simp only [readChannel, Res.ok.injEq] at h; exact .inl h.2.symm
      | lcrh => simp only [readChannel, Res.ok.injEq] at h; exact .inl h.2.symm
      | ctl => simp only [readChannel, Res.ok.injEq] at h; exact .inl h.2.symm
    · cases h

/-! Writing a register. -/

/-- What a write does to a channel (R45 to R53). -/
theorem writeChannel_ok {s t : State} {c : Nat} {ch : Channel} {u : UartReg} {a v : Word}
    (h : writeChannel s c ch u a v = .ok () t) :
    ∃ ch', t = setChannel s c ch' ∧
      ((u = .dr ∧ ch' = pushTx s.config ch (byteField s.config.layout.drData v)) ∨ (u = .ibrd ∧ ch' = { ch with ibrd := v }) ∨
        (u = .fbrd ∧ ch' = { ch with fbrd := v }) ∨
        (u = .lcrh ∧ shrinks s.config ch v = false ∧ ch' = latchLine s.config.layout ch v) ∨ (u = .ctl ∧ ch' = { ch with ctl := v })) := by
  cases u <;> simp only [writeChannel] at h
  case dr => simp only [Res.ok.injEq, true_and] at h; exact ⟨_, h.symm, by simp⟩
  case fr => cases h
  case ibrd => simp only [Res.ok.injEq, true_and] at h; exact ⟨_, h.symm, by simp⟩
  case fbrd => simp only [Res.ok.injEq, true_and] at h; exact ⟨_, h.symm, by simp⟩
  case lcrh =>
    split at h
    · cases h
    · rename_i hs
      simp only [Res.ok.injEq, true_and] at h
      exact ⟨_, h.symm, by simpa using hs⟩
  case ctl => simp only [Res.ok.injEq, true_and] at h; exact ⟨_, h.symm, by simp⟩

/-- Everything a register write can do (R85, R88). -/
theorem writeReg_ok {a : Word} {r : Reg} {v : Word} {s t : State} (h : writeReg a r v s = .ok () t) :
    (r = .legacy ∧ t = afterClockWrite s { s with clkLegacy := v }) ∨
      (r = .alt ∧ t = afterClockWrite s { s with clkAlt := v }) ∨
      (r = .gateGpio ∧ t = { s with gateGpio := v }) ∨ (r = .gateUart ∧ t = { s with gateUart := v }) ∨
      (∃ p g pt, r = .gpio p g ∧ s.ports[p]? = some pt ∧ t = setPort s p (writePort s.config pt g v)) ∨
      (∃ c u ch, r = .uart c u ∧ s.channels[c]? = some ch ∧ writeChannel s c ch u a v = .ok () t) := by
  cases r with
  | ris => cases h
  | legacy => simp only [writeReg, Res.ok.injEq, true_and] at h; simp [h]
  | alt => simp only [writeReg, Res.ok.injEq, true_and] at h; simp [h]
  | gateGpio => simp only [writeReg, Res.ok.injEq, true_and] at h; simp [h]
  | gateUart => simp only [writeReg, Res.ok.injEq, true_and] at h; simp [h]
  | gpio p g =>
    simp only [writeReg] at h
    split at h
    · rename_i pt hp
      simp only [Res.ok.injEq, true_and] at h
      exact .inr (.inr (.inr (.inr (.inl ⟨p, g, pt, rfl, hp, h.symm⟩))))
    · cases h
  | uart c u =>
    simp only [writeReg] at h
    split at h
    · rename_i ch hc
      exact .inr (.inr (.inr (.inr (.inr ⟨c, u, ch, rfl, hc, h⟩))))
    · cases h

/-! Sequencing. -/

theorem bind_ok {α β : Type} {x : Res α} {f : α → State → Res β} {b : β} {u : State} (h : x.bind f = .ok b u) :
    ∃ v t, x = .ok v t ∧ f v t = .ok b u := by
  cases x with
  | ok v t => exact ⟨v, t, rfl, h⟩
  | fault e => cases h
  | refused r => cases h

@[simp] theorem ok_bind {α β : Type} (v : α) (s : State) (f : α → State → Res β) : (Res.ok v s).bind f = f v s := rfl

@[simp] theorem fault_bind {α β : Type} (e : Fault) (f : α → State → Res β) : (Res.fault e).bind f = .fault e := rfl

@[simp] theorem refused_bind {α β : Type} (r : Refusal) (f : α → State → Res β) :
    (Res.refused r).bind f = .refused r := rfl

/-! The bus primitives, from their answers. -/

theorem busRead_ok {a : Word} {s t : State} {v : ReadValue} (h : busRead a s = .ok v t) :
    ∃ r u, locate s.config.layout a = some r ∧ clocked (tick s) r = true ∧ readReg a r (tick s) = .ok v u ∧
      t = logBus .read a v.word u := by
  simp only [busRead, tick_config] at h
  split at h
  · rename_i r hr
    split at h
    · rename_i hc
      obtain ⟨v', u, h1, h2⟩ := bind_ok h
      simp only [Res.ok.injEq] at h2
      obtain ⟨rfl, rfl⟩ := h2
      exact ⟨r, u, hr, hc, h1, rfl⟩
    · cases h
  · cases h

theorem busWrite_ok {a v : Word} {s t : State} (h : busWrite a v s = .ok () t) :
    ∃ r u, locate s.config.layout a = some r ∧ writable r = true ∧ clocked (tick s) r = true ∧
      writeReg a r v (tick s) = .ok () u ∧ t = logBus .write a v u := by
  simp only [busWrite, tick_config] at h
  split at h
  · rename_i r hr
    split at h
    · rename_i hw
      split at h
      · rename_i hc
        obtain ⟨v', u, h1, h2⟩ := bind_ok h
        simp only [Res.ok.injEq, true_and] at h2
        exact ⟨r, u, hr, hw, hc, h1, h2.symm⟩
      · cases h
    · cases h
  · cases h

/-! The bus primitives at a register's own address. -/

@[simp] theorem tick_clocked (s : State) (r : Reg) : clocked (tick s) r = clocked s r := by
  cases r <;> simp [clocked, portClocked, chanClocked]

@[simp] theorem idle_clocked (n : Nat) (s : State) (r : Reg) : clocked (idle n s) r = clocked s r := by
  cases r <;> simp [clocked, portClocked, chanClocked]

theorem configWf_layout {c : Config} (h : configWf c = true) : layoutWf c.layout = true := by
  simp only [configWf, Bool.and_eq_true] at h; tauto

theorem busRead_at {s : State} {r : Reg} (hw : layoutWf s.config.layout = true) (hr : r ∈ allRegs s.config.layout)
    (hc : clocked s r = true) :
    busRead (addrOf s.config.layout r) s =
      (readReg (addrOf s.config.layout r) r (tick s)).bind fun v t =>
        .ok v (logBus .read (addrOf s.config.layout r) v.word t) := by
  simp [busRead, locate_addrOf hw hr, hc]

theorem busWrite_at {s : State} {r : Reg} (hw : layoutWf s.config.layout = true) (hr : r ∈ allRegs s.config.layout)
    (hb : writable r = true) (hc : clocked s r = true) (v : Word) :
    busWrite (addrOf s.config.layout r) v s =
      (writeReg (addrOf s.config.layout r) r v (tick s)).bind fun _ t =>
        .ok () (logBus .write (addrOf s.config.layout r) v t) := by
  simp [busWrite, locate_addrOf hw hr, hb, hc]

/-- `MODIFY` of a register whose read has no effect and knows every bit: the read is logged, the agents scheduled before
the write step, and `(old & ~clr) | set` is written (R143). -/
theorem busModify_at {s : State} {r : Reg} {old : Word} (hw : layoutWf s.config.layout = true)
    (hr : r ∈ allRegs s.config.layout) (hb : writable r = true) (hc : clocked s r = true)
    (hread : readReg (addrOf s.config.layout r) r (tick s) = .ok (exactly old) (tick s)) (st cl : Word) :
    busModify (addrOf s.config.layout r) st cl s =
      (writeReg (addrOf s.config.layout r) r (clearThenSet old st cl)
        (tick (logBus .read (addrOf s.config.layout r) old (tick s)))).bind fun _ t =>
        .ok () (logBus .write (addrOf s.config.layout r) (clearThenSet old st cl) t) := by
  unfold busModify
  rw [busRead_at hw hr hc, hread]
  simp only [ok_bind, exactly_word]
  have hcfg : (logBus .read (addrOf s.config.layout r) old (tick s)).config = s.config := by simp
  have hcl : clocked (logBus .read (addrOf s.config.layout r) old (tick s)) r = true := by
    rw [show clocked (logBus .read (addrOf s.config.layout r) old (tick s)) r = clocked (tick s) r by cases r <;> rfl]
    rw [tick_clocked]
    exact hc
  have := busWrite_at (s := logBus .read (addrOf s.config.layout r) old (tick s)) (r := r) (by rw [hcfg]; exact hw)
    (by rw [hcfg]; exact hr) hb hcl (clearThenSet old st cl)
  rw [hcfg] at this
  exact this

/-! Everything built from the elementary changes. -/

theorem Elementary.busRead {R : State → State → Prop} (E : Elementary R) {a : Word} {s t : State} {v : ReadValue}
    (h : Machine.busRead a s = .ok v t) : R s t := by
  obtain ⟨r, u, -, -, h1, rfl⟩ := busRead_ok h
  exact E.trans (E.agents.tick s) (E.trans (E.read h1) (E.log _ _ _ _))

theorem Elementary.busWrite {R : State → State → Prop} (E : Elementary R) {a v : Word} {s t : State}
    (h : Machine.busWrite a v s = .ok () t) : R s t := by
  obtain ⟨r, u, -, -, -, h1, rfl⟩ := busWrite_ok h
  exact E.trans (E.agents.tick s) (E.trans (E.write h1) (E.log _ _ _ _))

theorem Elementary.busModify {R : State → State → Prop} (E : Elementary R) {a st cl : Word} {s t : State}
    (h : Machine.busModify a st cl s = .ok () t) : R s t := by
  obtain ⟨v, u, h1, h2⟩ := bind_ok h
  exact E.trans (E.busRead h1) (E.busWrite h2)

theorem Elementary.pollFor {R : State → State → Prop} (E : Elementary R) {a : Word} {test : ReadValue → Bool}
    {n : Nat} {s t : State} {b : Bool} (h : Machine.pollFor a test n s = .ok b t) : R s t := by
  induction n generalizing s with
  | zero => simp only [Machine.pollFor, Res.ok.injEq] at h; rw [← h.2]; exact E.refl s
  | succ n ih =>
    obtain ⟨v, u, h1, h2⟩ := bind_ok h
    split at h2
    · simp only [Res.ok.injEq] at h2; rw [← h2.2]; exact E.busRead h1
    · exact E.trans (E.busRead h1) (ih h2)

theorem Elementary.poll {R : State → State → Prop} (E : Elementary R) {a : Word} {test : ReadValue → Bool}
    {s t : State} {b : Bool} (h : Machine.poll a test s = .ok b t) : R s t := E.pollFor h

/-- A wait that ended, ended with a read that passed the test (R160, R190). -/
theorem pollFor_true {a : Word} {test : ReadValue → Bool} {n : Nat} {s t : State} (h : pollFor a test n s = .ok true t) :
    ∃ u v, busRead a u = .ok v t ∧ test v = true := by
  induction n generalizing s with
  | zero => simp [pollFor] at h
  | succ n ih =>
    obtain ⟨v, u, h1, h2⟩ := bind_ok h
    split at h2
    · rename_i ht
      simp only [Res.ok.injEq, true_and] at h2
      exact ⟨s, v, h2 ▸ h1, ht⟩
    · exact ih h2

/-- A preorder that keeps a function of the state. -/
theorem Elementary.ofFun {β : Type} (f : State → β) (h1 : ∀ s l, f { s with schedule := l } = f s)
    (h2 : ∀ s e, f (agentStep s e) = f s) (h3 : ∀ k a v s, f (logBus k a v s) = f s)
    (h4 : ∀ a r s v t, readReg a r s = .ok v t → f t = f s) (h5 : ∀ a r v s t, writeReg a r v s = .ok () t → f t = f s) :
    Elementary fun s t => f t = f s :=
  ⟨fun _ => rfl, fun h1 h2 => h2.trans h1, h1, h2, h3, h4 _ _ _ _ _, h5 _ _ _ _ _⟩

theorem elementary_clkStep : Elementary fun s t => t.clkStep = s.clkStep := by
  apply Elementary.ofFun State.clkStep (fun _ _ => rfl) agentStep_clkStep (fun _ _ _ _ => rfl)
  · intro a r s v t h
    rcases readReg_ok h with rfl | rfl | ⟨c, ch, b, q, -, -, -, -, rfl⟩ <;> simp
  · intro a r v s t h
    rcases writeReg_ok h with ⟨-, rfl⟩ | ⟨-, rfl⟩ | ⟨-, rfl⟩ | ⟨-, rfl⟩ | ⟨_, _, _, -, -, rfl⟩ | ⟨c, u, ch, -, -, h⟩ <;>
      try simp
    obtain ⟨ch', rfl, -⟩ := writeChannel_ok h
    simp

theorem elementary_clkStage : Elementary fun s t => t.clkStage = s.clkStage := by
  apply Elementary.ofFun State.clkStage (fun _ _ => rfl) agentStep_clkStage (fun _ _ _ _ => rfl)
  · intro a r s v t h
    rcases readReg_ok h with rfl | rfl | ⟨c, ch, b, q, -, -, -, -, rfl⟩ <;> simp
  · intro a r v s t h
    rcases writeReg_ok h with ⟨-, rfl⟩ | ⟨-, rfl⟩ | ⟨-, rfl⟩ | ⟨-, rfl⟩ | ⟨_, _, _, -, -, rfl⟩ | ⟨c, u, ch, -, -, h⟩ <;>
      try simp
    obtain ⟨ch', rfl, -⟩ := writeChannel_ok h
    simp

theorem elementary_svcStage : Elementary fun s t => t.svcStage = s.svcStage := by
  apply Elementary.ofFun State.svcStage (fun _ _ => rfl) agentStep_svcStage (fun _ _ _ _ => rfl)
  · intro a r s v t h
    rcases readReg_ok h with rfl | rfl | ⟨c, ch, b, q, -, -, -, -, rfl⟩ <;> simp
  · intro a r v s t h
    rcases writeReg_ok h with ⟨-, rfl⟩ | ⟨-, rfl⟩ | ⟨-, rfl⟩ | ⟨-, rfl⟩ | ⟨_, _, _, -, -, rfl⟩ | ⟨c, u, ch, -, -, h⟩ <;>
      try simp
    obtain ⟨ch', rfl, -⟩ := writeChannel_ok h
    simp

theorem elementary_result : Elementary fun s t => t.result = s.result := by
  apply Elementary.ofFun State.result (fun _ _ => rfl) agentStep_result (fun _ _ _ _ => rfl)
  · intro a r s v t h
    rcases readReg_ok h with rfl | rfl | ⟨c, ch, b, q, -, -, -, -, rfl⟩ <;> simp
  · intro a r v s t h
    rcases writeReg_ok h with ⟨-, rfl⟩ | ⟨-, rfl⟩ | ⟨-, rfl⟩ | ⟨-, rfl⟩ | ⟨_, _, _, -, -, rfl⟩ | ⟨c, u, ch, -, -, h⟩ <;>
      try simp
    obtain ⟨ch', rfl, -⟩ := writeChannel_ok h
    simp

theorem elementary_config : Elementary fun s t => t.config = s.config := by
  apply Elementary.ofFun State.config (fun _ _ => rfl) agentStep_config (fun _ _ _ _ => rfl)
  · intro a r s v t h
    rcases readReg_ok h with rfl | rfl | ⟨c, ch, b, q, -, -, -, -, rfl⟩ <;> simp
  · intro a r v s t h
    rcases writeReg_ok h with ⟨-, rfl⟩ | ⟨-, rfl⟩ | ⟨-, rfl⟩ | ⟨-, rfl⟩ | ⟨_, _, _, -, -, rfl⟩ | ⟨c, u, ch, -, -, h⟩ <;>
      try simp
    obtain ⟨ch', rfl, -⟩ := writeChannel_ok h
    simp

theorem elementary_program : Elementary fun s t => t.program = s.program := by
  apply Elementary.ofFun State.program (fun _ _ => rfl) agentStep_program (fun _ _ _ _ => rfl)
  · intro a r s v t h
    rcases readReg_ok h with rfl | rfl | ⟨c, ch, b, q, -, -, -, -, rfl⟩ <;> simp
  · intro a r v s t h
    rcases writeReg_ok h with ⟨-, rfl⟩ | ⟨-, rfl⟩ | ⟨-, rfl⟩ | ⟨-, rfl⟩ | ⟨_, _, _, -, -, rfl⟩ | ⟨c, u, ch, -, -, h⟩ <;>
      try simp
    obtain ⟨ch', rfl, -⟩ := writeChannel_ok h
    simp

theorem elementary_pending : Elementary fun s t => t.pending = s.pending := by
  apply Elementary.ofFun State.pending (fun _ _ => rfl) agentStep_pending (fun _ _ _ _ => rfl)
  · intro a r s v t h
    rcases readReg_ok h with rfl | rfl | ⟨c, ch, b, q, -, -, -, -, rfl⟩ <;> simp
  · intro a r v s t h
    rcases writeReg_ok h with ⟨-, rfl⟩ | ⟨-, rfl⟩ | ⟨-, rfl⟩ | ⟨-, rfl⟩ | ⟨_, _, _, -, -, rfl⟩ | ⟨c, u, ch, -, -, h⟩ <;>
      try simp
    obtain ⟨ch', rfl, -⟩ := writeChannel_ok h
    simp

/-- `shrinks` decides `lowersBelow` (R52). -/
theorem shrinks_iff (c : Config) (ch : Channel) (v : Word) : shrinks c ch v = true ↔ lowersBelow c ch v := by
  simp only [shrinks, lowersBelow, Bool.and_eq_true, Bool.or_eq_true, decide_eq_true_eq]
  rfl

end Sys2Proof.Machine
end

