-- ==== Sys2Proof/Laws/Commute.lean ====
section
/-! SUPPORT. Agents look at no trace, result, draw count, program or pending list, so their steps commute with changes of
those; and the parts of the state that an access leaves alone. -/

namespace Sys2Proof.Machine

/-- The state with the fields that no agent reads replaced. -/
def withIssuer (s : State) (tr : List BusEvent) (r : Option Word) (n : Nat) (pr : List Word) (pe : List Micro) : State :=
  { s with trace := tr, result := r, drawCount := n, program := pr, pending := pe }

theorem agentStep_withIssuer (s : State) (e : AgentEvent) (tr : List BusEvent) (r : Option Word) (n : Nat)
    (pr : List Word) (pe : List Micro) :
    agentStep (withIssuer s tr r n pr pe) e = withIssuer (agentStep s e) tr r n pr pe := by
  cases e with
  | pllLock =>
    simp only [agentStep, pllLockStep]
    rw [show pllEnabled (withIssuer s tr r n pr pe) = pllEnabled s from rfl]
    split <;> rfl
  | transmit c =>
    simp only [agentStep, transmitStep]
    rw [show (withIssuer s tr r n pr pe).channels = s.channels from rfl]
    split
    · rename_i ch _
      rw [show transmitEnabled (withIssuer s tr r n pr pe) c ch = transmitEnabled s c ch from rfl]
      split
      · split <;> rfl
      · rfl
    · rfl
  | line c b =>
    simp only [agentStep, lineStep]
    rw [show (withIssuer s tr r n pr pe).channels = s.channels from rfl]
    split
    · rename_i ch _
      rw [show lineAccepts (withIssuer s tr r n pr pe) c ch = lineAccepts s c ch from rfl]
      split <;> rfl
    · rfl

theorem events_withIssuer (evs : List AgentEvent) (s : State) (tr : List BusEvent) (r : Option Word) (n : Nat)
    (pr : List Word) (pe : List Micro) :
    evs.foldl agentStep (withIssuer s tr r n pr pe) = withIssuer (evs.foldl agentStep s) tr r n pr pe := by
  induction evs generalizing s with
  | nil => rfl
  | cons e rest ih => simp only [List.foldl_cons, agentStep_withIssuer, ih]

theorem tick_withIssuer (s : State) (tr : List BusEvent) (r : Option Word) (n : Nat) (pr : List Word)
    (pe : List Micro) : tick (withIssuer s tr r n pr pe) = withIssuer (tick s) tr r n pr pe := by
  unfold tick
  rw [show (withIssuer s tr r n pr pe).schedule = s.schedule from rfl]
  split
  · rfl
  · rename_i evs rest _
    exact events_withIssuer evs { s with schedule := rest } tr r n pr pe

/-! The agents' steps commute with the issuer's updates. -/

@[simp] theorem tick_logBus (k : BusKind) (a v : Word) (s : State) : tick (logBus k a v s) = logBus k a v (tick s) := by
  have := tick_withIssuer s (s.trace ++ [{ kind := k, address := a, value := v }]) s.result s.drawCount s.program s.pending
  simpa [withIssuer, logBus] using this

@[simp] theorem idle_logBus (k : BusKind) (a v : Word) (n : Nat) (s : State) : idle n (logBus k a v s) = logBus k a v (idle n s) := by
  induction n generalizing s with
  | zero => rw [idle_zero, idle_zero]
  | succ n ih => rw [idle_succ, tick_logBus, ih, ← idle_succ]

@[simp] theorem tick_clearResult (s : State) : tick (clearResult s) = clearResult (tick s) := by
  have := tick_withIssuer s s.trace none s.drawCount s.program s.pending
  simpa [withIssuer, clearResult] using this

@[simp] theorem idle_clearResult (n : Nat) (s : State) : idle n (clearResult s) = clearResult (idle n s) := by
  induction n generalizing s with
  | zero => rw [idle_zero, idle_zero]
  | succ n ih => rw [idle_succ, tick_clearResult, ih, ← idle_succ]

@[simp] theorem tick_putResult (w : Word) (s : State) : tick (putResult s w) = putResult (tick s) w := by
  have := tick_withIssuer s s.trace (some w) s.drawCount s.program s.pending
  simpa [withIssuer, putResult] using this

@[simp] theorem idle_putResult (w : Word) (n : Nat) (s : State) : idle n (putResult s w) = putResult (idle n s) w := by
  induction n generalizing s with
  | zero => rw [idle_zero, idle_zero]
  | succ n ih => rw [idle_succ, tick_putResult, ih, ← idle_succ]

@[simp] theorem tick_countDraw (s : State) : tick (countDraw s) = countDraw (tick s) := by
  have := tick_withIssuer s s.trace s.result (s.drawCount + 1) s.program s.pending
  simpa [withIssuer, countDraw] using this

@[simp] theorem idle_countDraw (n : Nat) (s : State) : idle n (countDraw s) = countDraw (idle n s) := by
  induction n generalizing s with
  | zero => rw [idle_zero, idle_zero]
  | succ n ih => rw [idle_succ, tick_countDraw, ih, ← idle_succ]

@[simp] theorem tick_setPending (ms : List Micro) (s : State) : tick (setPending s ms) = setPending (tick s) ms := by
  have := tick_withIssuer s s.trace s.result s.drawCount s.program ms
  simpa [withIssuer, setPending] using this

@[simp] theorem idle_setPending (ms : List Micro) (n : Nat) (s : State) : idle n (setPending s ms) = setPending (idle n s) ms := by
  induction n generalizing s with
  | zero => rw [idle_zero, idle_zero]
  | succ n ih => rw [idle_succ, tick_setPending, ih, ← idle_succ]

/-! What the two views and the gates see of them: nothing. -/

@[simp] theorem hidden_logBus (k : BusKind) (a v : Word) (s : State) : (logBus k a v s).hidden = s.hidden := rfl
@[simp] theorem soft_logBus (k : BusKind) (a v : Word) (s : State) : (logBus k a v s).soft = s.soft := rfl
@[simp] theorem sent_logBus (k : BusKind) (a v : Word) (s : State) (c : Nat) : sent (logBus k a v s) c = sent s c := rfl
@[simp] theorem portClocked_logBus (k : BusKind) (a v : Word) (s : State) (p : Nat) : portClocked (logBus k a v s) p = portClocked s p := rfl
@[simp] theorem chanClocked_logBus (k : BusKind) (a v : Word) (s : State) (c : Nat) : chanClocked (logBus k a v s) c = chanClocked s c := rfl
@[simp] theorem clocked_logBus (k : BusKind) (a v : Word) (s : State) (r : Reg) : clocked (logBus k a v s) r = clocked s r := by cases r <;> rfl
@[simp] theorem plainWord_logBus (k : BusKind) (a v : Word) (s : State) (r : Reg) : plainWord (logBus k a v s) r = plainWord s r := by
  cases r with
  | gpio p g => cases g <;> rfl
  | uart c u => cases u <;> rfl
  | _ => rfl

@[simp] theorem hidden_clearResult (s : State) : (clearResult s).hidden = s.hidden := rfl
@[simp] theorem soft_clearResult (s : State) : (clearResult s).soft = s.soft := rfl
@[simp] theorem sent_clearResult (s : State) (c : Nat) : sent (clearResult s) c = sent s c := rfl
@[simp] theorem portClocked_clearResult (s : State) (p : Nat) : portClocked (clearResult s) p = portClocked s p := rfl
@[simp] theorem chanClocked_clearResult (s : State) (c : Nat) : chanClocked (clearResult s) c = chanClocked s c := rfl
@[simp] theorem clocked_clearResult (s : State) (r : Reg) : clocked (clearResult s) r = clocked s r := by cases r <;> rfl
@[simp] theorem plainWord_clearResult (s : State) (r : Reg) : plainWord (clearResult s) r = plainWord s r := by
  cases r with
  | gpio p g => cases g <;> rfl
  | uart c u => cases u <;> rfl
  | _ => rfl

@[simp] theorem hidden_putResult (w : Word) (s : State) : (putResult s w).hidden = s.hidden := rfl
@[simp] theorem soft_putResult (w : Word) (s : State) : (putResult s w).soft = s.soft := rfl
@[simp] theorem sent_putResult (w : Word) (s : State) (c : Nat) : sent (putResult s w) c = sent s c := rfl
@[simp] theorem portClocked_putResult (w : Word) (s : State) (p : Nat) : portClocked (putResult s w) p = portClocked s p := rfl
@[simp] theorem chanClocked_putResult (w : Word) (s : State) (c : Nat) : chanClocked (putResult s w) c = chanClocked s c := rfl
@[simp] theorem clocked_putResult (w : Word) (s : State) (r : Reg) : clocked (putResult s w) r = clocked s r := by cases r <;> rfl
@[simp] theorem plainWord_putResult (w : Word) (s : State) (r : Reg) : plainWord (putResult s w) r = plainWord s r := by
  cases r with
  | gpio p g => cases g <;> rfl
  | uart c u => cases u <;> rfl
  | _ => rfl

@[simp] theorem hidden_countDraw (s : State) : (countDraw s).hidden = s.hidden := rfl
@[simp] theorem soft_countDraw (s : State) : (countDraw s).soft = s.soft := rfl
@[simp] theorem sent_countDraw (s : State) (c : Nat) : sent (countDraw s) c = sent s c := rfl
@[simp] theorem portClocked_countDraw (s : State) (p : Nat) : portClocked (countDraw s) p = portClocked s p := rfl
@[simp] theorem chanClocked_countDraw (s : State) (c : Nat) : chanClocked (countDraw s) c = chanClocked s c := rfl
@[simp] theorem clocked_countDraw (s : State) (r : Reg) : clocked (countDraw s) r = clocked s r := by cases r <;> rfl
@[simp] theorem plainWord_countDraw (s : State) (r : Reg) : plainWord (countDraw s) r = plainWord s r := by
  cases r with
  | gpio p g => cases g <;> rfl
  | uart c u => cases u <;> rfl
  | _ => rfl

@[simp] theorem hidden_setPending (ms : List Micro) (s : State) : (setPending s ms).hidden = s.hidden := rfl
@[simp] theorem soft_setPending (ms : List Micro) (s : State) : (setPending s ms).soft = s.soft := rfl
@[simp] theorem sent_setPending (ms : List Micro) (s : State) (c : Nat) : sent (setPending s ms) c = sent s c := rfl
@[simp] theorem portClocked_setPending (ms : List Micro) (s : State) (p : Nat) : portClocked (setPending s ms) p = portClocked s p := rfl
@[simp] theorem chanClocked_setPending (ms : List Micro) (s : State) (c : Nat) : chanClocked (setPending s ms) c = chanClocked s c := rfl
@[simp] theorem clocked_setPending (ms : List Micro) (s : State) (r : Reg) : clocked (setPending s ms) r = clocked s r := by cases r <;> rfl
@[simp] theorem plainWord_setPending (ms : List Micro) (s : State) (r : Reg) : plainWord (setPending s ms) r = plainWord s r := by
  cases r with
  | gpio p g => cases g <;> rfl
  | uart c u => cases u <;> rfl
  | _ => rfl

@[simp] theorem clocked_gpio (s : State) (p : Nat) (g : GpioReg) : clocked s (.gpio p g) = portClocked s p := rfl
@[simp] theorem clocked_uart (s : State) (c : Nat) (u : UartReg) : clocked s (.uart c u) = chanClocked s c := rfl
@[simp] theorem tick_portClocked (s : State) (p : Nat) : portClocked (tick s) p = portClocked s p := by simp [portClocked]
@[simp] theorem tick_chanClocked (s : State) (c : Nat) : chanClocked (tick s) c = chanClocked s c := by simp [chanClocked]
@[simp] theorem idle_portClocked (n : Nat) (s : State) (p : Nat) : portClocked (idle n s) p = portClocked s p := by
  simp [portClocked]
@[simp] theorem idle_chanClocked (n : Nat) (s : State) (c : Nat) : chanClocked (idle n s) c = chanClocked s c := by
  simp [chanClocked]
@[simp] theorem setChannel_chanClocked (s : State) (c : Nat) (ch : Channel) (d : Nat) :
    chanClocked (setChannel s c ch) d = chanClocked s d := rfl

/-- A register of plain storage reads as `plainWord` says (R84), whatever agents did before. -/
theorem readReg_plain {s : State} {r : Reg} {w : Word} (a : Word) (h : plainWord s r = some w) :
    readReg a r (tick s) = .ok (exactly w) (tick s) := by
  have key : ∀ c u, plainWord s (.uart c u) = some w → readReg a (.uart c u) (tick s) = .ok (exactly w) (tick s) := by
    intro c u h
    have hch : ∃ ch, s.channels[c]? = some ch := by
      cases hc : s.channels[c]? with
      | some ch => exact ⟨ch, rfl⟩
      | none => cases u <;> simp [plainWord, hc] at h
    obtain ⟨ch, hc⟩ := hch
    obtain ⟨ch', hc', hr⟩ := channel_of_soft (tick_soft s) hc
    simp only [chanRegsOf, ChanRegs.mk.injEq] at hr
    cases u <;> simp only [plainWord, hc, Option.map_some, Option.some.injEq, reduceCtorEq] at h <;>
      simp [readReg, hc', readChannel, hr, h]
  cases r with
  | ris => simp [plainWord] at h
  | legacy => simp only [plainWord, Option.some.injEq] at h; simp [readReg, h]
  | alt => simp only [plainWord, Option.some.injEq] at h; simp [readReg, h]
  | gateGpio => simp only [plainWord, Option.some.injEq] at h; simp [readReg, h]
  | gateUart => simp only [plainWord, Option.some.injEq] at h; simp [readReg, h]
  | gpio p g =>
    cases g <;> simp only [plainWord, Option.map_eq_some_iff] at h <;> obtain ⟨pt, hp, rfl⟩ := h <;>
      simp [readReg, hp, readPort]
  | uart c u => exact key c u h

/-- A read of plain storage changes nothing but the trace, and lets the scheduled agents step (R84, R88). -/
theorem busRead_plain {s : State} {r : Reg} {w : Word} (hw : layoutWf s.config.layout = true)
    (hr : r ∈ allRegs s.config.layout) (hc : clocked s r = true) (hp : plainWord s r = some w) :
    busRead (addrOf s.config.layout r) s =
      .ok (exactly w) (logBus .read (addrOf s.config.layout r) w (tick s)) := by
  rw [busRead_at hw hr hc, readReg_plain _ hp]
  simp

/-- `MODIFY` of plain storage (R143): two rounds of agents, then the register write of `(old & ~clr) | set`. -/
theorem busModify_plain {s : State} {r : Reg} {w : Word} (hw : layoutWf s.config.layout = true)
    (hr : r ∈ allRegs s.config.layout) (hb : writable r = true) (hc : clocked s r = true) (hp : plainWord s r = some w)
    (st cl : Word) :
    busModify (addrOf s.config.layout r) st cl s =
      (writeReg (addrOf s.config.layout r) r (clearThenSet w st cl)
        (logBus .read (addrOf s.config.layout r) w (tick (tick s)))).bind fun _ t =>
        .ok () (logBus .write (addrOf s.config.layout r) (clearThenSet w st cl) t) := by
  rw [busModify_at hw hr hb hc (readReg_plain _ hp), tick_logBus]

end Sys2Proof.Machine
end

