-- ==== Sys2Proof/Laws/Inv.lean ====
section
/-! SUPPORT. The shared operations keep the invariant of Safety.lean, and undo nothing that `Forward` names. -/

namespace Sys2Proof.Machine

/-- The invariant without what it says of the command in progress. -/
structure CoreInv (s : State) : Prop where
  config : configWf s.config = true
  ports : s.ports.length = nPorts s.config
  channels : s.channels.length = nChannels s.config
  clkStep : s.clkStep ≤ 10
  clkStage : s.clkStage = stageOfStep s.clkStep
  fifos : ∀ ch ∈ s.channels, fifosFit s.config ch = true
  lockSeen : s.pllLocked = true → s.risPllLock = true
  lockPowered : s.pllLocked = true → effPwrdn s = false
  gated : 9 ≤ s.clkStep → s.risPllLock = true

theorem State.Inv.core {s : State} (h : s.Inv) : CoreInv s :=
  ⟨h.config, h.ports, h.channels, h.clkStep, h.clkStage, h.fifos, h.lockSeen, h.lockPowered, h.gated⟩

theorem CoreInv.full {s : State} (h : CoreInv s) (hm : s.pending.all microOk = true)
    (hf : stagesForward (svcIndex s.svcStage) s.pending = true) : s.Inv :=
  ⟨h.config, h.ports, h.channels, h.clkStep, h.clkStage, h.fifos, h.lockSeen, h.lockPowered, h.gated, hm, hf⟩

/-- The invariant carries over when what it speaks of is the same or shown anew. -/
theorem CoreInv.transfer {s t : State} (h : CoreInv s) (hc : t.config = s.config) (hp : t.ports.length = s.ports.length)
    (hn : t.channels.length = s.channels.length) (hk : t.clkStep = s.clkStep) (hg : t.clkStage = s.clkStage)
    (hf : ∀ ch ∈ t.channels, fifosFit s.config ch = true) (hl : t.pllLocked = true → t.risPllLock = true)
    (hw : t.pllLocked = true → effPwrdn t = false) (hr : s.risPllLock = true → t.risPllLock = true) : CoreInv t where
  config := hc ▸ h.config
  ports := by rw [hp, hc]; exact h.ports
  channels := by rw [hn, hc]; exact h.channels
  clkStep := hk ▸ h.clkStep
  clkStage := by rw [hg, hk]; exact h.clkStage
  fifos := by rw [hc]; exact hf
  lockSeen := hl
  lockPowered := hw
  gated := fun h9 => hr (h.gated (hk ▸ h9))

/-- Replacing a channel keeps every FIFO within its capacity if the new one is. -/
theorem fifos_set {c : Config} {chs : List Channel} (h : ∀ ch ∈ chs, fifosFit c ch = true) {ch : Channel}
    (hf : fifosFit c ch = true) (i : Nat) : ∀ x ∈ chs.set i ch, fifosFit c x = true := by
  intro x hx
  rcases List.mem_or_eq_of_mem_set hx with hx | rfl
  · exact h x hx
  · exact hf

/-- The invariant after a channel was replaced. -/
theorem CoreInv.setChannel {s : State} (h : CoreInv s) (c : Nat) {ch : Channel} (hf : fifosFit s.config ch = true) :
    CoreInv (Machine.setChannel s c ch) :=
  h.transfer rfl rfl (by simp) rfl rfl (fifos_set h.fifos hf c) h.lockSeen h.lockPowered id

theorem fifosFit_iff {c : Config} {ch : Channel} :
    fifosFit c ch = true ↔ ch.txq.length ≤ fifoCap c ch ∧ ch.rxq.length ≤ fifoCap c ch := by
  simp [fifosFit]

/-- Agents keep every FIFO within its capacity (R52, R223, R225). -/
theorem fifos_agents : AgentRel fun s t => t.config = s.config ∧
    ((∀ ch ∈ s.channels, fifosFit s.config ch = true) → ∀ ch ∈ t.channels, fifosFit s.config ch = true) where
  refl _ := ⟨rfl, id⟩
  trans h1 h2 := ⟨h2.1.trans h1.1, fun h => by have := h2.2; rw [h1.1] at this; exact this (h1.2 h)⟩
  schedule _ _ := ⟨rfl, id⟩
  agent s e := ⟨by simp, fun h => by
    rcases agentStep_cases s e with hs | ⟨hp, hs⟩ | ⟨c, ch, b, q, hc, hq, -, hs⟩ | ⟨c, ch, b, hc, ha, hs⟩ <;> rw [hs]
    · exact h
    · exact h
    · have := fifosFit_iff.1 (h ch (List.mem_of_getElem? hc))
      refine fifos_set h ?_ c
      exact fifosFit_iff.2 ⟨by simp only [hq, List.length_cons] at this; simp only [fifoCap] at *; omega, this.2⟩
    · have := fifosFit_iff.1 (h ch (List.mem_of_getElem? hc))
      simp only [lineAccepts, Bool.and_eq_true, decide_eq_true_eq] at ha
      refine fifos_set h ?_ c
      exact fifosFit_iff.2 ⟨this.1, by simp only [List.length_append, List.length_singleton]; exact ha.2⟩⟩

theorem CoreInv.agent {s : State} (h : CoreInv s) (e : AgentEvent) : CoreInv (agentStep s e) := by
  rcases agentStep_cases s e with hs | ⟨hp, hs⟩ | ⟨c, ch, b, q, hc, hq, -, hs⟩ | ⟨c, ch, b, hc, ha, hs⟩ <;> rw [hs]
  · exact h
  · exact h.transfer rfl rfl rfl rfl rfl h.fifos (fun _ => rfl)
      (fun _ => by simp only [pllEnabled, Bool.and_eq_true, Bool.not_eq_true'] at hp; exact hp.1) (fun _ => rfl)
  · have := fifosFit_iff.1 (h.fifos ch (List.mem_of_getElem? hc))
    exact h.setChannel c (fifosFit_iff.2 ⟨by simp only [hq, List.length_cons] at this; simp only [fifoCap] at *; omega,
      this.2⟩)
  · have := fifosFit_iff.1 (h.fifos ch (List.mem_of_getElem? hc))
    simp only [lineAccepts, Bool.and_eq_true, decide_eq_true_eq] at ha
    exact h.setChannel c (fifosFit_iff.2 ⟨this.1, by simp only [List.length_append, List.length_singleton]; exact ha.2⟩)

theorem CoreInv.read {s t : State} (h : CoreInv s) {a : Word} {r : Reg} {v : ReadValue} (hr : readReg a r s = .ok v t) :
    CoreInv t := by
  rcases readReg_ok hr with rfl | rfl | ⟨c, ch, b, q, -, hc, hq, -, rfl⟩
  · exact h
  · exact h.transfer rfl rfl rfl rfl rfl h.fifos h.lockSeen h.lockPowered id
  · have hf := fifosFit_iff.1 (h.fifos ch (List.mem_of_getElem? hc))
    have hf' : fifosFit s.config { ch with rxq := q } = true :=
      fifosFit_iff.2 ⟨hf.1, by simp only [hq, List.length_cons] at hf; simp only [fifoCap] at *; omega⟩
    exact h.transfer rfl rfl (by simp) rfl rfl (fifos_set h.fifos hf' c) h.lockSeen h.lockPowered id

/-- The invariant after a clock-control register was written (R31). -/
theorem CoreInv.afterClock {s t : State} (h : CoreInv s) (hc : t.config = s.config) (hp : t.ports = s.ports)
    (hn : t.channels = s.channels) (hk : t.clkStep = s.clkStep) (hg : t.clkStage = s.clkStage)
    (hl : t.pllLocked = s.pllLocked) (hr : t.risPllLock = s.risPllLock) : CoreInv (afterClockWrite s t) := by
  have hpl := afterClockWrite_pllLocked s t
  refine h.transfer (by simp [hc]) (by simp [hp]) (by simp [hn]) (by simp [hk]) (by simp [hg])
    (by simp [hn]; exact h.fifos) ?_ ?_ (by simp [hr])
  · intro hh
    rw [hpl, Bool.and_eq_true] at hh
    simp only [afterClockWrite_risPllLock, hr]
    exact h.lockSeen (hl ▸ hh.1)
  · intro hh
    rw [hpl, Bool.and_eq_true] at hh
    have h2 := hh.2
    simp only [Bool.not_eq_true', Bool.or_eq_false_iff] at h2
    have e : effPwrdn (afterClockWrite s t) = effPwrdn t := by unfold afterClockWrite; split <;> rfl
    rw [e]
    exact h2.1.1

theorem CoreInv.write {s t : State} (h : CoreInv s) {a : Word} {r : Reg} {v : Word} (hw : writeReg a r v s = .ok () t) :
    CoreInv t := by
  rcases writeReg_ok hw with ⟨-, rfl⟩ | ⟨-, rfl⟩ | ⟨-, rfl⟩ | ⟨-, rfl⟩ | ⟨p, g, pt, -, -, rfl⟩ | ⟨c, u, ch, -, hc, hw⟩
  · exact h.afterClock rfl rfl rfl rfl rfl rfl rfl
  · exact h.afterClock rfl rfl rfl rfl rfl rfl rfl
  · exact h.transfer rfl rfl rfl rfl rfl h.fifos h.lockSeen h.lockPowered id
  · exact h.transfer rfl rfl rfl rfl rfl h.fifos h.lockSeen h.lockPowered id
  · exact h.transfer rfl (by simp) rfl rfl rfl h.fifos h.lockSeen h.lockPowered id
  · have hf := fifosFit_iff.1 (h.fifos ch (List.mem_of_getElem? hc))
    obtain ⟨ch', rfl, hch⟩ := writeChannel_ok hw
    apply h.setChannel
    rcases hch with ⟨-, rfl⟩ | ⟨-, rfl⟩ | ⟨-, rfl⟩ | ⟨-, hs, rfl⟩ | ⟨-, rfl⟩
    · unfold pushTx
      split
      · exact fifosFit_iff.2 ⟨by simp only [List.length_append, List.length_singleton]; assumption, hf.2⟩
      · exact fifosFit_iff.2 hf
    · exact fifosFit_iff.2 hf
    · exact fifosFit_iff.2 hf
    · apply fifosFit_iff.2
      simp only [shrinks, Bool.and_eq_false_iff, Bool.or_eq_false_iff, decide_eq_false_iff_not, Nat.not_lt] at hs
      have e : fifoCap s.config (latchLine s.config.layout ch v) = fifoCap s.config { ch with lcrh := v } := rfl
      rw [e]
      rcases hs with hs | hs
      · exact ⟨Nat.le_trans hf.1 hs, Nat.le_trans hf.2 hs⟩
      · exact hs
    · exact fifosFit_iff.2 hf

/-- Every elementary change keeps the invariant. -/
theorem core_elementary : Elementary fun s t => CoreInv s → CoreInv t where
  refl _ := id
  trans h1 h2 := h2 ∘ h1
  schedule _ _ h := h.transfer rfl rfl rfl rfl rfl h.fifos h.lockSeen h.lockPowered id
  agent _ e h := h.agent e
  log _ _ _ _ h := h.transfer rfl rfl rfl rfl rfl h.fifos h.lockSeen h.lockPowered id
  read hr h := h.read hr
  write hw h := h.write hw

/-! `Forward`. -/

theorem wires_refl (s : State) (c : Nat) (ch : Channel) (h : s.channels[c]? = some ch) :
    ∃ ch' : Channel, s.channels[c]? = some ch' ∧ ch.wireTx <+: ch'.wireTx := ⟨ch, h, List.prefix_refl _⟩

/-- Replacing a channel keeps the wire logs if the new one's log extends the old one's. -/
theorem wires_set {s : State} {i : Nat} {old new : Channel} (h : s.channels[i]? = some old)
    (hw : old.wireTx <+: new.wireTx) (c : Nat) (ch : Channel) (hc : s.channels[c]? = some ch) :
    ∃ ch' : Channel, (s.channels.set i new)[c]? = some ch' ∧ ch.wireTx <+: ch'.wireTx := by
  obtain ⟨hlt, -⟩ := List.getElem?_eq_some_iff.1 h
  by_cases hi : i = c
  · subst hi
    rw [h] at hc
    cases hc
    exact ⟨new, by simp [hlt], hw⟩
  · exact ⟨ch, by simp [hi, hc], List.prefix_refl _⟩

theorem Forward.refl (s : State) : Forward s s := ⟨rfl, List.prefix_refl _, le_rfl, le_rfl, id, wires_refl s⟩

theorem Forward.trans {s t u : State} (h1 : Forward s t) (h2 : Forward t u) : Forward s u where
  config := h2.config.trans h1.config
  trace := h1.trace.trans h2.trace
  clkStep := h1.clkStep.trans h2.clkStep
  svcStage := h1.svcStage.trans h2.svcStage
  sticky := h2.sticky ∘ h1.sticky
  wires := fun c ch hc => by
    obtain ⟨ch', hc', hp⟩ := h1.wires c ch hc
    obtain ⟨ch'', hc'', hp'⟩ := h2.wires c ch' hc'
    exact ⟨ch'', hc'', hp.trans hp'⟩

theorem Forward.agent (s : State) (e : AgentEvent) : Forward s (agentStep s e) := by
  rcases agentStep_cases s e with hs | ⟨hp, hs⟩ | ⟨c, ch, b, q, hc, hq, -, hs⟩ | ⟨c, ch, b, hc, ha, hs⟩ <;> rw [hs]
  · exact Forward.refl s
  · exact ⟨rfl, List.prefix_refl _, le_rfl, le_rfl, fun _ => rfl, wires_refl s⟩
  · exact ⟨rfl, List.prefix_refl _, le_rfl, le_rfl, id, wires_set hc (List.prefix_append _ _)⟩
  · exact ⟨rfl, List.prefix_refl _, le_rfl, le_rfl, id, wires_set hc (List.prefix_refl _)⟩

theorem Forward.write {s t : State} {a : Word} {r : Reg} {v : Word} (hw : writeReg a r v s = .ok () t) : Forward s t := by
  rcases writeReg_ok hw with ⟨-, rfl⟩ | ⟨-, rfl⟩ | ⟨-, rfl⟩ | ⟨-, rfl⟩ | ⟨p, g, pt, -, -, rfl⟩ | ⟨c, u, ch, -, hc, hw⟩
  · exact ⟨by simp, by simp, by simp, by simp, by simp, by simpa using wires_refl s⟩
  · exact ⟨by simp, by simp, by simp, by simp, by simp, by simpa using wires_refl s⟩
  · exact ⟨rfl, List.prefix_refl _, le_rfl, le_rfl, id, wires_refl s⟩
  · exact ⟨rfl, List.prefix_refl _, le_rfl, le_rfl, id, wires_refl s⟩
  · exact ⟨rfl, List.prefix_refl _, le_rfl, le_rfl, id, wires_refl s⟩
  · obtain ⟨ch', rfl, hch⟩ := writeChannel_ok hw
    refine ⟨rfl, List.prefix_refl _, le_rfl, le_rfl, id, wires_set hc ?_⟩
    rcases hch with ⟨-, rfl⟩ | ⟨-, rfl⟩ | ⟨-, rfl⟩ | ⟨-, -, rfl⟩ | ⟨-, rfl⟩
    · unfold pushTx; split <;> exact List.prefix_refl _
    all_goals exact List.prefix_refl _

theorem Forward.read {s t : State} {a : Word} {r : Reg} {v : ReadValue} (hr : readReg a r s = .ok v t) : Forward s t := by
  rcases readReg_ok hr with rfl | rfl | ⟨c, ch, b, q, -, hc, hq, -, rfl⟩
  · exact Forward.refl _
  · exact ⟨rfl, List.prefix_refl _, le_rfl, le_rfl, id, wires_refl s⟩
  · exact ⟨rfl, List.prefix_refl _, le_rfl, le_rfl, id, wires_set hc (List.prefix_refl _)⟩

/-- No elementary change undoes what `Forward` names. -/
theorem forward_elementary : Elementary Forward where
  refl := Forward.refl
  trans := Forward.trans
  schedule s _ := ⟨rfl, List.prefix_refl _, le_rfl, le_rfl, id, wires_refl s⟩
  agent := Forward.agent
  log _ _ _ s := ⟨rfl, List.prefix_append _ _, le_rfl, le_rfl, id, wires_refl s⟩
  read := Forward.read
  write := Forward.write

end Sys2Proof.Machine
end

