-- ==== Sys2Proof/Laws/Runs.lean ====
section
/-! SUPPORT. How commands run: one equation for each micro-step that ends well, what idle steps do to the schedule, and one
completion lemma for a bus access to a register of plain storage (R84, R85, R128, R143). -/

namespace Sys2Proof.Machine

/-! Idle steps. -/

theorem idle_one (s : State) : idle 1 s = tick s := by rw [idle_succ, idle_zero]

theorem idle_two (s : State) : idle 2 s = tick (tick s) := by rw [idle_succ, idle_one]

theorem idle_add (m n : Nat) (s : State) : idle (m + n) s = idle n (idle m s) := by
  induction m generalizing s with
  | zero => rw [Nat.zero_add, idle_zero]
  | succ m ih => rw [Nat.succ_add, idle_succ, idle_succ, ih]

@[simp] theorem idle_schedule (n : Nat) (s : State) : (idle n s).schedule = s.schedule.drop n := by
  induction n generalizing s with
  | zero => rw [idle_zero, List.drop_zero]
  | succ n ih => rw [idle_succ, ih, tick_schedule, ← List.drop_one, List.drop_drop, Nat.add_comm]

theorem idle_tick (n : Nat) (s : State) : idle n (tick s) = tick (idle n s) := by
  rw [← idle_succ, ← idle_one, ← idle_add]

theorem idle_withIssuer (m : Nat) (s : State) (tr : List BusEvent) (r : Option Word) (n : Nat) (pr : List Word)
    (pe : List Micro) : idle m (withIssuer s tr r n pr pe) = withIssuer (idle m s) tr r n pr pe := by
  induction m generalizing s with
  | zero => rw [idle_zero, idle_zero]
  | succ m ih => rw [idle_succ, tick_withIssuer, ih, ← idle_succ]

theorem withIssuer_self (s : State) : withIssuer s s.trace s.result s.drawCount s.program s.pending = s := rfl

/-! Micro-steps that end well. -/

theorem runMicros_nil (s : State) : runMicros [] s = .next (setPending s []) := rfl

theorem runMicros_done {m : Micro} {rest : List Micro} {s t : State} (h : runMicro m s = .ok .done t) :
    runMicros (m :: rest) s = runMicros rest t := by
  rw [runMicros, h]

theorem runMicros_wait {m : Micro} {rest : List Micro} {s t : State} (h : runMicro m s = .ok .wait t) :
    runMicros (m :: rest) s = .next (setPending t (m :: rest)) := by
  rw [runMicros, h]

theorem runMicros_become {m : Micro} {rest ms : List Micro} {s t : State} (h : runMicro m s = .ok (.become ms) t) :
    runMicros (m :: rest) s = .next (setPending t (ms ++ rest)) := by
  rw [runMicros, h]

theorem runMicros_fault {m : Micro} {rest : List Micro} {s : State} {f : Fault} (h : runMicro m s = .fault f) :
    runMicros (m :: rest) s = .fault f := by
  rw [runMicros, h]

theorem runMicros_refused {m : Micro} {rest : List Micro} {s : State} {r : Refusal} (h : runMicro m s = .refused r) :
    runMicros (m :: rest) s = .refused r := by
  rw [runMicros, h]

theorem runMicro_inRange {ps cs : List Nat} {s : State} (h : inRange s ps cs = true) :
    runMicro (.inRange ps cs) s = .ok .done s := by
  rw [runMicro, if_pos h]

theorem inRange_port {s : State} {p : Nat} (h : p < nPorts s.config) : inRange s [p] [] = true := by simp [inRange, h]

theorem inRange_channel {s : State} {c : Nat} (h : c < nChannels s.config) : inRange s [] [c] = true := by
  simp [inRange, h]

theorem runMicro_write {a v : Word} {s t : State} (h : busWrite a v s = .ok () t) :
    runMicro (.write a v) s = .ok .done t := by
  rw [runMicro, h]; rfl

theorem runMicro_modify {a st cl : Word} {s t : State} (h : busModify a st cl s = .ok () t) :
    runMicro (.modify a st cl) s = .ok .done t := by
  rw [runMicro, h]; rfl

theorem runMicro_clk {k : Nat} {stage : Option ClkStage} {a st cl : Word} {s t : State} (hk : s.clkStep = k)
    (h : busModify a st cl s = .ok () t) :
    runMicro (.clk k stage a st cl) s = .ok .done (advanceClock k stage t) := by
  rw [runMicro, if_pos hk, h]; rfl

/-! What the register accesses leave alone. -/

theorem readReg_schedule {a : Word} {r : Reg} {s t : State} {v : ReadValue} (h : readReg a r s = .ok v t) :
    t.schedule = s.schedule := by
  rcases readReg_ok h with rfl | rfl | ⟨c, ch, b, q, -, -, -, -, rfl⟩ <;> rfl

theorem writeReg_schedule {a : Word} {r : Reg} {v : Word} {s t : State} (h : writeReg a r v s = .ok () t) :
    t.schedule = s.schedule := by
  rcases writeReg_ok h with ⟨-, rfl⟩ | ⟨-, rfl⟩ | ⟨-, rfl⟩ | ⟨-, rfl⟩ | ⟨p, g, pt, -, -, rfl⟩ | ⟨c, u, ch, -, -, h⟩ <;>
    try simp
  obtain ⟨ch', rfl, -⟩ := writeChannel_ok h
  rfl

theorem writeReg_drawCount {a : Word} {r : Reg} {v : Word} {s t : State} (h : writeReg a r v s = .ok () t) :
    t.drawCount = s.drawCount := by
  rcases writeReg_ok h with ⟨-, rfl⟩ | ⟨-, rfl⟩ | ⟨-, rfl⟩ | ⟨-, rfl⟩ | ⟨p, g, pt, -, -, rfl⟩ | ⟨c, u, ch, -, -, h⟩ <;>
    try simp
  obtain ⟨ch', rfl, -⟩ := writeChannel_ok h
  rfl

theorem writeReg_trace {a : Word} {r : Reg} {v : Word} {s t : State} (h : writeReg a r v s = .ok () t) :
    t.trace = s.trace := by
  rcases writeReg_ok h with ⟨-, rfl⟩ | ⟨-, rfl⟩ | ⟨-, rfl⟩ | ⟨-, rfl⟩ | ⟨p, g, pt, -, -, rfl⟩ | ⟨c, u, ch, -, -, h⟩ <;>
    try simp
  obtain ⟨ch', rfl, -⟩ := writeChannel_ok h
  rfl

theorem writeReg_result {a : Word} {r : Reg} {v : Word} {s t : State} (h : writeReg a r v s = .ok () t) :
    t.result = s.result := elementary_result.write h

theorem writeReg_pending {a : Word} {r : Reg} {v : Word} {s t : State} (h : writeReg a r v s = .ok () t) :
    t.pending = s.pending := elementary_pending.write h

/-! Fields of the two views. -/

@[simp] theorem soft_ports (s : State) : s.soft.ports = s.ports := rfl
@[simp] theorem soft_config (s : State) : s.soft.config = s.config := rfl
@[simp] theorem hidden_pllLocked (s : State) : s.hidden.pllLocked = s.pllLocked := rfl
@[simp] theorem hidden_risPllLock (s : State) : s.hidden.risPllLock = s.risPllLock := rfl
@[simp] theorem soft_channels_get (s : State) (c : Nat) : s.soft.channels[c]? = (s.channels[c]?).map chanRegsOf := by
  simp [State.soft]

/-- What a written word makes of the registers of a channel (R45 to R53). -/
def regsWrite (l : Layout) (x : ChanRegs) (u : UartReg) (w : Word) : ChanRegs :=
  match u with
  | .dr => x
  | .fr => x
  | .ibrd => { x with ibrd := w }
  | .fbrd => { x with fbrd := w }
  | .lcrh =>
    { x with lcrh := w, baudLatch := some (x.ibrd.extractLsb' l.divint.lo 16, x.fbrd.extractLsb' l.divfrac.lo 6) }
  | .ctl => { x with ctl := w }

/-- What the register at `r` makes of a written word, seen on the part of the state that only the sequencer changes. -/
def softWrite (v : SoftView) (r : Reg) (w : Word) : SoftView :=
  match r with
  | .ris => v
  | .legacy => { v with clkLegacy := w }
  | .alt => { v with clkAlt := w }
  | .gateGpio => { v with gateGpio := w }
  | .gateUart => { v with gateUart := w }
  | .gpio p g =>
    match v.ports[p]? with
    | some pt => { v with ports := v.ports.set p (writePort v.config pt g w) }
    | none => v
  | .uart c u =>
    match v.channels[c]? with
    | some x => { v with channels := v.channels.set c (regsWrite v.config.layout x u w) }
    | none => v

theorem soft_setChannel (s : State) (c : Nat) (ch : Channel) :
    (setChannel s c ch).soft = { s.soft with channels := s.soft.channels.set c (chanRegsOf ch) } := by
  simp [State.soft, List.map_set]

theorem hidden_setChannel (s : State) (c : Nat) (ch : Channel) :
    (setChannel s c ch).hidden = { s.hidden with queues := s.hidden.queues.set c (chanQueuesOf ch) } := by
  simp [State.hidden, List.map_set]

theorem soft_channel {s : State} {c : Nat} {ch : Channel} (h : s.channels[c]? = some ch) :
    s.soft.channels[c]? = some (chanRegsOf ch) := by
  simp [State.soft, h]

theorem hidden_channel {s : State} {c : Nat} {ch : Channel} (h : s.channels[c]? = some ch) :
    s.hidden.queues[c]? = some (chanQueuesOf ch) := by
  simp [State.hidden, h]

theorem set_same {α : Type} {l : List α} {c : Nat} {x : α} (h : l[c]? = some x) : l.set c x = l := by
  apply List.ext_getElem?
  intro i
  rw [List.getElem?_set]
  split
  · rename_i hi; subst hi
    obtain ⟨hlt, hx⟩ := List.getElem?_eq_some_iff.1 h
    simp [hlt, hx]
  · rfl

theorem chanRegsOf_pushTx (c : Config) (ch : Channel) (b : Byte) : chanRegsOf (pushTx c ch b) = chanRegsOf ch := by
  unfold pushTx; split <;> rfl

/-- A register write, seen on the part of the state that only the sequencer changes. -/
theorem writeReg_soft {a : Word} {r : Reg} {v : Word} {s t : State} (h : writeReg a r v s = .ok () t) :
    t.soft = softWrite s.soft r v := by
  rcases writeReg_ok h with ⟨rfl, rfl⟩ | ⟨rfl, rfl⟩ | ⟨rfl, rfl⟩ | ⟨rfl, rfl⟩ | ⟨p, g, pt, rfl, hp, rfl⟩ |
    ⟨c, u, ch, rfl, hc, h⟩
  · simp [State.soft, softWrite]
  · simp [State.soft, softWrite]
  · rfl
  · rfl
  · have : s.soft.ports[p]? = some pt := hp
    simp only [softWrite, this]
    simp [State.soft]
  · obtain ⟨ch', rfl, hch⟩ := writeChannel_ok h
    rw [soft_setChannel]
    simp only [softWrite, soft_channel hc]
    rcases hch with ⟨rfl, rfl⟩ | ⟨rfl, rfl⟩ | ⟨rfl, rfl⟩ | ⟨rfl, -, rfl⟩ | ⟨rfl, rfl⟩
    · rw [chanRegsOf_pushTx]; rfl
    all_goals rfl

/-! `plainWord` is a function of the part of the state that only the sequencer changes. -/

/-- A register of a channel, as a read returns it. -/
def regsWord (x : ChanRegs) (u : UartReg) : Option Word :=
  match u with
  | .dr => none
  | .fr => none
  | .ibrd => some x.ibrd
  | .fbrd => some x.fbrd
  | .lcrh => some x.lcrh
  | .ctl => some x.ctl

/-- `plainWord` of the registers. -/
def softWord (v : SoftView) (r : Reg) : Option Word :=
  match r with
  | .ris => none
  | .legacy => some v.clkLegacy
  | .alt => some v.clkAlt
  | .gateGpio => some v.gateGpio
  | .gateUart => some v.gateUart
  | .gpio p g => (v.ports[p]?).map (readPort · g)
  | .uart c u => (v.channels[c]?).bind (regsWord · u)

theorem plainWord_eq (s : State) (r : Reg) : plainWord s r = softWord s.soft r := by
  cases r with
  | gpio p g => cases g <;> rfl
  | uart c u => cases hc : s.channels[c]? <;> cases u <;> simp [plainWord, softWord, hc, regsWord, chanRegsOf]
  | _ => rfl

theorem readPort_writePort (c : Config) (pt : Port) {g g' : GpioReg} (v : Word) (h : g' ≠ g) :
    readPort (writePort c pt g v) g' = readPort pt g' := by
  cases g with
  | cr => simp only [writePort]; split <;> cases g' <;> first | rfl | exact absurd rfl h
  | _ => cases g' <;> first | rfl | exact absurd rfl h

theorem regsWord_regsWrite (l : Layout) (x : ChanRegs) {u u' : UartReg} (v : Word) (h : u' ≠ u) :
    regsWord (regsWrite l x u v) u' = regsWord x u' := by
  cases u <;> cases u' <;> simp [regsWrite, regsWord] at h ⊢

/-- A register of plain storage keeps its word when another register is written. -/
theorem softWord_other (v : SoftView) {r r' : Reg} (w : Word) (hne : r' ≠ r) :
    softWord (softWrite v r w) r' = softWord v r' := by
  cases r with
  | gpio p g =>
    simp only [softWrite]
    split
    · rename_i pt hp
      cases r' with
      | gpio p' g' =>
        simp only [softWord, List.getElem?_set]
        by_cases h : p = p'
        · subst h
          obtain ⟨hlt, hg⟩ := List.getElem?_eq_some_iff.1 hp
          have : g' ≠ g := fun e => hne (by rw [e])
          simp [hlt, hg, readPort_writePort v.config pt w this]
        · simp [h]
      | _ => rfl
    · rfl
  | uart c u =>
    simp only [softWrite]
    split
    · rename_i x hx
      cases r' with
      | uart c' u' =>
        simp only [softWord, List.getElem?_set]
        by_cases h : c = c'
        · subst h
          obtain ⟨hlt, hg⟩ := List.getElem?_eq_some_iff.1 hx
          have : u' ≠ u := fun e => hne (by rw [e])
          simp [hlt, hg, regsWord_regsWrite _ x w this]
        · simp [h]
      | _ => rfl
    · rfl
  | _ => cases r' <;> first | rfl | exact absurd rfl hne

/-- The latched divisors of a channel. -/
def softLatch (v : SoftView) (c : Nat) : Option (Option (BitVec 16 × BitVec 6)) := (v.channels[c]?).map (·.baudLatch)

theorem latch_eq (s : State) (c : Nat) : (s.channels[c]?).map (·.baudLatch) = softLatch s.soft c := by
  cases hc : s.channels[c]? <;> simp [softLatch, hc, chanRegsOf]

/-- Only a write of its `LCRH` latches the divisors of a channel (R53). -/
theorem softLatch_other (v : SoftView) {r : Reg} (w : Word) (c : Nat) (hne : r ≠ .uart c .lcrh) :
    softLatch (softWrite v r w) c = softLatch v c := by
  cases r with
  | gpio p g => simp only [softWrite]; split <;> rfl
  | uart c' u =>
    simp only [softWrite]
    split
    · rename_i x hx
      simp only [softLatch, List.getElem?_set]
      by_cases h : c' = c
      · subst h
        obtain ⟨hlt, hg⟩ := List.getElem?_eq_some_iff.1 hx
        cases u <;> simp [hlt, hg, regsWrite] at hne ⊢
      · simp [h]
    · rfl
  | _ => rfl

/-- A register that stores the word as it is written. -/
theorem softWord_same (v : SoftView) {r : Reg} {old : Word} (w : Word) (h : softWord v r = some old)
    (hr : r = .legacy ∨ r = .alt ∨ r = .gateGpio ∨ r = .gateUart ∨ (∃ p, r = .gpio p .data ∨ r = .gpio p .dir) ∨
      (∃ c u, r = .uart c u)) : softWord (softWrite v r w) r = some w := by
  rcases hr with rfl | rfl | rfl | rfl | ⟨p, rfl | rfl⟩ | ⟨c, u, rfl⟩
  · rfl
  · rfl
  · rfl
  · rfl
  · simp only [softWord, Option.map_eq_some_iff] at h
    obtain ⟨pt, hp, -⟩ := h
    obtain ⟨hlt, -⟩ := List.getElem?_eq_some_iff.1 hp
    simp [softWrite, softWord, hlt, readPort, writePort]
  · simp only [softWord, Option.map_eq_some_iff] at h
    obtain ⟨pt, hp, -⟩ := h
    obtain ⟨hlt, -⟩ := List.getElem?_eq_some_iff.1 hp
    simp [softWrite, softWord, hlt, readPort, writePort]
  · simp only [softWord, Option.bind_eq_some_iff] at h
    obtain ⟨x, hx, hu⟩ := h
    obtain ⟨hlt, -⟩ := List.getElem?_eq_some_iff.1 hx
    cases u <;> simp [regsWord] at hu <;> simp [softWrite, softWord, hlt, regsWord, regsWrite]

/-! How long the queues can get. -/

/-- No channel has more bytes to send than before, nor more received bytes than it had and its line was still to present. -/
def NoLonger (s t : State) : Prop :=
  ∀ (c : Nat) (ch : Channel), s.channels[c]? = some ch → ∃ ch', t.channels[c]? = some ch' ∧
    ch'.txq.length ≤ ch.txq.length ∧
    ch'.rxq.length + (lineBytes c t.schedule).length ≤ ch.rxq.length + (lineBytes c s.schedule).length

theorem NoLonger.refl (s : State) : NoLonger s s := fun _ ch h => ⟨ch, h, le_rfl, le_rfl⟩

theorem NoLonger.trans {s t u : State} (h1 : NoLonger s t) (h2 : NoLonger t u) : NoLonger s u := fun c ch h => by
  obtain ⟨ch1, g1, a1, b1⟩ := h1 c ch h
  obtain ⟨ch2, g2, a2, b2⟩ := h2 c ch1 g1
  exact ⟨ch2, g2, a2.trans a1, b2.trans b1⟩

/-- Equal queues and an equal schedule. -/
theorem NoLonger.of_queues {s t : State} (h : t.hidden.queues = s.hidden.queues) (hs : t.schedule = s.schedule) :
    NoLonger s t := fun c ch hc => by
  have e := hidden_channel hc
  rw [← h] at e
  simp only [State.hidden, List.getElem?_map, Option.map_eq_some_iff] at e
  obtain ⟨ch', hc', hq⟩ := e
  simp only [chanQueuesOf, ChanQueues.mk.injEq] at hq
  exact ⟨ch', hc', by rw [hq.1], by rw [hq.2.1, hs]⟩

theorem lineBytes_cons (c : Nat) (evs : List AgentEvent) (rest : List (List AgentEvent)) :
    lineBytes c (evs :: rest) = lineBytes c [evs] ++ lineBytes c rest := by
  simp [lineBytes]

theorem lineBytes_event (c : Nat) (e : AgentEvent) (evs : List AgentEvent) :
    lineBytes c [e :: evs] = lineBytes c [[e]] ++ lineBytes c [evs] := by
  simp [lineBytes, ← List.filterMap_append]

/-- One agent event adds nothing to a transmit queue, and to a receive queue at most the byte its line presents. -/
theorem agentStep_lengths (s : State) (e : AgentEvent) (c : Nat) (x : Channel) (h : s.channels[c]? = some x) :
    ∃ x', (agentStep s e).channels[c]? = some x' ∧ x'.txq.length ≤ x.txq.length ∧
      x'.rxq.length ≤ x.rxq.length + (lineBytes c [[e]]).length := by
  have same : agentStep s e = s → ∃ x', (agentStep s e).channels[c]? = some x' ∧ x'.txq.length ≤ x.txq.length ∧
      x'.rxq.length ≤ x.rxq.length + (lineBytes c [[e]]).length := fun hs => ⟨x, by rw [hs, h], le_rfl, by omega⟩
  cases e with
  | pllLock =>
    rcases pllLockStep_cases s with hs | ⟨-, hs⟩
    · exact same hs
    · exact ⟨x, by simp [agentStep, hs, h], le_rfl, by omega⟩
  | transmit i =>
    rcases transmitStep_cases s i with hs | ⟨ch, b, q, hc, hq, -, hs⟩
    · exact same hs
    · by_cases hi : i = c
      · subst hi
        rw [hc] at h; cases h
        obtain ⟨hlt, -⟩ := List.getElem?_eq_some_iff.1 hc
        exact ⟨_, by rw [agentStep, hs]; exact List.getElem?_set_self hlt, by simp [hq], by simp⟩
      · exact ⟨x, by simp [agentStep, hs, hi, h], le_rfl, by omega⟩
  | line i b =>
    rcases lineStep_cases s i b with hs | ⟨ch, hc, -, hs⟩
    · exact same hs
    · by_cases hi : i = c
      · subst hi
        rw [hc] at h; cases h
        obtain ⟨hlt, -⟩ := List.getElem?_eq_some_iff.1 hc
        exact ⟨{ x with rxq := x.rxq ++ [b] }, by rw [agentStep, hs]; exact List.getElem?_set_self hlt, le_rfl,
          by simp [lineBytes]⟩
      · exact ⟨x, by simp [agentStep, hs, hi, h], le_rfl, by omega⟩

theorem events_lengths (evs : List AgentEvent) (s : State) (c : Nat) (x : Channel) (h : s.channels[c]? = some x) :
    ∃ x', (evs.foldl agentStep s).channels[c]? = some x' ∧ x'.txq.length ≤ x.txq.length ∧
      x'.rxq.length ≤ x.rxq.length + (lineBytes c [evs]).length := by
  induction evs generalizing s x with
  | nil => exact ⟨x, h, le_rfl, by omega⟩
  | cons e rest ih =>
    obtain ⟨x1, h1, a1, b1⟩ := agentStep_lengths s e c x h
    obtain ⟨x2, h2, a2, b2⟩ := ih (agentStep s e) x1 h1
    refine ⟨x2, h2, a2.trans a1, ?_⟩
    rw [lineBytes_event, List.length_append]
    omega

theorem tick_noLonger (s : State) : NoLonger s (tick s) := fun c ch h => by
  cases hs : s.schedule with
  | nil => rw [tick_quiet hs, hs]; exact ⟨ch, h, le_rfl, le_rfl⟩
  | cons evs rest =>
    have e : tick s = evs.foldl agentStep { s with schedule := rest } := by simp [tick, hs]
    obtain ⟨ch', h', a, b⟩ := events_lengths evs { s with schedule := rest } c ch h
    refine ⟨ch', by rw [e]; exact h', a, ?_⟩
    rw [tick_schedule, hs, lineBytes_cons, List.length_append, List.tail_cons]
    omega

/-! Completed accesses. -/

/-- The sequencer got from `s` to `t` over the accesses `tr`, which used `n` schedule entries; the registers are `soft'`,
nothing was queued, and with no agent scheduled the queues are as before. -/
structure Moved (s t : State) (soft' : SoftView) (tr : List BusEvent) (n : Nat) : Prop where
  soft : t.soft = soft'
  trace : t.trace = s.trace ++ tr
  schedule : t.schedule = s.schedule.drop n
  drawCount : t.drawCount = s.drawCount
  result : t.result = s.result
  pending : t.pending = s.pending
  sent : ∀ c, sent t c = sent s c
  queues : s.schedule = [] → t.hidden.queues = s.hidden.queues
  config : t.config = s.config
  hidden : s.schedule = [] → noWriteTo (addrOf s.config.layout .legacy) tr = true →
    noWriteTo (addrOf s.config.layout .alt) tr = true → t.hidden = s.hidden
  noLonger : NoLonger s t

theorem Moved.refl (s : State) : Moved s s s.soft [] 0 :=
  ⟨rfl, by simp, by simp, rfl, rfl, rfl, fun _ => rfl, fun _ => rfl, rfl, fun _ _ _ => rfl, NoLonger.refl s⟩

theorem noWriteTo_append (a : Word) (tr tr' : List BusEvent) :
    noWriteTo a (tr ++ tr') = (noWriteTo a tr && noWriteTo a tr') := List.all_append

theorem Moved.trans {s t u : State} {A B : SoftView} {tr tr' : List BusEvent} {m n : Nat} (h1 : Moved s t A tr m)
    (h2 : Moved t u B tr' n) : Moved s u B (tr ++ tr') (m + n) where
  soft := h2.soft
  trace := by rw [h2.trace, h1.trace, List.append_assoc]
  schedule := by rw [h2.schedule, h1.schedule, List.drop_drop]
  drawCount := h2.drawCount.trans h1.drawCount
  result := h2.result.trans h1.result
  pending := h2.pending.trans h1.pending
  sent c := (h2.sent c).trans (h1.sent c)
  queues h := (h2.queues (by rw [h1.schedule, h]; simp)).trans (h1.queues h)
  config := h2.config.trans h1.config
  hidden h hl ha := by
    rw [noWriteTo_append, Bool.and_eq_true] at hl ha
    refine (h2.hidden (by rw [h1.schedule, h]; simp) ?_ ?_).trans (h1.hidden h hl.1 ha.1)
    · rw [h1.config]; exact hl.2
    · rw [h1.config]; exact ha.2
  noLonger := h1.noLonger.trans h2.noLonger

/-- A write of any register but `DR` keeps the queues and what was sent. -/
theorem writeReg_queues {a : Word} {r : Reg} {v : Word} {s t : State} (h : writeReg a r v s = .ok () t)
    (hd : ∀ c, r ≠ .uart c .dr) : t.hidden.queues = s.hidden.queues ∧ ∀ c, sent t c = sent s c := by
  rcases writeReg_ok h with ⟨rfl, rfl⟩ | ⟨rfl, rfl⟩ | ⟨rfl, rfl⟩ | ⟨rfl, rfl⟩ | ⟨p, g, pt, rfl, hp, rfl⟩ |
    ⟨c, u, ch, rfl, hc, h⟩
  · simp [State.hidden, Machine.sent]
  · simp [State.hidden, Machine.sent]
  · exact ⟨rfl, fun _ => rfl⟩
  · exact ⟨rfl, fun _ => rfl⟩
  · exact ⟨rfl, fun _ => rfl⟩
  · obtain ⟨ch', rfl, hch⟩ := writeChannel_ok h
    have key : chanQueuesOf ch' = chanQueuesOf ch := by
      rcases hch with ⟨rfl, rfl⟩ | ⟨rfl, rfl⟩ | ⟨rfl, rfl⟩ | ⟨rfl, -, rfl⟩ | ⟨rfl, rfl⟩
      · exact absurd rfl (hd c)
      all_goals rfl
    refine ⟨?_, fun c' => ?_⟩
    · rw [hidden_setChannel, key]
      exact set_same (hidden_channel hc)
    · simp only [chanQueuesOf, ChanQueues.mk.injEq] at key
      obtain ⟨hlt, hget⟩ := List.getElem?_eq_some_iff.1 hc
      by_cases hcc : c = c'
      · subst hcc; simp [Machine.sent, hlt, hget, key]
      · simp [Machine.sent, hcc]

/-- The same, with the lock, for any register but `DR` and the two clock-control registers. -/
theorem writeReg_hidden {a : Word} {r : Reg} {v : Word} {s t : State} (h : writeReg a r v s = .ok () t)
    (hd : ∀ c, r ≠ .uart c .dr) (hl : r ≠ .legacy) (ha : r ≠ .alt) : t.hidden = s.hidden := by
  have hq := (writeReg_queues h hd).1
  rcases writeReg_ok h with ⟨rfl, rfl⟩ | ⟨rfl, rfl⟩ | ⟨rfl, rfl⟩ | ⟨rfl, rfl⟩ | ⟨p, g, pt, rfl, hp, rfl⟩ |
    ⟨c, u, ch, rfl, hc, h⟩
  · exact absurd rfl hl
  · exact absurd rfl ha
  · rfl
  · rfl
  · rfl
  · obtain ⟨ch', rfl, -⟩ := writeChannel_ok h
    rw [hidden_setChannel] at hq ⊢
    simp only at hq
    rw [hq]

/-- A bus write that the register takes. -/
theorem busWrite_moved {s u : State} {r : Reg} {v : Word} (hw : layoutWf s.config.layout = true)
    (hr : r ∈ allRegs s.config.layout) (hb : writable r = true) (hc : clocked s r = true) (hd : ∀ c, r ≠ .uart c .dr)
    (hu : writeReg (addrOf s.config.layout r) r v (tick s) = .ok () u) :
    ∃ t, busWrite (addrOf s.config.layout r) v s = .ok () t ∧
      Moved s t (softWrite s.soft r v) (writeTrace (addrOf s.config.layout r) v) 1 ∧
      t = logBus .write (addrOf s.config.layout r) v u := by
  refine ⟨logBus .write (addrOf s.config.layout r) v u, ?_, ?_, rfl⟩
  · rw [busWrite_at hw hr hb hc, hu]; rfl
  · have hq := writeReg_queues hu hd
    exact
      { soft := by rw [soft_logBus, writeReg_soft hu, tick_soft]
        trace := by simp [writeReg_trace hu, writeTrace, logBus]
        schedule := by simp [writeReg_schedule hu]
        drawCount := by simp [writeReg_drawCount hu]
        result := by simp [writeReg_result hu]
        pending := by simp [writeReg_pending hu]
        sent := fun c => by rw [sent_logBus, hq.2, tick_sent]
        queues := fun h => by rw [hidden_logBus, hq.1, tick_quiet h]
        config := by simp [elementary_config.write hu]
        hidden := fun h h1 h2 => by
          rw [hidden_logBus, writeReg_hidden hu hd, tick_quiet h]
          · rintro rfl; simp [noWriteTo, writeTrace] at h1
          · rintro rfl; simp [noWriteTo, writeTrace] at h2
        noLonger := (tick_noLonger s).trans (NoLonger.of_queues (by rw [hidden_logBus, hq.1])
          (show u.schedule = _ from writeReg_schedule hu)) }

/-- Why a register takes a written word: it exists, it is writable, and a line-control write lowers no FIFO (R52). -/
theorem writeReg_takes {s : State} {r : Reg} (v a : Word) (hb : writable r = true) (hr : r ∈ allRegs s.config.layout)
    (hp : s.ports.length = nPorts s.config) (hn : s.channels.length = nChannels s.config)
    (hs : ∀ c ch, r = .uart c .lcrh → s.channels[c]? = some ch → shrinks s.config ch v = false) :
    ∃ u, writeReg a r v s = .ok () u := by
  rcases mem_allRegs_cases hr with h | ⟨p, g, hpp, rfl⟩ | ⟨c, u, hcc, rfl⟩
  · simp only [sysRegs, List.mem_cons, List.not_mem_nil, or_false] at h
    rcases h with rfl | rfl | rfl | rfl | rfl
    · cases hb
    all_goals exact ⟨_, rfl⟩
  · have hlt : p < s.ports.length := by rw [hp]; exact hpp
    have : s.ports[p]? = some s.ports[p] := List.getElem?_eq_getElem hlt
    exact ⟨setPort s p (writePort s.config s.ports[p] g v), by simp only [writeReg, this]⟩
  · have hlt : c < s.channels.length := by rw [hn]; exact hcc
    have hch : s.channels[c]? = some s.channels[c] := List.getElem?_eq_getElem hlt
    cases u <;> simp only [writeReg, hch, writeChannel]
    case fr => cases hb
    case lcrh =>
      have := hs c _ rfl hch
      simp [this]
    all_goals exact ⟨_, rfl⟩

/-- Equal registers, equal gates. -/
theorem clocked_of_soft {s t : State} (h : t.soft = s.soft) (r : Reg) : clocked t r = clocked s r := by
  have hc : t.config = s.config := congrArg SoftView.config h
  have h1 : t.gateGpio = s.gateGpio := congrArg SoftView.gateGpio h
  have h2 : t.gateUart = s.gateUart := congrArg SoftView.gateUart h
  cases r <;> simp [clocked, portClocked, chanClocked, hc, h1, h2]

/-- `MODIFY` of a register of plain storage that takes the word written back (R143). -/
theorem busModify_moved {s u : State} {r : Reg} {w st cl : Word} (hw : layoutWf s.config.layout = true)
    (hr : r ∈ allRegs s.config.layout) (hb : writable r = true) (hc : clocked s r = true) (hp : plainWord s r = some w)
    (hu : writeReg (addrOf s.config.layout r) r (clearThenSet w st cl)
      (logBus .read (addrOf s.config.layout r) w (tick (tick s))) = .ok () u) :
    ∃ t, busModify (addrOf s.config.layout r) st cl s = .ok () t ∧
      Moved s t (softWrite s.soft r (clearThenSet w st cl))
        (modifyTrace (addrOf s.config.layout r) w (clearThenSet w st cl)) 2 ∧
      t = logBus .write (addrOf s.config.layout r) (clearThenSet w st cl) u := by
  have hd : ∀ c, r ≠ .uart c .dr := by rintro c rfl; cases hp
  have hq := writeReg_queues hu hd
  refine ⟨_, by rw [busModify_plain hw hr hb hc hp, hu]; rfl, ?_, rfl⟩
  exact
    { soft := by rw [soft_logBus, writeReg_soft hu, soft_logBus, tick_soft, tick_soft]
      trace := by simp [writeReg_trace hu, modifyTrace, logBus]
      schedule := by
        have e : s.schedule.tail.tail = s.schedule.drop 2 := by cases s.schedule <;> simp
        simp [writeReg_schedule hu, e]
      drawCount := by simp [writeReg_drawCount hu]
      result := by simp [writeReg_result hu]
      pending := by simp [writeReg_pending hu]
      sent := fun c => by rw [sent_logBus, hq.2, sent_logBus, tick_sent, tick_sent]
      queues := fun h => by rw [hidden_logBus, hq.1, hidden_logBus, tick_quiet h, tick_quiet h]
      config := by simp [elementary_config.write hu]
      hidden := fun h h1 h2 => by
        rw [hidden_logBus, writeReg_hidden hu hd, hidden_logBus, tick_quiet h, tick_quiet h]
        · rintro rfl; simp [noWriteTo, modifyTrace] at h1
        · rintro rfl; simp [noWriteTo, modifyTrace] at h2
      noLonger := (tick_noLonger s).trans ((tick_noLonger (tick s)).trans
        (NoLonger.of_queues (by rw [hidden_logBus, hq.1, hidden_logBus])
          (show u.schedule = _ from (writeReg_schedule hu).trans (logBus_schedule ..)))) }

/-- The same for any register but `LCRH`, on a state with all its ports and channels. -/
theorem busModify_plain_moved {s : State} {r : Reg} {w : Word} (st cl : Word) (hw : layoutWf s.config.layout = true)
    (hr : r ∈ allRegs s.config.layout) (hb : writable r = true) (hc : clocked s r = true) (hp : plainWord s r = some w)
    (hl : ∀ c, r ≠ .uart c .lcrh) :
    ∃ t u, busModify (addrOf s.config.layout r) st cl s = .ok () t ∧
      Moved s t (softWrite s.soft r (clearThenSet w st cl))
        (modifyTrace (addrOf s.config.layout r) w (clearThenSet w st cl)) 2 ∧
      writeReg (addrOf s.config.layout r) r (clearThenSet w st cl)
        (logBus .read (addrOf s.config.layout r) w (tick (tick s))) = .ok () u ∧
      t = logBus .write (addrOf s.config.layout r) (clearThenSet w st cl) u := by
  have hu : ∃ u, writeReg (addrOf s.config.layout r) r (clearThenSet w st cl)
      (logBus .read (addrOf s.config.layout r) w (tick (tick s))) = .ok () u := by
    cases r with
    | ris => cases hb
    | legacy => exact ⟨_, rfl⟩
    | alt => exact ⟨_, rfl⟩
    | gateGpio => exact ⟨_, rfl⟩
    | gateUart => exact ⟨_, rfl⟩
    | gpio p g =>
      have : ∃ pt, s.ports[p]? = some pt := by
        cases h : s.ports[p]? with
        | some pt => exact ⟨pt, rfl⟩
        | none => cases g <;> simp [plainWord, h] at hp
      obtain ⟨pt, h⟩ := this
      exact ⟨setPort (logBus .read (addrOf s.config.layout (.gpio p g)) w (tick (tick s))) p
        (writePort s.config pt g (clearThenSet w st cl)), by simp [writeReg, h]⟩
    | uart c x =>
      have : ∃ ch, s.channels[c]? = some ch := by
        cases h : s.channels[c]? with
        | some ch => exact ⟨ch, rfl⟩
        | none => cases x <;> simp [plainWord, h] at hp
      obtain ⟨ch, h⟩ := this
      obtain ⟨ch', h', -⟩ := channel_of_soft (show (tick (tick s)).soft = s.soft by simp) h
      cases x with
      | dr => cases hp
      | fr => cases hp
      | lcrh => exact absurd rfl (hl c)
      | ibrd => exact ⟨_, by simp only [writeReg, logBus, h', writeChannel]; rfl⟩
      | fbrd => exact ⟨_, by simp only [writeReg, logBus, h', writeChannel]; rfl⟩
      | ctl => exact ⟨_, by simp only [writeReg, logBus, h', writeChannel]; rfl⟩
  obtain ⟨u, hu⟩ := hu
  obtain ⟨t, h1, h2, h3⟩ := busModify_moved hw hr hb hc hp hu
  exact ⟨t, u, h1, h2, hu, h3⟩

/-! One-access commands. -/

theorem exec_write_next {s t : State} {a v : Word} (h : busWrite a v (clearResult s) = .ok () t) :
    exec (.write a v) s = .next (setPending t []) := by
  show runMicros [.write a v] (clearResult s) = _
  rw [runMicros_done (runMicro_write h), runMicros_nil]

theorem exec_modify_next {s t : State} {a st cl : Word} (h : busModify a st cl (clearResult s) = .ok () t) :
    exec (.modify a st cl) s = .next (setPending t []) := by
  show runMicros [.modify a st cl] (clearResult s) = _
  rw [runMicros_done (runMicro_modify h), runMicros_nil]

/-- `Moved` from the state with its result cleared, to the state with nothing pending, is `Issued`. -/
theorem Moved.issued {s t : State} {A : SoftView} {tr : List BusEvent} {n : Nat}
    (h : Moved (clearResult s) t A tr n) : Issued s (setPending t []) none n 0 :=
  ⟨h.result, rfl, h.schedule, h.drawCount⟩

/-- A register that takes the word written completes `WRITE` (R142). -/
theorem writeDone_of {s u : State} {r : Reg} {v : Word} (hw : layoutWf s.config.layout = true)
    (hr : r ∈ allRegs s.config.layout) (hb : writable r = true) (hc : clocked s r = true) (hd : ∀ c, r ≠ .uart c .dr)
    (hl : r ≠ .legacy) (ha : r ≠ .alt)
    (hu : writeReg (addrOf s.config.layout r) r v (tick (clearResult s)) = .ok () u) :
    WriteDone s (addrOf s.config.layout r) v (softWrite s.soft r v) := by
  obtain ⟨t, h1, h2, rfl⟩ := busWrite_moved (s := (clearResult s)) hw hr hb hc hd hu
  exact ⟨_, exec_write_next h1, by simp [writeReg_soft hu], by simp [writeReg_hidden hu hd hl ha], h2.trace, h2.issued⟩

/-! Stretches of micro-steps that run to their end. -/

/-- The micro-steps `ms` run to their end from `s` and leave `t`, whatever follows them. -/
structure Ran (ms : List Micro) (s t : State) (soft' : SoftView) (tr : List BusEvent) (n : Nat) : Prop where
  run : ∀ rest, runMicros (ms ++ rest) s = runMicros rest t
  moved : Moved s t soft' tr n

theorem Ran.refl (s : State) : Ran [] s s s.soft [] 0 := ⟨fun _ => rfl, Moved.refl s⟩

theorem Ran.trans {ms ms' : List Micro} {s t u : State} {A B : SoftView} {tr tr' : List BusEvent} {m n : Nat}
    (h1 : Ran ms s t A tr m) (h2 : Ran ms' t u B tr' n) : Ran (ms ++ ms') s u B (tr ++ tr') (m + n) :=
  ⟨fun rest => by rw [List.append_assoc, h1.run, h2.run], h1.moved.trans h2.moved⟩

theorem Ran.ends {ms : List Micro} {s t : State} {A : SoftView} {tr : List BusEvent} {n : Nat}
    (h : Ran ms s t A tr n) : runMicros ms s = .next (setPending t []) := by
  have := h.run []
  rwa [List.append_nil, runMicros_nil] at this

theorem ran_inRange {ps cs : List Nat} {s : State} (h : inRange s ps cs = true) :
    Ran [.inRange ps cs] s s s.soft [] 0 :=
  ⟨fun _ => runMicros_done (runMicro_inRange h), Moved.refl s⟩

/-- What `.noteUnlock` does to the registers: the model's own record of the unlock (R43), nothing else. -/
theorem ran_noteUnlock {s : State} {p : Nat} {pt : Port} (hpt : s.ports[p]? = some pt) :
    Ran [.noteUnlock p] s (noteUnlock s p) { s.soft with ports := s.ports.set p { pt with unlockRan := true } } [] 0 := by
  obtain ⟨hlt, rfl⟩ := List.getElem?_eq_some_iff.1 hpt
  have e : (s.ports.modify p fun pt => { pt with unlockRan := true }) =
      s.ports.set p { s.ports[p] with unlockRan := true } := by
    apply List.ext_getElem?
    intro i
    rw [List.getElem?_modify, List.getElem?_set]
    split
    · rename_i h; subst h; simp [hlt]
    · simp
  exact ⟨fun _ => runMicros_done rfl,
    { soft := by simp only [State.soft, noteUnlock, e], trace := by simp, schedule := by simp,
      drawCount := rfl, result := rfl, pending := rfl, sent := fun _ => rfl, queues := fun _ => rfl, config := rfl,
      hidden := fun _ _ _ => rfl, noLonger := NoLonger.of_queues rfl rfl }⟩

/-- `MODIFY` of a register of plain storage but `LCRH`, as a micro-step. -/
theorem ran_modify {s : State} {r : Reg} {w : Word} (st cl : Word) (hw : layoutWf s.config.layout = true)
    (hr : r ∈ allRegs s.config.layout) (hb : writable r = true) (hc : clocked s r = true) (hp : plainWord s r = some w)
    (hl : ∀ c, r ≠ .uart c .lcrh) :
    ∃ t, Ran [.modify (addrOf s.config.layout r) st cl] s t (softWrite s.soft r (clearThenSet w st cl))
      (modifyTrace (addrOf s.config.layout r) w (clearThenSet w st cl)) 2 := by
  obtain ⟨t, u, h1, h2, -, -⟩ := busModify_plain_moved st cl hw hr hb hc hp hl
  exact ⟨t, fun _ => runMicros_done (runMicro_modify h1), h2⟩

/-- `WRITE` of a register that takes the word, as a micro-step. -/
theorem ran_write {s u : State} {r : Reg} {v : Word} (hw : layoutWf s.config.layout = true)
    (hr : r ∈ allRegs s.config.layout) (hb : writable r = true) (hc : clocked s r = true) (hd : ∀ c, r ≠ .uart c .dr)
    (hu : writeReg (addrOf s.config.layout r) r v (tick s) = .ok () u) :
    ∃ t, Ran [.write (addrOf s.config.layout r) v] s t (softWrite s.soft r v)
      (writeTrace (addrOf s.config.layout r) v) 1 := by
  obtain ⟨t, h1, h2, -⟩ := busWrite_moved hw hr hb hc hd hu
  exact ⟨t, fun _ => runMicros_done (runMicro_write h1), h2⟩

/-! Stretches on one port, and on one channel. -/

/-- What an update of one port leaves for the next access to it. -/
theorem after_port {s t : State} {p : Nat} {pt pt' : Port} (hpt : s.ports[p]? = some pt)
    (h : t.soft = { s.soft with ports := s.ports.set p pt' }) :
    t.config = s.config ∧ portClocked t p = portClocked s p ∧ t.ports[p]? = some pt' ∧
      ∀ pt'', ({ t.soft with ports := t.ports.set p pt'' } : SoftView) = { s.soft with ports := s.ports.set p pt'' } := by
  have hcf : t.config = s.config := congrArg SoftView.config h
  have hgg : t.gateGpio = s.gateGpio := congrArg SoftView.gateGpio h
  have hps : t.ports = s.ports.set p pt' := congrArg SoftView.ports h
  obtain ⟨hlt, -⟩ := List.getElem?_eq_some_iff.1 hpt
  exact ⟨hcf, by unfold portClocked; rw [hcf, hgg], by rw [hps]; simp [hlt], fun pt'' => by rw [h, hps]; simp⟩

/-- `MODIFY` of a register of a port, as a micro-step. -/
theorem ran_port_modify {s : State} {p : Nat} {pt : Port} (st cl : Word) (g : GpioReg)
    (hl : layoutWf s.config.layout = true) (hp : p < nPorts s.config) (hc : portClocked s p = true)
    (hpt : s.ports[p]? = some pt) :
    ∃ t, Ran [.modify (gpioAddr s.config p g) st cl] s t
      { s.soft with ports := s.ports.set p (writePort s.config pt g (clearThenSet (readPort pt g) st cl)) }
      (modifyTrace (gpioAddr s.config p g) (readPort pt g) (clearThenSet (readPort pt g) st cl)) 2 := by
  obtain ⟨t, h⟩ := ran_modify (s := s) (r := .gpio p g) (w := readPort pt g) st cl hl (mem_allRegs_gpio hp _) (by rfl) hc
    (by cases g <;> simp [plainWord, hpt, readPort]) (by simp)
  have e : softWrite s.soft (.gpio p g) (clearThenSet (readPort pt g) st cl) =
      { s.soft with ports := s.ports.set p (writePort s.config pt g (clearThenSet (readPort pt g) st cl)) } := by
    simp [softWrite, hpt]
  exact ⟨t, e ▸ h⟩

/-- `WRITE` of a register of a port, as a micro-step. -/
theorem ran_port_write {s : State} {p : Nat} {pt : Port} (v : Word) (g : GpioReg)
    (hl : layoutWf s.config.layout = true) (hp : p < nPorts s.config) (hc : portClocked s p = true)
    (hpt : s.ports[p]? = some pt) :
    ∃ t, Ran [.write (gpioAddr s.config p g) v] s t
      { s.soft with ports := s.ports.set p (writePort s.config pt g v) } (writeTrace (gpioAddr s.config p g) v) 1 := by
  obtain ⟨t, h⟩ := ran_write (s := s) (r := .gpio p g) (v := v) (u := setPort (tick s) p (writePort s.config pt g v)) hl
    (mem_allRegs_gpio hp _) rfl hc (by simp) (by simp [writeReg, hpt])
  have e : softWrite s.soft (.gpio p g) v = { s.soft with ports := s.ports.set p (writePort s.config pt g v) } := by
    simp [softWrite, hpt]
  exact ⟨t, e ▸ h⟩

/-- What an update of one channel's registers leaves for the next access to it. -/
theorem after_channel {s t : State} {c : Nat} {x x' : ChanRegs} (hx : s.soft.channels[c]? = some x)
    (h : t.soft = { s.soft with channels := s.soft.channels.set c x' }) :
    t.config = s.config ∧ chanClocked t c = chanClocked s c ∧ t.soft.channels[c]? = some x' ∧
      ∀ x'', ({ t.soft with channels := t.soft.channels.set c x'' } : SoftView) =
        { s.soft with channels := s.soft.channels.set c x'' } := by
  have hcf : t.config = s.config := congrArg SoftView.config h
  have hgu : t.gateUart = s.gateUart := congrArg SoftView.gateUart h
  obtain ⟨hlt, -⟩ := List.getElem?_eq_some_iff.1 hx
  refine ⟨hcf, by unfold chanClocked; rw [hcf, hgu], ?_, ?_⟩
  · rw [h]; exact List.getElem?_set_self (by simpa using hlt)
  · intro x''; rw [h]; simp

/-- A channel whose registers these are. -/
theorem channel_of_regs {s : State} {c : Nat} {x : ChanRegs} (h : s.soft.channels[c]? = some x) :
    ∃ ch, s.channels[c]? = some ch ∧ chanRegsOf ch = x := by
  rw [soft_channels_get, Option.map_eq_some_iff] at h
  exact h

/-- `WRITE` of a plain register of a channel, as a micro-step. -/
theorem ran_channel_write {s : State} {c : Nat} {x : ChanRegs} {u : UartReg} (v : Word)
    (hl : layoutWf s.config.layout = true) (hn : c < nChannels s.config) (hc : chanClocked s c = true)
    (hx : s.soft.channels[c]? = some x) (hu : u = .ibrd ∨ u = .fbrd ∨ u = .ctl) :
    ∃ t, Ran [.write (chanAddr s.config c u) v] s t
      { s.soft with channels := s.soft.channels.set c (regsWrite s.config.layout x u v) } (writeTrace (chanAddr s.config c u) v) 1 := by
  obtain ⟨ch, hch, -⟩ := channel_of_regs hx
  obtain ⟨ch', hch', -⟩ := drained_agents.tick s c ch hch
  have e : softWrite s.soft (.uart c u) v = { s.soft with channels := s.soft.channels.set c (regsWrite s.config.layout x u v) } := by
    simp only [softWrite, hx, soft_config]
  have hw : ∃ y, writeReg (addrOf s.config.layout (.uart c u)) (.uart c u) v (tick s) = .ok () y := by
    rcases hu with rfl | rfl | rfl <;> exact ⟨_, by simp only [writeReg, hch', writeChannel]; rfl⟩
  obtain ⟨y, hw⟩ := hw
  obtain ⟨t, h⟩ := ran_write (s := s) (r := .uart c u) (v := v) hl (mem_allRegs_uart hn _)
    (by rcases hu with rfl | rfl | rfl <;> rfl) hc (by rcases hu with rfl | rfl | rfl <;> simp) hw
  exact ⟨t, e ▸ h⟩

/-! Reads. -/

/-- A register read changes no register (R88). -/
theorem readReg_soft {a : Word} {r : Reg} {s t : State} {v : ReadValue} (h : readReg a r s = .ok v t) :
    t.soft = s.soft := by
  rcases readReg_ok h with rfl | rfl | ⟨c, ch, b, q, -, hc, -, -, rfl⟩
  · rfl
  · rfl
  · show (setChannel s c { ch with rxq := q }).soft = s.soft
    rw [soft_setChannel]
    show { s.soft with channels := s.soft.channels.set c (chanRegsOf ch) } = s.soft
    rw [set_same (soft_channel hc)]

theorem readReg_trace {a : Word} {r : Reg} {s t : State} {v : ReadValue} (h : readReg a r s = .ok v t) :
    t.trace = s.trace := by
  rcases readReg_ok h with rfl | rfl | ⟨c, ch, b, q, -, -, -, -, rfl⟩ <;> rfl

/-- A read keeps what was sent. -/
theorem readReg_sent {a : Word} {r : Reg} {s t : State} {v : ReadValue} (h : readReg a r s = .ok v t) (c : Nat) :
    sent t c = sent s c := by
  rcases readReg_ok h with rfl | rfl | ⟨c', ch, b, q, -, hc, -, -, rfl⟩
  · rfl
  · rfl
  · obtain ⟨hlt, hget⟩ := List.getElem?_eq_some_iff.1 hc
    by_cases hcc : c' = c
    · subst hcc; simp [Machine.sent, hlt, hget]
    · simp [Machine.sent, hcc]

/-- A register of an existing port or channel answers a read. -/
theorem readReg_gives {s : State} {r : Reg} (a : Word) (hr : r ∈ allRegs s.config.layout)
    (hp : s.ports.length = nPorts s.config) (hn : s.channels.length = nChannels s.config) :
    ∃ v u, readReg a r s = .ok v u := by
  rcases mem_allRegs_cases hr with h | ⟨p, g, hpp, rfl⟩ | ⟨c, u, hcc, rfl⟩
  · simp only [sysRegs, List.mem_cons, List.not_mem_nil, or_false] at h
    rcases h with rfl | rfl | rfl | rfl | rfl <;> exact ⟨_, _, rfl⟩
  · have hlt : p < s.ports.length := by rw [hp]; exact hpp
    exact ⟨exactly (readPort s.ports[p] g), s, by simp only [readReg, List.getElem?_eq_getElem hlt]⟩
  · have hlt : c < s.channels.length := by rw [hn]; exact hcc
    have hch : s.channels[c]? = some s.channels[c] := List.getElem?_eq_getElem hlt
    cases u <;> simp only [readReg, hch, readChannel]
    case dr => split <;> exact ⟨_, _, rfl⟩
    all_goals exact ⟨_, _, rfl⟩

theorem busRead_soft {a : Word} {s t : State} {v : ReadValue} (h : busRead a s = .ok v t) : t.soft = s.soft := by
  obtain ⟨r, u, -, -, h1, rfl⟩ := busRead_ok h
  rw [soft_logBus, readReg_soft h1, tick_soft]

theorem busRead_trace {a : Word} {s t : State} {v : ReadValue} (h : busRead a s = .ok v t) :
    t.trace = s.trace ++ [{ kind := .read, address := a, value := v.word }] := by
  obtain ⟨r, u, -, -, h1, rfl⟩ := busRead_ok h
  simp [logBus, readReg_trace h1]

theorem busRead_sent {a : Word} {s t : State} {v : ReadValue} (h : busRead a s = .ok v t) (c : Nat) :
    sent t c = sent s c := by
  obtain ⟨r, u, -, -, h1, rfl⟩ := busRead_ok h
  rw [sent_logBus, readReg_sent h1, tick_sent]

theorem busWrite_trace {a v : Word} {s t : State} (h : busWrite a v s = .ok () t) :
    t.trace = s.trace ++ writeTrace a v := by
  obtain ⟨r, u, -, -, -, h1, rfl⟩ := busWrite_ok h
  simp [logBus, writeReg_trace h1, writeTrace]

/-! How an access fails (R86, R87, R248). -/

theorem busRead_none {s : State} {a : Word} (h : locate s.config.layout a = none) :
    busRead a s = .fault (.invalidAddress (some a) (tick s)) := by
  simp [busRead, h]

theorem busWrite_none {s : State} {a v : Word} (h : locate s.config.layout a = none) :
    busWrite a v s = .fault (.invalidAddress (some a) (tick s)) := by
  simp [busWrite, h]

theorem busWrite_readOnly {s : State} {a v : Word} {r : Reg} (h : locate s.config.layout a = some r)
    (hb : writable r = false) : busWrite a v s = .fault (.invalidAddress (some a) (tick s)) := by
  simp [busWrite, h, hb]

theorem busRead_unclocked {s : State} {a : Word} {r : Reg} (h : locate s.config.layout a = some r)
    (hc : clocked s r = false) : busRead a s = .fault (.unclocked a (tick s)) := by
  simp [busRead, h, hc]

theorem busWrite_unclocked {s : State} {a v : Word} {r : Reg} (h : locate s.config.layout a = some r)
    (hb : writable r = true) (hc : clocked s r = false) : busWrite a v s = .fault (.unclocked a (tick s)) := by
  simp [busWrite, h, hc, hb]

/-! Answers. -/

theorem exec_read_next {s t : State} {a : Word} {v : ReadValue} (h : busRead a (clearResult s) = .ok v t) :
    exec (.read a) s = .next (setPending (putResult t v.word) []) := by
  show answer (Res.bind (busRead a (clearResult s)) _) = _
  rw [h]; rfl

theorem layout_fields {l : Layout} (h : layoutWf l = true) :
    fieldOk 1 l.pllLock = true ∧ fieldOk 1 l.txff = true ∧ fieldOk 1 l.rxfe = true ∧
      fieldsApart l.txff l.rxfe = true := by
  simp only [layoutWf, Bool.and_eq_true, fieldsDisjoint, List.all_cons, List.all_nil] at h
  tauto

/-- What a read of `CLK_RIS` returns right after the agents have stepped. -/
def risValue (s : State) : ReadValue :=
  { known := flagWord s.config.layout.pllLock s.risPllLock, mask := fieldBit s.config.layout.pllLock,
    fill := Config.freeWord s.drawCount }

/-- What a read of `FR` of a channel returns. -/
def frValue (s : State) (ch : Channel) : ReadValue :=
  { known := flagWord s.config.layout.txff (txFull s.config ch) ||| flagWord s.config.layout.rxfe (rxEmpty ch),
    mask := fieldBit s.config.layout.txff ||| fieldBit s.config.layout.rxfe, fill := Config.freeWord s.drawCount }

theorem busRead_ris {s : State} (hl : layoutWf s.config.layout = true) :
    busRead (addrOf s.config.layout .ris) s =
      .ok (risValue (tick s)) (logBus .read (addrOf s.config.layout .ris) (risValue (tick s)).word
        (countDraw (tick s))) := by
  rw [busRead_at hl (mem_allRegs_sys _ (by simp [sysRegs])) rfl]
  simp [readReg, drawn, risValue]

theorem busRead_fr {s : State} {c : Nat} {ch : Channel} (hl : layoutWf s.config.layout = true)
    (hn : c < nChannels s.config) (hc : chanClocked s c = true) (hch : (tick s).channels[c]? = some ch) :
    busRead (addrOf s.config.layout (.uart c .fr)) s =
      .ok (frValue (tick s) ch) (logBus .read (addrOf s.config.layout (.uart c .fr)) (frValue (tick s) ch).word
        (countDraw (tick s))) := by
  rw [busRead_at hl (mem_allRegs_uart hn _) hc]
  simp [readReg, readChannel, hch, drawn, frValue]

theorem risValue_flag {s : State} (hl : layoutWf s.config.layout = true) :
    (risValue s).flag s.config.layout.pllLock = s.risPllLock := by
  have f1 := (layout_fields hl).1
  rw [flag_eq_word_bit _ (fieldOk_lo f1), word_bit]
  simp [risValue, fieldBit_bit (fieldOk_lo f1), flagWord_bit (fieldOk_lo f1)]

theorem frValue_flags {s : State} (hl : layoutWf s.config.layout = true) (ch : Channel) :
    (frValue s ch).flag s.config.layout.txff = txFull s.config ch ∧
      (frValue s ch).flag s.config.layout.rxfe = rxEmpty ch := by
  obtain ⟨-, f2, f3, f4⟩ := layout_fields hl
  have hne : s.config.layout.txff.lo ≠ s.config.layout.rxfe.lo := by
    have := one_bit_field f2; have := one_bit_field f3; simp [fieldsApart] at f4; omega
  rw [flag_eq_word_bit _ (fieldOk_lo f2), flag_eq_word_bit _ (fieldOk_lo f3), word_bit, word_bit]
  simp [frValue, fieldBit_bit (fieldOk_lo f2), fieldBit_bit (fieldOk_lo f3), flagWord_bit (fieldOk_lo f2),
    flagWord_bit (fieldOk_lo f3), hne, hne.symm]

/-- What a read of `DR` of a channel returns (R51). -/
def drValue (s : State) (ch : Channel) : ReadValue :=
  match ch.rxq with
  | b :: _ => { known := byteWord b, mask := 0xFF#32, fill := Config.freeWord s.drawCount }
  | [] => { known := 0#32, mask := 0#32, fill := Config.freeWord s.drawCount }

/-- The channel without its oldest received byte. -/
def popped (ch : Channel) : Channel := { ch with rxq := ch.rxq.tail }

theorem setChannel_same {s : State} {c : Nat} {ch : Channel} (h : s.channels[c]? = some ch) : setChannel s c ch = s := by
  unfold setChannel; rw [set_same h]

theorem busRead_dr {s : State} {c : Nat} {ch : Channel} (hl : layoutWf s.config.layout = true)
    (hn : c < nChannels s.config) (hc : chanClocked s c = true) (hch : (tick s).channels[c]? = some ch) :
    busRead (addrOf s.config.layout (.uart c .dr)) s =
      .ok (drValue (tick s) ch) (logBus .read (addrOf s.config.layout (.uart c .dr)) (drValue (tick s) ch).word
        (countDraw (setChannel (tick s) c (popped ch)))) := by
  rw [busRead_at hl (mem_allRegs_uart hn _) hc]
  cases hq : ch.rxq with
  | nil =>
    have e : popped ch = ch := by cases ch; cases hq; rfl
    rw [e, setChannel_same hch]
    simp [readReg, readChannel, hch, hq, drawn, drValue]
  | cons b q =>
    have hd : s.config.layout.drData = lowByte := (layoutWf_placed hl).drData
    have hm : fieldMask lowByte = 0xFF#32 := rfl
    have h0 : lowByte.lo = 0 := rfl
    simp [readReg, readChannel, hch, hq, drawn, drValue, popped, hd, hm, h0]

theorem drValue_low8 {s : State} {ch : Channel} {b : Byte} {q : List Byte} (h : ch.rxq = b :: q) :
    (drValue s ch).low8 = b := by
  simp [drValue, h, ReadValue.low8, byteWord]

theorem drValue_low8_nil {s : State} {ch : Channel} (h : ch.rxq = []) :
    (drValue s ch).low8 = (Config.freeWord s.drawCount).setWidth 8 := by
  rw [low8_eq_word]
  simp only [drValue, h]
  apply BitVec.eq_of_getLsbD_eq
  intro i hi
  simp [word_bit, hi]

@[simp] theorem chanRegsOf_popped (ch : Channel) : chanRegsOf (popped ch) = chanRegsOf ch := rfl

/-- Replacing a channel by one with the same registers leaves the registers alone. -/
theorem soft_setChannel_same {s : State} {c : Nat} {ch ch' : Channel} (h : s.channels[c]? = some ch)
    (hr : chanRegsOf ch' = chanRegsOf ch) : (setChannel s c ch').soft = s.soft := by
  rw [soft_setChannel, hr, set_same (soft_channel h)]

theorem busWrite_dr {s : State} {c : Nat} {ch : Channel} (v : Word) (hl : layoutWf s.config.layout = true)
    (hn : c < nChannels s.config) (hc : chanClocked s c = true) (hch : (tick s).channels[c]? = some ch) :
    busWrite (addrOf s.config.layout (.uart c .dr)) v s =
      .ok () (logBus .write (addrOf s.config.layout (.uart c .dr)) v
        (setChannel (tick s) c (pushTx s.config ch (v.setWidth 8)))) := by
  rw [busWrite_at hl (mem_allRegs_uart hn _) rfl hc]
  simp [writeReg, writeChannel, hch, (layoutWf_placed hl).drData, byteField_lowByte]

/-! Waits (R160, R190). -/

theorem poll_first {a : Word} {test : ReadValue → Bool} {s t : State} {v : ReadValue} (h : busRead a s = .ok v t)
    (ht : test v = true) : poll a test s = .ok true t := by
  unfold poll pollFor; rw [h]; simp [ht]

theorem runMicro_txWait {c : Nat} {s t : State} {ended : Bool}
    (h : poll (chanAddr s.config c .fr) (fun r => !r.flag s.config.layout.txff) s = .ok ended t) :
    runMicro (.txWait c) s = .ok (waited ended) t := by
  show Res.bind (poll (chanAddr s.config c .fr) (fun r => !r.flag s.config.layout.txff) s) _ = _
  rw [h]; rfl

theorem runMicro_clkWait {s t : State} {ended : Bool} (hk : s.clkStep = 8)
    (h : poll (addrOf s.config.layout .ris) (fun r => r.flag s.config.layout.pllLock) s = .ok ended t) :
    runMicro .clkWait s = .ok (waited ended) (if ended then advanceClock 8 (some .pllLocked) t else t) := by
  rw [runMicro, if_pos hk, h]; rfl

/-! A command that reads one register of a channel (R192, R193, R195). -/

theorem readChannelFor_next {s t : State} {c : Nat} {u : UartReg} {f : ReadValue → Word} {v : ReadValue}
    (hn : c < nChannels s.config) (h : busRead (chanAddr s.config c u) (clearResult s) = .ok v t) :
    readChannelFor c u f s = .next (setPending (putResult t (f v)) []) := by
  unfold readChannelFor
  rw [if_pos (by simpa [inRange] using hn), h]; rfl

@[simp] theorem risValue_clearResult (s : State) : risValue (clearResult s) = risValue s := rfl
@[simp] theorem frValue_clearResult (s : State) (ch : Channel) : frValue (clearResult s) ch = frValue s ch := rfl
@[simp] theorem drValue_clearResult (s : State) (ch : Channel) : drValue (clearResult s) ch = drValue s ch := rfl

/-- The effective clock fields are functions of the two clock-control registers (R27). -/
theorem eff_of (t u : State) (h1 : t.clkLegacy = u.clkLegacy) (h2 : t.clkAlt = u.clkAlt) (h3 : t.config = u.config) :
    effPwrdn t = effPwrdn u ∧ effOscsrc t = effOscsrc u ∧ xtalCode t = xtalCode u := by
  unfold effPwrdn effOscsrc xtalCode altSelected
  rw [h1, h2, h3]
  exact ⟨rfl, rfl, rfl⟩

end Sys2Proof.Machine
end

