-- ==== Sys2Proof/Laws/Closure.lean ====
section
/-! SUPPORT. What every run has in common: a relation that is kept by every access, every idle step and every write of a
sequencer register is kept by every micro-step, every command and every step. -/

namespace Sys2Proof.Machine

/-- A preorder that everything the sequencer and the agents can do respects. -/
structure StepRel (R : State → State → Prop) : Prop where
  refl : ∀ s, R s s
  trans : ∀ {s t u}, R s t → R t u → R s u
  idle : ∀ n s, R s (Machine.idle n s)
  read : ∀ {a s v t}, Machine.busRead a s = .ok v t → R s t
  write : ∀ {a v s t}, Machine.busWrite a v s = .ok () t → R s t
  clock : ∀ k stage s, s.clkStep = k → R s (advanceClock k stage s)
  stage : ∀ st s, R s (setSvcStage s st)
  unlock : ∀ p s, R s (noteUnlock s p)
  result : ∀ r s, R s { s with result := r }
  pending : ∀ ms s, R s (setPending s ms)
  program : ∀ ws s, R s { s with program := ws }

namespace StepRel

variable {R : State → State → Prop}

theorem tick (E : StepRel R) (s : State) : R s (Machine.tick s) := by
  have := E.idle 1 s
  rwa [idle_one] at this

theorem modify (E : StepRel R) {a st cl : Word} {s t : State} (h : busModify a st cl s = .ok () t) : R s t := by
  obtain ⟨v, u, h1, h2⟩ := bind_ok h
  exact E.trans (E.read h1) (E.write h2)

theorem pollFor (E : StepRel R) {a : Word} {test : ReadValue → Bool} {n : Nat} {s t : State} {b : Bool}
    (h : Machine.pollFor a test n s = .ok b t) : R s t := by
  induction n generalizing s with
  | zero => simp only [Machine.pollFor, Res.ok.injEq] at h; rw [← h.2]; exact E.refl s
  | succ n ih =>
    obtain ⟨v, u, h1, h2⟩ := bind_ok h
    split at h2
    · simp only [Res.ok.injEq] at h2; rw [← h2.2]; exact E.read h1
    · exact E.trans (E.read h1) (ih h2)

theorem echoOnce (E : StepRel R) {s t : State} {p : Progress} (h : Machine.echoOnce s = .ok p t) : R s t := by
  obtain ⟨v, u, h1, h2⟩ := bind_ok h
  refine E.trans (E.idle _ s) (E.trans (E.read h1) ?_)
  split at h2
  · simp only [Res.ok.injEq] at h2; rw [← h2.2]; exact E.refl u
  · obtain ⟨d, x, h3, h4⟩ := bind_ok h2
    simp only [Res.ok.injEq] at h4
    rw [← h4.2]
    exact E.read h3

theorem micro (E : StepRel R) {m : Micro} {s t : State} {p : Progress} (h : runMicro m s = .ok p t) : R s t := by
  cases m with
  | inRange ps cs =>
    simp only [runMicro] at h
    split at h
    · simp only [Res.ok.injEq] at h; rw [← h.2]; exact E.refl s
    · cases h
  | modify a st cl =>
    obtain ⟨v, u, h1, h2⟩ := bind_ok h
    simp only [Res.ok.injEq] at h2; rw [← h2.2]; exact E.modify h1
  | write a v =>
    obtain ⟨v', u, h1, h2⟩ := bind_ok h
    simp only [Res.ok.injEq] at h2; rw [← h2.2]; exact E.write h1
  | noteUnlock p => simp only [runMicro, Res.ok.injEq] at h; rw [← h.2]; exact E.unlock p s
  | clk k stage a st cl =>
    simp only [runMicro] at h
    split at h
    · rename_i hk
      obtain ⟨v, u, h1, h2⟩ := bind_ok h
      simp only [Res.ok.injEq] at h2
      rw [← h2.2]
      have : u.clkStep = k := by rw [elementary_clkStep.busModify h1, hk]
      exact E.trans (E.modify h1) (E.clock k stage u this)
    · cases h
  | clkWait =>
    simp only [runMicro] at h
    split at h
    · rename_i hk
      obtain ⟨b, u, h1, h2⟩ := bind_ok h
      simp only [Res.ok.injEq] at h2
      rw [← h2.2]
      have hu : u.clkStep = 8 := by rw [elementary_clkStep.poll h1, hk]
      split
      · exact E.trans (E.pollFor h1) (E.clock 8 _ u hu)
      · exact E.pollFor h1
    · cases h
  | txWait c =>
    obtain ⟨b, u, h1, h2⟩ := bind_ok h
    simp only [Res.ok.injEq] at h2
    rw [← h2.2]
    exact E.pollFor h1
  | idle n => simp only [runMicro, Res.ok.injEq] at h; rw [← h.2]; exact E.idle n s
  | led c => simp only [runMicro, Res.ok.injEq] at h; rw [← h.2]; exact E.idle _ s
  | stage st => simp only [runMicro, Res.ok.injEq] at h; rw [← h.2]; exact E.stage st s
  | echo => exact E.echoOnce h
  | yield => simp only [runMicro, Res.ok.injEq] at h; rw [← h.2]; exact E.refl s

theorem micros (E : StepRel R) {ms : List Micro} {s t : State} (h : runMicros ms s = .next t) : R s t := by
  induction ms generalizing s with
  | nil => simp only [runMicros, Host.Outcome.next.injEq] at h; rw [← h]; exact E.pending [] s
  | cons m rest ih =>
    rw [runMicros] at h
    split at h
    · rename_i u hu; exact E.trans (E.micro hu) (ih h)
    · rename_i u hu; simp only [Host.Outcome.next.injEq] at h; rw [← h]; exact E.trans (E.micro hu) (E.pending _ u)
    · rename_i u hu; simp only [Host.Outcome.next.injEq] at h; rw [← h]; exact E.trans (E.micro hu) (E.pending _ u)
    · cases h
    · cases h

theorem command (E : StepRel R) {ms : List Micro} {s t : State} (h : runCommand ms s = .next t) : R s t :=
  E.trans (E.result none s) (E.micros h)

theorem answered (E : StepRel R) {a : Word} {f : ReadValue → Word} {s t : State}
    (h : answer ((Machine.busRead a (clearResult s)).bind fun v t => .ok (f v) t) = .next t) : R s t := by
  cases hb : Machine.busRead a (clearResult s) with
  | fault e => rw [hb] at h; cases h
  | refused e => rw [hb] at h; cases h
  | ok v u =>
    rw [hb] at h
    simp only [ok_bind, answer, Host.Outcome.next.injEq] at h
    rw [← h]
    exact E.trans (E.result none s) (E.trans (E.read hb) (E.trans (E.result (some (f v)) u)
      (E.pending [] { u with result := some (f v) })))

theorem readChannelFor (E : StepRel R) {c : Nat} {r : UartReg} {f : ReadValue → Word} {s t : State}
    (h : Machine.readChannelFor c r f s = .next t) : R s t := by
  simp only [Machine.readChannelFor] at h
  split at h
  · exact E.answered h
  · cases h

/-- Every command respects the relation. -/
theorem exec (E : StepRel R) {i : Instr} {s t : State} (h : Machine.exec i s = .next t) : R s t := by
  cases i with
  | read a => exact E.answered h
  | write a v => exact E.command h
  | modify a st cl => exact E.command h
  | bringUpClock => exact E.command h
  | clkSelAlt => exact E.command h
  | clkBypassOn => exact E.command h
  | clkDivenOff => exact E.command h
  | clkSetXtal => exact E.command h
  | clkSrcExt => exact E.command h
  | clkPllOn => exact E.command h
  | clkSetDiv => exact E.command h
  | clkDivenOn => exact E.command h
  | clkWaitLock => exact E.command h
  | clkBypassOff => exact E.command h
  | isPllLocked => exact E.answered h
  | enablePort p => exact E.command h
  | configurePins p m codes md cu => exact E.command h
  | drivePins p v => exact E.command h
  | uartConfigure c p m f bi bf wl sb par fifo =>
    simp only [Machine.exec, execUartConfigure] at h
    split at h
    · exact E.command h
    · cases h
  | transmitByte c b => exact E.command h
  | receiveAvailable c => exact E.readChannelFor h
  | receiveByte c => exact E.readChannelFor h
  | isTxFifoFull c => exact E.readChannelFor h
  | runEchoService =>
    simp only [Machine.exec, execRunEchoService] at h
    split at h
    · exact E.command h
    · cases h
  | ledPulse color => exact E.command h
  | delay n => exact E.command h

/-- Every step respects the relation. -/
theorem step (E : StepRel R) {s t : State} (h : Machine.step s = .next t) : R s t := by
  simp only [Machine.step] at h
  split at h
  · exact E.micros h
  · split at h
    · simp only [Host.Outcome.next.injEq] at h; rw [← h]; exact E.tick s
    · split at h
      · exact E.trans (E.program _ s) (E.exec h)
      · cases h

end StepRel

end Sys2Proof.Machine
end

