-- ==== Sys2Proof/Laws/PerInstr.lean ====
section
/-! SUPPORT. One law per instruction: its encoding has the length that R110 and R113 give its opcode, and the header word
carries that opcode (R112, R114). -/

namespace Sys2Proof.Laws.EncodeWords

/-- The opcode of an instruction (R114). -/
def opcode (i : Instr) : Nat :=
  match i with
  | .read _ => 0x01
  | .write _ _ => 0x02
  | .modify _ _ _ => 0x03
  | .bringUpClock => 0x10
  | .clkSelAlt => 0x11
  | .clkBypassOn => 0x12
  | .clkDivenOff => 0x13
  | .clkSetXtal => 0x14
  | .clkSrcExt => 0x15
  | .clkPllOn => 0x16
  | .clkSetDiv => 0x17
  | .clkDivenOn => 0x18
  | .clkWaitLock => 0x19
  | .clkBypassOff => 0x1A
  | .isPllLocked => 0x1B
  | .enablePort _ => 0x20
  | .configurePins _ _ _ _ _ => 0x21
  | .drivePins _ _ => 0x22
  | .uartConfigure _ _ _ _ _ _ _ _ _ _ => 0x30
  | .transmitByte _ _ => 0x31
  | .receiveAvailable _ => 0x32
  | .receiveByte _ => 0x33
  | .isTxFifoFull _ => 0x34
  | .runEchoService => 0x40
  | .ledPulse _ => 0x41
  | .delay _ => 0x42

/-- The words of an instruction: as many as its opcode says, and the opcode in the header's low byte. -/
def Statement (i : Instr) : Prop :=
  (encode i).length = commandLength (opcode i) ∧ bits ((encode i).headD 0) 7 0 = opcode i

/-- The low byte of a header word is its opcode: every other field is a multiple of 256 above it. -/
theorem header_op (h : Header) (hop : h.op < 256) : bits (headerWord h) 7 0 = h.op := by
  have : h.op + h.a * 2 ^ 8 + h.m * 2 ^ 12 + h.f * 2 ^ 20 + h.g * 2 ^ 24 =
      h.op + 256 * (h.a + h.m * 16 + h.f * 4096 + h.g * 65536) := by omega
  simp only [bits, headerWord, this, BitVec.toNat_ofNat]
  omega

theorem read (a : Word) : Statement (.read a) := ⟨rfl, header_op _ (by decide)⟩
theorem write (a v : Word) : Statement (.write a v) := ⟨rfl, header_op _ (by decide)⟩
theorem modify (a st cl : Word) : Statement (.modify a st cl) := ⟨rfl, header_op _ (by decide)⟩
theorem bringUpClock : Statement .bringUpClock := ⟨rfl, header_op _ (by decide)⟩
theorem clkSelAlt : Statement .clkSelAlt := ⟨rfl, header_op _ (by decide)⟩
theorem clkBypassOn : Statement .clkBypassOn := ⟨rfl, header_op _ (by decide)⟩
theorem clkDivenOff : Statement .clkDivenOff := ⟨rfl, header_op _ (by decide)⟩
theorem clkSetXtal : Statement .clkSetXtal := ⟨rfl, header_op _ (by decide)⟩
theorem clkSrcExt : Statement .clkSrcExt := ⟨rfl, header_op _ (by decide)⟩
theorem clkPllOn : Statement .clkPllOn := ⟨rfl, header_op _ (by decide)⟩
theorem clkSetDiv : Statement .clkSetDiv := ⟨rfl, header_op _ (by decide)⟩
theorem clkDivenOn : Statement .clkDivenOn := ⟨rfl, header_op _ (by decide)⟩
theorem clkWaitLock : Statement .clkWaitLock := ⟨rfl, header_op _ (by decide)⟩
theorem clkBypassOff : Statement .clkBypassOff := ⟨rfl, header_op _ (by decide)⟩
theorem isPllLocked : Statement .isPllLocked := ⟨rfl, header_op _ (by decide)⟩
theorem enablePort (p : Nat) : Statement (.enablePort p) := ⟨rfl, header_op _ (by simp [opHeader])⟩
theorem configurePins (p : Nat) (m : Byte) (w : Word) (d u : Bool) : Statement (.configurePins p m w d u) :=
  ⟨rfl, header_op _ (by simp [opHeader])⟩
theorem drivePins (p : Nat) (v : Byte) : Statement (.drivePins p v) := ⟨rfl, header_op _ (by simp [opHeader])⟩
theorem uartConfigure (c p : Nat) (m : Byte) (f : BitVec 4) (bi : BitVec 16) (bf : BitVec 6) (wl sb : Nat)
    (par fifo : Bool) : Statement (.uartConfigure c p m f bi bf wl sb par fifo) := ⟨rfl, header_op _ (by simp)⟩
theorem transmitByte (c : Nat) (b : Byte) : Statement (.transmitByte c b) := ⟨rfl, header_op _ (by simp [opHeader])⟩
theorem receiveAvailable (c : Nat) : Statement (.receiveAvailable c) := ⟨rfl, header_op _ (by simp [opHeader])⟩
theorem receiveByte (c : Nat) : Statement (.receiveByte c) := ⟨rfl, header_op _ (by simp [opHeader])⟩
theorem isTxFifoFull (c : Nat) : Statement (.isTxFifoFull c) := ⟨rfl, header_op _ (by simp [opHeader])⟩
theorem runEchoService : Statement .runEchoService := ⟨rfl, header_op _ (by decide)⟩
theorem ledPulse (color : Byte) : Statement (.ledPulse color) := ⟨rfl, header_op _ (by simp [opHeader])⟩
theorem delay (n : Word) : Statement (.delay n) := ⟨rfl, header_op _ (by decide)⟩

end Sys2Proof.Laws.EncodeWords
end

