-- ==== Sys2Proof/Tests/Slice0.lean ====
section
/-! SUPPORT. Small tests. The words and results are those of 95_test_vectors.md, named by their id there (A, K, G, U, B, H,
P, E), or worked out by hand from the rule named. Then, for every statement with hypotheses, states and operands that
meet them. -/

namespace Sys2Proof.Tests

open Sys2Proof Sys2Proof.Machine

/-! Well-formedness: one ill-formed term for each check, and the boundary beside it. -/

theorem test_wf_port_16 : (Instr.enablePort 16).wellFormed = false := by decide
theorem test_wf_port_15 : (Instr.enablePort 15).wellFormed = true := by decide
theorem test_wf_channel_16 : (Instr.receiveByte 16).wellFormed = false := by decide
theorem test_wf_binding_16 : (Instr.uartConfigure 0 16 3 1 27 8 8 1 false true).wellFormed = false := by decide
theorem test_wf_word_length_4 : (Instr.uartConfigure 0 0 3 1 27 8 4 1 false true).wellFormed = false := by decide
theorem test_wf_word_length_9 : (Instr.uartConfigure 0 0 3 1 27 8 9 1 false true).wellFormed = false := by decide
theorem test_wf_stop_bits_0 : (Instr.uartConfigure 0 0 3 1 27 8 8 0 false true).wellFormed = false := by decide
theorem test_wf_stop_bits_3 : (Instr.uartConfigure 0 0 3 1 27 8 8 3 false true).wellFormed = false := by decide
theorem test_wf_widest : (Instr.uartConfigure 15 15 0xFF 15 0xFFFF 63 5 2 true false).wellFormed = true := by decide

/-! Decoding: every constructor from a word of E1 to E20, and every reason to refuse. -/

theorem test_decode_read : decode [0x00000001, 0x400FE070] = .ok (.read 0x400FE070, []) := by decide
theorem test_decode_write :
    decode [0x00000002, 0x40007520, 0x4C4F434B] = .ok (.write 0x40007520 0x4C4F434B, []) := by decide
theorem test_decode_modify :
    decode [0x00000003, 0x400FE060, 0x540, 0x7C0] = .ok (.modify 0x400FE060 0x540 0x7C0, []) := by decide
theorem test_decode_bringUpClock : decode [0x00000010] = .ok (.bringUpClock, []) := by decide
theorem test_decode_clkSelAlt : decode [0x00000011] = .ok (.clkSelAlt, []) := by decide
theorem test_decode_clkBypassOn : decode [0x00000012] = .ok (.clkBypassOn, []) := by decide
theorem test_decode_clkDivenOff : decode [0x00000013] = .ok (.clkDivenOff, []) := by decide
theorem test_decode_clkSetXtal : decode [0x00000014] = .ok (.clkSetXtal, []) := by decide
theorem test_decode_clkSrcExt : decode [0x00000015] = .ok (.clkSrcExt, []) := by decide
theorem test_decode_clkPllOn : decode [0x00000016] = .ok (.clkPllOn, []) := by decide
theorem test_decode_clkSetDiv : decode [0x00000017] = .ok (.clkSetDiv, []) := by decide
theorem test_decode_clkDivenOn : decode [0x00000018] = .ok (.clkDivenOn, []) := by decide
theorem test_decode_clkWaitLock : decode [0x00000019] = .ok (.clkWaitLock, []) := by decide
theorem test_decode_clkBypassOff : decode [0x0000001A] = .ok (.clkBypassOff, []) := by decide
theorem test_decode_isPllLocked : decode [0x0000001B] = .ok (.isPllLocked, []) := by decide
theorem test_decode_enablePort : decode [0x00000320] = .ok (.enablePort 3, []) := by decide
theorem test_decode_configurePins_no_unlock :
    decode [0x010C0321, 0x11000000] = .ok (.configurePins 3 0xC0 0x11000000 true false, []) := by decide
theorem test_decode_configurePins_unlock :
    decode [0x030C0321, 0x11000000] = .ok (.configurePins 3 0xC0 0x11000000 true true, []) := by decide
theorem test_decode_drivePins : decode [0x00004522] = .ok (.drivePins 5 0x04, []) := by decide
theorem test_decode_uartConfigure :
    decode [0x191C0230, 0x0308001B] = .ok (.uartConfigure 2 3 0xC0 1 27 8 8 1 false true, []) := by decide
theorem test_decode_uartConfigure_no_fifo :
    decode [0x18103030, 0x0008001B] = .ok (.uartConfigure 0 0 0x03 1 27 8 8 1 false false, []) := by decide
theorem test_decode_transmitByte : decode [0x00041031] = .ok (.transmitByte 0 0x41, []) := by decide
theorem test_decode_receiveAvailable : decode [0x00000132] = .ok (.receiveAvailable 1, []) := by decide
theorem test_decode_receiveByte : decode [0x00000033] = .ok (.receiveByte 0, []) := by decide
theorem test_decode_isTxFifoFull : decode [0x00000034] = .ok (.isTxFifoFull 0, []) := by decide
theorem test_decode_runEchoService : decode [0x00000040] = .ok (.runEchoService, []) := by decide
theorem test_decode_ledPulse : decode [0x00002041] = .ok (.ledPulse 2, []) := by decide
theorem test_decode_delay : decode [0x00000042, 0x000003E8] = .ok (.delay 1000, []) := by decide

/-- The word length, the stop bits and the parity come from their own bits of `g` (R113): 0x11 in E24 is word length 7. -/
theorem test_decode_profile_fields :
    decode [0x11103030, 0x0008001B] = .ok (.uartConfigure 0 0 0x03 1 27 8 7 1 false true, []) ∧
    decode [0x06103030, 0x0008001B] = .ok (.uartConfigure 0 0 0x03 1 27 8 5 2 true false, []) := by decide

theorem test_decode_unassigned : decode [0x00000005] = .error (.unassignedOpcode 5) := by decide
theorem test_decode_reserved_a : decode [0x00000110] = .error (.reservedNotZero 0x10) := by decide
theorem test_decode_reserved_g : decode [0x04000321, 0] = .error (.reservedNotZero 0x21) := by decide
theorem test_decode_reserved_w1 : decode [0x19103030, 0x0048001B] = .error (.reservedNotZero 0x30) := by decide
theorem test_decode_short : decode [0x00000002, 0x400FE070] = .error (.missingOperand 2) := by decide

/-- R110: the words after a command are left for the next one. -/
theorem test_decode_leaves_rest :
    decode [0x00000320, 0x010C0321, 0x11000000] = .ok (.enablePort 3, [0x010C0321, 0x11000000]) := by decide

/-- The second word is bits 63..32 of the number (opcode_table.json). -/
theorem test_tableWord_delay : decodeTableWord 64 0x000003E800000042 = some (.delay 1000) := by decide
theorem test_tableWord_zero_operands : decodeTableWord 32 0x00000003 = some (.modify 0 0 0) := by decide

/-! States for the tests: the configuration of P3 with channel A on channel 3, and a few states over it. -/

/-- `L_REF` with values for the OPEN parameters; `DRIVE_MASK[5]` is that of G11. -/
def cfg : Config :=
  { configRef with
    driveMask := [0, 0, 0, 0, 0, 0x0E], intOscHz := 12000000, chA := 3, chB := 0, portA := 2, portB := 0, pinsA := 0xC0,
    pinsB := 0x03, fcodeA := 1, fcodeB := 1, greetingDelay := 1, ledPulseSpins := 1, colorClockReady := 0
    colorConfigured := 1, colorTransmitted := 2, colorReceived := 3 }

/-- Right after reset. -/
def zero : State := State.resetOf cfg

/-- Reset with every gate open. -/
def base : State := { zero with gateGpio := 0x3F, gateUart := 0xFF }

/-- `base` with one port or one channel replaced. -/
def withPort (p : Nat) (f : Port → Port) : State := { base with ports := base.ports.modify p f }
def withChan (c : Nat) (f : Channel → Channel) : State := { base with channels := base.channels.modify c f }

/-- The clock registers before micro-step `k` of the table of K0 to K10. -/
def atStep (k : Nat) (legacy alt : Word) : State :=
  { zero with clkStep := k, clkStage := stageOfStep k, clkLegacy := legacy, clkAlt := alt }

/-- The clock block after P1. -/
def clockUp (s : State) : State :=
  { s with
    clkStep := 10, clkStage := .dividerActive, clkLegacy := 0x07CE3D51, clkAlt := 0x81C04000, pllLocked := true
    risPllLock := true }

/-- Channel 3 configured with 27 and 8 on pins 6 and 7 of port 2, at 50 MHz. -/
def up : State :=
  clockUp
    { base with
      ports := base.ports.modify 2 fun pt => { pt with afsel := 0xC0, den := 0xC0, pctl := 0x11000000 }
      channels := base.channels.modify 3 fun ch =>
        { ch with ctl := 1, ibrd := 27, fbrd := 8, lcrh := 0x70, baudLatch := some (27, 8) } }

/-- `up` with bytes queued on channel 3. -/
def queued (tx rx : List Byte) : State :=
  { up with channels := up.channels.modify 3 fun ch => { ch with txq := tx, rxq := rx } }

/-- What holds after an instruction that completes with a next state. -/
def after (i : Instr) (s : State) (p : State → Bool) : Bool :=
  match exec i s with
  | .next t => p t
  | _ => false

/-- The instruction ends in this fault, with this trace. -/
def faults (i : Instr) (s : State) (a : Option Word) (unclockedAt : Option Word) : Bool :=
  match exec i s with
  | .fault (.invalidAddress b last) => unclockedAt.isNone && b == a && last.trace == s.trace
  | .fault (.unclocked b last) => unclockedAt == some b && last.trace == s.trace
  | _ => false

/-- The instruction is refused for this reason. -/
def refuses (i : Instr) (s : State) (r : Refusal) : Bool :=
  match exec i s with
  | .refused r' => r == r'
  | _ => false

/-! Reset. -/

/-- G14, and a layout with ALTSEL and the alternate BYPASS and PWRDN elsewhere: the fields have the values of R61 there. -/
theorem test_reset_words : legacyReset layoutRef = 0x078E3AD1 ∧ altReset layoutRef = 0x07C06810 := by decide
theorem test_reset_moved_fields :
    let l := { layoutRef with altsel := bitAt 11, bypass := bitAt 31, pwrdn := bitAt 12 }
    layoutWf l = true ∧ fieldFlag l.altsel (altReset l) = false ∧ fieldFlag l.bypass (altReset l) = true ∧
      fieldFlag l.pwrdn (altReset l) = true := ⟨by decide +kernel, by decide⟩

/-! RegisterAccess. -/

/-- R141, its example. -/
theorem test_read_alt : after (.read 0x400FE070) zero (fun t => t.result == some 0x07C06810) = true := by decide
/-- A6, A10, A7. -/
theorem test_read_faults :
    (faults (.read 0x40000000) base (some 0x40000000) none && faults (.read 0x400FE062) base (some 0x400FE062) none &&
      faults (.read 0x40005420) zero none (some 0x40005420)) = true := by decide
/-- A8. -/
theorem test_write_lock :
    after (.write 0x40007520 0x4C4F434B) base (fun t =>
      (t.ports[3]?.map (·.unlocked)) == some true && after (.read 0x40007520) t (fun u => u.result == some 0)) = true := by
  decide
/-- A5: `CLK_RIS` is read-only. -/
theorem test_write_ris : faults (.write 0x400FE050 0) zero (some 0x400FE050) none = true := by decide
/-- A1. -/
theorem test_modify_xtal :
    after (.modify 0x400FE060 0x540 0x7C0) zero (fun t => t.clkLegacy == 0x078E3D51 &&
      t.trace == modifyTrace 0x400FE060 0x078E3AD1 0x078E3D51) = true := by decide
/-- A2: a bit in both masks ends set. -/
theorem test_modify_both :
    after (.modify 0x40004400 0x0F0F 0xFF) (withPort 0 fun pt => { pt with dir := 0xFFFF })
      (fun t => (t.ports[0]?.map (·.dir)) == some 0xFF0F) = true := by decide

/-! ClockController. -/

/-- P1: the PLL locks between the first and the second read of `CLK_RIS`, the 17th and the 18th access. -/
theorem test_bringUpClock :
    after .bringUpClock { zero with schedule := List.replicate 17 [] ++ [[.pllLock]] } (fun t =>
      t.clkLegacy == 0x07CE3D51 && t.clkAlt == 0x81C04000 && t.clkStep == 10 && sysclkHz t == some 50000000 &&
        t.trace.length == 20) = true := by decide +kernel
/-- K13. -/
theorem test_bringUpClock_twice : refuses .bringUpClock up .configurationOrderingViolation = true := by decide
/-- K1. -/
theorem test_clkSelAlt :
    after .clkSelAlt zero (fun t => t.clkAlt == 0x87C06810 && t.clkStep == 1) = true := by decide
/-- R152: on a register without the bit, the bit alone is set. -/
theorem test_clkBypassOn :
    after .clkBypassOn (atStep 1 0 0x87C06010) (fun t => t.clkAlt == 0x87C06810 && t.clkStep == 2) = true := by decide
/-- R153: on a register with the bit, the bit alone is cleared. -/
theorem test_clkDivenOff :
    after .clkDivenOff (atStep 2 0x07CE3AD1 0x87C06810) (fun t => t.clkLegacy == 0x078E3AD1 && t.clkStep == 3) = true := by
  decide
/-- K4. -/
theorem test_clkSetXtal :
    after .clkSetXtal (atStep 3 0x078E3AD1 0x87C06810) (fun t => t.clkLegacy == 0x078E3D51 && t.clkStep == 4) = true := by
  decide
/-- K5. -/
theorem test_clkSrcExt :
    after .clkSrcExt (atStep 4 0x078E3D51 0x87C06810) (fun t =>
      t.clkAlt == 0x87C06800 && t.clkStage == .sourceSelected && sysclkHz t == some 16000000) = true := by decide
/-- K6. -/
theorem test_clkPllOn :
    after .clkPllOn (atStep 5 0x078E3D51 0x87C06800) (fun t =>
      t.clkAlt == 0x87C04800 && t.clkStage == .pllPoweringUp && (agentStep t .pllLock).pllLocked) = true := by decide
/-- K7. -/
theorem test_clkSetDiv :
    after .clkSetDiv (atStep 6 0x078E3D51 0x87C04800) (fun t => t.clkAlt == 0x81C04800 && t.clkStep == 7) = true := by
  decide
/-- K8. -/
theorem test_clkDivenOn :
    after .clkDivenOn (atStep 7 0x078E3D51 0x81C04800) (fun t =>
      t.clkLegacy == 0x07CE3D51 && sysclkHz t == some 4000000) = true := by decide
/-- R160, its example: 0, 0, 1 and the step is done after the third read. -/
theorem test_clkWaitLock :
    after .clkWaitLock { atStep 8 0x07CE3D51 0x81C04800 with schedule := [[], [], [.pllLock], []] } (fun t =>
      t.clkStep == 9 && t.clkStage == .pllLocked && t.trace.length == 3 && t.pending == []) = true := by decide
/-- K15. -/
theorem test_clkWaitLock_never :
    after .clkWaitLock (atStep 8 0x07CE3D51 0x81C04800) (fun t => t.clkStep == 8 && t.pending == [.clkWait]) = true := by
  decide
/-- K10. -/
theorem test_clkBypassOff :
    after .clkBypassOff { atStep 9 0x07CE3D51 0x81C04800 with pllLocked := true, risPllLock := true } (fun t =>
      t.clkAlt == 0x81C04000 && t.clkStage == .dividerActive && sysclkHz t == some 50000000) = true := by decide
/-- K14. -/
theorem test_clkBypassOff_early : refuses .clkBypassOff zero .configurationOrderingViolation = true := by decide
/-- K11. -/
theorem test_isPllLocked : after .isPllLocked zero (fun t => t.result == some 0) = true := by decide
/-- K12. -/
theorem test_isPllLocked_locked :
    after .isPllLocked { atStep 6 0x078E3D51 0x87C04800 with schedule := [[.pllLock]] }
      (fun t => t.result == some 1) = true := by decide
/-- K16: a changed crystal code clears `pll_locked`, not the status bit, and the clock has no frequency. -/
theorem test_unlock_by_xtal :
    after (.modify 0x400FE060 0x580 0x7C0) up (fun t => !t.pllLocked && t.risPllLock && sysclkHz t == none) = true := by
  decide

/-! GpioPort. -/

/-- G1. -/
theorem test_enablePort :
    after (.enablePort 3) { zero with gateGpio := 1 } (fun t => t.gateGpio == 9) = true := by decide
/-- G3. -/
theorem test_enablePort_6 : faults (.enablePort 6) zero none none = true := by decide
/-- G6: the protected pin 7 is untouched. -/
theorem test_configurePins_locked :
    after (.configurePins 3 0xC0 0x11000000 true false) base (fun t => t.ports[3]? == some
      { data := 0, dir := 0, afsel := 0x40, den := 0x40, cr := 0x7F, pctl := 0x01000000, unlocked := false, unlockRan := false }) = true := by
  decide +kernel
/-- G5: old nibbles are replaced, other pins keep theirs. -/
theorem test_configurePins_nibbles :
    after (.configurePins 0 0x03 0x11 true false)
      (withPort 0 fun pt => { pt with afsel := 0xA0, pctl := 0x705000EE, den := 0xA4 })
      (fun t => t.ports[0]? == some
        { data := 0, dir := 0, afsel := 0xA3, den := 0xA7, cr := 0xFF, pctl := 0x70500011, unlocked := false, unlockRan := false }) = true := by
  decide +kernel
/-- R43: the view records the unlock that `CONFIGURE_PINS` ran; a raw write of the key to `LOCK` unlocks only. -/
theorem test_unlock_view :
    (after (.configurePins 3 0x80 0x10000000 true true) base (fun t => (t.ports[3]?.map (·.unlocked)) == some true &&
        ((pinGroupConfig t 3).map (·.commitUnlockPerformed)) == some true) &&
      after (.write 0x40007520 0x4C4F434B) base (fun t => (t.ports[3]?.map (·.unlocked)) == some true &&
        ((pinGroupConfig t 3).map (·.commitUnlockPerformed)) == some false)) = true := by decide +kernel
/-- R229: the pins of `up` carry channel 3, whether the gate is open or closed, and no other pin carries one. -/
theorem test_pinChannels :
    pinChannels up 2 6 = [3] ∧ pinChannels { up with gateGpio := 0 } 2 6 = [3] ∧ pinChannels up 2 5 = [] := by
  decide +kernel
/-- G11. -/
theorem test_drivePins :
    after (.drivePins 5 0xFF) (withPort 5 fun pt => { pt with data := 0x11 })
      (fun t => (t.ports[5]?.map (·.data)) == some 0x1F) = true := by decide
theorem test_drivePins_4 :
    after (.drivePins 5 0x04) (withPort 5 fun pt => { pt with data := 0x1F })
      (fun t => (t.ports[5]?.map (·.data)) == some 0x15) = true := by decide

/-! UartChannel. -/

/-- U2. -/
theorem test_uartConfigure :
    after (.uartConfigure 2 3 0xC0 1 27 8 8 1 false true) zero (fun t =>
      pinRouted t 2 && (t.ports[3]?.map (·.unlocked)) == some true &&
        t.channels[2]? == some { Channel.reset with
          ctl := 1, ibrd := 27, fbrd := 8, lcrh := 0x70, baudLatch := some (27, 8) }) = true := by decide +kernel
/-- U7. -/
theorem test_uartConfigure_profile :
    refuses (.uartConfigure 0 0 0x03 1 27 8 7 1 false true) base .unsupportedProfile = true := by decide
/-- R52, R243: refused at its line-control write, and the refusal carries no state; so is `MODIFY` of `LCRH`. -/
theorem test_fifo_shrink :
    (refuses (.uartConfigure 3 2 0xC0 1 27 8 8 1 false false) (queued [1, 2] []) (.fifoShrink 3) &&
      refuses (.modify 0x4000F02C 0 0x10) (queued [] [1, 2]) (.fifoShrink 3)) = true := by decide +kernel
/-- U4, the 17th byte: the wait ends when the transmitter has stepped, and the byte is queued last. -/
theorem test_transmitByte_waits :
    after (.transmitByte 3 0x99) { queued (List.replicate 16 0x11) [] with schedule := [[], [.transmit 3]] } (fun t =>
      (t.channels[3]?.map (·.txq)) == some (List.replicate 15 0x11 ++ [0x99]) && t.trace.length == 3) = true := by
  decide +kernel
/-- U9. -/
theorem test_transmitByte_unclocked : faults (.transmitByte 0 0x41) zero none (some 0x4000C018) = true := by decide
/-- U5. -/
theorem test_receiveAvailable :
    after (.receiveAvailable 3) (queued [] [0x41, 0x42]) (fun t => t.result == some 1) = true := by decide
theorem test_receiveAvailable_empty :
    after (.receiveAvailable 3) (queued [] []) (fun t => t.result == some 0) = true := by decide
theorem test_receiveByte :
    after (.receiveByte 3) (queued [] [0x41, 0x42]) (fun t =>
      t.result == some 0x41 && (t.channels[3]?.map (·.rxq)) == some [0x42]) = true := by decide
/-- U6. -/
theorem test_isTxFifoFull :
    after (.isTxFifoFull 0) (withChan 0 fun ch => { ch with txq := [0x55] }) (fun t => t.result == some 1) = true := by
  decide
theorem test_isTxFifoFull_room :
    after (.isTxFifoFull 3) (queued [0x55] []) (fun t => t.result == some 0) = true := by decide

/-! SerialEchoService. -/

/-- P3, phase 1: the first step ends in CLOCK_READY. -/
theorem test_runEchoService :
    after .runEchoService { zero with schedule := List.replicate 17 [] ++ [[.pllLock]] } (fun t =>
      t.svcStage == .clockReady && sysclkHz t == some 50000000) = true := by decide +kernel
/-- R205: the service runs once. -/
theorem test_runEchoService_twice : refuses .runEchoService up .configurationOrderingViolation = true := by decide
/-- R211: three idle steps, one agent step in each. -/
theorem test_delay :
    after (.delay 3) { queued [1, 2, 3, 4] [] with schedule := List.replicate 5 [.transmit 3] } (fun t =>
      (t.channels[3]?.map (·.txq)) == some [4] && t.schedule.length == 2 && t.trace == []) = true := by decide +kernel
/-- R210: `LED_PULSE_SPINS` idle steps. -/
theorem test_ledPulse :
    after (.ledPulse 2) { queued [1, 2] [] with schedule := List.replicate 5 [.transmit 3] } (fun t =>
      (t.channels[3]?.map (·.txq)) == some [2] && t.schedule.length == 4) = true := by decide +kernel

/-! Agents and arithmetic. -/

/-- H1. -/
theorem test_transmit_step :
    ((agentStep (queued [0x41] []) (.transmit 3)).channels[3]?.map (·.wireTx)) =
      some [{ byte := 0x41, fmt := some sourceFormat, routed := true }] := by decide +kernel
/-- H4, H5. -/
theorem test_line_lost :
    agentStep (queued [] (List.replicate 16 0x11)) (.line 3 0x99) = queued [] (List.replicate 16 0x11) ∧
      agentStep base (.line 3 0x41) = base := by decide +kernel
/-- B1, B6, B12, B13, B14, B15. -/
theorem test_baud :
    [baudDivisors 50000000 115200, baudDivisors 4000000 115200, baudDivisors 50000000 100807, baudDivisors 128100 800,
        baudDivisors 50000000 4000000, baudDivisors 1 0] =
      [some (27, 8), some (2, 11), some (31, 0), some (10, 1), some (0, 50), none] := by decide

/-! Witnesses: for every statement with hypotheses, a state and operands that meet them all, for each clause and at the
boundary values of a port (5), a channel (7) and a word. Statements that are only conjunctions of decodings have none. -/

/-- The test configuration is well formed; so is that of every state made from `zero`. -/
theorem cfg_wf : configWf cfg = true := by decide +kernel

/-- An outcome is a next state. -/
def isNext (o : Host.Outcome State Fault Refusal) : Bool :=
  match o with
  | .next _ => true
  | _ => false

theorem exists_next {o : Host.Outcome State Fault Refusal} (h : isNext o = true) : ∃ t, o = .next t := by
  cases o <;> simp_all [isNext]

/-- The state after `n` steps, where they all are next states. -/
def stepped (n : Nat) (s : State) : Option State :=
  match Sys2Proof.core.run n s with
  | .next t => some t
  | _ => none

theorem exists_runsTo {n : Nat} {s : State} (h : (stepped n s).isSome = true) : ∃ t, runsTo n s t := by
  simp only [stepped] at h
  split at h
  · exact ⟨_, ‹_›⟩
  · cases h

/-- Every clause of the invariant that `decide` can look at. -/
def invB (s : State) : Bool :=
  s.ports.length == nPorts s.config && s.channels.length == nChannels s.config &&
    decide (s.clkStep ≤ 10) && s.clkStage == stageOfStep s.clkStep && s.channels.all (fifosFit s.config) &&
    (!s.pllLocked || (s.risPllLock && !effPwrdn s)) && (decide (s.clkStep < 9) || s.risPllLock) &&
    s.pending.all microOk && stagesForward (svcIndex s.svcStage) s.pending

theorem inv_of_invB {s : State} (hc : s.config = cfg) (h : invB s = true) : s.Inv := by
  simp only [invB, Bool.and_eq_true, Bool.or_eq_true, beq_iff_eq, decide_eq_true_eq, Bool.not_eq_true',
    List.all_eq_true] at h
  obtain ⟨⟨⟨⟨⟨⟨⟨⟨h2, h3⟩, h4⟩, h5⟩, h6⟩, h7⟩, h8⟩, h9⟩, h10⟩ := h
  exact
    { config := hc ▸ cfg_wf, ports := h2, channels := h3, clkStep := h4, clkStage := h5, fifos := h6
      lockSeen := fun hl => by simp_all
      lockPowered := fun hl => by simp_all
      gated := fun hg => by rcases h8 with h | h <;> [omega; exact h]
      micros := List.all_eq_true.mpr h9, forward := h10 }

/-- `zero` is as R60 to R63 say. -/
theorem zero_atReset : zero.AtReset := by
  refine ⟨rfl, rfl, rfl, by refine ⟨?_, ?_, ?_, ?_, ?_, ?_, ?_, ?_, ?_, ?_⟩ <;> decide, rfl, rfl, by decide, ?_, by decide,
    ?_, rfl, rfl⟩
  · intro p pt h
    have hp : p < 6 := by
      have := (List.getElem?_eq_some_iff.mp h).1
      simpa [zero, State.resetOf, cfg, configRef, nPorts, layoutRef] using this
    revert h
    revert pt
    interval_cases p <;> (intro pt h; injection h with h; subst h; constructor <;> decide)
  · intro ch h
    have : ch = Channel.reset := by
      simp only [zero, State.resetOf, List.mem_map] at h
      obtain ⟨_, _, rfl⟩ := h
      rfl
    subst this
    refine ⟨rfl, rfl, rfl, rfl, ?_, ?_, ?_⟩ <;> decide

/-- Reset with a schedule: with the lock in the last entry that counts, one entry too early, and never. -/
def locksAt (k : Nat) : State := { zero with schedule := List.replicate k [] ++ [[.pllLock]] }

theorem locksAt_atReset (k : Nat) : (locksAt k).AtReset := zero_atReset

/-- The lock comes: in the first entry after `CLK_PLL_ON`. -/
theorem lock_comes : lockComes (locksAt 12) := ⟨12, [.pllLock], le_rfl, rfl, List.mem_singleton_self _⟩

/-- The lock does not come: its one event stands in the entry before that. -/
theorem lock_comes_not : ¬ lockComes (locksAt 11) := by
  rintro ⟨k, evs, hk, h, -⟩
  have := (List.getElem?_eq_some_iff.mp h).1
  simp [locksAt] at this
  omega

/-- At `clk_step` 0, after raw accesses: an open gate and a status bit left set over a PLL that is off again (R28, R31). -/
def touched : State := { zero with gateUart := 0xFF, risPllLock := true }

theorem touched_not_atReset : ¬ touched.AtReset := fun h => absurd h.2.2.2.1.2.1 (by decide)

/-- Every clause of `ClockUp`, for `decide` to look at. -/
def clockUpB (s : State) : Bool :=
  s.clkStep == 10 && s.clkStage == .dividerActive && fieldFlag s.config.layout.altsel s.clkAlt &&
    !fieldFlag s.config.layout.bypass s.clkAlt && fieldGet s.config.layout.oscsrc s.clkAlt == oscsrcExternal &&
    !fieldFlag s.config.layout.pwrdn s.clkAlt && fieldGet s.config.layout.sysdiv s.clkAlt == sysdivCode sysDivisor &&
    fieldFlag s.config.layout.diven s.clkLegacy && fieldGet s.config.layout.xtal s.clkLegacy == s.config.xtalCode16MHz &&
    s.risPllLock && s.pllLocked && sysclkHz s == some 50000000

theorem clockUp_of {s : State} (h : clockUpB s = true) : ClockUp s := by
  simp only [clockUpB, Bool.and_eq_true, beq_iff_eq, Bool.not_eq_true'] at h
  obtain ⟨⟨⟨⟨⟨⟨⟨⟨⟨⟨⟨h1, h2⟩, h3⟩, h4⟩, h5⟩, h6⟩, h7⟩, h8⟩, h9⟩, h10⟩, h11⟩, h12⟩ := h
  exact ⟨⟨h1, h2, h3, h4, h5, h6, h7, h8, h9, h10⟩, h11, h12⟩

theorem up_clock : ClockUp up := clockUp_of (by decide)

theorem up_channel : ChannelUp up 3 27 8 true := ⟨by decide, _, rfl, by decide⟩

/-! Encoding and the step. -/

theorem witness_DecodeReadsBackEveryEncoding :
    (Instr.uartConfigure 15 15 0xFF 15 0xFFFF 63 5 2 true false).wellFormed = true ∧ (Instr.read 0xFFFFFFFF).wellFormed = true := by
  decide
theorem witness_EveryDecodedCommandIsItsEncoding :
    decode [0x191C0230, 0x0308001B, 7] = .ok (.uartConfigure 2 3 0xC0 1 27 8 8 1 false true, [7]) := by decide

/-- Each way to be illegal (E21 to E23 and a reserved bit of `w1`), in a state that runs it. -/
theorem witness_IllegalCommandsAreRefused :
    (illegalCommand 0x00000005 [] ∧ illegalCommand 0x00000110 [] ∧ illegalCommand 0x04000321 [0] ∧
      illegalCommand 0x19103030 [0x0048001B]) ∧
    ({ zero with program := [5] }.pending = [] ∧ { zero with program := [5] }.program = 5 :: []) ∧
    ¬ illegalCommand 0x19103030 [0x0008001B] ∧ commandLength (bits 0x19103030 7 0) ≤ [0x0008001B#32].length + 1 := by
  refine ⟨⟨?_, ?_, ?_, ?_⟩, ⟨rfl, rfl⟩, ?_, by decide⟩
  · exact trivial
  · exact .inl (by decide)
  · exact .inl (by decide)
  · exact .inr ⟨by decide, _, rfl, by decide⟩
  · rintro (h | ⟨-, w1, h, h'⟩)
    · exact absurd h (by decide)
    · injection h with h
      subst h
      exact absurd h' (by decide)

theorem witness_StepRunsTheDecodedCommand :
    (zero.pending = [] ∧ decode zero.program = .ok (.runEchoService, [])) ∧
    ({ zero with program := [5] }.pending = [] ∧ decode [5] = .error (.unassignedOpcode 5)) ∧
    ({ zero with program := [] }.pending = [] ∧ { zero with program := [] }.program = []) ∧
    { zero with pending := [.echo] }.pending ≠ [] := by decide

theorem witness_EveryStepKeepsTheInvariant : zero.Inv ∧ ∃ t, step zero = .next t :=
  ⟨inv_of_invB rfl (by decide), exists_next (by decide +kernel)⟩
theorem witness_ResetSatisfiesTheInvariant : configWf cfg = true := cfg_wf
theorem witness_ResetIsAsTheSpecSays : configWf cfg = true := cfg_wf
theorem witness_EveryStepMovesForward :
    { queued [1] [2] with program := [0x333] }.Inv ∧ ∃ t, step { queued [1] [2] with program := [0x333] } = .next t :=
  ⟨inv_of_invB rfl (by decide +kernel), exists_next (by decide +kernel)⟩

/-- A step that writes one register: the others, and every latch, meet the hypothesis. -/
theorem witness_RegistersChangeOnlyByBusWrites :
    (∃ t, step { base with program := [2, 0x40025400, 0xFF] } = .next t) ∧
    (Reg.gpio 5 .data ∈ allRegs cfg.layout ∧
      noWriteTo (addrOf cfg.layout (.gpio 5 .data)) (writeTrace 0x40025400 0xFF) = true) ∧
    7 < nChannels cfg ∧ noWriteTo (addrOf cfg.layout (.uart 7 .lcrh)) (writeTrace 0x40025400 0xFF) = true :=
  ⟨exists_next (by decide +kernel), by decide +kernel⟩

theorem witness_NothingMovesAtReset : configWf zero.config = true ∧ zero.AtReset := ⟨cfg_wf, zero_atReset⟩

/-! The bus. -/

theorem witness_InvalidAccessesFault :
    locate zero.config.layout 0x400FE062 = none ∧ locate zero.config.layout 0x400FE050 = some .ris ∧
    locate base.config.layout 0x40013018 = some (.uart 7 .fr) ∧ clocked base (.uart 7 .fr) = true ∧
    clocked zero .ris = true ∧ base.channels.length = nChannels base.config := by decide +kernel
theorem witness_UnclockedAccessesFault :
    configWf zero.config = true ∧ ∀ r ∈ [Reg.gpio 5 .afsel, .uart 7 .dr, .uart 0 .fr],
      r ∈ allRegs zero.config.layout ∧ clocked zero r = false := ⟨cfg_wf, by decide +kernel⟩
theorem witness_UnclockedAccessesFault_writable :
    writable (.uart 7 .dr) = true ∧ writable (.uart 0 .fr) = false := by decide
theorem witness_ReadReturnsTheStoredWord :
    configWf base.config = true ∧ ∀ r ∈ [Reg.legacy, .gpio 5 .lock, .uart 7 .lcrh],
      r ∈ allRegs base.config.layout ∧ clocked base r = true ∧ (plainWord base r).isSome = true := ⟨cfg_wf, by decide +kernel⟩
theorem witness_ReadOfStatusRegistersReturnsTheFlags :
    configWf base.config = true ∧ 7 < nChannels base.config ∧ chanClocked base 7 = true ∧
    (tick base).channels[7]? = some Channel.reset := ⟨cfg_wf, by decide +kernel⟩
/-- With a byte received, and with none. -/
theorem witness_ReadOfDataRegisterPopsTheOldestByte :
    configWf up.config = true ∧ 3 < nChannels up.config ∧ chanClocked (queued [] [1]) 3 = true ∧
    ((tick (queued [] [1])).channels[3]?.map (·.rxq)) = some [1] ∧ ((tick base).channels[7]?.map (·.rxq)) = some [] := ⟨cfg_wf, by decide +kernel⟩
theorem witness_WriteOfClockControlMayUnlockThePll : configWf zero.config = true := cfg_wf
theorem witness_PlainWritesStoreTheWord :
    configWf base.config = true ∧ (5 < nPorts base.config ∧ portClocked base 5 = true ∧ base.ports[5]?.isSome = true) ∧
    7 < nChannels base.config ∧ chanClocked base 7 = true ∧ base.channels[7]?.isSome = true := ⟨cfg_wf, by decide +kernel⟩
/-- Port 5 has a pin that is committed and one that is not. -/
theorem witness_CommitFilterKeepsUncommittedPins :
    configWf base.config = true ∧ 5 < nPorts base.config ∧ portClocked base 5 = true ∧
    (base.ports[5]?.map (·.cr)) = some 0xFE := ⟨cfg_wf, by decide +kernel⟩
/-- A locked and an unlocked port. -/
theorem witness_LockRegisterGuardsCommit :
    configWf base.config = true ∧ 5 < nPorts base.config ∧ portClocked base 5 = true ∧
    (base.ports[5]?.map (·.unlocked)) = some false ∧
    ((withPort 5 fun pt => { pt with unlocked := true }).ports[5]?.map (·.unlocked)) = some true := ⟨cfg_wf, by decide +kernel⟩
/-- Two bytes queued: 0x60 switches the FIFOs off below them, 0x70 does not. -/
theorem witness_LineControlWriteLatchesTheDivisors :
    configWf up.config = true ∧ 3 < nChannels up.config ∧ chanClocked (queued [1, 2] []) 3 = true ∧
    ∃ ch, (tick (queued [1, 2] [])).channels[3]? = some ch ∧ lowersBelow cfg ch 0x60 ∧ ¬ lowersBelow cfg ch 0x70 :=
  ⟨cfg_wf, by decide, by decide, _, rfl, ⟨by decide, .inl (by decide)⟩, fun h => absurd h.1 (by decide)⟩
/-- A FIFO with room for one byte, and a full one. -/
theorem witness_WriteOfDataRegisterPushesOneByte :
    configWf up.config = true ∧ 3 < nChannels up.config ∧
    ∀ k ∈ [15, 16], chanClocked (queued (List.replicate k 0) []) 3 = true ∧
      ((tick (queued (List.replicate k 0) [])).channels[3]?.map (·.txq.length)) = some k := ⟨cfg_wf, by decide +kernel⟩
/-- A register whose read completes, and one whose read faults. -/
theorem witness_ModifyIsReadThenWrite :
    base.pending = [] ∧ (∃ t, exec (.read 0x400FE070) base = .next t ∧ t.result = some 0x07C06810) ∧
    ∃ f, exec (.read 0x40000000) base = .fault f := by
  exact ⟨rfl, ⟨_, rfl, by decide⟩, _, rfl⟩
theorem witness_ModifyChangesOnlyMaskedBits :
    configWf base.config = true ∧ (∀ r ∈ [Reg.alt, .gpio 5 .pctl, .gpio 5 .lock, .uart 7 .lcrh],
      r ∈ allRegs base.config.layout ∧ writable r = true ∧ clocked base r = true ∧ (plainWord base r).isSome = true) :=
  ⟨cfg_wf, by decide +kernel⟩
/-- Bits that a register takes and bits it keeps, at the boundary: pin 0 of port 5 is not committed, pin 1 is. -/
theorem witness_ModifyChangesOnlyMaskedBits_bits :
    [takesBit base (.gpio 5 .afsel) 0, takesBit base (.gpio 5 .den) 1, takesBit base (.gpio 5 .pctl) 3,
        takesBit base (.gpio 5 .pctl) 4, takesBit base (.gpio 5 .cr) 0,
        takesBit (withPort 5 fun pt => { pt with unlocked := true }) (.gpio 5 .cr) 0, takesBit base .legacy 31] =
      [false, true, false, true, false, true, true] := by decide
/-- `MODIFY` of `LOCK` can write the key, and with empty masks does not. -/
theorem witness_ModifyChangesOnlyMaskedBits_lock :
    plainWord base (.gpio 5 .lock) = some 1 ∧ clearThenSet 1 cfg.unlockKey 0xFFFFFFFF = cfg.unlockKey ∧
    clearThenSet 1 0 0 ≠ cfg.unlockKey := by decide
/-- Over two queued bytes, a word of `LCRH` that lowers the capacity and one that does not. -/
theorem witness_ModifyChangesOnlyMaskedBits_lcrh :
    plainWord (queued [] [1, 2]) (.uart 3 .lcrh) = some 0x70 ∧
    ∃ ch, (idle 2 (queued [] [1, 2])).channels[3]? = some ch ∧ lowersBelow cfg ch (clearThenSet 0x70 0 0x10) ∧
      ¬ lowersBelow cfg ch (clearThenSet 0x70 0 0x20) :=
  ⟨by decide, _, rfl, ⟨by decide, .inr (by decide)⟩, fun h => absurd h.1 (by decide)⟩

/-! The clock. -/

theorem witness_AlternateClockMicroSteps :
    ∀ k ∈ [0, 1, 4, 5, 6, 9], configWf (atStep k 0 0).config = true ∧
      (atStep k 0 0).clkStage = stageOfStep (atStep k 0 0).clkStep ∧ (atStep k 0 0).clkStep = k :=
  fun _ _ => ⟨cfg_wf, rfl, rfl⟩
theorem witness_LegacyClockMicroSteps :
    ∀ k ∈ [2, 3, 7], configWf (atStep k 0 0).config = true ∧
      (atStep k 0 0).clkStage = stageOfStep (atStep k 0 0).clkStep ∧ (atStep k 0 0).clkStep = k :=
  fun _ _ => ⟨cfg_wf, rfl, rfl⟩
/-- The first read sees the bit with no schedule left, and the second read sees it. -/
theorem witness_WaitLockEndsWithTheFirstLockedRead :
    (let s := { atStep 8 0x07CE3D51 0x81C04800 with risPllLock := true }
     configWf s.config = true ∧ s.clkStep = 8 ∧ 0 ≤ s.schedule.length ∧ (∀ j, j < 0 → (idle (j + 1) s).risPllLock = false) ∧
      (idle 1 s).risPllLock = true) ∧
    (let s := { atStep 8 0x07CE3D51 0x81C04800 with schedule := [[], [.pllLock]] }
     configWf s.config = true ∧ s.clkStep = 8 ∧ 1 ≤ s.schedule.length ∧ (∀ j, j < 1 → (idle (j + 1) s).risPllLock = false) ∧
      (idle 2 s).risPllLock = true) := ⟨⟨cfg_wf, by decide⟩, cfg_wf, by decide⟩
theorem witness_BusyWaitsNeverGiveUp :
    (let s := { atStep 8 0x07CE3D51 0x81C04800 with pending := [.clkWait, bypassOffStep cfg] }
     configWf s.config = true ∧ s.quiet ∧ s.clkStep = 8 ∧ s.risPllLock = false ∧
      s.pending = .clkWait :: [bypassOffStep cfg]) ∧
    (let s := { queued (List.replicate 16 0) [] with pending := transmitSteps cfg 3 9 }
     configWf s.config = true ∧ s.quiet ∧ 3 < nChannels s.config ∧ chanClocked s 3 = true ∧
      (s.channels[3]?.map (txFull s.config)) = some true ∧ s.pending = .txWait 3 :: [.write (chanAddr cfg 3 .dr) 9]) := by
  refine ⟨⟨cfg_wf, rfl, rfl, rfl, rfl⟩, cfg_wf, rfl, by decide, by decide, by decide, by decide⟩
theorem witness_OutOfOrderClockOperationsAreRefused :
    (Instr.clkSelAlt, 0) ∈ [(Instr.clkSelAlt, 0)] ∧ up.clkStep ≠ 0 ∧ ¬ (up.svcStage = .booting ∧ up.clkStep = 0) := by decide
/-- From reset: the lock comes in the first entry that counts, or does not. After raw accesses: the status bit is set
already over a PLL that is off, or the lock comes. -/
theorem witness_BringUpClockReaches50MHz :
    ((locksAt 12).clkStep = 0 ∧ (locksAt 12).AtReset ∧ lockComes (locksAt 12)) ∧
    ((locksAt 11).AtReset ∧ ¬ lockComes (locksAt 11)) ∧
    (configWf touched.config = true ∧ touched.clkStep = 0 ∧ waitEnds touched ∧ touched.pllLocked = false ∧
      ¬ touched.AtReset) ∧
    (let s := { locksAt 12 with clkLegacy := 0, gateUart := 0xFF }; s.clkStep = 0 ∧ waitEnds s ∧ s.risPllLock = false) :=
  ⟨⟨rfl, locksAt_atReset 12, lock_comes⟩, ⟨locksAt_atReset 11, lock_comes_not⟩,
    ⟨cfg_wf, rfl, .inl rfl, rfl, touched_not_atReset⟩, rfl, .inr ⟨rfl, lock_comes⟩, rfl⟩
theorem witness_IsPllLockedAnswersTheStatusBit : configWf zero.config = true := cfg_wf

/-! Ports. -/

theorem witness_EnablePortOpensOneGate :
    configWf zero.config = true ∧ zero.config.layout.gatePort[5]? = some (bitAt 5) := ⟨cfg_wf, by decide⟩
theorem witness_ConfigurePinsTouchesOnlyItsPins :
    configWf base.config = true ∧ 5 < nPorts base.config ∧ portClocked base 5 = true ∧ base.ports[5]?.isSome = true ∧
    base.schedule = [] := ⟨cfg_wf, by decide +kernel⟩
/-- Pin 3 of port 5 is under the mask and a digital output. -/
theorem witness_DrivePinsWritesUnderTheMask :
    let s := withPort 5 fun pt => { pt with dir := 8, den := 8 }
    configWf s.config = true ∧ 5 < nPorts s.config ∧ portClocked s 5 = true ∧
    (∃ pt, s.ports[5]? = some pt ∧ pt.afsel.getLsbD 3 = false ∧ pt.den.getLsbD 3 = true ∧ pt.dir.getLsbD 3 = true) ∧
    (s.config.driveMask.getD 5 0).getLsbD 3 = true :=
  ⟨cfg_wf, by decide, by decide, ⟨_, rfl, by decide⟩, by decide⟩
theorem witness_OutOfRangeOperandsFault : nPorts zero.config ≤ 6 ∧ nChannels zero.config ≤ 8 := by decide
theorem witness_OperationsOnClosedGatesFault :
    configWf zero.config = true ∧ (5 < nPorts zero.config ∧ portClocked zero 5 = false) ∧
    7 < nChannels zero.config ∧ chanClocked zero 7 = false := ⟨cfg_wf, by decide⟩

/-! Channels. -/

/-- From reset with closed gates; then the ways to meet the FIFO hypothesis: the FIFO is off, or one byte is queued and one
comes by the line before the FIFOs are switched off; and with two bytes queued the switch is refused. -/
theorem witness_UartConfigureBringsTheChannelUp :
    (configWf zero.config = true ∧ zero.ports[5]?.isSome = true ∧ zero.channels[7]? = some Channel.reset ∧
      zero.config.layout.gatePort[5]? = some (bitAt 5) ∧ zero.config.layout.gateChan[7]? = some (bitAt 7)) ∧
    fieldFlag cfg.layout.fen Channel.reset.lcrh = false ∧
    (let s := { queued [1] [] with schedule := [[.line 3 9]] }
     ∃ ch, s.channels[3]? = some ch ∧ ch.txq.length ≤ 1 ∧ ch.rxq.length + (lineBytes 3 s.schedule).length ≤ 1 ∧
      isNext (exec (.uartConfigure 3 2 0xC0 1 27 8 8 1 false false) s) = true) ∧
    (queued [1, 2] []).quiet ∧
    ∃ ch, (queued [1, 2] []).channels[3]? = some ch ∧ lowersBelow cfg ch (lcrhWord cfg.layout 8 false) :=
  ⟨⟨cfg_wf, by decide +kernel⟩, by decide, ⟨_, rfl, by decide, by decide, by decide +kernel⟩, rfl, _, rfl, by decide,
    .inl (by decide)⟩
/-- The binding of channel 2 is the reference routing, with the unlock. -/
theorem witness_UartConfigure_routed :
    zero.config.pinmux[2]? = some { port := 3, pins := 0xC0, fcode := 1 } ∧
    (0xC0#8 &&& zero.config.protectedPins.getD 3 0) ≠ 0#8 := by decide
theorem witness_DivisorsPrecedeLineControl :
    configWf zero.config = true ∧ ∃ t, exec (.uartConfigure 2 3 0xC0 1 27 8 8 1 false true) zero = .next t :=
  ⟨cfg_wf, exists_next (by decide +kernel)⟩
theorem witness_UnsupportedProfilesAreRefused :
    (exec (.uartConfigure 0 0 3 1 27 8 7 1 false true) zero = .refused .unsupportedProfile) ∧ (7 ≠ 8 ∨ 1 ≠ 1 ∨ false = true) :=
  ⟨rfl, .inl (by decide)⟩
theorem witness_TransmitByteQueuesTheByte :
    let s := queued (List.replicate 15 0) []
    configWf s.config = true ∧ 3 < nChannels s.config ∧ chanClocked s 3 = true ∧
    ∃ ch, (tick s).channels[3]? = some ch ∧ ch.txq.length < fifoCap s.config ch :=
  ⟨cfg_wf, by decide, by decide, _, rfl, by decide⟩
/-- One that completes and one that goes on waiting. -/
theorem witness_TransmitByteNeverWritesWhileFull :
    ∀ k ∈ [15, 16], let s := queued (List.replicate k 0) []
      configWf s.config = true ∧ (∀ ch ∈ s.channels, fifosFit s.config ch = true) ∧
      isNext (exec (.transmitByte 3 1) s) = true := by
  intro k hk
  refine ⟨cfg_wf, ?_⟩
  revert k
  decide +kernel
theorem witness_FlagPredicatesAnswerTheFlags :
    configWf base.config = true ∧ 7 < nChannels base.config ∧ chanClocked base 7 = true ∧
    (tick base).channels[7]? = some Channel.reset := ⟨cfg_wf, by decide +kernel⟩
theorem witness_ReceiveBytePopsTheOldestByte :
    configWf up.config = true ∧ 3 < nChannels up.config ∧ chanClocked (queued [] [1]) 3 = true ∧
    ((tick (queued [] [1])).channels[3]?.map (·.rxq)) = some [1] ∧ ((tick base).channels[7]?.map (·.rxq)) = some [] := ⟨cfg_wf, by decide +kernel⟩
theorem witness_BaudDivisorsAreTheNearest : baudDivisors 50000000 115200 = some (27, 8) ∧ 0 < 115200 := by decide
theorem witness_ConfiguredChannelSendsInTheSourceFormat :
    ClockUp up ∧ ChannelUp up 3 27 8 true ∧ up.channels[3]?.isSome = true := ⟨up_clock, up_channel, by decide⟩

/-! Agents. -/

theorem witness_PllLocksOnlyWhilePowered :
    (let s := atStep 6 0x078E3D51 0x87C04800; effPwrdn s = false ∧ s.pllLocked = false) ∧
    ¬ (effPwrdn zero = false ∧ zero.pllLocked = false) := by decide
theorem witness_TransmitterSendsTheOldestByte :
    (let s := queued [1, 2] []
     chanClocked s 3 = true ∧ ∃ ch, s.channels[3]? = some ch ∧ fieldFlag s.config.layout.en ch.ctl = true ∧ ch.txq = 1 :: [2]) ∧
    up.channels[3]?.isSome = true ∧ ¬ (chanClocked zero 0 = true) :=
  ⟨⟨by decide, _, rfl, by decide, rfl⟩, by decide, by decide⟩
/-- A channel that takes the byte (15 received), and the same with a full FIFO. -/
theorem witness_LineByteIsQueuedOrLost :
    (let s := queued [] (List.replicate 15 0)
     chanClocked s 3 = true ∧ pinRouted s 3 = true ∧ ∃ ch, s.channels[3]? = some ch ∧
      fieldFlag s.config.layout.en ch.ctl = true ∧ channelFormat s ch ≠ none ∧ ch.rxq.length < fifoCap s.config ch) ∧
    (let s := queued [] (List.replicate 16 0)
     ∃ ch, s.channels[3]? = some ch ∧ ¬ ch.rxq.length < fifoCap s.config ch) :=
  ⟨⟨by decide, by decide +kernel, _, rfl, by decide +kernel⟩, _, rfl, by decide⟩
theorem witness_ChannelsAreIndependent :
    (0 : Nat) ≠ 7 ∧ (AgentEvent.transmit 0 = .transmit 0 ∨ ∃ b, AgentEvent.transmit 0 = .line 0 b) ∧
    (AgentEvent.line 7 1 = .transmit 7 ∨ ∃ b, AgentEvent.line 7 1 = .line 7 b) :=
  ⟨by decide, .inl rfl, .inr ⟨1, rfl⟩⟩

/-! The service. -/

theorem witness_ServiceBringsTheClockUpFirst :
    ((locksAt 12).svcStage = .booting ∧ (locksAt 12).AtReset ∧ lockComes (locksAt 12)) ∧
    ((locksAt 11).AtReset ∧ ¬ lockComes (locksAt 11)) ∧
    (configWf touched.config = true ∧ touched.svcStage = .booting ∧ touched.clkStep = 0 ∧ waitEnds touched ∧
      ¬ touched.AtReset) ∧
    after .runEchoService touched (fun t => t.svcStage == .clockReady && !t.pllLocked) = true :=
  ⟨⟨rfl, locksAt_atReset 12, lock_comes⟩, ⟨locksAt_atReset 11, lock_comes_not⟩,
    ⟨cfg_wf, rfl, rfl, .inl rfl, touched_not_atReset⟩, by decide +kernel⟩

/-- CLOCK_READY, with the channels to be configured. -/
def clockReady : State :=
  clockUp { zero with svcStage := .clockReady, pending := channelsSteps cfg ++ greetingSteps cfg }

theorem witness_ServiceConfiguresBothChannels :
    clockReady.Inv ∧ bindingsOk clockReady.config = true ∧ ClockUp clockReady ∧
    clockReady.pending = channelsSteps clockReady.config ++ greetingSteps clockReady.config :=
  ⟨inv_of_invB rfl (by decide +kernel), by decide, clockUp_of (by decide), rfl⟩

/-- CHANNELS_READY, with the greeting to be sent. -/
def greeter : State := { up with svcStage := .channelsReady, pending := greetingSteps cfg }

theorem greeter_inv : greeter.Inv := inv_of_invB rfl (by decide +kernel)

theorem witness_GreetingIsSentExactlyOnce :
    greeter.Inv ∧ greeter.config.chA < nChannels greeter.config ∧ greeter.pending = greetingSteps greeter.config ∧ lineBytes greeter.config.chA greeter.schedule = [] ∧
    received greeter greeter.config.chA = [] ∧ ∃ t, runsTo 5 greeter t :=
  ⟨greeter_inv, by decide, rfl, rfl, by decide, exists_runsTo (by decide +kernel)⟩

/-- The echo loop with two bytes received, one more on the line, and a byte in hand or none. -/
def echoing (pending : List Micro) : State :=
  { queued [] [1, 2] with svcStage := .echoing, pending := pending, schedule := [[.line 3 9]] }

theorem witness_EchoIsFaithful :
    ((echoing [.echo]).Inv ∧ cfg.chA < nChannels cfg ∧ InHand (echoing [.echo]) [] ∧ ∃ t, runsTo 3 (echoing [.echo]) t) ∧
    (let s := echoing (echoNext (queued [] []) (some 7)); s.Inv ∧ InHand s [7] ∧ ∃ t, runsTo 3 s t) :=
  ⟨⟨inv_of_invB rfl (by decide +kernel), by decide, .inl ⟨rfl, rfl⟩, exists_runsTo (by decide +kernel)⟩,
    inv_of_invB rfl (by decide +kernel), .inr ⟨7, rfl, rfl⟩, exists_runsTo (by decide +kernel)⟩
/-- Exactly enough room for every byte received. -/
theorem witness_EchoReturnsEveryByte :
    let s := { queued (List.replicate 14 0) [1, 2] with pending := [.echo] }
    configWf s.config = true ∧ s.quiet ∧ s.pending = [.echo] ∧ s.config.chA < nChannels s.config ∧
    chanClocked s s.config.chA = true ∧
    ∃ ch, s.channels[s.config.chA]? = some ch ∧ ch.txq.length + ch.rxq.length ≤ fifoCap s.config ch :=
  ⟨cfg_wf, rfl, rfl, by decide, by decide, _, rfl, by decide⟩
theorem witness_EchoPollWithoutDataReadsNoData :
    let s := { up with pending := [.echo] }
    configWf s.config = true ∧ s.pending = [.echo] ∧ s.config.chA < nChannels s.config ∧
    chanClocked s s.config.chA = true ∧
    ∃ ch, (idle (s.config.ledPulseSpins + 1) s).channels[s.config.chA]? = some ch ∧ ch.rxq = [] :=
  ⟨cfg_wf, rfl, by decide, by decide, _, rfl, rfl⟩
/-- From the greeting and from the echo loop. -/
theorem witness_ServiceSendsOnlyInTheSourceFormat :
    (greeter.Inv ∧ ClockUp greeter ∧ ChannelUp greeter greeter.config.chA 27 8 true ∧
      wireInSourceFormat greeter greeter.config.chA ∧ greeter.pending = greetingSteps greeter.config ∧
      ∃ t, runsTo 5 greeter t) ∧
    (let s := { echoing [.echo] with schedule := [] }
     s.Inv ∧ ClockUp s ∧ ChannelUp s s.config.chA 27 8 true ∧ wireInSourceFormat s s.config.chA ∧ s.pending = [.echo] ∧
      ∃ t, runsTo 5 s t) := by
  refine ⟨⟨greeter_inv, clockUp_of (by decide), ⟨by decide, _, rfl, by decide⟩, ?_, rfl,
    exists_runsTo (by decide +kernel)⟩, inv_of_invB rfl (by decide +kernel), clockUp_of (by decide),
    ⟨by decide, _, rfl, by decide⟩, ?_, rfl, exists_runsTo (by decide +kernel)⟩ <;>
  · intro ch h e he
    injection h with h
    subst h
    cases he

/-! The clock's frequency, and fairness. -/

theorem witness_SourceFormatOnTheWire :
    { sourceFormat with int := 0 }.int = 0 ∧ ((-1 : Int) < 0) ∧ ((([] : List Bool).length : Int) ≤ 0) := by decide
/-- Bypassed on the internal and the external source; on the locked PLL; and with no clock. -/
theorem witness_SystemClockFollowsTheRegisters :
    configWf zero.config = true ∧ effBypass zero = true ∧ rawHz zero = some 12000000 ∧
    rawHz (atStep 5 0x078E3D51 0x87C06800) = some 16000000 ∧
    (effBypass up = false ∧ up.pllLocked = true ∧ effOscsrc up = 0 ∧ xtalCode up = up.config.xtalCode16MHz ∧
      dividerOn up = true) ∧
    sysclkHz { up with pllLocked := false } = none := ⟨cfg_wf, by decide⟩

/-- The next state, where there is one, if the environment schedules `sched` before the step. -/
def stepWith (sched : List (List AgentEvent)) (s : State) : State :=
  match step { s with schedule := sched } with
  | .next t => t
  | _ => s

/-- The infinite run that plays these schedules and then stays where it is. -/
def play (as : List (List (List AgentEvent))) (s : State) (n : Nat) : State :=
  match as, n with
  | [], _ => s
  | _ :: _, 0 => s
  | a :: as, n + 1 => play as (stepWith a s) n

/-- Where such a run ends up. -/
def endOf (as : List (List (List AgentEvent))) (s : State) : State :=
  match as with
  | [] => s
  | a :: as => endOf as (stepWith a s)

/-- Every step of such a run has a next state, and nothing is left to do when it ends up. -/
def plays (as : List (List (List AgentEvent))) (s : State) : Bool :=
  match as with
  | [] => s.pending.isEmpty && s.program.isEmpty && s.schedule.isEmpty
  | a :: as => isNext (step { s with schedule := a }) && plays as (stepWith a s)

theorem play_past (as : List (List (List AgentEvent))) (s : State) (n : Nat) (h : as.length ≤ n) :
    play as s n = endOf as s := by
  induction as generalizing s n with
  | nil => rfl
  | cons a as ih =>
    obtain ⟨n, rfl⟩ : ∃ m, n = m + 1 := ⟨n - 1, by simp at h; omega⟩
    exact ih _ _ (by simpa using h)

theorem isRun_play (as : List (List (List AgentEvent))) (s : State) (h : plays as s = true) : IsRun (play as s) := by
  intro n
  induction as generalizing s n with
  | nil =>
    simp only [plays, Bool.and_eq_true, List.isEmpty_iff] at h
    obtain ⟨⟨hp, hq⟩, hs⟩ := h
    cases s
    subst hp hq hs
    exact ⟨[], rfl⟩
  | cons a as ih =>
    simp only [plays, Bool.and_eq_true] at h
    cases n with
    | zero =>
      obtain ⟨t, ht⟩ := exists_next h.1
      refine ⟨a, ?_⟩
      have : play (a :: as) s (0 + 1) = t := by
        show play as (stepWith a s) 0 = t
        have e : stepWith a s = t := by simp [stepWith, ht]
        cases as <;> exact e
      rw [this]
      exact ht
    | succ n => exact ih _ h.2 n

theorem pllFair_play (as : List (List (List AgentEvent))) (s : State) (h : pllEnabled (endOf as s) = false) :
    PllFair (play as s) := fun n => ⟨n + as.length, by omega, by rw [play_past as s _ (by omega)]; exact h⟩

theorem txFair_play (as : List (List (List AgentEvent))) (s : State) (c : Nat) (h : canTransmit (endOf as s) c = false) :
    TxFair (play as s) c := fun n => ⟨n + as.length, by omega, .inl (by rw [play_past as s _ (by omega)]; exact h)⟩

/-- `CLK_WAIT_LOCK` waits for one step, and the lock comes in the next. -/
def waiter : State := { atStep 8 0x07CE3D51 0x81C04800 with program := encode .clkWaitLock }

theorem witness_FairRuns_wait :
    (let ρ := play [[], [[.pllLock]]] waiter
     IsRun ρ ∧ (ρ 0).Inv ∧ PllFair ρ ∧ underWay (ρ 0) .clkWaitLock [.clkWait] ∧ effPwrdn (ρ 0) = false ∧
      underWay (ρ 1) .clkWaitLock [.clkWait]) :=
  ⟨isRun_play _ _ (by decide +kernel), inv_of_invB rfl (by decide), pllFair_play _ _ (by decide +kernel),
    .inr ⟨rfl, [], by decide⟩, by decide, .inl (by decide +kernel)⟩

/-- `BRING_UP_CLOCK` from reset. -/
theorem witness_FairRuns_bringUp :
    (let ρ := play [List.replicate 17 [] ++ [[.pllLock]]] { zero with program := encode .bringUpClock }
     IsRun ρ ∧ (ρ 0).Inv ∧ PllFair ρ ∧ (ρ 0).AtReset ∧ decode (ρ 0).program = .ok (.bringUpClock, [])) :=
  ⟨isRun_play _ _ (by decide +kernel), inv_of_invB rfl (by decide), pllFair_play _ _ (by decide +kernel), zero_atReset,
    by decide⟩

/-- `TRANSMIT_BYTE` on a full FIFO waits for one step; then the transmitter drains it, and later the byte itself. -/
theorem witness_FairRuns_transmit :
    (let s := { queued (List.replicate 16 0x11) [] with program := encode (.transmitByte 3 0x99) }
     let ρ := play [[], [[], [.transmit 3], []], [List.replicate 16 (.transmit 3)]] s
     IsRun ρ ∧ (ρ 0).Inv ∧ 3 < nChannels (ρ 0).config ∧ TxFair ρ 3 ∧
      underWay (ρ 0) (.transmitByte 3 0x99) (transmitSteps (ρ 0).config 3 0x99) ∧
      underWay (ρ 1) (.transmitByte 3 0x99) (transmitSteps (ρ 1).config 3 0x99) ∧
      ∀ m, 0 ≤ m → channelRuns (ρ m) 3 = true) := by
  refine ⟨isRun_play _ _ (by decide +kernel), inv_of_invB rfl (by decide +kernel), by decide,
    txFair_play _ _ _ (by decide +kernel), .inr ⟨rfl, [], by decide⟩, .inl (by decide +kernel), fun m _ => ?_⟩
  match m with
  | 0 => decide
  | 1 => decide +kernel
  | 2 => decide +kernel
  | m + 3 => rw [play_past _ _ _ (by simp)]; decide +kernel

end Sys2Proof.Tests
end

section
/-! SUPPORT. What a micro-step can do and what it leaves to do, said once, and the step lemma drawn from it: every step
keeps the invariant (O6) and undoes nothing that `Forward` names (O8). -/

namespace Sys2Proof.Machine

/-! What is left of a command. -/

/-- A micro-step that may stand anywhere in a command: it keeps the clock stages and assigns no service stage. -/
def microPlain (m : Micro) : Bool :=
  match m with
  | .stage _ => false
  | _ => microOk m

/-- Micro-steps that may be run from service stage `st`: the two clauses of the invariant on what is pending. -/
structure Ordered (st : SvcStage) (ms : List Micro) : Prop where
  micros : ms.all microOk = true
  forward : stagesForward (svcIndex st) ms = true

theorem inv_iff {s : State} : s.Inv ↔ CoreInv s ∧ Ordered s.svcStage s.pending :=
  ⟨fun h => ⟨h.core, h.micros, h.forward⟩, fun ⟨hc, ho⟩ => hc.full ho.micros ho.forward⟩

theorem microOk_of_plain {m : Micro} (h : microPlain m = true) : microOk m = true := by
  cases m with
  | stage st => rfl
  | _ => exact h

theorem stagesForward_cons_plain {m : Micro} (h : microPlain m = true) (n : Nat) (ms : List Micro) :
    stagesForward n (m :: ms) = stagesForward n ms := by
  cases m with
  | stage st => cases h
  | _ => rfl

theorem Ordered.nil (st : SvcStage) : Ordered st [] := ⟨rfl, rfl⟩

theorem Ordered.cons_microOk {st : SvcStage} {m : Micro} {ms : List Micro} (h : Ordered st (m :: ms)) :
    microOk m = true ∧ ms.all microOk = true := by
  simpa only [List.all_cons, Bool.and_eq_true] using h.micros

theorem ordered_cons_plain {m : Micro} (h : microPlain m = true) {st : SvcStage} {ms : List Micro} :
    Ordered st (m :: ms) ↔ Ordered st ms := by
  refine ⟨fun ho => ⟨ho.cons_microOk.2, ?_⟩, fun ⟨hm, hf⟩ => ⟨?_, ?_⟩⟩
  · rw [← stagesForward_cons_plain h]; exact ho.forward
  · rw [List.all_cons, microOk_of_plain h, hm, Bool.and_self]
  · rwa [stagesForward_cons_plain h]

theorem ordered_cons_stage {st st' : SvcStage} {ms : List Micro} :
    Ordered st (.stage st' :: ms) ↔ svcIndex st' = svcIndex st + 1 ∧ Ordered st' ms := by
  constructor
  · rintro ⟨hm, hf⟩
    simp only [stagesForward, Bool.and_eq_true, beq_iff_eq] at hf
    exact ⟨hf.1, hm, hf.1 ▸ hf.2⟩
  · rintro ⟨hi, hm, hf⟩
    exact ⟨hm, by simp only [stagesForward, Bool.and_eq_true, beq_iff_eq]; exact ⟨hi, hi ▸ hf⟩⟩

theorem ordered_append_plain {xs : List Micro} (h : xs.all microPlain = true) {st : SvcStage} {ms : List Micro} :
    Ordered st (xs ++ ms) ↔ Ordered st ms := by
  induction xs with
  | nil => rfl
  | cons m rest ih =>
    simp only [List.all_cons, Bool.and_eq_true] at h
    exact (ordered_cons_plain h.1).trans (ih h.2)

theorem Ordered.of_plain {ms : List Micro} (h : ms.all microPlain = true) (st : SvcStage) : Ordered st ms := by
  simpa using (ordered_append_plain h).2 (Ordered.nil st)

/-! What one micro-step can do. -/

/-- `t` comes from `s` by elementary changes alone. -/
def Accessed (s t : State) : Prop := ∀ R : State → State → Prop, Elementary R → R s t

theorem accessed_elementary : Elementary Accessed where
  refl s _ E := E.refl s
  trans h1 h2 R E := E.trans (h1 R E) (h2 R E)
  schedule s l _ E := E.schedule s l
  agent s e _ E := E.agent s e
  log k a v s _ E := E.log k a v s
  read h _ E := E.read h
  write h _ E := E.write h

theorem Accessed.svcStage {s t : State} (h : Accessed s t) : t.svcStage = s.svcStage := h _ elementary_svcStage

/-- What is left of `m :: rest` after `m` made this progress (R144). -/
def leftOf (p : Progress) (m : Micro) (rest : List Micro) : List Micro :=
  match p with
  | .done => rest
  | .wait => m :: rest
  | .become ms => ms ++ rest

/-- A progress that leaves only plain micro-steps in place of the one that made it. -/
def Progress.Plain (p : Progress) : Prop := ∀ ms, p = .become ms → ms.all microPlain = true

theorem leftOf_ordered {p : Progress} (hp : p.Plain) {m : Micro} (hm : microPlain m = true) {st : SvcStage}
    {rest : List Micro} (h : Ordered st rest) : Ordered st (leftOf p m rest) := by
  cases p with
  | done => exact h
  | wait => exact (ordered_cons_plain hm).2 h
  | become ms => exact (ordered_append_plain (hp ms rfl)).2 h

theorem Progress.plain_done : Progress.Plain .done := fun _ h => by cases h

theorem Progress.plain_become {ms : List Micro} (h : ms.all microPlain = true) : Progress.Plain (.become ms) :=
  fun _ e => by cases e; exact h

theorem Progress.plain_waited (ended : Bool) : (waited ended).Plain := by
  cases ended <;> exact fun _ h => by cases h

theorem echoNext_plain (s : State) (got : Option Byte) : (echoNext s got).all microPlain = true := by
  cases got <;> rfl

/-- An iteration of the echo loop only accesses the bus and lets agents step (R208, R209). -/
theorem echoOnce_ok {s t : State} {p : Progress} (h : echoOnce s = .ok p t) : Accessed s t ∧ p.Plain := by
  have E := accessed_elementary
  obtain ⟨v, u, hfr, h⟩ := bind_ok h
  have hu : Accessed s u := E.trans (E.agents.idle _ s) (E.busRead hfr)
  split at h
  · simp only [Res.ok.injEq] at h
    obtain ⟨rfl, rfl⟩ := h
    exact ⟨hu, Progress.plain_become (echoNext_plain _ _)⟩
  · obtain ⟨d, x, hdr, h⟩ := bind_ok h
    simp only [Res.ok.injEq] at h
    obtain ⟨rfl, rfl⟩ := h
    exact ⟨E.trans hu (E.busRead hdr), Progress.plain_become (echoNext_plain _ _)⟩

/-- Everything a micro-step can do, with its progress and the next state. -/
inductive MicroRan (s : State) : Micro → Progress → State → Prop
  /-- A clock micro-step whose turn it is: one `MODIFY`, then the clock sequencer moves on (R151 to R158, R161). -/
  | clock {k : Nat} {stage : Option ClkStage} {a st cl : Word} {u : State} (turn : s.clkStep = k)
      (modified : busModify a st cl s = .ok () u) :
      MicroRan s (.clk k stage a st cl) .done (advanceClock k stage u)
  /-- The wait gate ends (R160). -/
  | gate {u : State} (turn : s.clkStep = 8)
      (ended : poll (addrOf s.config.layout .ris) (fun r => r.flag s.config.layout.pllLock) s = .ok true u) :
      MicroRan s .clkWait .done (advanceClock 8 (some .pllLocked) u)
  /-- The service stage moves on (R205). -/
  | stage (st : SvcStage) : MicroRan s (.stage st) .done (setSvcStage s st)
  /-- An unlock is recorded (R43). -/
  | noteUnlock (p : Nat) : MicroRan s (.noteUnlock p) .done (noteUnlock s p)
  /-- Every other micro-step accesses the bus or lets agents step, and does nothing else. -/
  | access {m : Micro} {p : Progress} {t : State} (micro : microPlain m = true) (progress : p.Plain)
      (accessed : Accessed s t) : MicroRan s m p t

theorem runMicro_ran {m : Micro} {s t : State} {p : Progress} (h : runMicro m s = .ok p t) : MicroRan s m p t := by
  have E := accessed_elementary
  cases m with
  | inRange ps cs =>
    simp only [runMicro] at h
    split at h
    · cases h; exact .access rfl Progress.plain_done (E.refl s)
    · cases h
  | modify a st cl =>
    obtain ⟨_, u, hb, h⟩ := bind_ok h
    cases h; exact .access rfl Progress.plain_done (E.busModify hb)
  | write a v =>
    obtain ⟨_, u, hb, h⟩ := bind_ok h
    cases h; exact .access rfl Progress.plain_done (E.busWrite hb)
  | noteUnlock p => cases h; exact .noteUnlock p
  | clk k stage a st cl =>
    simp only [runMicro] at h
    split at h
    · rename_i turn
      obtain ⟨_, u, hb, h⟩ := bind_ok h
      cases h; exact .clock turn hb
    · cases h
  | clkWait =>
    simp only [runMicro] at h
    split at h
    · rename_i turn
      obtain ⟨ended, u, hb, h⟩ := bind_ok h
      cases ended with
      | true => cases h; exact .gate turn hb
      | false => cases h; exact .access rfl (Progress.plain_waited false) (E.poll hb)
    · cases h
  | txWait c =>
    obtain ⟨ended, u, hb, h⟩ := bind_ok h
    cases h; exact .access rfl (Progress.plain_waited ended) (E.poll hb)
  | idle n => cases h; exact .access rfl Progress.plain_done (E.agents.idle n s)
  | led color => cases h; exact .access rfl Progress.plain_done (E.agents.idle _ s)
  | stage st => cases h; exact .stage st
  | echo =>
    obtain ⟨accessed, plain⟩ := echoOnce_ok h
    exact .access rfl plain accessed
  | yield => cases h; exact .access rfl (Progress.plain_become rfl) (E.refl s)

/-! The changes that are not elementary. -/

/-- Advancing the clock sequencer keeps the invariant if the stage is that of the table of R22 and, at the wait gate,
the lock status has been seen (R160). -/
theorem CoreInv.advance {s : State} (h : CoreInv s) {k : Nat} {stage : Option ClkStage} (hk : s.clkStep = k)
    (hlt : k < 10) (hst : stage.getD (stageOfStep k) = stageOfStep (k + 1)) (hgate : k = 8 → s.risPllLock = true) :
    CoreInv (advanceClock k stage s) where
  config := h.config
  ports := h.ports
  channels := h.channels
  clkStep := hlt
  clkStage := by rw [advanceClock_clkStage, advanceClock_clkStep, h.clkStage, hk, hst]
  fifos := h.fifos
  lockSeen := h.lockSeen
  lockPowered := h.lockPowered
  gated := fun h9 => by
    rw [advanceClock_clkStep] at h9
    rcases Nat.lt_or_ge 8 k with h8 | h8
    · exact h.gated (hk ▸ h8)
    · exact hgate (by omega)

theorem Forward.advance {s : State} {k : Nat} (hk : s.clkStep = k) (stage : Option ClkStage) :
    Forward s (advanceClock k stage s) where
  config := rfl
  trace := List.prefix_refl _
  clkStep := by rw [advanceClock_clkStep]; omega
  svcStage := le_rfl
  sticky := id
  wires := wires_refl s

/-! What every change keeps. -/

/-- The invariant is kept and nothing that `Forward` names is undone. -/
def Keeps (s t : State) : Prop := CoreInv s → CoreInv t ∧ Forward s t

theorem Keeps.trans {s t u : State} (h1 : Keeps s t) (h2 : Keeps t u) : Keeps s u := fun hs => by
  obtain ⟨ht, hst⟩ := h1 hs
  obtain ⟨hu, htu⟩ := h2 ht
  exact ⟨hu, hst.trans htu⟩

theorem keeps_elementary : Elementary Keeps where
  refl s h := ⟨h, Forward.refl s⟩
  trans := Keeps.trans
  schedule s l h := ⟨core_elementary.schedule s l h, forward_elementary.schedule s l⟩
  agent s e h := ⟨h.agent e, Forward.agent s e⟩
  log k a v s h := ⟨core_elementary.log k a v s h, forward_elementary.log k a v s⟩
  read hr h := ⟨h.read hr, Forward.read hr⟩
  write hw h := ⟨h.write hw, Forward.write hw⟩

/-- What a command returns, the program and what is pending are no part of it. -/
theorem keeps_withIssuer (s : State) (r : Option Word) (n : Nat) (pr : List Word) (pe : List Micro) :
    Keeps s (withIssuer s s.trace r n pr pe) := fun h =>
  ⟨h.transfer rfl rfl rfl rfl rfl h.fifos h.lockSeen h.lockPowered id,
    rfl, List.prefix_refl _, le_rfl, le_rfl, id, wires_refl s⟩

theorem keeps_setPending (s : State) (ms : List Micro) : Keeps s (setPending s ms) :=
  keeps_withIssuer s s.result s.drawCount s.program ms

theorem keeps_clearResult (s : State) : Keeps s (clearResult s) :=
  keeps_withIssuer s none s.drawCount s.program s.pending

theorem keeps_putResult (s : State) (w : Word) : Keeps s (putResult s w) :=
  keeps_withIssuer s (some w) s.drawCount s.program s.pending

theorem keeps_noteUnlock (s : State) (p : Nat) : Keeps s (noteUnlock s p) := fun h =>
  ⟨h.transfer rfl (by simp) rfl rfl rfl h.fifos h.lockSeen h.lockPowered id,
    rfl, List.prefix_refl _, le_rfl, le_rfl, id, wires_refl s⟩

theorem keeps_setSvcStage {s : State} {st : SvcStage} (h : svcIndex s.svcStage ≤ svcIndex st) :
    Keeps s (setSvcStage s st) := fun hc =>
  ⟨hc.transfer rfl rfl rfl rfl rfl hc.fifos hc.lockSeen hc.lockPowered id,
    rfl, List.prefix_refl _, le_rfl, h, id, wires_refl s⟩

theorem keeps_advanceClock {s : State} {k : Nat} {stage : Option ClkStage} (hk : s.clkStep = k) (hlt : k < 10)
    (hst : stage.getD (stageOfStep k) = stageOfStep (k + 1)) (hgate : k = 8 → s.risPllLock = true) :
    Keeps s (advanceClock k stage s) := fun h => ⟨h.advance hk hlt hst hgate, Forward.advance hk stage⟩

/-- The wait gate ends only after a read of `CLK_RIS` that showed the lock status (R160, R163). -/
theorem poll_ris_true {s t : State} (hl : layoutWf s.config.layout = true)
    (h : poll (addrOf s.config.layout .ris) (fun r => r.flag s.config.layout.pllLock) s = .ok true t) :
    t.risPllLock = true := by
  obtain ⟨u, v, hread, hflag⟩ := pollFor_true h
  have hu : u.config = s.config := (elementary_config.busRead hread).symm.trans (elementary_config.poll h)
  rw [← hu] at hl hread hflag
  rw [busRead_ris hl, Res.ok.injEq] at hread
  obtain ⟨rfl, rfl⟩ := hread
  have hr := risValue_flag (s := tick u) (by rwa [tick_config])
  rw [tick_config, hflag] at hr
  exact hr.symm

/-! Runs of micro-steps. -/

/-- A micro-step keeps the invariant, and so does what it leaves to do. -/
theorem runMicro_keeps {m : Micro} {rest : List Micro} {s t : State} {p : Progress} (hc : CoreInv s)
    (ho : Ordered s.svcStage (m :: rest)) (h : runMicro m s = .ok p t) :
    (CoreInv t ∧ Forward s t) ∧ Ordered t.svcStage (leftOf p m rest) := by
  obtain ⟨hok, hrest⟩ := ho.cons_microOk
  cases runMicro_ran h with
  | @clock k stage _ _ _ u turn modified =>
    simp only [microOk, Bool.and_eq_true, decide_eq_true_eq, bne_iff_ne, beq_iff_eq] at hok
    obtain ⟨⟨hlt, hne⟩, hst⟩ := hok
    have hk : u.clkStep = k := (elementary_clkStep.busModify modified).trans turn
    have hgate : k = 8 → u.risPllLock = true := fun e => absurd e hne
    refine ⟨(keeps_elementary.busModify modified).trans (keeps_advanceClock hk hlt hst hgate) hc, ?_⟩
    rw [advanceClock_svcStage, elementary_svcStage.busModify modified]
    exact ⟨hrest, ho.forward⟩
  | @gate u turn ended =>
    have hk : u.clkStep = 8 := (elementary_clkStep.poll ended).trans turn
    have hris : u.risPllLock = true := poll_ris_true (configWf_layout hc.config) ended
    refine ⟨(keeps_elementary.poll ended).trans (keeps_advanceClock hk (by decide) rfl fun _ => hris) hc, ?_⟩
    rw [advanceClock_svcStage, elementary_svcStage.poll ended]
    exact (ordered_cons_plain rfl).1 ho
  | stage st =>
    obtain ⟨hnext, ho'⟩ := ordered_cons_stage.1 ho
    exact ⟨keeps_setSvcStage (by omega) hc, ho'⟩
  | noteUnlock q => exact ⟨keeps_noteUnlock s q hc, (ordered_cons_plain rfl).1 ho⟩
  | access micro progress accessed =>
    refine ⟨accessed _ keeps_elementary hc, ?_⟩
    rw [accessed.svcStage]
    exact leftOf_ordered progress micro ((ordered_cons_plain micro).1 ho)

/-- One micro-step of a run: the run goes on with the rest, or ends with what is left pending (R144). -/
theorem runMicros_cons {m : Micro} {rest : List Micro} {s t : State} (h : runMicros (m :: rest) s = .next t) :
    ∃ p u, runMicro m s = .ok p u ∧
      ((p = .done ∧ runMicros rest u = .next t) ∨ t = setPending u (leftOf p m rest)) := by
  rw [runMicros] at h
  split at h
  · rename_i u hm; exact ⟨.done, u, hm, .inl ⟨rfl, h⟩⟩
  · rename_i u hm; cases h; exact ⟨.wait, u, hm, .inr rfl⟩
  · rename_i ms u hm; cases h; exact ⟨.become ms, u, hm, .inr rfl⟩
  · cases h
  · cases h

theorem inv_setPending {s : State} {ms : List Micro} (hc : CoreInv s) (ho : Ordered s.svcStage ms) :
    (setPending s ms).Inv :=
  inv_iff.2 ⟨(keeps_setPending s ms hc).1, ho⟩

/-- A run of micro-steps in order ends in a state with the invariant and undoes nothing. -/
theorem runMicros_keeps {ms : List Micro} {s t : State} (hc : CoreInv s) (ho : Ordered s.svcStage ms)
    (h : runMicros ms s = .next t) : t.Inv ∧ Forward s t := by
  induction ms generalizing s with
  | nil =>
    cases h
    exact ⟨inv_setPending hc ho, (keeps_setPending s [] hc).2⟩
  | cons m rest ih =>
    obtain ⟨p, u, hm, hrun⟩ := runMicros_cons h
    obtain ⟨⟨hu, hsu⟩, hleft⟩ := runMicro_keeps hc ho hm
    rcases hrun with ⟨rfl, hrest⟩ | rfl
    · obtain ⟨ht, hut⟩ := ih hu hleft hrest
      exact ⟨ht, hsu.trans hut⟩
    · exact ⟨inv_setPending hu hleft, hsu.trans (keeps_setPending u _ hu).2⟩

/-! The micro-steps of every command are in order. -/

theorem bringUpSteps_plain (c : Config) : (bringUpSteps c).all microPlain = true := rfl

theorem configurePinsSteps_plain (c : Config) (p : Nat) (mask : Byte) (codes : Word) (digital unlock : Bool) :
    (configurePinsSteps c p mask codes digital unlock).all microPlain = true := by
  cases digital <;> cases unlock <;> rfl

theorem uartConfigureSteps_plain (c : Config) (ch p : Nat) (mask : Byte) (f : BitVec 4) (bi : BitVec 16) (bf : BitVec 6)
    (wl : Nat) (fifo : Bool) : (uartConfigureSteps c ch p mask f bi bf wl fifo).all microPlain = true := by
  simp only [uartConfigureSteps, List.all_append, configurePinsSteps_plain]
  rfl

theorem greetingSteps_ordered (c : Config) : Ordered .channelsReady (greetingSteps c) := by
  have hbytes : (greeting.flatMap (greetingByteSteps c)).all microPlain = true := by
    rw [List.all_flatMap]
    exact List.all_eq_true.2 fun _ _ => rfl
  exact (ordered_append_plain hbytes).2 ⟨rfl, rfl⟩

theorem channelsSteps_ordered (c : Config) {ms : List Micro} (h : Ordered .channelsReady ms) :
    Ordered .clockReady (channelsSteps c ++ ms) := by
  simp only [channelsSteps, List.append_assoc]
  rw [ordered_append_plain (uartConfigureSteps_plain ..), ordered_append_plain rfl,
    ordered_append_plain (uartConfigureSteps_plain ..), List.cons_append, List.cons_append, ordered_cons_plain rfl,
    ordered_cons_stage]
  exact ⟨rfl, (ordered_append_plain rfl).2 h⟩

/-- The service moves its stage from BOOTING to ECHOING, one at a time (R205, R23). -/
theorem serviceSteps_ordered (c : Config) : Ordered .booting (serviceSteps c) := by
  simp only [serviceSteps, List.append_assoc]
  rw [ordered_append_plain (bringUpSteps_plain c), List.cons_append, List.cons_append, ordered_cons_plain rfl,
    ordered_cons_stage]
  exact ⟨rfl, (ordered_append_plain rfl).2 (channelsSteps_ordered c (greetingSteps_ordered c))⟩

/-- How a command that answers a next state ran: as a list of micro-steps, or as one read whose word it returned
(R111). -/
inductive CommandRan (s t : State) : Prop
  | micros (ms : List Micro) (ordered : Ordered s.svcStage ms) (ran : runMicros ms (clearResult s) = .next t)
  | answer (a : Word) (v : ReadValue) (w : Word) (u : State) (read : busRead a (clearResult s) = .ok v u)
      (next : t = setPending (putResult u w) [])

theorem answer_ran {a : Word} {f : ReadValue → Word} {s t : State}
    (h : answer ((busRead a (clearResult s)).bind fun v u => .ok (f v) u) = .next t) : CommandRan s t := by
  cases hb : busRead a (clearResult s) with
  | ok v u => rw [hb] at h; cases h; exact .answer a v (f v) u hb rfl
  | fault e => rw [hb] at h; cases h
  | refused r => rw [hb] at h; cases h

theorem readChannelFor_ran {c : Nat} {r : UartReg} {f : ReadValue → Word} {s t : State}
    (h : readChannelFor c r f s = .next t) : CommandRan s t := by
  unfold readChannelFor at h
  split at h
  · exact answer_ran h
  · cases h

/-- Micro-steps that assign no service stage may run at any stage. -/
theorem command_ran {ms : List Micro} (hp : ms.all microPlain = true) {s t : State} (h : runCommand ms s = .next t) :
    CommandRan s t := .micros ms (.of_plain hp _) h

/-- Every command ran in one of the two ways, whatever the instruction. -/
theorem exec_ran {i : Instr} {s t : State} (h : exec i s = .next t) : CommandRan s t := by
  cases i with
  | read a => exact answer_ran h
  | write a v => exact command_ran rfl h
  | modify a st cl => exact command_ran rfl h
  | bringUpClock => exact command_ran rfl h
  | clkSelAlt => exact command_ran rfl h
  | clkBypassOn => exact command_ran rfl h
  | clkDivenOff => exact command_ran rfl h
  | clkSetXtal => exact command_ran rfl h
  | clkSrcExt => exact command_ran rfl h
  | clkPllOn => exact command_ran rfl h
  | clkSetDiv => exact command_ran rfl h
  | clkDivenOn => exact command_ran rfl h
  | clkWaitLock => exact command_ran rfl h
  | clkBypassOff => exact command_ran rfl h
  | isPllLocked => exact answer_ran h
  | enablePort p => exact command_ran rfl h
  | configurePins p m codes md cu => exact command_ran (ms := .inRange [p] [] :: _) (configurePinsSteps_plain ..) h
  | drivePins p v => exact command_ran rfl h
  | uartConfigure c p m f bi bf wl sb par fifo =>
    simp only [exec, execUartConfigure] at h
    split at h
    · exact command_ran (uartConfigureSteps_plain ..) h
    · cases h
  | transmitByte c b => exact command_ran rfl h
  | receiveAvailable c => exact readChannelFor_ran h
  | receiveByte c => exact readChannelFor_ran h
  | isTxFifoFull c => exact readChannelFor_ran h
  | runEchoService =>
    simp only [exec, execRunEchoService] at h
    split at h
    · rename_i hreset
      exact .micros _ (hreset.1 ▸ serviceSteps_ordered _) h
    · cases h
  | ledPulse color => exact command_ran rfl h
  | delay n => exact command_ran rfl h

theorem exec_keeps {i : Instr} {s t : State} (hc : CoreInv s) (h : exec i s = .next t) : t.Inv ∧ Forward s t := by
  obtain ⟨hs', hfwd⟩ := keeps_clearResult s hc
  cases exec_ran h with
  | micros ms ordered ran =>
    obtain ⟨ht, hst⟩ := runMicros_keeps hs' ordered ran
    exact ⟨ht, hfwd.trans hst⟩
  | answer a v w u read next =>
    subst next
    obtain ⟨hu, hsu⟩ := ((keeps_elementary.busRead read).trans (keeps_putResult u w)) hs'
    exact ⟨inv_setPending hu (.nil _), (hfwd.trans hsu).trans (keeps_setPending _ [] hu).2⟩

/-- The step lemma: every step keeps the invariant and undoes nothing. -/
theorem step_keeps {s t : State} (hi : s.Inv) (h : step s = .next t) : t.Inv ∧ Forward s t := by
  obtain ⟨hc, ho⟩ := inv_iff.1 hi
  unfold step at h
  split at h
  · rename_i m ms hpending
    exact runMicros_keeps hc (hpending ▸ ho) h
  · split at h
    · cases h
      obtain ⟨ht, hst⟩ := keeps_elementary.agents.tick s hc
      exact ⟨inv_iff.2 ⟨ht, by rwa [tick_svcStage, tick_pending]⟩, hst⟩
    · split at h
      · rename_i i rest hdecode
        obtain ⟨hs', hfwd⟩ := keeps_withIssuer s s.result s.drawCount rest s.pending hc
        obtain ⟨ht, hst⟩ := exec_keeps hs' h
        exact ⟨ht, hfwd.trans hst⟩
      · cases h

/-- Settles O6, by the step lemma `step_keeps`. -/
theorem everyStepKeepsTheInvariant : Obligations.EveryStepKeepsTheInvariant := fun _ _ hi h => (step_keeps hi h).1

/-- Settles O8, by the step lemma `step_keeps`. -/
theorem everyStepMovesForward : Obligations.EveryStepMovesForward := fun _ _ hi h => (step_keeps hi h).2

end Sys2Proof.Machine
end

section
/-! SUPPORT. One access to a register, as a whole command: what `READ` and `WRITE` of each register complete with
(10_state.md R25 to R53). First one completion lemma for a read and one for each kind of write, then the statements. -/

namespace Sys2Proof.Machine

/-! `READ` (R141). -/

/-- A bus read that answers completes `READ`: no register changes, and the next state is what the access left with the
word returned. -/
theorem exec_read_completes {s t : State} {a : Word} {v : ReadValue} {draws : Nat}
    (h : busRead a (clearResult s) = .ok v t) (hd : t.drawCount = s.drawCount + draws) :
    ∃ t', exec (.read a) s = .next t' ∧ t'.soft = s.soft ∧ t'.hidden = t.hidden ∧
      t'.trace = s.trace ++ [{ kind := .read, address := a, value := v.word }] ∧ Issued s t' (some v.word) 1 draws := by
  have hsched : t.schedule = s.schedule.drop 1 := by
    obtain ⟨r, u, -, -, hread, rfl⟩ := busRead_ok h
    rw [logBus_schedule, readReg_schedule hread, tick_schedule, clearResult_schedule, List.drop_one]
  have hsoft : t.soft = s.soft := (busRead_soft h).trans (soft_clearResult s)
  have htrace : t.trace = s.trace ++ [{ kind := .read, address := a, value := v.word }] := by
    simpa using busRead_trace h
  exact ⟨_, exec_read_next h, hsoft, rfl, htrace, rfl, rfl, hsched, hd⟩

/-- `READ` of a clocked register of plain storage returns its word (R84). -/
theorem exec_read_plain {s : State} {r : Reg} {w : Word} (hl : layoutWf s.config.layout = true)
    (hr : r ∈ allRegs s.config.layout) (hc : clocked s r = true) (hp : plainWord s r = some w) :
    ∃ t, exec (.read (addrOf s.config.layout r)) s = .next t ∧ t.soft = s.soft ∧ t.result = some w := by
  have hread := busRead_plain (s := clearResult s) hl hr ((clocked_clearResult s r).trans hc)
    ((plainWord_clearResult s r).trans hp)
  obtain ⟨t, hexec, hsoft, -, -, hissued⟩ := exec_read_completes (draws := 0) hread (by simp)
  exact ⟨t, hexec, hsoft, by rw [hissued.result, exactly_word]⟩

/-- A flag of the word read is the flag of the read (R84). -/
theorem fieldFlag_word (v : ReadValue) {f : Field} (h : f.lo < 32) : fieldFlag f v.word = v.flag f :=
  (flag_eq_word_bit v h).symm

/-- A bit that the register does not know is the environment's (R15, R84). -/
theorem word_bit_of_unknown {v : ReadValue} {j : Nat} (h : v.mask.getLsbD j = false) :
    v.word.getLsbD j = v.fill.getLsbD j := by
  rw [word_bit, h, if_neg Bool.false_ne_true]

theorem txFull_eq (c : Config) (ch : Channel) : txFull c ch = decide (ch.txq.length = fifoCap c ch) := beq_eq_decide ..

theorem rxEmpty_eq (ch : Channel) : rxEmpty ch = decide (ch.rxq.length = 0) := by
  rw [rxEmpty]
  cases ch.rxq <;> simp

/-- Every bit but `PLLLOCK` of a read of `CLK_RIS` is drawn (R28). -/
theorem risValue_drawn_bit {s : State} (hl : layoutWf s.config.layout = true) {j : Nat}
    (hj : j ≠ s.config.layout.pllLock.lo) : (risValue s).word.getLsbD j = (Config.freeWord s.drawCount).getLsbD j := by
  obtain ⟨hris, -⟩ := layout_fields hl
  exact word_bit_of_unknown (by simp [risValue, fieldBit_bit (fieldOk_lo hris), hj])

/-- Every bit but the two flags of a read of `FR` is drawn (R49). -/
theorem frValue_drawn_bit {s : State} (hl : layoutWf s.config.layout = true) (ch : Channel) {j : Nat}
    (ht : j ≠ s.config.layout.txff.lo) (hr : j ≠ s.config.layout.rxfe.lo) :
    (frValue s ch).word.getLsbD j = (Config.freeWord s.drawCount).getLsbD j := by
  obtain ⟨-, htxff, hrxfe, -⟩ := layout_fields hl
  exact word_bit_of_unknown
    (by simp [frValue, fieldBit_bit (fieldOk_lo htxff), fieldBit_bit (fieldOk_lo hrxfe), ht, hr])

/-- Settles O15: the reads are those of `busRead_ris` and `busRead_fr`, known bit by bit. -/
theorem readOfStatusRegistersReturnsTheFlags : Obligations.ReadOfStatusRegistersReturnsTheFlags := by
  intro s hwf
  have hl := configWf_layout hwf
  have hlt : layoutWf (tick s).config.layout = true := by rwa [tick_config]
  obtain ⟨hris, htxff, hrxfe, -⟩ := layout_fields hl
  constructor
  · obtain ⟨t, hexec, hsoft, hhidden, htrace, hissued⟩ :=
      exec_read_completes (draws := 1) (busRead_ris (s := clearResult s) hl) (by simp)
    rw [tick_clearResult, risValue_clearResult] at htrace hissued
    have hflag := risValue_flag hlt
    rw [tick_config] at hflag
    refine ⟨t, _, hexec, ?_, fun j hj => ?_, hsoft, by simpa using hhidden, htrace, hissued⟩
    · rw [fieldFlag_word _ (fieldOk_lo hris), hflag]
    · rw [risValue_drawn_bit hlt (by rwa [tick_config]), tick_drawCount]
  · intro c ch hn hc hch
    obtain ⟨t, hexec, hsoft, hhidden, htrace, hissued⟩ :=
      exec_read_completes (draws := 1)
        (busRead_fr (s := clearResult s) (ch := ch) hl hn hc (by simpa using hch)) (by simp)
    rw [tick_clearResult, frValue_clearResult] at htrace hissued
    obtain ⟨hfull, hempty⟩ := frValue_flags hlt ch
    rw [tick_config] at hfull hempty
    refine ⟨t, _, hexec, ?_, ?_, fun j ht hr => ?_, hsoft, by simpa using hhidden, htrace, hissued⟩
    · rw [fieldFlag_word _ (fieldOk_lo htxff), hfull, txFull_eq]
    · rw [fieldFlag_word _ (fieldOk_lo hrxfe), hempty, rxEmpty_eq]
    · rw [frValue_drawn_bit hlt ch (by rwa [tick_config]) (by rwa [tick_config]), tick_drawCount]

/-- The bits that a read of `DR` draws: all of them with no byte received, those above the byte otherwise (R51). -/
theorem drValue_drawn_bit (s : State) {ch : Channel} {j : Nat} (h : ch.rxq = [] ∨ 8 ≤ j) :
    (drValue s ch).word.getLsbD j = (Config.freeWord s.drawCount).getLsbD j := by
  rw [drValue]
  split
  · rename_i b q hq
    have hj : ¬ j ≤ lowByte.hi := Nat.not_le.2 (h.resolve_left (by simp [hq]))
    have hmask : (0xFF#32).getLsbD j = (decide (lowByte.lo ≤ j) && decide (j ≤ lowByte.hi)) :=
      fieldMask_bit (w := 8) (f := lowByte) rfl j
    exact word_bit_of_unknown (hmask.trans (by simp [hj]))
  · exact word_bit_of_unknown BitVec.getLsbD_zero

/-- Settles O16: `DR` is read by `busRead_dr`. -/
theorem readOfDataRegisterPopsTheOldestByte : Obligations.ReadOfDataRegisterPopsTheOldestByte := by
  intro s c ch hwf hn hc hch
  obtain ⟨t, hexec, hsoft, hhidden, htrace, hissued⟩ :=
    exec_read_completes (draws := 1)
      (busRead_dr (s := clearResult s) (ch := ch) (configWf_layout hwf) hn hc (by simpa using hch)) (by simp)
  refine ⟨t, _, hexec, fun b q hq => ?_, fun j hj => ?_, hsoft, ?_, htrace, hissued⟩
  · rw [← low8_eq_word, drValue_low8 hq]
  · rw [drValue_drawn_bit _ hj]; simp
  · rw [hhidden, hidden_logBus, hidden_countDraw, hidden_setChannel, tick_clearResult, hidden_clearResult]
    rfl

/-! `WRITE` (R142). -/

/-- A write of a clock-control register stores the word and lets `pll_locked` fall by the rule of R31. -/
theorem exec_write_clock {s u : State} {r : Reg} (v : Word) (hl : layoutWf s.config.layout = true)
    (hr : r = .legacy ∨ r = .alt)
    (hw : writeReg (addrOf s.config.layout r) r v (tick (clearResult s)) =
      .ok () (afterClockWrite (tick (clearResult s)) u))
    (hu : u.hidden = (tick s).hidden) :
    ∃ t, exec (.write (addrOf s.config.layout r) v) s = .next t ∧ t.soft = softWrite s.soft r v ∧
      t.hidden = { (tick s).hidden with
        pllLocked := (tick s).pllLocked && !(effPwrdn t || effOscsrc s != effOscsrc t || xtalCode s != xtalCode t) } ∧
      t.trace = s.trace ++ writeTrace (addrOf s.config.layout r) v ∧ Issued s t none 1 0 := by
  have hclock : r ∈ sysRegs ∧ writable r = true ∧ clocked (clearResult s) r = true ∧ ∀ c, r ≠ .uart c .dr := by
    rcases hr with rfl | rfl <;> simp [sysRegs, writable, clocked]
  obtain ⟨hmem, hwritable, hclocked, hdr⟩ := hclock
  obtain ⟨t, hbus, hmoved, ht⟩ :=
    busWrite_moved (s := clearResult s) hl (mem_allRegs_sys _ hmem) hwritable hclocked hdr hw
  refine ⟨_, exec_write_next hbus, hmoved.soft, ?_, hmoved.trace, hmoved.issued⟩
  obtain ⟨hp, ho, hx⟩ := eff_of (setPending t []) u (by simp [ht]) (by simp [ht]) (by simp [ht])
  obtain ⟨-, ho', hx'⟩ := eff_of (tick (clearResult s)) s (by simp) (by simp) (by simp)
  have hpll : u.pllLocked = (tick s).pllLocked := congrArg HiddenView.pllLocked hu
  have hris : u.risPllLock = (tick s).risPllLock := congrArg HiddenView.risPllLock hu
  have hq : u.channels.map chanQueuesOf = (tick s).hidden.queues := congrArg HiddenView.queues hu
  rw [hp, ho, hx, ← ho', ← hx', ← hpll]
  simp [State.hidden, ht, afterClockWrite_pllLocked, hris, hq]

/-- Settles O17: both clock-control registers by `exec_write_clock`. -/
theorem writeOfClockControlMayUnlockThePll : Obligations.WriteOfClockControlMayUnlockThePll := by
  intro s v hwf
  have hl := configWf_layout hwf
  have hhidden : (tick (clearResult s)).hidden = (tick s).hidden := by rw [tick_clearResult, hidden_clearResult]
  exact ⟨exec_write_clock v hl (.inl rfl) rfl hhidden, exec_write_clock v hl (.inr rfl) rfl hhidden⟩

/-- `WRITE` of a gate register stores the word (R29, R30). -/
theorem writeDone_gate {s : State} {r : Reg} (v : Word) (hl : layoutWf s.config.layout = true)
    (hr : r = .gateGpio ∨ r = .gateUart) : WriteDone s (addrOf s.config.layout r) v (softWrite s.soft r v) := by
  rcases hr with rfl | rfl <;>
    exact writeDone_of hl (mem_allRegs_sys _ (by simp [sysRegs])) rfl rfl (by simp) (by simp) (by simp) rfl

/-- `WRITE` of any register of a clocked port completes with the port that `writePort` makes (R35 to R42). -/
theorem writeDone_port {s : State} {p : Nat} {pt : Port} (g : GpioReg) (v : Word)
    (hl : layoutWf s.config.layout = true) (hp : p < nPorts s.config) (hc : portClocked s p = true)
    (hpt : s.ports[p]? = some pt) :
    WriteDone s (addrOf s.config.layout (.gpio p g)) v
      { s.soft with ports := s.ports.set p (writePort s.config pt g v) } := by
  have hw : writeReg (addrOf s.config.layout (.gpio p g)) (.gpio p g) v (tick (clearResult s)) =
      .ok () (setPort (tick (clearResult s)) p (writePort s.config pt g v)) := by simp [writeReg, hpt]
  have hdone := writeDone_of hl (mem_allRegs_gpio hp g) rfl hc (by simp) (by simp) (by simp) hw
  simpa only [softWrite, soft_ports, soft_config, hpt] using hdone

/-- `WRITE` of a divisor or control register of a clocked channel, or of its line control where that lowers no FIFO
below a queue, completes with the registers that `regsWrite` makes (R45 to R48, R52). -/
theorem writeDone_channel {s : State} {c : Nat} {ch : Channel} {u : UartReg} {v : Word}
    (hl : layoutWf s.config.layout = true) (hn : c < nChannels s.config) (hc : chanClocked s c = true)
    (hch : (tick s).channels[c]? = some ch) (hu : u ∈ [UartReg.ibrd, .fbrd, .lcrh, .ctl])
    (hs : u = .lcrh → shrinks s.config ch v = false) :
    WriteDone s (addrOf s.config.layout (.uart c u)) v
      { s.soft with channels := s.soft.channels.set c (regsWrite s.config.layout (chanRegsOf ch) u v) } := by
  have hw : ∃ t, writeReg (addrOf s.config.layout (.uart c u)) (.uart c u) v (tick (clearResult s)) = .ok () t := by
    simp only [writeReg, tick_clearResult, clearResult_channels, hch]
    cases u with
    | dr => simp at hu
    | fr => simp at hu
    | lcrh => exact ⟨_, if_neg (by simp [hs rfl])⟩
    | _ => exact ⟨_, rfl⟩
  obtain ⟨t, hw⟩ := hw
  have hdone := writeDone_of hl (mem_allRegs_uart hn u) (by cases u <;> simp at hu ⊢ <;> rfl) hc
    (by rintro _ ⟨⟩; simp at hu) (by simp) (by simp) hw
  have hregs : s.soft.channels[c]? = some (chanRegsOf ch) := by rw [← tick_soft]; exact soft_channel hch
  simpa only [softWrite, hregs, soft_config] using hdone

/-- Settles O18: `writeDone_gate`, `writeDone_port` and `writeDone_channel`, whose new registers are these. -/
theorem plainWritesStoreTheWord : Obligations.PlainWritesStoreTheWord := by
  intro s v hwf
  have hl := configWf_layout hwf
  refine ⟨writeDone_gate v hl (.inl rfl), writeDone_gate v hl (.inr rfl), fun p pt hp hc hpt => ?_,
    fun c ch hn hc hch => ?_⟩
  · exact ⟨writeDone_port .data v hl hp hc hpt, writeDone_port .dir v hl hp hc hpt⟩
  · obtain ⟨ch', hch', hregs⟩ := channel_of_soft (tick_soft s) hch
    rw [← hregs]
    exact ⟨writeDone_channel (u := .ctl) hl hn hc hch' (by simp) (by simp),
      writeDone_channel (u := .ibrd) hl hn hc hch' (by simp) (by simp),
      writeDone_channel (u := .fbrd) hl hn hc hch' (by simp) (by simp)⟩

/-- The commit filter of a pin register, over the commit bits of a port (R42). -/
theorem commitByte_port {l : Layout} (hl : Placed l) (pt : Port) (old v : Word) (j : Nat) :
    (commitByte lowByte (committedPins l pt) old v).getLsbD j =
      if j < 8 ∧ pt.cr.getLsbD j = false then old.getLsbD j else v.getLsbD j := by
  rw [commitByte_bit, committedPins_bit hl]
  by_cases hj : j < 8 <;> simp [hj]

/-- Settles O19: `writePort` applies the commit filter, bit by bit and nibble by nibble. -/
theorem commitFilterKeepsUncommittedPins : Obligations.CommitFilterKeepsUncommittedPins := by
  intro s v p pt hwf hp hc hpt
  have hl := configWf_layout hwf
  have hplaced := layoutWf_placed hl
  refine ⟨⟨_, writeDone_port .afsel v hl hp hc hpt, fun j => ?_⟩, ⟨_, writeDone_port .den v hl hp hc hpt, fun j => ?_⟩,
    ⟨_, writeDone_port .pctl v hl hp hc hpt, fun i k hi hk => ?_⟩⟩
  · rw [hplaced.afselA, commitByte_port hplaced]
  · rw [hplaced.denE, commitByte_port hplaced]
  · rw [hplaced.pctlF, commitNibbles_bit _ _ _ i k hi hk, committedPins_bit hplaced]
    simp [hi]

/-- Settles O20: writes by `writeDone_port`, reads by `exec_read_plain`. -/
theorem lockRegisterGuardsCommit : Obligations.LockRegisterGuardsCommit := by
  intro s v p pt hwf hp hc hpt
  have hl := configWf_layout hwf
  have hcr := writeDone_port .cr v hl hp hc hpt
  refine ⟨writeDone_port .lock v hl hp hc hpt, ?_, fun hunlocked => ?_, fun hlocked => ?_, ?_⟩
  · exact exec_read_plain hl (mem_allRegs_gpio hp .lock) hc (by simp [plainWord, hpt])
  · simpa only [writePort, hunlocked, if_true] using hcr
  · simp only [writePort, hlocked, Bool.false_eq_true, if_false, set_same hpt] at hcr
    exact hcr
  · exact exec_read_plain hl (mem_allRegs_gpio hp .cr) hc (by simp [plainWord, hpt])

/-- A bus write that is refused refuses `WRITE` (R243). -/
theorem exec_write_refused {s : State} {a v : Word} {why : Refusal} (h : busWrite a v (clearResult s) = .refused why) :
    exec (.write a v) s = .refused why := by
  refine runMicros_refused (m := .write a v) (s := clearResult s) ?_
  rw [runMicro, h, refused_bind]

/-- Settles O21: `shrinks` decides the refusal of R52, and where it says no the write latches. -/
theorem lineControlWriteLatchesTheDivisors : Obligations.LineControlWriteLatchesTheDivisors := by
  intro s v c ch hwf hn hc hch
  have hl := configWf_layout hwf
  have hplaced := layoutWf_placed hl
  refine ⟨fun hfits => ?_, fun hlowers => ?_⟩
  · have hs : shrinks s.config ch v = false := Bool.eq_false_iff.2 fun h => hfits ((shrinks_iff ..).1 h)
    have hdone := writeDone_channel (u := .lcrh) hl hn hc hch (by simp) fun _ => hs
    simpa only [regsWrite, hplaced.divint, hplaced.divfrac, chanRegsOf] using hdone
  · have hs : shrinks s.config ch v = true := (shrinks_iff ..).2 hlowers
    have hbus := busWrite_at (s := clearResult s) (r := .uart c .lcrh) hl (mem_allRegs_uart hn _) rfl hc v
    exact exec_write_refused (hbus.trans (by simp [writeReg, writeChannel, hch, hs]))

/-- What a write of `DR` leaves in the queues of the channel (R50). -/
theorem chanQueuesOf_pushTx (c : Config) (ch : Channel) (b : Byte) :
    chanQueuesOf (pushTx c ch b) =
      { chanQueuesOf ch with txq := if ch.txq.length < fifoCap c ch then ch.txq ++ [b] else ch.txq } := by
  unfold pushTx
  split <;> rfl

/-- Settles O22: `DR` is written by `busWrite_dr`, and a pushed byte is no register. -/
theorem writeOfDataRegisterPushesOneByte : Obligations.WriteOfDataRegisterPushesOneByte := by
  intro s v c ch hwf hn hc hch
  have hbus := busWrite_dr (s := clearResult s) (ch := ch) v (configWf_layout hwf) hn hc (by simpa using hch)
  rw [clearResult_config] at hbus
  have hsoft := soft_setChannel_same hch (chanRegsOf_pushTx s.config ch (v.setWidth 8))
  refine ⟨_, exec_write_next hbus, ?_, ?_, by simpa using busWrite_trace hbus, by simp, rfl, by simp, by simp⟩
  · rw [soft_setPending, soft_logBus, tick_clearResult]
    exact hsoft.trans (tick_soft s)
  · rw [hidden_setPending, hidden_logBus, hidden_setChannel, tick_clearResult, hidden_clearResult, chanQueuesOf_pushTx]

end Sys2Proof.Machine
end

section
/-! SUPPORT. The system clock as a number: its value in each case of 10_state.md R32. -/

namespace Sys2Proof.Machine

theorem divHz_eq_div (hz : Rat) (n : Nat) : divHz hz n = hz / n := by
  rw [divHz, Rat.mkRat_eq_div]
  push_cast
  rw [← div_div, Rat.num_div_den]

theorem oscHz_eq (s : State) :
    oscHz s = some (if effOscsrc s = oscsrcExternal then (xtalHz : Rat) else s.config.intOscHz) := by
  unfold oscHz
  split <;> rfl

theorem rawHz_bypassed {s : State} (h : effBypass s = true) : rawHz s = oscHz s := if_pos h

theorem rawHz_not_bypassed {s : State} (h : effBypass s = false) : rawHz s = pllHz s := if_neg (by simp [h])

theorem rawHz_eq_none_iff {s : State} :
    rawHz s = none ↔ effBypass s = false ∧
      ¬ (s.pllLocked = true ∧ effOscsrc s = oscsrcExternal ∧ xtalCode s = s.config.xtalCode16MHz) := by
  cases hb : effBypass s with
  | true => simp [rawHz_bypassed hb, oscHz_eq]
  | false => simp [rawHz_not_bypassed hb, pllHz]

/-- The raw clock is never negative where the internal oscillator's frequency is not. -/
theorem rawHz_nonneg {s : State} (h0 : 0 ≤ s.config.intOscHz) {hz : Rat} (h : rawHz s = some hz) : 0 ≤ hz := by
  cases hb : effBypass s with
  | true =>
    rw [rawHz_bypassed hb, oscHz_eq, Option.some.injEq] at h
    subst h
    split
    · exact Nat.cast_nonneg _
    · exact h0
  | false =>
    rw [rawHz_not_bypassed hb, pllHz] at h
    split at h
    · cases h; exact Nat.cast_nonneg _
    · cases h

theorem sysclkHz_eq (s : State) :
    sysclkHz s = (rawHz s).map fun raw => if dividerOn s then raw / ((effSysdiv s : Rat) + 1) else raw := by
  unfold sysclkHz
  split <;> simp [divHz_eq_div]

theorem configWf_intOscHz {c : Config} (h : configWf c = true) : 0 ≤ c.intOscHz := by
  simp only [configWf, Bool.and_eq_true, decide_eq_true_eq] at h
  tauto

/-- Settles O59: the system clock is the raw clock of `rawHz`, divided if the divider is on. -/
theorem systemClockFollowsTheRegisters : Obligations.SystemClockFollowsTheRegisters := by
  intro s hwf
  refine ⟨fun hb => ?_, fun hb hlocked hosc hxtal => ?_, ?_, fun raw hraw => ?_, fun hz hsys => ?_⟩
  · have hxtal : (xtalHz : Rat) = 16000000 := by norm_num [xtalHz]
    rw [rawHz_bypassed hb, oscHz_eq, hxtal]
    rfl
  · rw [rawHz_not_bypassed hb, pllHz, if_pos ⟨hlocked, hosc, hxtal⟩]
    norm_num [pllOutHz]
  · rw [sysclkHz_eq, Option.map_eq_none_iff]
    exact rawHz_eq_none_iff
  · rw [sysclkHz_eq, hraw, Option.map_some]
  · rw [sysclkHz_eq, Option.map_eq_some_iff] at hsys
    obtain ⟨raw, hraw, rfl⟩ := hsys
    have h0 := rawHz_nonneg (configWf_intOscHz hwf) hraw
    split
    · positivity
    · exact h0

end Sys2Proof.Machine
end

section
/-! SUPPORT. The state right after reset, under every well-formed configuration (10_state.md R60 to R63). -/

namespace Sys2Proof.Machine

/-! The reset words of the clock-control registers (R61). -/

/-- What `layoutWf` says of the fields of the two clock-control registers. -/
structure ClockFields (l : Layout) : Prop where
  lSysdiv : fieldOk 4 l.lSysdiv = true
  diven : fieldOk 1 l.diven = true
  lPwrdn : fieldOk 1 l.lPwrdn = true
  lBypass : fieldOk 1 l.lBypass = true
  xtal : fieldOk 5 l.xtal = true
  lOscsrc : fieldOk 2 l.lOscsrc = true
  legacyApart : fieldsDisjoint [l.lSysdiv, l.diven, l.lPwrdn, l.lBypass, l.xtal, l.lOscsrc] = true
  altsel : fieldOk 1 l.altsel = true
  sysdiv : fieldOk 6 l.sysdiv = true
  pwrdn : fieldOk 1 l.pwrdn = true
  bypass : fieldOk 1 l.bypass = true
  oscsrc : fieldOk 3 l.oscsrc = true
  altApart : fieldsDisjoint [l.altsel, l.sysdiv, l.pwrdn, l.bypass, l.oscsrc] = true

theorem layoutWf_clockFields {l : Layout} (h : layoutWf l = true) : ClockFields l := by
  simp only [layoutWf, Bool.and_eq_true] at h
  constructor <;> tauto

/-- A one-bit field keeps its value when a field apart from it is set. -/
theorem fieldFlag_fieldSet_apart {w : Nat} {f g : Field} (hf : fieldOk w f = true) (hg : fieldOk 1 g = true)
    (h : fieldsApart f g = true) (v : Nat) (old : Word) : fieldFlag g (fieldSet f v old) = fieldFlag g old := by
  rw [fieldFlag_eq_get hg, fieldFlag_eq_get hg, fieldGet_fieldSet_apart hf hg h]

theorem fieldFlag_fieldSet {f : Field} (h : fieldOk 1 f = true) (b : Bool) (old : Word) :
    fieldFlag f (fieldSet f b.toNat old) = b := by
  rw [fieldFlag_eq_get h, fieldGet_fieldSet h old (by cases b <;> decide)]
  cases b <;> rfl

/-- `CLK_LEGACY` after reset: no divider, powered down, bypassed, on the internal oscillator (R61). -/
theorem legacyReset_fields {l : Layout} (h : ClockFields l) :
    fieldFlag l.diven (legacyReset l) = false ∧ fieldFlag l.lPwrdn (legacyReset l) = true ∧
      fieldFlag l.lBypass (legacyReset l) = true ∧ fieldGet l.lOscsrc (legacyReset l) = 1 := by
  obtain ⟨hsysdiv, hdiven, hpwrdn, hbypass, hxtal, hosc, hapart, -, -, -, -, -, -⟩ := h
  simp only [fieldsDisjoint, List.all_cons, List.all_nil, Bool.and_true, Bool.and_eq_true] at hapart
  obtain ⟨⟨s1, s2, s3, s4, s5⟩, ⟨d1, d2, d3, d4⟩, ⟨p1, p2, p3⟩, ⟨b1, b2⟩, x1⟩ := hapart
  refine ⟨?_, ?_, ?_, ?_⟩
  · rw [legacyReset, fieldFlag_fieldSet_apart hsysdiv hdiven s1]
    exact fieldFlag_fieldSet hdiven false _
  · rw [legacyReset, fieldFlag_fieldSet_apart hsysdiv hpwrdn s2, fieldFlag_fieldSet_apart hdiven hpwrdn d1]
    exact fieldFlag_fieldSet hpwrdn true _
  · rw [legacyReset, fieldFlag_fieldSet_apart hsysdiv hbypass s3, fieldFlag_fieldSet_apart hdiven hbypass d2,
      fieldFlag_fieldSet_apart hpwrdn hbypass p1]
    exact fieldFlag_fieldSet hbypass true _
  · rw [legacyReset, fieldGet_fieldSet_apart hsysdiv hosc s5, fieldGet_fieldSet_apart hdiven hosc d4,
      fieldGet_fieldSet_apart hpwrdn hosc p3,
      fieldGet_fieldSet_apart hbypass hosc b2, fieldGet_fieldSet_apart hxtal hosc x1]
    exact fieldGet_fieldSet hosc _ (by decide)

/-- `CLK_ALT` after reset: not selected, powered down, bypassed, on the internal oscillator (R61). -/
theorem altReset_fields {l : Layout} (h : ClockFields l) :
    fieldFlag l.altsel (altReset l) = false ∧ fieldFlag l.pwrdn (altReset l) = true ∧
      fieldFlag l.bypass (altReset l) = true ∧ fieldGet l.oscsrc (altReset l) = 1 := by
  obtain ⟨-, -, -, -, -, -, -, hsel, hsysdiv, hpwrdn, hbypass, hosc, hapart⟩ := h
  simp only [fieldsDisjoint, List.all_cons, List.all_nil, Bool.and_true, Bool.and_eq_true] at hapart
  obtain ⟨⟨a1, a2, a3, a4⟩, ⟨s1, s2, s3⟩, ⟨p1, p2⟩, b1⟩ := hapart
  refine ⟨?_, ?_, ?_, ?_⟩
  · rw [altReset]
    exact fieldFlag_fieldSet hsel false _
  · rw [altReset, fieldFlag_fieldSet_apart hsel hpwrdn a2, fieldFlag_fieldSet_apart hsysdiv hpwrdn s1]
    exact fieldFlag_fieldSet hpwrdn true _
  · rw [altReset, fieldFlag_fieldSet_apart hsel hbypass a3, fieldFlag_fieldSet_apart hsysdiv hbypass s2,
      fieldFlag_fieldSet_apart hpwrdn hbypass p1]
    exact fieldFlag_fieldSet hbypass true _
  · rw [altReset, fieldGet_fieldSet_apart hsel hosc a4, fieldGet_fieldSet_apart hsysdiv hosc s3,
      fieldGet_fieldSet_apart hpwrdn hosc p2, fieldGet_fieldSet_apart hbypass hosc b1]
    exact fieldGet_fieldSet hosc _ (by decide)

/-! The ports and channels after reset (R62, R63). -/

theorem resetOf_port {c : Config} {p : Nat} {pt : Port} (h : (State.resetOf c).ports[p]? = some pt) :
    pt = Port.reset c p := by
  obtain ⟨hlt, rfl⟩ := List.getElem?_eq_some_iff.1 h
  simp [State.resetOf]

theorem resetOf_channel {c : Config} {ch : Channel} (h : ch ∈ (State.resetOf c).channels) : ch = Channel.reset := by
  obtain ⟨-, -, rfl⟩ := List.mem_map.1 h
  rfl

/-- `CR.C` is the complement of `PROTECTED` (R62). -/
theorem committedPins_reset {c : Config} (h : Placed c.layout) (p : Nat) :
    committedPins c.layout (Port.reset c p) = ~~~(c.protectedPins.getD p 0) := by
  rw [committedPins, h.crC, byteField_lowByte]
  simp [Port.reset, crReset, h.crC, lowByte]

theorem channelReset_atReset (l : Layout) : chanAtReset l Channel.reset := by
  refine ⟨rfl, rfl, rfl, rfl, ?_, ?_, ?_⟩ <;> exact BitVec.getLsbD_zero

/-- With nothing done yet every clause about the lock, the stages and the queues is met. -/
theorem resetOf_inv {c : Config} (h : configWf c = true) : (State.resetOf c).Inv where
  config := h
  ports := by simp [State.resetOf]
  channels := by simp [State.resetOf]
  clkStep := Nat.zero_le _
  clkStage := rfl
  fifos ch hch := resetOf_channel hch ▸ fifosFit_iff.2 ⟨Nat.zero_le _, Nat.zero_le _⟩
  lockSeen := fun hlocked => absurd hlocked Bool.false_ne_true
  lockPowered := fun hlocked => absurd hlocked Bool.false_ne_true
  gated := fun h9 => absurd h9 (Nat.not_succ_le_zero 8)
  micros := rfl
  forward := rfl

/-- Settles O7, by `resetOf_inv` for the reference configuration and for every other. -/
theorem resetSatisfiesTheInvariant : Obligations.ResetSatisfiesTheInvariant :=
  ⟨resetOf_inv configRef_wf, fun _ h => resetOf_inv h⟩

theorem resetOf_clockAtReset {c : Config} (h : layoutWf c.layout = true) : clockAtReset (State.resetOf c) := by
  obtain ⟨hdiven, hlpwrdn, hlbypass, hlosc⟩ := legacyReset_fields (layoutWf_clockFields h)
  obtain ⟨haltsel, hpwrdn, hbypass, hosc⟩ := altReset_fields (layoutWf_clockFields h)
  exact ⟨rfl, rfl, haltsel, hlpwrdn, hpwrdn, hlbypass, hbypass, hlosc ▸ Nat.one_ne_zero, hosc ▸ Nat.one_ne_zero, hdiven⟩

theorem resetOf_atReset {c : Config} (h : layoutWf c.layout = true) : (State.resetOf c).AtReset := by
  refine ⟨rfl, rfl, rfl, resetOf_clockAtReset h, rfl, rfl, by simp [State.resetOf], fun p pt hpt => ?_,
    by simp [State.resetOf], fun ch hch => ?_, rfl, rfl⟩
  · rw [resetOf_port hpt]
    exact ⟨rfl, rfl, committedPins_reset (layoutWf_placed h) p⟩
  · rw [resetOf_channel hch]
    exact channelReset_atReset _

/-- As R60 to R63 leave the clock registers, the system clock is the internal oscillator's. -/
theorem clockAtReset_sysclkHz {s : State} (h : clockAtReset s) : sysclkHz s = some s.config.intOscHz := by
  obtain ⟨-, -, haltsel, -, -, hbypass, -, hosc, -, hdiven⟩ := h
  have hsel : altSelected s = false := haltsel
  have hbyp : effBypass s = true := by simp [effBypass, hsel, hbypass]
  have hsrc : effOscsrc s ≠ oscsrcExternal := by simpa [effOscsrc, hsel] using hosc
  have hdiv : dividerOn s = false := hdiven
  simp [sysclkHz_eq, rawHz_bypassed hbyp, oscHz_eq, hsrc, hdiv]

/-- Settles O10, by `resetOf_atReset` for the reference configuration and for every other. -/
theorem resetIsAsTheSpecSays : Obligations.ResetIsAsTheSpecSays := by
  have key : ∀ c : Config, configWf c = true →
      (State.resetOf c).AtReset ∧ sysclkHz (State.resetOf c) = some c.intOscHz :=
    fun c h => ⟨resetOf_atReset (configWf_layout h), clockAtReset_sysclkHz (resetOf_clockAtReset (configWf_layout h))⟩
  exact ⟨key configRef configRef_wf, key⟩

end Sys2Proof.Machine
end

section
/-! SUPPORT. The rate, the bit time and the idle level of the line (10_state.md R56, 45_hardware_agents.md R224). -/

namespace Sys2Proof.Machine

theorem baudRate_of_int_ne {f : WireFormat} (h : f.int ≠ 0#16) :
    baudRate f = some (4 * f.clk / (64 * f.int.toNat + f.frac.toNat)) := by
  rw [baudRate, if_neg h, Rat.mkRat_eq_div]
  push_cast
  rw [← div_div, mul_div_assoc, Rat.num_div_den]

theorem bitTime_of_int_ne {f : WireFormat} (h : f.int ≠ 0#16) (hc : 0 < f.clk) :
    bitTime f = some ((64 * f.int.toNat + f.frac.toNat) / (4 * f.clk)) := by
  have hnum : 0 < f.clk.num := Rat.num_pos.2 hc
  have hcast : ((f.clk.num.toNat : Nat) : Rat) = f.clk.num := by
    exact_mod_cast Int.toNat_of_nonneg hnum.le
  rw [bitTime, if_neg (by rintro (h0 | h0) <;> [exact h h0; omega]), Rat.mkRat_eq_div]
  push_cast
  rw [hcast, ← div_div_eq_mul_div, mul_div_assoc, Rat.num_div_den]

theorem sourceFormat_divisors :
    sourceFormat.clk = 50000000 ∧ sourceFormat.int.toNat = 27 ∧ sourceFormat.frac.toNat = 8 := ⟨rfl, rfl, rfl⟩

theorem sourceFormat_baudRate : baudRate sourceFormat = some (50000000 / 434) := by
  obtain ⟨hclk, hint, hfrac⟩ := sourceFormat_divisors
  rw [baudRate_of_int_ne (by decide), hclk, hint, hfrac]
  norm_num

theorem sourceFormat_bitTime : bitTime sourceFormat = some (434 / 50000000) := by
  obtain ⟨hclk, hint, hfrac⟩ := sourceFormat_divisors
  rw [bitTime_of_int_ne (by decide) (by rw [hclk]; norm_num), hclk, hint, hfrac]
  norm_num

/-- The line idles high before a frame and after it (R224). -/
theorem lineLevel_outside {bits : List Bool} {k : Int} (h : k < 0 ∨ (bits.length : Int) ≤ k) :
    lineLevel bits k = true := by
  unfold lineLevel
  split
  · rfl
  · rename_i hk
    rw [List.getD_eq_default _ _ (by omega)]
    rfl

/-- Settles O45: the numbers of the source format, the frame bit by bit, and the idle line. -/
theorem sourceFormatOnTheWire : Obligations.SourceFormatOnTheWire := by
  refine ⟨sourceFormat_baudRate, sourceFormat_bitTime, ?_, fun bits k hk => lineLevel_outside hk, fun f hf => ?_⟩
  · rw [wireFrame, Option.bind_some, Option.bind_some, sourceFormat_bitTime]
    rfl
  · exact ⟨if_pos hf, if_pos (.inl hf)⟩

end Sys2Proof.Machine
end

section
/-! SUPPORT. How a command ends with a fault at its first access, and what the fault then carries: the state that the
agents scheduled before the access left (20_memory.md R86, R87; 60_exceptions.md R242, R248, R256). -/

namespace Sys2Proof.Machine

/-! A fault of the first access is the fault of the command. -/

theorem exec_read_fault {s : State} {a : Word} {f : Fault} (h : busRead a (clearResult s) = .fault f) :
    exec (.read a) s = .fault f := by
  show answer (Res.bind (busRead a (clearResult s)) _) = _
  rw [h]; rfl

theorem readChannelFor_fault {s : State} {c : Nat} {u : UartReg} {g : ReadValue → Word} {f : Fault}
    (hn : c < nChannels s.config) (h : busRead (chanAddr s.config c u) (clearResult s) = .fault f) :
    readChannelFor c u g s = .fault f := by
  rw [readChannelFor, if_pos (inRange_channel hn), h]; rfl

theorem runMicro_write_fault {s : State} {a v : Word} {f : Fault} (h : busWrite a v s = .fault f) :
    runMicro (.write a v) s = .fault f := by
  rw [runMicro, h]; rfl

/-- `MODIFY` reads first: where the read faults the write does not happen (R143). -/
theorem runMicro_modify_fault {s : State} {a st cl : Word} {f : Fault} (h : busRead a s = .fault f) :
    runMicro (.modify a st cl) s = .fault f := by
  rw [runMicro, busModify, h]; rfl

/-- `MODIFY` of a register that answers the read and faults the write (R143). -/
theorem runMicro_modify_writeFault {s t : State} {a st cl : Word} {v : ReadValue} {f : Fault}
    (hread : busRead a s = .ok v t) (hwrite : busWrite a (clearThenSet v.word st cl) t = .fault f) :
    runMicro (.modify a st cl) s = .fault f := by
  rw [runMicro, busModify, hread, ok_bind, hwrite]; rfl

/-- The full-flag loop faults at its first read (R190). -/
theorem runMicro_txWait_fault {s : State} {c : Nat} {f : Fault} (h : busRead (chanAddr s.config c .fr) s = .fault f) :
    runMicro (.txWait c) s = .fault f := by
  show Res.bind (Res.bind (busRead (chanAddr s.config c .fr) s) _) _ = _
  rw [h]; rfl

theorem runCommand_fault {m : Micro} {ms : List Micro} {s : State} {f : Fault}
    (h : runMicro m (clearResult s) = .fault f) : runCommand (m :: ms) s = .fault f := runMicros_fault h

/-- After a range check that passes, the first access decides (R248). -/
theorem runCommand_inRange_fault {ps cs : List Nat} {m : Micro} {ms : List Micro} {s : State} {f : Fault}
    (hr : inRange s ps cs = true) (h : runMicro m (clearResult s) = .fault f) :
    runCommand (.inRange ps cs :: m :: ms) s = .fault f := by
  have hchecked : runMicro (.inRange ps cs) (clearResult s) = .ok .done (clearResult s) := runMicro_inRange hr
  exact (runMicros_done hchecked).trans (runMicros_fault h)

/-! The last state of such a fault. -/

/-- What stands just before the first access of a command: nothing of the command has happened (R256). -/
theorem beforeAccess_frame (s : State) :
    (tick (clearResult s)).soft = s.soft ∧ (tick (clearResult s)).hidden = (tick s).hidden ∧
      (tick (clearResult s)).trace = s.trace := by simp

theorem faultsInvalid_of {i : Instr} {s : State} {a : Word}
    (h : exec i s = .fault (.invalidAddress (some a) (tick (clearResult s)))) : FaultsInvalid i s a :=
  ⟨_, h, beforeAccess_frame s⟩

theorem faultsUnclocked_of {i : Instr} {s : State} {a : Word}
    (h : exec i s = .fault (.unclocked a (tick (clearResult s)))) : FaultsUnclocked i s a :=
  ⟨_, h, beforeAccess_frame s⟩

/-! No register, and read-only registers (R86). -/

/-- The read-only registers are the two status registers (R57). -/
theorem writable_eq_false_iff {r : Reg} : writable r = false ↔ r = .ris ∨ ∃ c, r = .uart c .fr := by
  cases r with
  | uart c u => cases u <;> simp [writable]
  | _ => simp [writable]

/-- A status register answers a read, whatever the ports hold (R28, R49). -/
theorem readReg_readOnly {s : State} {r : Reg} (a : Word) (hb : writable r = false) (hr : r ∈ allRegs s.config.layout)
    (hn : s.channels.length = nChannels s.config) : ∃ v t, readReg a r s = .ok v t := by
  obtain rfl | ⟨c, rfl⟩ := writable_eq_false_iff.1 hb
  · exact ⟨_, _, rfl⟩
  · obtain ⟨ch, hch⟩ : ∃ ch, s.channels[c]? = some ch := by
      obtain h | ⟨p, g, -, h⟩ | ⟨c', u, hc, h⟩ := mem_allRegs_cases hr
      · simp [sysRegs] at h
      · cases h
      · cases h
        exact ⟨_, List.getElem?_eq_getElem (hn ▸ hc)⟩
    exact ⟨_, _, by simp only [readReg, hch, readChannel]; rfl⟩

/-- A bus read of a clocked status register answers (R84). -/
theorem busRead_readOnly {s : State} {a : Word} {r : Reg} (hr : locate s.config.layout a = some r)
    (hb : writable r = false) (hc : clocked s r = true) (hn : s.channels.length = nChannels s.config) :
    ∃ v t, busRead a s = .ok v t := by
  have hmem : r ∈ allRegs (tick s).config.layout := by rw [tick_config]; exact (locate_mem hr).1
  have hlen : (tick s).channels.length = nChannels (tick s).config := by
    rw [channels_length_of_soft (tick_soft s), hn, tick_config]
  obtain ⟨v, t, hread⟩ := readReg_readOnly a hb hmem hlen
  exact ⟨v, _, by simp only [busRead, tick_config, hr, tick_clocked, hc, if_true, hread, ok_bind]; rfl⟩

theorem faultsInvalid_write_readOnly {s : State} {a : Word} {r : Reg} (v : Word)
    (hr : locate s.config.layout a = some r) (hb : writable r = false) : FaultsInvalid (.write a v) s a :=
  faultsInvalid_of (runCommand_fault (runMicro_write_fault (busWrite_readOnly (s := clearResult s) hr hb)))

/-- `MODIFY` of a clocked status register: the read stands in the trace, the write faults (R143, R256). -/
theorem exec_modify_readOnly {s : State} {a : Word} {r : Reg} (st cl : Word) (hr : locate s.config.layout a = some r)
    (hb : writable r = false) (hc : clocked s r = true) (hn : s.channels.length = nChannels s.config) :
    ∃ last w, exec (.modify a st cl) s = .fault (.invalidAddress (some a) last) ∧ last.soft = s.soft ∧
      last.trace = s.trace ++ [{ kind := .read, address := a, value := w }] := by
  obtain ⟨v, t, hread⟩ :=
    busRead_readOnly (s := clearResult s) hr hb ((clocked_clearResult s r).trans hc) hn
  have hloc : locate t.config.layout a = some r := by rw [elementary_config.busRead hread]; exact hr
  have hfault := runMicro_modify_writeFault hread (busWrite_readOnly (v := clearThenSet v.word st cl) hloc hb)
  refine ⟨tick t, v.word, runCommand_fault hfault, ?_, ?_⟩
  · rw [tick_soft, busRead_soft hread, soft_clearResult]
  · rw [tick_trace, busRead_trace hread, clearResult_trace]

/-- Settles O12: where no register answers the first access faults; a status register faults the write. -/
theorem invalidAccessesFault : Obligations.InvalidAccessesFault := by
  intro s a v st cl
  refine ⟨fun hnone => ?_, fun hstatus => ?_⟩
  · have hread := busRead_none (s := clearResult s) hnone
    have hwrite := busWrite_none (s := clearResult s) (v := v) hnone
    exact ⟨faultsInvalid_of (exec_read_fault hread),
      faultsInvalid_of (runCommand_fault (runMicro_write_fault hwrite)),
      faultsInvalid_of (runCommand_fault (runMicro_modify_fault hread))⟩
  · obtain ⟨r, hr, hb⟩ : ∃ r, locate s.config.layout a = some r ∧ writable r = false := by
      obtain h | ⟨c, h⟩ := hstatus <;> exact ⟨_, h, rfl⟩
    refine ⟨faultsInvalid_write_readOnly v hr hb, fun r' hr' hc hn => ?_⟩
    obtain rfl : r = r' := Option.some.inj (hr.symm.trans hr')
    exact exec_modify_readOnly st cl hr hb hc hn

/-! Closed gates (R87). -/

/-- The first access of a command, at a register whose gate is closed, is a fault if it is a read. -/
theorem busRead_closedGate {s : State} {r : Reg} (hl : layoutWf s.config.layout = true)
    (hr : r ∈ allRegs s.config.layout) (hc : clocked s r = false) :
    busRead (addrOf s.config.layout r) (clearResult s) =
      .fault (.unclocked (addrOf s.config.layout r) (tick (clearResult s))) :=
  busRead_unclocked (locate_addrOf hl hr) ((clocked_clearResult s r).trans hc)

/-- The same for a write of a register that may be written. -/
theorem busWrite_closedGate {s : State} {r : Reg} (v : Word) (hl : layoutWf s.config.layout = true)
    (hr : r ∈ allRegs s.config.layout) (hb : writable r = true) (hc : clocked s r = false) :
    busWrite (addrOf s.config.layout r) v (clearResult s) =
      .fault (.unclocked (addrOf s.config.layout r) (tick (clearResult s))) :=
  busWrite_unclocked (locate_addrOf hl hr) hb ((clocked_clearResult s r).trans hc)

/-- Settles O13: the gate is checked after the address and the kind of access, before anything is done (R248). -/
theorem unclockedAccessesFault : Obligations.UnclockedAccessesFault := by
  intro s r v st cl hwf hr hc
  have hl := configWf_layout hwf
  have hread := busRead_closedGate hl hr hc
  exact ⟨faultsUnclocked_of (exec_read_fault hread),
    faultsUnclocked_of (runCommand_fault (runMicro_modify_fault hread)),
    fun hb => faultsUnclocked_of (runCommand_fault (runMicro_write_fault (busWrite_closedGate v hl hr hb hc))),
    fun hb => faultsInvalid_write_readOnly v (locate_addrOf hl hr) hb⟩

/-- `CONFIGURE_PINS` first writes `LOCK` if it unlocks, and reads `AFSEL` otherwise (R172 to R174). -/
theorem faultsUnclocked_configurePins {s : State} {p : Nat} (mask : Byte) (codes : Word) (digital unlock : Bool)
    (hl : layoutWf s.config.layout = true) (hp : p < nPorts s.config) (hc : portClocked s p = false) :
    FaultsUnclocked (.configurePins p mask codes digital unlock) s
      (gpioAddr s.config p (if unlock then .lock else .afsel)) := by
  cases unlock with
  | true =>
    have hlock := busWrite_closedGate s.config.unlockKey hl (mem_allRegs_gpio hp .lock) rfl hc
    exact faultsUnclocked_of (runCommand_inRange_fault (inRange_port hp) (runMicro_write_fault hlock))
  | false =>
    have hafsel := busRead_closedGate hl (mem_allRegs_gpio hp .afsel) hc
    exact faultsUnclocked_of (runCommand_inRange_fault (inRange_port hp) (runMicro_modify_fault hafsel))

/-- Settles O36: each operation passes its range check, and its first access meets the closed gate. -/
theorem operationsOnClosedGatesFault : Obligations.OperationsOnClosedGatesFault := by
  intro s p c m w x y hwf
  have hl := configWf_layout hwf
  refine ⟨fun hp hc => ⟨faultsUnclocked_configurePins m w x y hl hp hc, ?_⟩, fun hn hc => ?_⟩
  · have hdata := busRead_closedGate hl (mem_allRegs_gpio hp .data) hc
    exact faultsUnclocked_of (runCommand_inRange_fault (inRange_port hp) (runMicro_modify_fault hdata))
  · have hread (u : UartReg) := busRead_closedGate hl (mem_allRegs_uart hn u) hc
    exact ⟨faultsUnclocked_of (runCommand_inRange_fault (inRange_channel hn) (runMicro_txWait_fault (hread .fr))),
      faultsUnclocked_of (readChannelFor_fault hn (hread .fr)),
      faultsUnclocked_of (readChannelFor_fault hn (hread .dr)),
      faultsUnclocked_of (readChannelFor_fault hn (hread .fr))⟩

end Sys2Proof.Machine
end

section
/-! SUPPORT. The opcode map of 30_encoding.md R114 as data: one format of R113 per opcode, tied to `decode`, `encode`, the
command lengths and the reserved bits of R122. Each fact about decoding is then proved once per format. -/

namespace Sys2Proof

open Machine

/-! Header words (R112). -/

/-- The fields of a header fit their places in the word (R112). -/
def Header.Fits (h : Header) : Prop := h.op < 2 ^ 8 ∧ h.a < 2 ^ 4 ∧ h.m < 2 ^ 8 ∧ h.f < 2 ^ 4 ∧ h.g < 2 ^ 8

theorem bits_lt (w : Word) (hi lo : Nat) : bits w hi lo < 2 ^ (hi - lo + 1) := Nat.mod_lt _ (Nat.two_pow_pos _)

theorem headerOf_fits (w : Word) : (headerOf w).Fits :=
  ⟨bits_lt w 7 0, bits_lt w 11 8, bits_lt w 19 12, bits_lt w 23 20, bits_lt w 31 24⟩

theorem headerWord_headerOf (w : Word) : headerWord (headerOf w) = w := by
  apply BitVec.eq_of_toNat_eq
  simp only [headerWord, headerOf, bits, BitVec.toNat_ofNat]
  omega

theorem headerOf_headerWord {h : Header} (hfits : h.Fits) : headerOf (headerWord h) = h := by
  obtain ⟨op, a, m, f, g⟩ := h
  obtain ⟨hop, ha, hm, hf, hg⟩ := hfits
  simp only at hop ha hm hf hg
  simp only [headerWord, headerOf, bits, BitVec.toNat_ofNat, Header.mk.injEq]
  omega

theorem decode_headerWord {h : Header} (hfits : h.Fits) (ws : List Word) :
    decode (headerWord h :: ws) = decodeBody h ws := by
  rw [decode, headerOf_headerWord hfits]

theorem eq_opHeader {h : Header} (hzero : (h.a != 0 || h.m != 0 || h.f != 0 || h.g != 0) = false) :
    h = opHeader h.op := by
  obtain ⟨op, a, m, f, g⟩ := h
  simpa [opHeader, and_assoc] using hzero

/-! Formats (R113). -/

/-- A row of R114 without its opcode: the operand format and the operation the operands go to. `R1` is also `W`, `A` is `P`
and `C`, `AM` is `PD` and `CB`, `M` is `I`. -/
inductive Format where
  | N (i : Instr)
  | R1 (k : Word → Instr)
  | R2 (k : Word → Word → Instr)
  | R3 (k : Word → Word → Word → Instr)
  | A (k : Nat → Instr)
  | AM (k : Nat → Byte → Instr)
  | M (k : Byte → Instr)
  | PC
  | CC

/-- The bits of a list of fields. -/
def maskOf (fs : List Field) : Word := fs.foldr (fun f m => fieldMask f ||| m) 0#32

namespace Format

/-- The decoder of a format. -/
@[simp] def run (F : Format) (h : Header) (ws : List Word) : Except DecodeError (Instr × List Word) :=
  match F with
  | N i => formatN h ws i
  | R1 k => formatR1 h ws k
  | R2 k => formatR2 h ws k
  | R3 k => formatR3 h ws k
  | A k => formatA h ws k
  | AM k => formatAM h ws k
  | M k => formatM h ws k
  | PC => formatPC h ws
  | CC => formatCC h ws

/-- How many words a command of the format has (R110). -/
@[simp] def words (F : Format) : Nat :=
  match F with
  | R1 _ | PC | CC => 2
  | R2 _ => 3
  | R3 _ => 4
  | _ => 1

/-- The fields of the header word that the format marks `-` or reserves (R113). -/
@[simp] def reserved (F : Format) : List Field :=
  match F with
  | N _ | R1 _ | R2 _ | R3 _ => [⟨11, 8⟩, ⟨19, 12⟩, ⟨23, 20⟩, ⟨31, 24⟩]
  | A _ => [⟨19, 12⟩, ⟨23, 20⟩, ⟨31, 24⟩]
  | AM _ => [⟨23, 20⟩, ⟨31, 24⟩]
  | M _ => [⟨11, 8⟩, ⟨23, 20⟩, ⟨31, 24⟩]
  | PC => [⟨23, 20⟩, ⟨31, 26⟩]
  | CC => [⟨31, 29⟩]

/-- The reserved fields of the first operand word (R113): only `CC` has any. -/
@[simp] def reservedOperand (F : Format) : List Field :=
  match F with
  | CC => [⟨23, 22⟩, ⟨31, 28⟩]
  | _ => []

/-- How the operations of the format are encoded under an opcode, and what an encoding can carry. -/
def Encodes (F : Format) (op : Nat) : Prop :=
  match F with
  | N i => encode i = [headerWord (opHeader op)] ∧ i.wellFormed = true
  | R1 k => ∀ w, encode (k w) = [headerWord (opHeader op), w] ∧ (k w).wellFormed = true
  | R2 k => ∀ w v, encode (k w v) = [headerWord (opHeader op), w, v] ∧ (k w v).wellFormed = true
  | R3 k => ∀ w v u, encode (k w v u) = [headerWord (opHeader op), w, v, u] ∧ (k w v u).wellFormed = true
  | A k => ∀ a, encode (k a) = [headerWord { opHeader op with a := a }] ∧ (k a).wellFormed = fitsNibble a
  | AM k => ∀ (a : Nat) (m : Byte),
    encode (k a m) = [headerWord { opHeader op with a := a, m := m.toNat }] ∧ (k a m).wellFormed = fitsNibble a
  | M k => ∀ m : Byte, encode (k m) = [headerWord { opHeader op with m := m.toNat }] ∧ (k m).wellFormed = true
  | PC => op = 0x21
  | CC => op = 0x30

end Format

/-- The opcode map (R114). -/
def opcodeMap : List (Nat × Format) :=
  [(0x01, .R1 .read), (0x02, .R2 .write), (0x03, .R3 .modify), (0x10, .N .bringUpClock),
   (0x11, .N .clkSelAlt), (0x12, .N .clkBypassOn), (0x13, .N .clkDivenOff), (0x14, .N .clkSetXtal),
   (0x15, .N .clkSrcExt), (0x16, .N .clkPllOn), (0x17, .N .clkSetDiv), (0x18, .N .clkDivenOn),
   (0x19, .N .clkWaitLock), (0x1A, .N .clkBypassOff), (0x1B, .N .isPllLocked), (0x20, .A .enablePort),
   (0x21, .PC), (0x22, .AM .drivePins), (0x30, .CC), (0x31, .AM .transmitByte), (0x32, .A .receiveAvailable),
   (0x33, .A .receiveByte), (0x34, .A .isTxFifoFull), (0x40, .N .runEchoService), (0x41, .M .ledPulse),
   (0x42, .R1 .delay)]

/-- The format of an opcode, if it is in R114. -/
def formatOf (op : Nat) : Option Format := opcodeMap.lookup op

/-- Decode by the format an opcode has, if it has one (R122). -/
def runFormat (h : Header) (ws : List Word) (F : Option Format) : Except DecodeError (Instr × List Word) :=
  match F with
  | some F => F.run h ws
  | none => .error (.unassignedOpcode h.op)

theorem runFormat_lookup_cons (h : Header) (ws : List Word) (op : Nat) (F : Format) (rows : List (Nat × Format)) :
    runFormat h ws (((op, F) :: rows).lookup h.op) =
      if h.op = op then F.run h ws else runFormat h ws (rows.lookup h.op) := by
  by_cases hop : h.op = op
  · simp [runFormat, hop]
  · simp [List.lookup_cons, runFormat, beq_eq_false_iff_ne.2 hop, hop]

theorem decodeBody_eq_runFormat (h : Header) (ws : List Word) : decodeBody h ws = runFormat h ws (formatOf h.op) := by
  simp only [formatOf, opcodeMap, runFormat_lookup_cons]
  rfl

theorem mem_opcodeMap {op : Nat} {F : Format} (h : formatOf op = some F) : (op, F) ∈ opcodeMap := by
  obtain ⟨before, after, hmap, -⟩ := List.lookup_eq_some_iff.1 h
  exact hmap ▸ List.mem_append_right _ (.head _)

theorem opcodeMap_encodes : ∀ row ∈ opcodeMap, row.2.Encodes row.1 := by
  simp [opcodeMap, Format.Encodes, encode, Instr.wellFormed]

/-- The tables of R110 and R122, row by row. -/
theorem opcodeMap_tables : ∀ row ∈ opcodeMap,
    commandLength row.1 = row.2.words ∧ reservedBits row.1 = some (maskOf row.2.reserved) ∧
      maskOf row.2.reservedOperand = if row.1 = 0x30 then 0xF0C00000#32 else 0#32 := by decide

theorem reservedBits_isSome : ∀ op < 2 ^ 8, (reservedBits op).isSome = (formatOf op).isSome := by decide +kernel

/-- A command decodes exactly if its opcode has a format that decodes it. -/
theorem decode_eq_ok_iff {w : Word} {ws rest : List Word} {i : Instr} :
    decode (w :: ws) = .ok (i, rest) ↔
      ∃ F, formatOf (bits w 7 0) = some F ∧ F.run (headerOf w) ws = .ok (i, rest) := by
  have hdecode : decode (w :: ws) = runFormat (headerOf w) ws (formatOf (bits w 7 0)) :=
    decodeBody_eq_runFormat (headerOf w) ws
  rw [hdecode]
  cases formatOf (bits w 7 0) <;> simp [runFormat]

/-! What a format decodes. -/

theorem acceptIfZero_eq_ok_iff {nonzero : Bool} {op : Nat} {i j : Instr} {ws rest : List Word} :
    acceptIfZero nonzero op i ws = .ok (j, rest) ↔ nonzero = false ∧ i = j ∧ ws = rest := by
  cases nonzero <;> simp [acceptIfZero]

theorem toNat_mod_two (n : Nat) : (n % 2 == 1).toNat = n % 2 := by
  obtain h | h := Nat.mod_two_eq_zero_or_one n <;> simp [h]

theorem flag_of_mod {n : Nat} {b : Bool} (h : n % 2 = b.toNat) : (n % 2 == 1) = b := by
  rw [h]; cases b <;> rfl

theorem toNat_ofNat_of_lt {w n : Nat} (h : n < 2 ^ w) : (BitVec.ofNat w n).toNat = n :=
  (BitVec.toNat_ofNat n w).trans (Nat.mod_eq_of_lt h)

/-- The operand word of `UART_CONFIGURE` (R113). -/
def bindingWord (baudInt baudFrac port : Nat) : Word := BitVec.ofNat 32 (baudInt + baudFrac * 2 ^ 16 + port * 2 ^ 24)

theorem bits_bindingWord {bi bf p : Nat} (hbi : bi < 2 ^ 16) (hbf : bf < 2 ^ 6) (hp : p < 2 ^ 4) :
    bits (bindingWord bi bf p) 15 0 = bi ∧ bits (bindingWord bi bf p) 21 16 = bf ∧
      bits (bindingWord bi bf p) 27 24 = p ∧ bits (bindingWord bi bf p) 23 22 = 0 ∧
      bits (bindingWord bi bf p) 31 28 = 0 := by
  simp only [bits, bindingWord, BitVec.toNat_ofNat]
  omega

theorem bindingWord_bits {w : Word} (h1 : bits w 23 22 = 0) (h2 : bits w 31 28 = 0) :
    bindingWord (bits w 15 0) (bits w 21 16) (bits w 27 24) = w := by
  apply BitVec.eq_of_toNat_eq
  simp only [bits, bindingWord, BitVec.toNat_ofNat] at h1 h2 ⊢
  omega

/-- The words of a command are those of an instruction that has an encoding, and the rest (R112, R113). -/
def Spells (h : Header) (ws : List Word) (i : Instr) (rest : List Word) : Prop :=
  headerWord h :: ws = encode i ++ rest ∧ i.wellFormed = true

theorem spells_configurePins {h : Header} {w : Word} {rest : List Word} (hfits : h.Fits) (hop : h.op = 0x21)
    (hf : h.f = 0) (hg : h.g / 4 = 0) :
    Spells h (w :: rest) (.configurePins h.a (BitVec.ofNat 8 h.m) w (h.g % 2 == 1) (h.g / 2 % 2 == 1)) rest := by
  obtain ⟨-, ha, hm, -, -⟩ := hfits
  have hflags : h.g % 2 + 2 * (h.g / 2 % 2) = h.g := by omega
  refine ⟨?_, decide_eq_true ha⟩
  rw [encode, toNat_ofNat_of_lt hm, toNat_mod_two, toNat_mod_two, hflags, ← hop, opHeader, ← hf]
  rfl

theorem spells_uartConfigure {h : Header} {w : Word} {rest : List Word} (hfits : h.Fits) (hop : h.op = 0x30)
    (hg : h.g / 32 = 0) (hw1 : bits w 23 22 = 0) (hw2 : bits w 31 28 = 0) :
    Spells h (w :: rest)
      (.uartConfigure h.a (bits w 27 24) (BitVec.ofNat 8 h.m) (BitVec.ofNat 4 h.f) (BitVec.ofNat 16 (bits w 15 0))
        (BitVec.ofNat 6 (bits w 21 16)) (h.g / 8 % 4 + 5) (h.g / 4 % 2 + 1) (h.g / 2 % 2 == 1) (h.g % 2 == 1)) rest := by
  obtain ⟨-, ha, hm, hf, -⟩ := hfits
  have hflags : h.g % 2 + 2 * (h.g / 2 % 2) + 4 * (h.g / 4 % 2 + 1 - 1) + 8 * (h.g / 8 % 4 + 5 - 5) = h.g := by omega
  constructor
  · have hword : BitVec.ofNat 32 (bits w 15 0 + bits w 21 16 * 2 ^ 16 + bits w 27 24 * 2 ^ 24) = w :=
      bindingWord_bits hw1 hw2
    rw [encode, toNat_ofNat_of_lt hm, toNat_ofNat_of_lt hf, toNat_ofNat_of_lt (bits_lt w 15 0),
      toNat_ofNat_of_lt (bits_lt w 21 16), toNat_mod_two, toNat_mod_two, hflags, hword, ← hop]
    rfl
  · have hp : bits w 27 24 < 16 := bits_lt w 27 24
    have hnibble : h.a < 16 := ha
    simp only [Instr.wellFormed, fitsNibble, fitsWordLength, fitsStopBits, Bool.and_eq_true, decide_eq_true_eq]
    omega

/-- A format accepts only the words of encodings: a reserved bit that is set makes it refuse (R122). -/
theorem Format.spells_of_run {F : Format} {h : Header} {ws rest : List Word} {i : Instr} (hfits : h.Fits)
    (henc : F.Encodes h.op) (hrun : F.run h ws = .ok (i, rest)) : Spells h ws i rest := by
  obtain ⟨op, a, m, f, g⟩ := h
  have ⟨_, ha, hm, _, _⟩ := hfits
  cases F with
  | N j =>
    obtain ⟨hzero, rfl, rfl⟩ := acceptIfZero_eq_ok_iff.1 hrun
    exact ⟨by rw [henc.1, eq_opHeader hzero]; rfl, henc.2⟩
  | R1 k =>
    obtain _ | ⟨w, ws⟩ := ws
    · cases hrun
    obtain ⟨hzero, rfl, rfl⟩ := acceptIfZero_eq_ok_iff.1 hrun
    exact ⟨by rw [(henc w).1, eq_opHeader hzero]; rfl, (henc w).2⟩
  | R2 k =>
    obtain _ | ⟨w, _ | ⟨v, ws⟩⟩ := ws
    · cases hrun
    · cases hrun
    obtain ⟨hzero, rfl, rfl⟩ := acceptIfZero_eq_ok_iff.1 hrun
    exact ⟨by rw [(henc w v).1, eq_opHeader hzero]; rfl, (henc w v).2⟩
  | R3 k =>
    obtain _ | ⟨w, _ | ⟨v, _ | ⟨u, ws⟩⟩⟩ := ws
    · cases hrun
    · cases hrun
    · cases hrun
    obtain ⟨hzero, rfl, rfl⟩ := acceptIfZero_eq_ok_iff.1 hrun
    exact ⟨by rw [(henc w v u).1, eq_opHeader hzero]; rfl, (henc w v u).2⟩
  | A k =>
    obtain ⟨hzero, rfl, rfl⟩ := acceptIfZero_eq_ok_iff.1 hrun
    simp only [Bool.or_eq_false_iff, bne_eq_false_iff_eq] at hzero
    obtain ⟨⟨rfl, rfl⟩, rfl⟩ := hzero
    exact ⟨by rw [(henc a).1]; rfl, (henc a).2.trans (decide_eq_true ha)⟩
  | AM k =>
    obtain ⟨hzero, rfl, rfl⟩ := acceptIfZero_eq_ok_iff.1 hrun
    simp only [Bool.or_eq_false_iff, bne_eq_false_iff_eq] at hzero
    obtain ⟨rfl, rfl⟩ := hzero
    exact ⟨by rw [(henc a _).1, toNat_ofNat_of_lt hm]; rfl, (henc a _).2.trans (decide_eq_true ha)⟩
  | M k =>
    obtain ⟨hzero, rfl, rfl⟩ := acceptIfZero_eq_ok_iff.1 hrun
    simp only [Bool.or_eq_false_iff, bne_eq_false_iff_eq] at hzero
    obtain ⟨⟨rfl, rfl⟩, rfl⟩ := hzero
    exact ⟨by rw [(henc _).1, toNat_ofNat_of_lt hm]; rfl, (henc _).2⟩
  | PC =>
    obtain _ | ⟨w, ws⟩ := ws
    · cases hrun
    obtain ⟨hzero, rfl, rfl⟩ := acceptIfZero_eq_ok_iff.1 hrun
    simp only [Bool.or_eq_false_iff, bne_eq_false_iff_eq] at hzero
    obtain ⟨hf, hg⟩ := hzero
    exact spells_configurePins hfits henc hf hg
  | CC =>
    obtain _ | ⟨w, ws⟩ := ws
    · cases hrun
    obtain ⟨hzero, rfl, rfl⟩ := acceptIfZero_eq_ok_iff.1 hrun
    simp only [Bool.or_eq_false_iff, bne_eq_false_iff_eq] at hzero
    obtain ⟨⟨hg, hw1⟩, hw2⟩ := hzero
    exact spells_uartConfigure hfits henc hg hw1 hw2

/-- A command that decodes is the encoding of what it decodes to. -/
theorem spells_of_decode {w : Word} {ws rest : List Word} {i : Instr} (h : decode (w :: ws) = .ok (i, rest)) :
    w :: ws = encode i ++ rest ∧ i.wellFormed = true := by
  obtain ⟨F, hF, hrun⟩ := decode_eq_ok_iff.1 h
  have hspells := F.spells_of_run (headerOf_fits w) (opcodeMap_encodes _ (mem_opcodeMap hF)) hrun
  rwa [Spells, headerWord_headerOf] at hspells

/-- The laws of `Laws.EncodeWords`, for every instruction. -/
theorem encodeWords (i : Instr) : Laws.EncodeWords.Statement i := by
  cases i with
  | read a => exact Laws.EncodeWords.read a
  | write a v => exact Laws.EncodeWords.write a v
  | modify a st cl => exact Laws.EncodeWords.modify a st cl
  | bringUpClock => exact Laws.EncodeWords.bringUpClock
  | clkSelAlt => exact Laws.EncodeWords.clkSelAlt
  | clkBypassOn => exact Laws.EncodeWords.clkBypassOn
  | clkDivenOff => exact Laws.EncodeWords.clkDivenOff
  | clkSetXtal => exact Laws.EncodeWords.clkSetXtal
  | clkSrcExt => exact Laws.EncodeWords.clkSrcExt
  | clkPllOn => exact Laws.EncodeWords.clkPllOn
  | clkSetDiv => exact Laws.EncodeWords.clkSetDiv
  | clkDivenOn => exact Laws.EncodeWords.clkDivenOn
  | clkWaitLock => exact Laws.EncodeWords.clkWaitLock
  | clkBypassOff => exact Laws.EncodeWords.clkBypassOff
  | isPllLocked => exact Laws.EncodeWords.isPllLocked
  | enablePort p => exact Laws.EncodeWords.enablePort p
  | configurePins p m w d u => exact Laws.EncodeWords.configurePins p m w d u
  | drivePins p v => exact Laws.EncodeWords.drivePins p v
  | uartConfigure c p m f bi bf wl sb par fifo =>
    exact Laws.EncodeWords.uartConfigure c p m f bi bf wl sb par fifo
  | transmitByte c b => exact Laws.EncodeWords.transmitByte c b
  | receiveAvailable c => exact Laws.EncodeWords.receiveAvailable c
  | receiveByte c => exact Laws.EncodeWords.receiveByte c
  | isTxFifoFull c => exact Laws.EncodeWords.isTxFifoFull c
  | runEchoService => exact Laws.EncodeWords.runEchoService
  | ledPulse color => exact Laws.EncodeWords.ledPulse color
  | delay n => exact Laws.EncodeWords.delay n

theorem encode_ne_nil (i : Instr) : encode i ≠ [] := by
  cases i <;> exact List.cons_ne_nil _ _

/-- The length of a command is that of the opcode in its first word (R110). -/
theorem encode_length {w : Word} {ws rest : List Word} {i : Instr} (h : w :: ws = encode i ++ rest) :
    (encode i).length = commandLength (bits w 7 0) := by
  obtain ⟨hlength, hop⟩ := encodeWords i
  cases he : encode i with
  | nil => exact absurd he (encode_ne_nil i)
  | cons v tail =>
    rw [he] at h hlength hop
    obtain ⟨rfl, -⟩ := List.cons.inj h
    rw [hlength, ← hop, List.headD_cons]

/-- Settles O2, by the format that decodes the command. -/
theorem everyDecodedCommandIsItsEncoding : Obligations.EveryDecodedCommandIsItsEncoding := by
  intro ws rest i h
  obtain _ | ⟨w, ws⟩ := ws
  · cases h
  obtain ⟨hwords, hwf⟩ := spells_of_decode h
  exact ⟨hwords, hwf, encode_length hwords⟩

/-! An encoding decodes. -/

/-- The headers of every format but `PC` and `CC` (R113). -/
theorem opHeader_fits {op a : Nat} (hop : op < 2 ^ 8) (ha : fitsNibble a = true) (m : Byte) :
    Header.Fits { opHeader op with a := a, m := m.toNat } :=
  ⟨hop, of_decide_eq_true ha, m.isLt, Nat.two_pow_pos 4, Nat.two_pow_pos 8⟩

theorem formatAM_ok (op a : Nat) (m : Byte) (ws : List Word) (k : Nat → Byte → Instr) :
    formatAM { opHeader op with a := a, m := m.toNat } ws k = .ok (k a m, ws) :=
  acceptIfZero_eq_ok_iff.2 ⟨rfl, by rw [BitVec.ofNat_toNat, BitVec.setWidth_eq], rfl⟩

theorem formatM_ok (op : Nat) (m : Byte) (ws : List Word) (k : Byte → Instr) :
    formatM { opHeader op with m := m.toNat } ws k = .ok (k m, ws) :=
  acceptIfZero_eq_ok_iff.2 ⟨rfl, by rw [BitVec.ofNat_toNat, BitVec.setWidth_eq], rfl⟩

/-- The number, the mask and the flags of `CONFIGURE_PINS` come back from its header (R113 format `PC`). -/
theorem decode_configurePins {p : Nat} (m : Byte) (codes : Word) (md cu : Bool) (rest : List Word)
    (hp : fitsNibble p = true) :
    decode (encode (.configurePins p m codes md cu) ++ rest) = .ok (.configurePins p m codes md cu, rest) := by
  have hmd := md.toNat_lt
  have hcu := cu.toNat_lt
  have hfits : Header.Fits { opHeader 0x21 with a := p, m := m.toNat, g := md.toNat + 2 * cu.toNat } :=
    ⟨(by decide : 0x21 < 2 ^ 8), of_decide_eq_true hp, m.isLt, Nat.two_pow_pos 4, by simp only; omega⟩
  have hreserved : (md.toNat + 2 * cu.toNat) / 4 = 0 := by omega
  have hdigital : ((md.toNat + 2 * cu.toNat) % 2 == 1) = md := flag_of_mod (by omega)
  have hunlock : ((md.toNat + 2 * cu.toNat) / 2 % 2 == 1) = cu := flag_of_mod (by omega)
  refine (decode_headerWord hfits _).trans (acceptIfZero_eq_ok_iff.2 ⟨?_, ?_, rfl⟩)
  · simp only [hreserved]
    rfl
  · simp only [hdigital, hunlock, BitVec.ofNat_toNat, BitVec.setWidth_eq]

/-- The operands of `UART_CONFIGURE` come back from its header and its operand word (R113 format `CC`). -/
theorem decode_uartConfigure {c p wl sb : Nat} (m : Byte) (f : BitVec 4) (bi : BitVec 16) (bf : BitVec 6)
    (par fifo : Bool) (rest : List Word) (hc : c < 2 ^ 4) (hp : p < 2 ^ 4) (hwl : 5 ≤ wl ∧ wl ≤ 8)
    (hsb : 1 ≤ sb ∧ sb ≤ 2) :
    decode (encode (.uartConfigure c p m f bi bf wl sb par fifo) ++ rest) =
      .ok (.uartConfigure c p m f bi bf wl sb par fifo, rest) := by
  have hpar := par.toNat_lt
  have hfifo := fifo.toNat_lt
  obtain ⟨g, hg⟩ : ∃ g, g = fifo.toNat + 2 * par.toNat + 4 * (sb - 1) + 8 * (wl - 5) := ⟨_, rfl⟩
  have hfits : Header.Fits { op := 0x30, a := c, m := m.toNat, f := f.toNat, g := g } :=
    ⟨(by decide : 0x30 < 2 ^ 8), hc, m.isLt, f.isLt, by simp only; omega⟩
  have hreserved : g / 32 = 0 := by omega
  have hlength : g / 8 % 4 + 5 = wl := by omega
  have hstop : g / 4 % 2 + 1 = sb := by omega
  have hparity : (g / 2 % 2 == 1) = par := flag_of_mod (by omega)
  have hfifos : (g % 2 == 1) = fifo := flag_of_mod (by omega)
  obtain ⟨hbi, hbf, hport, hz1, hz2⟩ := bits_bindingWord bi.isLt bf.isLt hp
  rw [encode, ← hg, ← bindingWord]
  refine (decode_headerWord hfits _).trans (acceptIfZero_eq_ok_iff.2 ⟨?_, ?_, rfl⟩)
  · simp only [hreserved, hz1, hz2]
    rfl
  · simp only [hlength, hstop, hparity, hfifos, hbi, hbf, hport, BitVec.ofNat_toNat, BitVec.setWidth_eq]

theorem decode_encode {i : Instr} (rest : List Word) (hwf : i.wellFormed = true) :
    decode (encode i ++ rest) = .ok (i, rest) := by
  cases i with
  | read _ | write _ _ | modify _ _ _ | bringUpClock | clkSelAlt | clkBypassOn | clkDivenOff | clkSetXtal | clkSrcExt
  | clkPllOn | clkSetDiv | clkDivenOn | clkWaitLock | clkBypassOff | isPllLocked | runEchoService | delay _ =>
    exact decode_headerWord (opHeader_fits (a := 0) (by decide) rfl 0) _
  | enablePort _ | receiveAvailable _ | receiveByte _ | isTxFifoFull _ =>
    exact decode_headerWord (opHeader_fits (by decide) hwf 0) _
  | drivePins _ b | transmitByte _ b =>
    exact (decode_headerWord (opHeader_fits (by decide) hwf b) _).trans (formatAM_ok _ _ b rest _)
  | ledPulse color =>
    exact (decode_headerWord (opHeader_fits (a := 0) (by decide) rfl color) _).trans (formatM_ok _ color rest _)
  | configurePins p m codes md cu => exact decode_configurePins m codes md cu rest hwf
  | uartConfigure c p m f bi bf wl sb par fifo =>
    simp only [Instr.wellFormed, fitsNibble, fitsWordLength, fitsStopBits, Bool.and_eq_true, decide_eq_true_eq] at hwf
    obtain ⟨⟨⟨hc, hp⟩, hwl⟩, hsb⟩ := hwf
    exact decode_uartConfigure m f bi bf par fifo rest hc hp hwl hsb

/-- Settles O1, by the constructors of the instruction. -/
theorem decodeReadsBackEveryEncoding : Obligations.DecodeReadsBackEveryEncoding :=
  fun _ rest hwf => decode_encode rest hwf

/-! Reserved bits (R122). -/

theorem bits_eq_zero_iff {w : Word} {f : Field} (hf : f.lo ≤ f.hi) :
    bits w f.hi f.lo = 0 ↔ ∀ j, f.lo ≤ j → j ≤ f.hi → w.getLsbD j = false := by
  have hbit (i : Nat) : (bits w f.hi f.lo).testBit i = (decide (i < f.hi - f.lo + 1) && w.getLsbD (f.lo + i)) := by
    rw [bits, Nat.testBit_mod_two_pow, Nat.testBit_div_two_pow, BitVec.getLsbD, Nat.add_comm i]
  constructor
  · intro h j hlo hhi
    have hj := hbit (j - f.lo)
    rw [h, Nat.zero_testBit, decide_eq_true (by omega), Bool.true_and, Nat.add_sub_cancel' hlo] at hj
    exact hj.symm
  · intro h
    apply Nat.eq_of_testBit_eq
    intro i
    rw [hbit, Nat.zero_testBit]
    by_cases hi : i < f.hi - f.lo + 1
    · rw [h (f.lo + i) (by omega) (by omega), Bool.and_false]
    · rw [decide_eq_false hi, Bool.false_and]

theorem and_fieldMask_eq_zero_iff {w : Word} {f : Field} (hf : f.lo ≤ f.hi ∧ f.hi < 32) :
    w &&& fieldMask f = 0#32 ↔ bits w f.hi f.lo = 0 := by
  have hok : fieldOk (fieldWidth f) f = true := by simp [fieldOk, hf]
  rw [bits_eq_zero_iff hf.1]
  constructor
  · intro h j hlo hhi
    have hj := congrArg (BitVec.getLsbD · j) h
    simpa [fieldMask_bit hok, hlo, hhi] using hj
  · intro h
    apply BitVec.eq_of_getLsbD_eq
    intro j _
    rw [BitVec.getLsbD_and, fieldMask_bit hok]
    by_cases hj : f.lo ≤ j ∧ j ≤ f.hi
    · simp [h j hj.1 hj.2]
    · simp; omega

theorem and_maskOf_eq_zero_iff {w : Word} {fs : List Field} (hfs : ∀ f ∈ fs, f.lo ≤ f.hi ∧ f.hi < 32) :
    w &&& maskOf fs = 0#32 ↔ ∀ f ∈ fs, bits w f.hi f.lo = 0 := by
  induction fs with
  | nil => simp [maskOf]
  | cons f fs ih =>
    obtain ⟨hf, hfs⟩ := List.forall_mem_cons.1 hfs
    have hcons : maskOf (f :: fs) = fieldMask f ||| maskOf fs := rfl
    rw [hcons, BitVec.and_or_distrib_left, BitVec.or_eq_zero_iff, and_fieldMask_eq_zero_iff hf, ih hfs,
      List.forall_mem_cons]

/-- No reserved bit of the header word or of the first operand word is set (R122). -/
def Format.Clear (F : Format) (w : Word) (ws : List Word) : Prop :=
  (∀ f ∈ F.reserved, bits w f.hi f.lo = 0) ∧ ∀ f ∈ F.reservedOperand, bits (ws.headD 0) f.hi f.lo = 0

@[simp] theorem acceptIfZero_isOk_iff {nonzero : Bool} {op : Nat} {i : Instr} {ws : List Word} :
    (∃ j rest, acceptIfZero nonzero op i ws = .ok (j, rest)) ↔ nonzero = false := by
  simp [acceptIfZero_eq_ok_iff]

/-- A format decodes exactly if no reserved bit is set and its operand words are there (R110, R122). -/
theorem Format.run_isOk_iff {F : Format} {w : Word} {ws : List Word} :
    (∃ i rest, F.run (headerOf w) ws = .ok (i, rest)) ↔ F.Clear w ws ∧ F.words ≤ ws.length + 1 := by
  have hpc : bits w 31 24 / 4 = 0 ↔ bits w 31 26 = 0 := by simp only [bits]; omega
  have hcc : bits w 31 24 / 32 = 0 ↔ bits w 31 29 = 0 := by simp only [bits]; omega
  cases F with
  | N _ | A _ | AM _ | M _ =>
    simp [formatN, formatA, formatAM, formatM, headerOf, Clear, and_assoc]
  | R1 k =>
    obtain _ | ⟨w1, ws⟩ := ws <;> simp [formatR1, formatN, headerOf, Clear, and_assoc]
  | R2 k =>
    obtain _ | ⟨w1, _ | ⟨w2, ws⟩⟩ := ws <;> simp [formatR2, formatN, headerOf, Clear, and_assoc]
  | R3 k =>
    obtain _ | ⟨w1, _ | ⟨w2, _ | ⟨w3, ws⟩⟩⟩ := ws <;> simp [formatR3, formatN, headerOf, Clear, and_assoc]
  | PC =>
    obtain _ | ⟨w1, ws⟩ := ws <;> simp [formatPC, headerOf, Clear, ← hpc]
  | CC =>
    obtain _ | ⟨w1, ws⟩ := ws <;> simp [formatCC, headerOf, Clear, ← hcc, and_assoc]

theorem Format.fields_fit (F : Format) : ∀ f ∈ F.reserved ++ F.reservedOperand, f.lo ≤ f.hi ∧ f.hi < 32 := by
  cases F <;> simp

/-- The model's `illegalCommand`, by the format of the opcode (R122). -/
theorem not_illegalCommand_iff {w : Word} {ws : List Word} :
    ¬ illegalCommand w ws ↔ ∃ F, formatOf (bits w 7 0) = some F ∧ F.Clear w ws := by
  have hsome := reservedBits_isSome _ (bits_lt w 7 0)
  cases hF : formatOf (bits w 7 0) with
  | none =>
    have hnone : reservedBits (bits w 7 0) = none := by simpa [hF] using hsome
    simp [illegalCommand, hnone]
  | some F =>
    obtain ⟨-, hreserved, hoperand⟩ := opcodeMap_tables _ (mem_opcodeMap hF)
    obtain ⟨hfields, hfields'⟩ := List.forall_mem_append.1 F.fields_fit
    have hclear : F.Clear w ws ↔ w &&& maskOf F.reserved = 0#32 ∧ ws.headD 0 &&& maskOf F.reservedOperand = 0#32 := by
      rw [Format.Clear, and_maskOf_eq_zero_iff hfields, and_maskOf_eq_zero_iff hfields']
    simp only at hreserved hoperand
    simp only [illegalCommand, hreserved, Option.some.injEq, exists_eq_left', hclear, hoperand]
    by_cases hop : bits w 7 0 = 0x30
    · cases ws <;> simp [hop]
    · simp [hop]

/-- A command decodes exactly if it is not illegal and its words are all there (R110, R122). -/
theorem decode_isOk_iff {w : Word} {ws : List Word} :
    (∃ i rest, decode (w :: ws) = .ok (i, rest)) ↔
      ¬ illegalCommand w ws ∧ commandLength (bits w 7 0) ≤ ws.length + 1 := by
  rw [not_illegalCommand_iff]
  constructor
  · rintro ⟨i, rest, h⟩
    obtain ⟨F, hF, hrun⟩ := decode_eq_ok_iff.1 h
    obtain ⟨hclear, hlen⟩ := Format.run_isOk_iff.1 ⟨i, rest, hrun⟩
    rw [← (opcodeMap_tables _ (mem_opcodeMap hF)).1] at hlen
    exact ⟨⟨F, hF, hclear⟩, hlen⟩
  · rintro ⟨⟨F, hF, hclear⟩, hlen⟩
    rw [(opcodeMap_tables _ (mem_opcodeMap hF)).1] at hlen
    obtain ⟨i, rest, hrun⟩ := Format.run_isOk_iff.2 ⟨hclear, hlen⟩
    exact ⟨i, rest, decode_eq_ok_iff.2 ⟨F, hF, hrun⟩⟩

theorem step_illegal {s : State} {w : Word} {ws : List Word} {why : DecodeError} (hpending : s.pending = [])
    (hprogram : s.program = w :: ws) (h : decode (w :: ws) = .error why) : step s = .refused (.illegalCommand why) := by
  simp only [step, hpending, hprogram, h]

/-- Settles O4, by `decode_isOk_iff`. -/
theorem illegalCommandsAreRefused : Obligations.IllegalCommandsAreRefused := by
  refine ⟨fun s w ws hpending hprogram hillegal => ?_, fun w ws hlegal hlen => decode_isOk_iff.2 ⟨hlegal, hlen⟩⟩
  cases hdecode : decode (w :: ws) with
  | error why => exact ⟨why, step_illegal hpending hprogram hdecode⟩
  | ok command => exact absurd hillegal (decode_isOk_iff.1 ⟨_, _, hdecode⟩).1

end Sys2Proof
end

section
/-! SUPPORT. How an operation ends before its first access: a frame profile that is not supported is refused, and then a port
or channel that does not exist is a fault (30_encoding.md R123, R124; 60_exceptions.md R248). -/

namespace Sys2Proof.Machine

/-! What a micro-step can be refused for. -/

/-- The refusals of a micro-step: a clock operation out of order (R164) and a line-control write that lowers the FIFO
capacity too far (R52). -/
def MicroRefusal (why : Refusal) : Prop := why = .configurationOrderingViolation ∨ ∃ c, why = .fifoShrink c

theorem bind_refused {α β : Type} {x : Res α} {f : α → State → Res β} {why : Refusal} (h : x.bind f = .refused why) :
    x = .refused why ∨ ∃ v t, x = .ok v t ∧ f v t = .refused why := by
  cases x with
  | ok v t => exact .inr ⟨v, t, rfl, h⟩
  | fault e => cases h
  | refused r => exact .inl (by cases h; rfl)

theorem readReg_ne_refused (a : Word) (r : Reg) (s : State) (why : Refusal) : readReg a r s ≠ .refused why := by
  cases r with
  | ris | legacy | alt | gateGpio | gateUart => exact nofun
  | gpio p g => simp only [readReg]; split <;> exact nofun
  | uart c u =>
    simp only [readReg]
    split
    · cases u with
      | dr => simp only [readChannel]; split <;> exact nofun
      | _ => exact nofun
    · exact nofun

/-- A bus read ends in a value or a fault (R84, R86, R87). -/
theorem busRead_ne_refused (a : Word) (s : State) (why : Refusal) : busRead a s ≠ .refused why := by
  intro h
  simp only [busRead] at h
  split at h
  · split at h
    · obtain h | ⟨v, t, -, h⟩ := bind_refused h
      · exact readReg_ne_refused _ _ _ _ h
      · cases h
    · cases h
  · cases h

theorem pollFor_ne_refused (a : Word) (test : ReadValue → Bool) (n : Nat) (s : State) (why : Refusal) :
    pollFor a test n s ≠ .refused why := by
  induction n generalizing s with
  | zero => exact nofun
  | succ n ih =>
    intro h
    obtain h | ⟨v, t, -, h⟩ := bind_refused h
    · exact busRead_ne_refused _ _ _ h
    · split at h
      · cases h
      · exact ih t h

theorem writeReg_refused {a v : Word} {r : Reg} {s : State} {why : Refusal} (h : writeReg a r v s = .refused why) :
    MicroRefusal why := by
  cases r with
  | ris | legacy | alt | gateGpio | gateUart => cases h
  | gpio p g => simp only [writeReg] at h; split at h <;> cases h
  | uart c u =>
    simp only [writeReg] at h
    split at h
    · cases u with
      | lcrh =>
        simp only [writeChannel] at h
        split at h
        · cases h; exact .inr ⟨c, rfl⟩
        · cases h
      | _ => cases h
    · cases h

theorem busWrite_refused {a v : Word} {s : State} {why : Refusal} (h : busWrite a v s = .refused why) :
    MicroRefusal why := by
  simp only [busWrite] at h
  split at h
  · split at h
    · split at h
      · obtain h | ⟨_, t, -, h⟩ := bind_refused h
        · exact writeReg_refused h
        · cases h
      · cases h
    · cases h
  · cases h

theorem busModify_refused {a st cl : Word} {s : State} {why : Refusal} (h : busModify a st cl s = .refused why) :
    MicroRefusal why := by
  obtain h | ⟨v, t, -, h⟩ := bind_refused h
  · exact absurd h (busRead_ne_refused _ _ _)
  · exact busWrite_refused h

theorem echoOnce_ne_refused (s : State) (why : Refusal) : echoOnce s ≠ .refused why := by
  intro h
  obtain h | ⟨v, t, -, h⟩ := bind_refused h
  · exact busRead_ne_refused _ _ _ h
  · split at h
    · cases h
    · obtain h | ⟨d, u, -, h⟩ := bind_refused h
      · exact busRead_ne_refused _ _ _ h
      · cases h

theorem runMicro_refused {m : Micro} {s : State} {why : Refusal} (h : runMicro m s = .refused why) :
    MicroRefusal why := by
  cases m with
  | inRange ps cs => simp only [runMicro] at h; split at h <;> cases h
  | modify a st cl =>
    obtain h | ⟨_, t, -, h⟩ := bind_refused h
    · exact busModify_refused h
    · cases h
  | write a v =>
    obtain h | ⟨_, t, -, h⟩ := bind_refused h
    · exact busWrite_refused h
    · cases h
  | clk k stage a st cl =>
    simp only [runMicro] at h
    split at h
    · obtain h | ⟨_, t, -, h⟩ := bind_refused h
      · exact busModify_refused h
      · cases h
    · cases h; exact .inl rfl
  | clkWait =>
    simp only [runMicro] at h
    split at h
    · obtain h | ⟨_, t, -, h⟩ := bind_refused h
      · exact absurd h (pollFor_ne_refused _ _ _ _ _)
      · cases h
    · cases h; exact .inl rfl
  | txWait c =>
    obtain h | ⟨_, t, -, h⟩ := bind_refused h
    · exact absurd h (pollFor_ne_refused _ _ _ _ _)
    · cases h
  | echo => exact absurd h (echoOnce_ne_refused _ _)
  | noteUnlock _ | idle _ | led _ | stage _ | yield => cases h

theorem runMicros_refusal {ms : List Micro} {s : State} {why : Refusal} (h : runMicros ms s = .refused why) :
    MicroRefusal why := by
  induction ms generalizing s with
  | nil => cases h
  | cons m rest ih =>
    simp only [runMicros] at h
    split at h
    · exact ih h
    · cases h
    · cases h
    · cases h
    · rename_i r hm
      cases h
      exact runMicro_refused hm

/-! The profile check (R124). -/

theorem profileSupported_iff {wl sb : Nat} {par : Bool} :
    profileSupported wl sb par = true ↔ wl = 8 ∧ sb = 1 ∧ par = false := by
  simp [profileSupported, wordLengthWanted, stopBitsWanted, and_assoc]

/-- No command with a supported profile is refused for its profile: that refusal is no micro-step's. -/
theorem execUartConfigure_unsupported_iff {c p : Nat} {m : Byte} {f : BitVec 4} {bi : BitVec 16} {bf : BitVec 6}
    {wl sb : Nat} {par fifo : Bool} {s : State} :
    execUartConfigure c p m f bi bf wl sb par fifo s = .refused .unsupportedProfile ↔
      profileSupported wl sb par = false := by
  cases hp : profileSupported wl sb par with
  | false => simp [execUartConfigure, hp]
  | true =>
    rw [execUartConfigure, if_pos hp]
    refine ⟨fun h => ?_, nofun⟩
    obtain h | ⟨_, h⟩ := runMicros_refusal h <;> cases h

/-- Settles O39: the check refuses every other profile, and nothing after it refuses for the profile. -/
theorem unsupportedProfilesAreRefused : Obligations.UnsupportedProfilesAreRefused := by
  intro s c p m f bi bf wl sb par fifo
  refine execUartConfigure_unsupported_iff.trans ?_
  rw [← Bool.not_eq_true, profileSupported_iff, not_and_or, not_and_or, Bool.not_eq_false]

/-! The range check (R123). -/

theorem inRange_eq_false_iff {s : State} {ps cs : List Nat} :
    inRange s ps cs = false ↔ (∃ p ∈ ps, nPorts s.config ≤ p) ∨ ∃ c ∈ cs, nChannels s.config ≤ c := by
  simp [inRange, ← Bool.not_eq_true, -not_and, not_and_or]

/-- A command that begins with a range check which fails ends there, with no access made (R248). -/
theorem faultsOutOfRange_of_command {i : Instr} {s : State} {ps cs : List Nat} {ms : List Micro}
    (hexec : exec i s = runCommand (.inRange ps cs :: ms) s) (hr : inRange s ps cs = false) : FaultsOutOfRange i s := by
  have hmicro : runMicro (.inRange ps cs) (clearResult s) = .fault (.invalidAddress none (clearResult s)) :=
    if_neg (Bool.not_eq_true _ ▸ hr)
  exact ⟨_, hexec.trans (runCommand_fault hmicro), rfl, rfl, rfl⟩

theorem faultsOutOfRange_of_readChannel {i : Instr} {s : State} {c : Nat} {r : UartReg} {f : ReadValue → Word}
    (hexec : exec i s = readChannelFor c r f s) (hr : inRange s [] [c] = false) : FaultsOutOfRange i s :=
  ⟨s, hexec.trans (if_neg (Bool.not_eq_true _ ▸ hr)), rfl, rfl, rfl⟩

/-- Settles O35: the range check comes first in every one of these operations, after the profile check in
`UART_CONFIGURE`. -/
theorem outOfRangeOperandsFault : Obligations.OutOfRangeOperandsFault := by
  intro s p c m w f bi bf x y
  refine ⟨fun hp => ?_, fun hc => ?_, fun hpc => ?_⟩
  · have hr : inRange s [p] [] = false := inRange_eq_false_iff.2 (.inl ⟨p, .head _, hp⟩)
    exact ⟨faultsOutOfRange_of_command rfl hr, faultsOutOfRange_of_command rfl hr, faultsOutOfRange_of_command rfl hr⟩
  · have hr : inRange s [] [c] = false := inRange_eq_false_iff.2 (.inr ⟨c, .head _, hc⟩)
    exact ⟨faultsOutOfRange_of_command rfl hr, faultsOutOfRange_of_readChannel rfl hr,
      faultsOutOfRange_of_readChannel rfl hr, faultsOutOfRange_of_readChannel rfl hr⟩
  · have hr : inRange s [p] [c] = false :=
      inRange_eq_false_iff.2 (hpc.imp (fun hp => ⟨p, .head _, hp⟩) fun hc => ⟨c, .head _, hc⟩)
    exact faultsOutOfRange_of_command rfl hr

end Sys2Proof.Machine
end

section
/-! SUPPORT. The step (40_register_access.md R144) and the register accesses `READ` and `MODIFY` as commands (R141, R143):
`MODIFY` as a read and a write, and what a register makes of the word that `MODIFY` writes back. -/

namespace Sys2Proof.Machine

/-! The step (R144). -/

/-- Words that spell a command are not the empty program (R122). -/
theorem program_of_decode {ws rest : List Word} {i : Instr} (h : decode ws = .ok (i, rest)) : ∃ w ws', ws = w :: ws' := by
  cases ws with
  | nil => cases h
  | cons w ws' => exact ⟨w, ws', rfl⟩

theorem step_decoded {s : State} {i : Instr} {rest : List Word} (hpending : s.pending = [])
    (h : decode s.program = .ok (i, rest)) : step s = exec i { s with program := rest } := by
  obtain ⟨w, ws, hprogram⟩ := program_of_decode h
  rw [hprogram] at h
  simp only [step, hpending, hprogram, h]

theorem step_completed {s : State} (hpending : s.pending = []) (hprogram : s.program = []) : step s = .next (tick s) := by
  simp only [step, hpending, hprogram]

theorem step_pending {s : State} (h : s.pending ≠ []) : step s = runMicros s.pending s := by
  obtain ⟨m, ms, hpending⟩ := List.exists_cons_of_ne_nil h
  simp only [step, hpending]

/-- Settles O5: one equation of `step` for each of its branches. -/
theorem stepRunsTheDecodedCommand : Obligations.StepRunsTheDecodedCommand := by
  refine fun s => ⟨fun i rest => step_decoded, fun why hpending hne hdecode => ?_, step_completed, step_pending⟩
  obtain ⟨w, ws, hprogram⟩ := List.exists_cons_of_ne_nil hne
  exact step_illegal hpending hprogram (hprogram ▸ hdecode)

/-! `READ` (R141). -/

/-- Settles O14: the read of plain storage by `busRead_plain`, completed by `exec_read_completes`. -/
theorem readReturnsTheStoredWord : Obligations.ReadReturnsTheStoredWord := by
  intro s r w hwf hr hc hp
  have hread := busRead_plain (s := clearResult s) (configWf_layout hwf) hr ((clocked_clearResult s r).trans hc)
    ((plainWord_clearResult s r).trans hp)
  obtain ⟨t, hexec, hsoft, hhidden, htrace, hissued⟩ := exec_read_completes (draws := 0) hread (by simp)
  rw [exactly_word] at htrace hissued
  refine ⟨t, hexec, hsoft, ?_, htrace, hissued⟩
  rw [hhidden, hidden_logBus, tick_clearResult, hidden_clearResult]

/-! `MODIFY` as `READ` and `WRITE` (R143). -/

/-- A `READ` that answers made one bus read, and returned its word (R141). -/
theorem exec_read_ok {s t : State} {a : Word} (h : exec (.read a) s = .next t) :
    ∃ v u, busRead a (clearResult s) = .ok v u ∧ t = setPending (putResult u v.word) [] := by
  cases hread : busRead a (clearResult s) with
  | ok v u =>
    rw [exec_read_next hread] at h
    cases h
    exact ⟨v, u, rfl, rfl⟩
  | fault f => rw [exec_read_fault hread] at h; cases h
  | refused why => exact (busRead_ne_refused _ _ _ hread).elim

/-- A `READ` that faults is a bus read that faults (R86, R87). -/
theorem busRead_fault_of_exec {s : State} {a : Word} {f : Fault} (h : exec (.read a) s = .fault f) :
    busRead a (clearResult s) = .fault f := by
  cases hread : busRead a (clearResult s) with
  | ok v u => rw [exec_read_next hread] at h; cases h
  | fault g => rw [exec_read_fault hread] at h; cases h; rfl
  | refused why => exact (busRead_ne_refused _ _ _ hread).elim

/-- After a read the next command starts from what the read left: only the answer, and what is pending, were put beside
it. -/
theorem clearResult_after_read {s u : State} {a w : Word} {v : ReadValue} (hpending : s.pending = [])
    (h : busRead a (clearResult s) = .ok v u) : clearResult (setPending (putResult u w) []) = u := by
  have hp : u.pending = [] := (elementary_pending.busRead h).trans hpending
  have hn : u.result = none := elementary_result.busRead h
  cases u
  cases hp
  cases hn
  rfl

/-- Two micro-steps that end as the same access does run the same way. -/
theorem runMicros_of_access {m m' : Micro} {rest : List Micro} {s u : State} {x : Res Unit}
    (h : runMicro m s = x.bind fun _ t => .ok .done t) (h' : runMicro m' u = x.bind fun _ t => .ok .done t) :
    runMicros (m :: rest) s = runMicros (m' :: rest) u := by
  rw [runMicros, runMicros, h, h']
  cases x <;> rfl

/-- After its read `MODIFY` runs as a write does (R143). -/
theorem exec_modify_of_read {s u : State} {a st cl : Word} {v : ReadValue} (h : busRead a (clearResult s) = .ok v u) :
    exec (.modify a st cl) s = runMicros [.write a (clearThenSet v.word st cl)] u := by
  have hmodify : busModify a st cl (clearResult s) = busWrite a (clearThenSet v.word st cl) u := by
    rw [busModify, h, ok_bind]
  exact runMicros_of_access (by rw [runMicro, hmodify]) rfl

/-- Settles O23, by `exec_modify_of_read` where the read answers and by `runMicro_modify_fault` where it faults. -/
theorem modifyIsReadThenWrite : Obligations.ModifyIsReadThenWrite := by
  refine fun s a st cl hpending => ⟨fun t old hexec hold => ?_, fun f hexec => ?_⟩
  · obtain ⟨v, u, hread, rfl⟩ := exec_read_ok hexec
    cases hold
    have hu := clearResult_after_read (w := v.word) hpending hread
    calc exec (.modify a st cl) s
        = runMicros [.write a (clearThenSet v.word st cl)] u := exec_modify_of_read hread
      _ = exec (.write a (clearThenSet v.word st cl)) (setPending (putResult u v.word) []) :=
          congrArg (runMicros _) hu.symm
  · exact runCommand_fault (runMicro_modify_fault (busRead_fault_of_exec hexec))

/-! What a register makes of the word written back (R40 to R42). -/

/-- The word that `MODIFY` writes back: `set` wins over `clr`, every other bit is as read (R115, R143). -/
theorem clearThenSet_bit_cases (old set clr : Word) (j : Nat) :
    (clearThenSet old set clr).getLsbD j =
      if set.getLsbD j then true else if clr.getLsbD j then false else old.getLsbD j := by
  rw [clearThenSet_bit]
  cases set.getLsbD j <;> cases clr.getLsbD j <;> simp

/-- The commit filter of a pin register, by the bits that it takes (R42). -/
theorem commitByte_port_takes {l : Layout} (hl : Placed l) (pt : Port) (old v : Word) (j : Nat) :
    (commitByte lowByte (committedPins l pt) old v).getLsbD j =
      if decide (8 ≤ j) || pt.cr.getLsbD j then v.getLsbD j else old.getLsbD j := by
  rw [commitByte_port hl]
  rcases Nat.lt_or_ge j 8 with hj | hj
  · cases pt.cr.getLsbD j <;> simp [hj]
  · simp [hj, Nat.not_lt.2]

/-- The commit filter of `PCTL` at every bit, over the commit bits of a port (R42). -/
theorem commitNibbles_port {l : Layout} (hl : Placed l) (pt : Port) (old v : Word) (j : Nat) :
    (commitNibbles ((List.range 8).map nibble) (committedPins l pt) old v).getLsbD j =
      if pt.cr.getLsbD (j / 4) then v.getLsbD j else old.getLsbD j := by
  by_cases hj : j < 32
  · have hi : j / 4 < 8 := by omega
    have h := commitNibbles_bit (committedPins l pt) old v (j / 4) (j % 4) hi (Nat.mod_lt _ (by decide))
    rw [Nat.div_add_mod, committedPins_bit hl] at h
    simpa [hi] using h
  · have he : ∀ w : Word, w.getLsbD j = false := fun w => BitVec.getLsbD_of_ge w j (by omega)
    simp [he]

/-- A port register but `LOCK` holds each written bit that it takes, and its old bit elsewhere (R35 to R42). -/
theorem readPort_writePort_bit {s : State} {p : Nat} {pt : Port} {g : GpioReg} (hl : Placed s.config.layout)
    (hpt : s.ports[p]? = some pt) (hg : g ≠ .lock) (v : Word) (j : Nat) :
    (readPort (writePort s.config pt g v) g).getLsbD j =
      if takesBit s (.gpio p g) j then v.getLsbD j else (readPort pt g).getLsbD j := by
  cases g with
  | data => simp [takesBit, hpt, readPort, writePort]
  | dir => simp [takesBit, hpt, readPort, writePort]
  | afsel => simp only [readPort, writePort, takesBit, hpt, hl.afselA, commitByte_port_takes hl]
  | den => simp only [readPort, writePort, takesBit, hpt, hl.denE, commitByte_port_takes hl]
  | lock => exact absurd rfl hg
  | cr => cases hu : pt.unlocked <;> simp [takesBit, hpt, readPort, writePort, hu]
  | pctl => simp only [readPort, writePort, takesBit, hpt, hl.pctlF, commitNibbles_port hl]

/-- `LOCK` reads what the last word written to it made of it: unlocked by the key, locked by any other (R40). -/
theorem readPort_writePort_lock (c : Config) (pt : Port) (v : Word) :
    readPort (writePort c pt .lock v) .lock = if v = c.unlockKey then 0#32 else 1#32 := by
  simp [readPort, writePort]

/-- What a register that reads as stored holds after a word is written to it (R40 to R42). -/
structure Holds (s : State) (r : Reg) (old new held : Word) : Prop where
  bits : (∀ p, r ≠ .gpio p .lock) →
    ∀ j, held.getLsbD j = if takesBit s r j then new.getLsbD j else old.getLsbD j
  lock : ∀ p, r = .gpio p .lock → held = if new = s.config.unlockKey then 0#32 else 1#32

/-- A register outside the ports takes the whole word. -/
theorem Holds.whole {s : State} {r : Reg} {old new : Word} (hr : ∀ p g, r ≠ .gpio p g) : Holds s r old new new where
  bits _ j := by
    cases r with
    | gpio p g => exact absurd rfl (hr p g)
    | _ => rfl
  lock p h := absurd h (hr p .lock)

theorem Holds.port {s : State} {p : Nat} {pt : Port} {g : GpioReg} (hl : Placed s.config.layout)
    (hpt : s.ports[p]? = some pt) (new : Word) :
    Holds s (.gpio p g) (readPort pt g) new (readPort (writePort s.config pt g new) g) where
  bits hlock := readPort_writePort_bit hl hpt (fun hg => hlock p (by rw [hg])) new
  lock q h := by
    cases h
    exact readPort_writePort_lock ..

theorem softWord_written {s : State} {r : Reg} {old : Word} (new : Word) (hl : Placed s.config.layout)
    (h : plainWord s r = some old) : ∃ held, softWord (softWrite s.soft r new) r = some held ∧ Holds s r old new held := by
  rw [plainWord_eq] at h
  cases r with
  | ris => cases h
  | gpio p g =>
    simp only [softWord, soft_ports, Option.map_eq_some_iff] at h
    obtain ⟨pt, hpt, rfl⟩ := h
    obtain ⟨hlt, rfl⟩ := List.getElem?_eq_some_iff.1 hpt
    exact ⟨_, by simp [softWrite, softWord, hlt], Holds.port hl hpt new⟩
  | uart c u => exact ⟨new, softWord_same _ new h (by simp), Holds.whole (by simp)⟩
  | _ => exact ⟨new, rfl, Holds.whole (by simp)⟩

/-! `MODIFY` of a register that reads as it is stored (R143). -/

/-- `MODIFY` completes once the bus has made its two accesses: the register holds what it takes of the word, and every
other register is as before. -/
theorem exec_modify_completes {s t : State} {r : Reg} {w new : Word} {st cl : Word} (hl : Placed s.config.layout)
    (hp : plainWord s r = some w) (hbus : busModify (addrOf s.config.layout r) st cl (clearResult s) = .ok () t)
    (hmoved : Moved (clearResult s) t (softWrite s.soft r new) (modifyTrace (addrOf s.config.layout r) w new) 2) :
    ∃ t' held, exec (.modify (addrOf s.config.layout r) st cl) s = .next t' ∧
      t'.trace = s.trace ++ modifyTrace (addrOf s.config.layout r) w new ∧ Issued s t' none 2 0 ∧
      (∀ r', r' ≠ r → plainWord t' r' = plainWord s r') ∧ (∀ c, sent t' c = sent s c) ∧
      plainWord t' r = some held ∧ Holds s r w new held := by
  obtain ⟨held, hheld, hholds⟩ := softWord_written new hl hp
  have hsoft : (setPending t []).soft = softWrite s.soft r new := hmoved.soft
  refine ⟨_, held, exec_modify_next hbus, hmoved.trace, hmoved.issued, fun r' hne => ?_, hmoved.sent, ?_, hholds⟩
  · rw [plainWord_eq, hsoft, softWord_other _ _ hne, ← plainWord_eq]
  · rw [plainWord_eq, hsoft, hheld]

/-- The write of `LCRH` after two rounds of agents is refused exactly where it lowers the FIFOs of that instant below a
queue (R52). -/
theorem writeReg_lcrh {s : State} {c : Nat} {ch : Channel} (a w v : Word) (hch : (idle 2 s).channels[c]? = some ch) :
    writeReg (addrOf s.config.layout (.uart c .lcrh)) (.uart c .lcrh) v
        (logBus .read a w (tick (tick (clearResult s)))) =
      if shrinks s.config ch v then .refused (.fifoShrink c)
      else .ok () (setChannel (logBus .read a w (tick (tick (clearResult s)))) c (latchLine s.config.layout ch v)) := by
  rw [idle_two] at hch
  simp [writeReg, writeChannel, hch]

/-- A bus `MODIFY` that is refused refuses `MODIFY` (R243). -/
theorem exec_modify_refused {s : State} {a st cl : Word} {why : Refusal}
    (h : busModify a st cl (clearResult s) = .refused why) : exec (.modify a st cl) s = .refused why :=
  runMicros_refused (m := .modify a st cl) (by rw [runMicro, h, refused_bind])

/-- The two accesses of `MODIFY` go through, unless the write lowers the FIFOs of a channel below a queue (R52). -/
theorem busModify_completes {s : State} {r : Reg} {w : Word} (st cl : Word) (hl : layoutWf s.config.layout = true)
    (hr : r ∈ allRegs s.config.layout) (hb : writable r = true) (hc : clocked s r = true) (hp : plainWord s r = some w)
    (hfits : ∀ c ch, r = .uart c .lcrh → (idle 2 s).channels[c]? = some ch →
      ¬ lowersBelow s.config ch (clearThenSet w st cl)) :
    ∃ t, busModify (addrOf s.config.layout r) st cl (clearResult s) = .ok () t ∧
      Moved (clearResult s) t (softWrite s.soft r (clearThenSet w st cl))
        (modifyTrace (addrOf s.config.layout r) w (clearThenSet w st cl)) 2 := by
  have hc' : clocked (clearResult s) r = true := (clocked_clearResult s r).trans hc
  have hp' : plainWord (clearResult s) r = some w := (plainWord_clearResult s r).trans hp
  by_cases hlcrh : ∃ c, r = .uart c .lcrh
  · obtain ⟨c, rfl⟩ := hlcrh
    simp only [plainWord, Option.map_eq_some_iff] at hp
    obtain ⟨ch₀, hch₀, -⟩ := hp
    obtain ⟨ch, hch, -⟩ := channel_of_soft (show (idle 2 s).soft = s.soft by simp) hch₀
    have hs : ¬ shrinks s.config ch (clearThenSet w st cl) = true := fun h => hfits c ch rfl hch ((shrinks_iff ..).1 h)
    obtain ⟨t, hbus, hmoved, -⟩ :=
      busModify_moved (s := clearResult s) hl hr hb hc' hp' ((writeReg_lcrh _ _ _ hch).trans (if_neg hs))
    exact ⟨t, hbus, hmoved⟩
  · obtain ⟨t, -, hbus, hmoved, -⟩ :=
      busModify_plain_moved (s := clearResult s) st cl hl hr hb hc' hp' fun c h => hlcrh ⟨c, h⟩
    exact ⟨t, hbus, hmoved⟩

/-- Where the write lowers the FIFOs of a channel below a queue, the two accesses of `MODIFY` are refused (R52). -/
theorem busModify_lcrh_refused {s : State} {c : Nat} {ch : Channel} {w st cl : Word}
    (hl : layoutWf s.config.layout = true) (hr : Reg.uart c .lcrh ∈ allRegs s.config.layout)
    (hc : clocked s (.uart c .lcrh) = true) (hp : plainWord s (.uart c .lcrh) = some w)
    (hch : (idle 2 s).channels[c]? = some ch) (hlowers : lowersBelow s.config ch (clearThenSet w st cl)) :
    busModify (addrOf s.config.layout (.uart c .lcrh)) st cl (clearResult s) = .refused (.fifoShrink c) := by
  have hbus := busModify_plain (s := clearResult s) hl hr rfl ((clocked_clearResult s _).trans hc)
    ((plainWord_clearResult s _).trans hp) st cl
  rw [clearResult_config, writeReg_lcrh _ _ _ hch, if_pos ((shrinks_iff ..).2 hlowers)] at hbus
  exact hbus

/-- Settles O24: the bus accesses by `busModify_completes` and `busModify_lcrh_refused`, the register by
`exec_modify_completes`. -/
theorem modifyChangesOnlyMaskedBits : Obligations.ModifyChangesOnlyMaskedBits := by
  intro s r w st cl hwf hr hb hc hp
  have hl := configWf_layout hwf
  refine ⟨clearThenSet w st cl, clearThenSet_bit_cases w st cl, fun hfits => ?_, ?_⟩
  · obtain ⟨t, hbus, hmoved⟩ := busModify_completes st cl hl hr hb hc hp hfits
    obtain ⟨t', held, hexec, htrace, hissued, hothers, hsent, hheld, hholds⟩ :=
      exec_modify_completes (layoutWf_placed hl) hp hbus hmoved
    exact ⟨t', held, hexec, htrace, hissued, fun r' _ => hothers r', hsent, hheld, hholds.bits, hholds.lock⟩
  · rintro c ch rfl hch hlowers
    exact exec_modify_refused (busModify_lcrh_refused hl hr hc hp hch hlowers)

end Sys2Proof.Machine
end

section
/-! SUPPORT. One clock micro-step (41_clock_controller.md R151 to R158, R161): an update of one field of one
clock-control register as data that carries its own correctness, what running it makes of the state, and the single
operations. -/

namespace Sys2Proof.Machine

/-! Updates of one field (R14, R116). -/

/-- `new` differs from `old` in the field `f` at most, and is as `good` asks. -/
structure FieldUpdate (f : Field) (good : Word → Prop) (old new : Word) : Prop where
  good : good new
  outside : ∀ j, outside f j → new.getLsbD j = old.getLsbD j

/-- The two clock-control registers (R25, R26). -/
inductive ClkReg where
  | legacy | alt

namespace ClkReg

def reg : ClkReg → Reg
  | legacy => .legacy
  | alt => .alt

/-- The word that the register holds. -/
def word (v : SoftView) : ClkReg → Word
  | legacy => v.clkLegacy
  | alt => v.clkAlt

theorem mem_allRegs (r : ClkReg) (l : Layout) : r.reg ∈ allRegs l :=
  mem_allRegs_sys l (by cases r <;> simp [reg, sysRegs])

theorem writable_reg (r : ClkReg) : writable r.reg = true := by cases r <;> rfl

theorem clocked_reg (r : ClkReg) (s : State) : clocked s r.reg = true := by cases r <;> rfl

theorem plainWord_reg (r : ClkReg) (s : State) : plainWord s r.reg = some (r.word s.soft) := by cases r <;> rfl

theorem reg_ne_uart (r : ClkReg) (c : Nat) (u : UartReg) : r.reg ≠ .uart c u := by cases r <;> exact nofun

end ClkReg

/-- A clock micro-step without its number: the masks of the `MODIFY` of one clock-control register, which update one
field of any word that the register holds, and the stage that the pseudocode assigns, if any. -/
structure ClkUpdate where
  stage : Option ClkStage
  target : ClkReg
  set : Word
  clr : Word
  field : Field
  good : Word → Prop
  update : ∀ w, FieldUpdate field good w (clearThenSet w set clr)

namespace ClkUpdate

/-- `REG.F <- 1` of a one-bit field. -/
def setFlag (target : ClkReg) (stage : Option ClkStage) {f : Field} (h : fieldOk 1 f = true) : ClkUpdate :=
  ⟨stage, target, fieldBit f, 0#32, f, fun w => fieldFlag f w = true,
    fun w => ⟨fieldFlag_setBit h w, fun _ => setBit_outside h w⟩⟩

/-- `REG.F <- 0` of a one-bit field. -/
def clearFlag (target : ClkReg) (stage : Option ClkStage) {f : Field} (h : fieldOk 1 f = true) : ClkUpdate :=
  ⟨stage, target, 0#32, fieldBit f, f, fun w => fieldFlag f w = false,
    fun w => ⟨fieldFlag_clearBit h w, fun _ => clearBit_outside h w⟩⟩

/-- `REG.F <- v`. -/
def put (target : ClkReg) (stage : Option ClkStage) {n : Nat} {f : Field} (h : fieldOk n f = true) {v : Nat}
    (hv : v < 2 ^ n) : ClkUpdate :=
  ⟨stage, target, fieldPut f v, fieldMask f, f, fun w => fieldGet f w = v,
    fun w => ⟨fieldGet_update h w hv, fun _ => update_outside h w v⟩⟩

/-- `REG.F <- 0`. -/
def clear (target : ClkReg) (stage : Option ClkStage) {n : Nat} {f : Field} (h : fieldOk n f = true) : ClkUpdate :=
  ⟨stage, target, 0#32, fieldMask f, f, fun w => fieldGet f w = 0,
    fun w => ⟨fieldGet_clear h w, fun _ => clear_outside h w⟩⟩

/-- The micro-step number `k` that makes the update. -/
def micro (u : ClkUpdate) (c : Config) (k : Nat) : Micro := .clk k u.stage (addrOf c.layout u.target.reg) u.set u.clr

/-- The word that the update writes back. -/
def new (u : ClkUpdate) (v : SoftView) : Word := clearThenSet (u.target.word v) u.set u.clr

/-- The registers and stages after the micro-step (R22, R143). -/
def apply (u : ClkUpdate) (v : SoftView) : SoftView :=
  { softWrite v u.target.reg (u.new v) with clkStep := v.clkStep + 1, clkStage := u.stage.getD v.clkStage }

end ClkUpdate

/-! What one clock micro-step does. -/

/-- Whether a write that takes the registers from those of `s` to those of `t` leaves `pll_locked` as it is (R31). -/
def lockSurvives (s t : State) : Bool := !(effPwrdn t || effOscsrc s != effOscsrc t || xtalCode s != xtalCode t)

theorem lockSurvives_congr {s s' t t' : State} (hs : s'.soft = s.soft) (ht : t'.soft = t.soft) :
    lockSurvives s' t' = lockSurvives s t := by
  obtain ⟨-, ho, hx⟩ := eff_of s' s (congrArg SoftView.clkLegacy hs) (congrArg SoftView.clkAlt hs)
    (congrArg SoftView.config hs)
  obtain ⟨hp', ho', hx'⟩ := eff_of t' t (congrArg SoftView.clkLegacy ht) (congrArg SoftView.clkAlt ht)
    (congrArg SoftView.config ht)
  rw [lockSurvives, lockSurvives, ho, hx, hp', ho', hx']

theorem hidden_afterClockWrite (s t : State) :
    (afterClockWrite s t).hidden = { t.hidden with pllLocked := t.pllLocked && lockSurvives s t } := by
  simp [State.hidden, afterClockWrite_pllLocked, lockSurvives]

@[simp] theorem hidden_advanceClock (k : Nat) (stage : Option ClkStage) (s : State) :
    (advanceClock k stage s).hidden = s.hidden := rfl

theorem soft_advanceClock (k : Nat) (stage : Option ClkStage) (s : State) :
    (advanceClock k stage s).soft = { s.soft with clkStep := k + 1, clkStage := stage.getD s.clkStage } := rfl

/-- The clock sequencer moves on: no register, and nothing hidden, changes. -/
theorem Moved.advance {s t : State} {A : SoftView} {tr : List BusEvent} {n : Nat} (h : Moved s t A tr n) (k : Nat)
    (stage : Option ClkStage) :
    Moved s (advanceClock k stage t) { A with clkStep := k + 1, clkStage := stage.getD A.clkStage } tr n where
  soft := by
    obtain rfl := h.soft
    exact soft_advanceClock k stage t
  trace := h.trace
  schedule := h.schedule
  drawCount := h.drawCount
  result := h.result
  pending := h.pending
  sent := h.sent
  queues := h.queues
  config := h.config
  hidden := h.hidden
  noLonger := h.noLonger

/-- The clock micro-step of `u`, whose turn it is, takes the machine from `s` to `t`: the two accesses of one `MODIFY`,
around which agents step, and the rule of R31 for `pll_locked`. -/
structure ClkRan (u : ClkUpdate) (s t : State) : Prop where
  run : ∀ rest, runMicros (u.micro s.config s.clkStep :: rest) s = runMicros rest t
  moved : Moved s t (u.apply s.soft)
    (modifyTrace (addrOf s.config.layout u.target.reg) (u.target.word s.soft) (u.new s.soft)) 2
  hidden : t.hidden = { (idle 2 s).hidden with pllLocked := (idle 2 s).pllLocked && lockSurvives s t }

theorem softWrite_clkReg_stage (v : SoftView) (r : ClkReg) (w : Word) :
    (softWrite v r.reg w).clkStage = v.clkStage := by cases r <;> rfl

/-- What the write of a clock-control register does to the lock and the queues (R31). -/
theorem writeReg_clkReg_hidden {a v : Word} {r : ClkReg} {s t : State} (h : writeReg a r.reg v s = .ok () t) :
    t.hidden = { s.hidden with pllLocked := s.pllLocked && lockSurvives s t } := by
  have key : ∀ u : State, u.hidden = s.hidden → t = afterClockWrite s u →
      t.hidden = { s.hidden with pllLocked := s.pllLocked && lockSurvives s t } := by
    rintro u hu rfl
    have hl : u.pllLocked = s.pllLocked := congrArg HiddenView.pllLocked hu
    have hsoft : (afterClockWrite s u).soft = u.soft := by simp [State.soft]
    rw [hidden_afterClockWrite, lockSurvives_congr rfl hsoft, hu, hl]
  cases r <;> cases h
  · exact key { s with clkLegacy := v } rfl rfl
  · exact key { s with clkAlt := v } rfl rfl

/-- A clock micro-step whose turn it is always completes (R151 to R158, R161). -/
theorem clkRan_exists (u : ClkUpdate) {s : State} (hl : layoutWf s.config.layout = true) : ∃ t, ClkRan u s t := by
  obtain ⟨t, x, hbus, hmoved, hwrite, rfl⟩ := busModify_plain_moved u.set u.clr hl (u.target.mem_allRegs _)
    u.target.writable_reg (u.target.clocked_reg s) (u.target.plainWord_reg s) fun c => u.target.reg_ne_uart c _
  refine ⟨_, fun rest => runMicros_done (runMicro_clk rfl hbus), ?_, ?_⟩
  · have h := hmoved.advance s.clkStep u.stage
    rw [softWrite_clkReg_stage] at h
    exact h
  · rw [hidden_advanceClock, hidden_logBus, writeReg_clkReg_hidden hwrite, idle_two]
    rw [lockSurvives_congr (s := s) (t := x) (by simp) rfl]
    rfl

/-! The single operations. -/

/-- An operation that is one clock micro-step, whose turn it is, completes with it. -/
theorem clkStepDone_of {i : Instr} {s : State} {k : Nat} (u : ClkUpdate) (hl : layoutWf s.config.layout = true)
    (hexec : exec i s = runCommand [u.micro s.config k] s) (hk : s.clkStep = k)
    (hstage : u.stage.getD (stageOfStep k) = stageOfStep (k + 1)) (htable : s.clkStage = stageOfStep s.clkStep) :
    ClkStepDone i s k u.field (softWrite s.soft u.target.reg) (addrOf s.config.layout u.target.reg)
      (u.target.word s.soft) u.good := by
  subst hk
  obtain ⟨t, hran⟩ := clkRan_exists u (s := clearResult s) hl
  obtain ⟨hgood, houtside⟩ := u.update (u.target.word s.soft)
  refine ⟨setPending t [], u.new s.soft, hexec.trans (hran.run []), hgood, houtside, ?_, hran.moved.trace,
    hran.moved.issued, ?_⟩
  · rw [soft_setPending, hran.moved.soft, ClkUpdate.apply, soft_clearResult, ← hstage, ← htable]
    rfl
  · rw [hidden_setPending, hran.hidden, idle_clearResult]
    rfl

theorem configWf_xtalCode {c : Config} (h : configWf c = true) : c.xtalCode16MHz < 2 ^ 5 := by
  simp only [configWf, Bool.and_eq_true, decide_eq_true_eq] at h
  exact h.2

/-- Settles O25: each operation is one update of `CLK_ALT`. -/
theorem alternateClockMicroSteps : Obligations.AlternateClockMicroSteps := by
  intro s hwf hstage
  have hl := configWf_layout hwf
  have hf := layoutWf_clockFields hl
  exact ⟨fun hk => clkStepDone_of (.setFlag .alt none hf.altsel) hl rfl hk rfl hstage,
    fun hk => clkStepDone_of (.setFlag .alt none hf.bypass) hl rfl hk rfl hstage,
    fun hk => clkStepDone_of (.clear .alt (some .sourceSelected) hf.oscsrc) hl rfl hk rfl hstage,
    fun hk => clkStepDone_of (.clearFlag .alt (some .pllPoweringUp) hf.pwrdn) hl rfl hk rfl hstage,
    fun hk => clkStepDone_of (.put .alt none hf.sysdiv (v := 3) (by decide)) hl rfl hk rfl hstage,
    fun hk => clkStepDone_of (.clearFlag .alt (some .dividerActive) hf.bypass) hl rfl hk rfl hstage⟩

/-- Settles O26: each operation is one update of `CLK_LEGACY`. -/
theorem legacyClockMicroSteps : Obligations.LegacyClockMicroSteps := by
  intro s hwf hstage
  have hl := configWf_layout hwf
  have hf := layoutWf_clockFields hl
  exact ⟨fun hk => clkStepDone_of (.clearFlag .legacy none hf.diven) hl rfl hk rfl hstage,
    fun hk => clkStepDone_of (.put .legacy none hf.xtal (configWf_xtalCode hwf)) hl rfl hk rfl hstage,
    fun hk => clkStepDone_of (.setFlag .legacy none hf.diven) hl rfl hk rfl hstage⟩

/-! Out of order (R164, R205). -/

/-- The value of `clk_step` that a micro-step requires (R151 to R161). -/
def Micro.turn (m : Micro) : Option Nat :=
  match m with
  | .clk k _ _ _ _ => some k
  | .clkWait => some 8
  | _ => none

/-- A command that begins with a clock micro-step whose turn it is not is refused (R164). -/
theorem runCommand_outOfTurn {m : Micro} {rest : List Micro} {s : State} {k : Nat} (hm : m.turn = some k)
    (hk : s.clkStep ≠ k) : runCommand (m :: rest) s = .refused .configurationOrderingViolation := by
  cases m with
  | clk _ stage a st cl => cases hm; exact runMicros_refused (if_neg hk)
  | clkWait => cases hm; exact runMicros_refused (if_neg hk)
  | _ => cases hm

/-- Settles O29: the `require` of the first micro-step refuses the command, and the service checks before it begins. -/
theorem outOfOrderClockOperationsAreRefused : Obligations.OutOfOrderClockOperationsAreRefused := by
  refine fun s => ⟨fun i k hmem hk => ?_, fun hreset => if_neg hreset⟩
  simp only [List.mem_cons, Prod.mk.injEq, List.not_mem_nil, or_false] at hmem
  obtain ⟨rfl, rfl⟩ | ⟨rfl, rfl⟩ | ⟨rfl, rfl⟩ | ⟨rfl, rfl⟩ | ⟨rfl, rfl⟩ | ⟨rfl, rfl⟩ | ⟨rfl, rfl⟩ | ⟨rfl, rfl⟩ |
    ⟨rfl, rfl⟩ | ⟨rfl, rfl⟩ | ⟨rfl, rfl⟩ := hmem
  all_goals exact runCommand_outOfTurn rfl hk

/-! The status bit (R163). -/

/-- A read of `CLK_RIS` shows the status bit that the agents scheduled before it left (R28). -/
theorem risValue_tick_flag {s : State} (hl : layoutWf s.config.layout = true) :
    (risValue (tick s)).flag s.config.layout.pllLock = (tick s).risPllLock := by
  simpa using risValue_flag (s := tick s) (by simpa using hl)

theorem exec_isPllLocked_next {s t : State} {v : ReadValue}
    (h : busRead (addrOf s.config.layout .ris) (clearResult s) = .ok v t) :
    exec .isPllLocked s =
      .next (setPending (putResult t (boolWord (v.flag s.config.layout.pllLock))) []) := by
  show answer (Res.bind (busRead (addrOf s.config.layout .ris) (clearResult s)) _) = _
  rw [h]; rfl

/-- Settles O31: the read is that of `busRead_ris`, and its flag is the status bit. -/
theorem isPllLockedAnswersTheStatusBit : Obligations.IsPllLockedAnswersTheStatusBit := by
  intro s hwf
  have hl := configWf_layout hwf
  have hread := busRead_ris (s := clearResult s) hl
  rw [tick_clearResult, risValue_clearResult] at hread
  refine ⟨_, (risValue (tick s)).word, exec_isPllLocked_next hread, ?_, by simp, by simp, ?_, rfl, by simp, by simp⟩
  · rw [soft_setPending, soft_putResult, busRead_soft hread, soft_clearResult]
  · rw [setPending_result, putResult_result, risValue_tick_flag hl, boolWord]

end Sys2Proof.Machine
end

section
/-! SUPPORT. The PLL-lock wait `CLK_WAIT_LOCK` (41_clock_controller.md R160): what its reads of `CLK_RIS` leave, and how
it ends or stays pending. -/

namespace Sys2Proof.Machine

/-- `n` reads of `CLK_RIS` take the machine from `s` to `t`: agents step before each read, each read draws once and
shows the status bit of its instant (R28), and nothing else changes. -/
structure RisPolled (s t : State) (reads : List BusEvent) (n : Nat) : Prop where
  state : t = withIssuer (idle n s) (s.trace ++ reads) s.result (s.drawCount + n) s.program s.pending
  accesses : accesses reads = List.replicate n (.read, addrOf s.config.layout .ris)
  flags : reads.map (fun e => fieldFlag s.config.layout.pllLock e.value) =
    (List.range n).map fun j => (idle (j + 1) s).risPllLock

/-- The trace entry of the read of `CLK_RIS` that is next. -/
def risRead (s : State) : BusEvent :=
  { kind := .read, address := addrOf s.config.layout .ris, value := (risValue (tick s)).word }

/-- What that read leaves (R28, R84). -/
def afterRisRead (s : State) : State :=
  logBus .read (addrOf s.config.layout .ris) (risValue (tick s)).word (countDraw (tick s))

@[simp] theorem afterRisRead_config (s : State) : (afterRisRead s).config = s.config := by simp [afterRisRead]

@[simp] theorem idle_afterRisRead_ris (n : Nat) (s : State) :
    (idle n (afterRisRead s)).risPllLock = (idle (n + 1) s).risPllLock := by
  simp [afterRisRead, idle_succ]

namespace RisPolled

variable {s t : State} {reads : List BusEvent} {n : Nat}

theorem zero (s : State) : RisPolled s s [] 0 :=
  ⟨by rw [List.append_nil, idle_zero]; rfl, rfl, rfl⟩

/-- One read, and then `n` more. -/
theorem cons (hl : layoutWf s.config.layout = true) (h : RisPolled (afterRisRead s) t reads n) :
    RisPolled s t (risRead s :: reads) (n + 1) where
  state := by
    have htrace : (afterRisRead s).trace ++ reads = s.trace ++ risRead s :: reads := by simp [afterRisRead, risRead]
    have hdraws : (afterRisRead s).drawCount + n = s.drawCount + (n + 1) := by
      simp [afterRisRead, Nat.add_right_comm, Nat.add_assoc]
    have hidle : idle n (afterRisRead s) =
        logBus .read (addrOf s.config.layout .ris) (risValue (tick s)).word (countDraw (idle n (tick s))) := by
      simp [afterRisRead]
    rw [h.state, htrace, hdraws, hidle, idle_succ]
    simp [withIssuer, logBus, countDraw, afterRisRead]
  accesses := by
    have hreads := h.accesses
    rw [afterRisRead_config] at hreads
    rw [List.replicate_succ, ← hreads]
    rfl
  flags := by
    have hflags := h.flags
    simp only [afterRisRead_config, idle_afterRisRead_ris] at hflags
    have hlo : s.config.layout.pllLock.lo < 32 := fieldOk_lo (layout_fields hl).1
    rw [List.map_cons, hflags, List.range_succ_eq_map, List.map_cons, List.map_map, risRead, fieldFlag_word _ hlo,
      risValue_tick_flag hl, Nat.zero_add, idle_one]
    rfl

theorem soft (h : RisPolled s t reads n) : t.soft = s.soft := by
  have hidle : (idle n s).soft = s.soft := idle_soft n s
  rw [h.state, ← hidle]
  simp [State.soft, withIssuer]

theorem hidden (h : RisPolled s t reads n) : t.hidden = (idle n s).hidden := by rw [h.state]; rfl

theorem schedule (h : RisPolled s t reads n) : t.schedule = s.schedule.drop n := by
  rw [h.state, ← idle_schedule]; rfl

theorem trace (h : RisPolled s t reads n) : t.trace = s.trace ++ reads := by rw [h.state]; rfl

theorem result (h : RisPolled s t reads n) : t.result = s.result := by rw [h.state]; rfl

theorem drawCount (h : RisPolled s t reads n) : t.drawCount = s.drawCount + n := by rw [h.state]; rfl

theorem sent (h : RisPolled s t reads n) (c : Nat) : sent t c = Machine.sent s c := by
  rw [h.state, ← idle_sent n s c]; rfl

theorem length (h : RisPolled s t reads n) : reads.length = n := by
  have hlen := congrArg List.length h.accesses
  simpa [Machine.accesses] using hlen

/-- Every access is a read of `CLK_RIS`. -/
theorem access (h : RisPolled s t reads n) {e : BusEvent} (he : e ∈ reads) :
    e.kind = .read ∧ e.address = addrOf s.config.layout .ris := by
  have hmem : (e.kind, e.address) ∈ Machine.accesses reads := List.mem_map_of_mem he
  rw [h.accesses] at hmem
  exact Prod.mk.inj (List.eq_of_mem_replicate hmem)

end RisPolled

/-- The busy-wait of `CLK_WAIT_LOCK` with at most `n` reads (R160). -/
def pollRis (c : Config) (n : Nat) (s : State) : Res Bool :=
  pollFor (addrOf c.layout .ris) (fun r => r.flag c.layout.pllLock) n s

/-- The first read decides whether the wait goes on (R160). -/
theorem pollRis_succ {c : Config} {s : State} (n : Nat) (hc : s.config = c) (hl : layoutWf c.layout = true) :
    pollRis c (n + 1) s =
      if (tick s).risPllLock then .ok true (afterRisRead s) else pollRis c n (afterRisRead s) := by
  subst hc
  rw [pollRis, pollFor, busRead_ris hl, ok_bind, risValue_tick_flag hl]
  rfl

/-- The wait ends with the first read that shows the status bit (R160). -/
theorem pollRis_seen {c : Config} {s : State} {k n : Nat} (hc : s.config = c) (hl : layoutWf c.layout = true)
    (hk : k < n) (hbefore : ∀ j, j < k → (idle (j + 1) s).risPllLock = false)
    (hlast : (idle (k + 1) s).risPllLock = true) :
    ∃ t reads, pollRis c n s = .ok true t ∧ RisPolled s t reads (k + 1) := by
  induction k generalizing s n with
  | zero =>
    obtain ⟨n, rfl⟩ := Nat.exists_eq_succ_of_ne_zero (Nat.ne_of_gt hk)
    rw [idle_one] at hlast
    exact ⟨_, _, (pollRis_succ n hc hl).trans (if_pos hlast), .cons (hc ▸ hl) (.zero _)⟩
  | succ k ih =>
    obtain ⟨n, rfl⟩ := Nat.exists_eq_succ_of_ne_zero (Nat.ne_zero_of_lt hk)
    have hfirst : ¬ (tick s).risPllLock = true := by
      have hnot := hbefore 0 (Nat.zero_lt_succ k)
      rw [idle_one] at hnot
      simp [hnot]
    obtain ⟨t, reads, hpoll, hpolled⟩ := ih (s := afterRisRead s) (n := n) ((afterRisRead_config s).trans hc)
      (Nat.lt_of_succ_lt_succ hk)
      (fun j hj => by rw [idle_afterRisRead_ris]; exact hbefore (j + 1) (Nat.succ_lt_succ hj))
      (by rw [idle_afterRisRead_ris]; exact hlast)
    exact ⟨t, _, (pollRis_succ n hc hl).trans ((if_neg hfirst).trans hpoll), hpolled.cons (hc ▸ hl)⟩

/-- Where no read shows the status bit the wait has not ended (R244). -/
theorem pollRis_unseen {c : Config} {s : State} {n : Nat} (hc : s.config = c) (hl : layoutWf c.layout = true)
    (hall : ∀ j, j < n → (idle (j + 1) s).risPllLock = false) :
    ∃ t reads, pollRis c n s = .ok false t ∧ RisPolled s t reads n := by
  induction n generalizing s with
  | zero => exact ⟨s, [], rfl, .zero s⟩
  | succ n ih =>
    have hfirst : ¬ (tick s).risPllLock = true := by
      have hnot := hall 0 (Nat.zero_lt_succ n)
      rw [idle_one] at hnot
      simp [hnot]
    obtain ⟨t, reads, hpoll, hpolled⟩ := ih (s := afterRisRead s) ((afterRisRead_config s).trans hc)
      fun j hj => by rw [idle_afterRisRead_ris]; exact hall (j + 1) (Nat.succ_lt_succ hj)
    exact ⟨t, _, (pollRis_succ n hc hl).trans ((if_neg hfirst).trans hpoll), hpolled.cons (hc ▸ hl)⟩

/-- Settles O27: the wait ends by `pollRis_seen`, and what its reads leave is `RisPolled`. -/
theorem waitLockEndsWithTheFirstLockedRead : Obligations.WaitLockEndsWithTheFirstLockedRead := by
  intro s k hwf hk hfuel hbefore hlast
  have hl := configWf_layout hwf
  obtain ⟨t, reads, hpoll, hpolled⟩ :=
    pollRis_seen (s := clearResult s) (n := s.schedule.length + 1) rfl hl (Nat.lt_succ_of_le hfuel)
      (by simpa using hbefore) (by simpa using hlast)
  have hexec : exec .clkWaitLock s = .next (setPending (advanceClock 8 (some .pllLocked) t) []) :=
    runMicros_done (runMicro_clkWait (s := clearResult s) hk hpoll)
  refine ⟨_, reads, hexec, ?_, ?_, hpolled.trace, hpolled.length, fun e he => hpolled.access he, ?_, hpolled.result,
    rfl, hpolled.schedule, hpolled.drawCount⟩
  · rw [soft_setPending, soft_advanceClock, hpolled.soft, soft_clearResult]
    rfl
  · rw [hidden_setPending, hidden_advanceClock, hpolled.hidden, idle_clearResult, hidden_clearResult]
  · have hflags := hpolled.flags
    simp only [idle_clearResult, clearResult_risPllLock, clearResult_config] at hflags
    rw [hflags, List.range_succ, List.map_append, List.map_singleton, hlast,
      List.map_congr_left fun j hj => hbefore j (List.mem_range.1 hj), List.map_const', List.length_range]

end Sys2Proof.Machine
end

section
/-! SUPPORT. The PLL lock while the sequencer runs (45_hardware_agents.md R220; 10_state.md R28, R31): what agents, and
the clock micro-steps, do to `pll_locked`, to the status bit and to the lock that is still scheduled. -/

namespace Sys2Proof.Machine

/-- A locked PLL has its status bit set (R220). -/
def LockSeen (s : State) : Prop := s.pllLocked = true → s.risPllLock = true

/-- The status bit says whether the PLL is locked: nothing has unlocked it since it locked (R28, R31). -/
def LockInStep (s : State) : Prop := s.pllLocked = s.risPllLock

/-- The status bit is set, or a lock step is still scheduled. -/
def lockDue (s : State) : Prop := s.risPllLock = true ∨ ∃ evs ∈ s.schedule, AgentEvent.pllLock ∈ evs

theorem effPwrdn_of_soft {s t : State} (h : t.soft = s.soft) : effPwrdn t = effPwrdn s := by
  obtain ⟨hp, -, -⟩ := eff_of t s (congrArg SoftView.clkLegacy h) (congrArg SoftView.clkAlt h)
    (congrArg SoftView.config h)
  exact hp

/-! Agents. -/

theorem agentStep_lock_of_ne {s : State} {e : AgentEvent} (h : e ≠ .pllLock) :
    (agentStep s e).pllLocked = s.pllLocked ∧ (agentStep s e).risPllLock = s.risPllLock := by
  cases e with
  | pllLock => exact absurd rfl h
  | transmit c => obtain hs | ⟨_, _, _, -, -, -, hs⟩ := transmitStep_cases s c <;> simp [agentStep, hs]
  | line c b => obtain hs | ⟨_, -, -, hs⟩ := lineStep_cases s c b <;> simp [agentStep, hs]

/-- With the PLL powered, a lock step leaves the status bit set: it locks the PLL, or finds it locked (R220). -/
theorem agentStep_ris_iff {s : State} (hp : effPwrdn s = false) (hs : LockSeen s) (e : AgentEvent) :
    (agentStep s e).risPllLock = true ↔ s.risPllLock = true ∨ .pllLock = e := by
  by_cases he : e = .pllLock
  · subst he
    have hlock : (pllLockStep s).risPllLock = true := by
      unfold pllLockStep
      split
      · rfl
      · rename_i hdisabled
        exact hs (by simpa [pllEnabled, hp] using hdisabled)
    simp [agentStep, hlock]
  · rw [(agentStep_lock_of_ne he).2]
    simp [Ne.symm he]

/-- Agents set the status bit with the lock, and clear neither (R220, R28). -/
theorem lock_agents : AgentRel fun s t => (LockSeen s → LockSeen t) ∧ (LockInStep s → LockInStep t) where
  refl _ := ⟨id, id⟩
  trans h1 h2 := ⟨h2.1 ∘ h1.1, h2.2 ∘ h1.2⟩
  schedule _ _ := ⟨id, id⟩
  agent s e := by
    obtain hs | ⟨-, hs⟩ | ⟨_, _, _, _, -, -, -, hs⟩ | ⟨_, _, _, -, -, hs⟩ := agentStep_cases s e <;> rw [hs]
    · exact ⟨id, id⟩
    · exact ⟨fun _ _ => rfl, fun _ => rfl⟩
    · exact ⟨id, id⟩
    · exact ⟨id, id⟩

/-- No agent locks a PLL that is powered down (R220). -/
theorem unpowered_agents : AgentRel fun s t =>
    effPwrdn s = true → effPwrdn t = true ∧ t.pllLocked = s.pllLocked ∧ t.risPllLock = s.risPllLock where
  refl _ h := ⟨h, rfl, rfl⟩
  trans h1 h2 h := by
    obtain ⟨ht, hl, hr⟩ := h1 h
    obtain ⟨hu, hl', hr'⟩ := h2 ht
    exact ⟨hu, hl'.trans hl, hr'.trans hr⟩
  schedule _ _ h := ⟨h, rfl, rfl⟩
  agent s e h := by
    refine ⟨(effPwrdn_of_soft (agentStep_soft s e)).trans h, ?_⟩
    obtain hs | ⟨henabled, -⟩ | ⟨_, _, _, _, -, -, -, hs⟩ | ⟨_, _, _, -, -, hs⟩ := agentStep_cases s e
    · rw [hs]; exact ⟨rfl, rfl⟩
    · simp [pllEnabled, h] at henabled
    · rw [hs]; exact ⟨rfl, rfl⟩
    · rw [hs]; exact ⟨rfl, rfl⟩

theorem chanClocked_of_closed {s : State} (h : s.gateUart = 0#32) (c : Nat) : chanClocked s c = false := by
  unfold chanClocked
  split
  · rw [h]; exact BitVec.getLsbD_zero
  · rfl

/-- No agent touches a queue while every channel's gate is closed (R223, R225). -/
theorem closed_agents : AgentRel fun s t => s.gateUart = 0#32 → t.gateUart = 0#32 ∧ t.channels = s.channels where
  refl _ h := ⟨h, rfl⟩
  trans h1 h2 h := by
    obtain ⟨ht, hch⟩ := h1 h
    obtain ⟨hu, hch'⟩ := h2 ht
    exact ⟨hu, hch'.trans hch⟩
  schedule _ _ h := ⟨h, rfl⟩
  agent s e h := by
    refine ⟨(agentStep_gateUart s e).trans h, ?_⟩
    obtain hs | ⟨-, hs⟩ | ⟨c, _, _, _, -, -, he, -⟩ | ⟨c, _, _, -, ha, -⟩ := agentStep_cases s e
    · rw [hs]
    · rw [hs]
    · simp [transmitEnabled, chanClocked_of_closed h] at he
    · simp [lineAccepts, chanClocked_of_closed h] at ha

theorem events_ris_iff {s : State} (hp : effPwrdn s = false) (hs : LockSeen s) (evs : List AgentEvent) :
    (evs.foldl agentStep s).risPllLock = true ↔ s.risPllLock = true ∨ AgentEvent.pllLock ∈ evs := by
  induction evs generalizing s with
  | nil => simp
  | cons e rest ih =>
    have hp' : effPwrdn (agentStep s e) = false := (effPwrdn_of_soft (agentStep_soft s e)).trans hp
    rw [List.foldl_cons, ih hp' ((lock_agents.agent s e).1 hs), agentStep_ris_iff hp hs, List.mem_cons, or_assoc]

/-- Whether the lock is due does not change before an access, while the PLL is powered: a lock step that was scheduled
has set the status bit. -/
theorem tick_lockDue {s : State} (hp : effPwrdn s = false) (hs : LockSeen s) : lockDue (tick s) ↔ lockDue s := by
  cases hsched : s.schedule with
  | nil => rw [tick_quiet hsched]
  | cons evs rest =>
    have htick : tick s = evs.foldl agentStep { s with schedule := rest } := by simp [tick, hsched]
    have hris : (tick s).risPllLock = true ↔ s.risPllLock = true ∨ AgentEvent.pllLock ∈ evs := by
      rw [htick]
      exact events_ris_iff (s := { s with schedule := rest }) hp hs evs
    simp only [lockDue, hris, tick_schedule, hsched, List.tail_cons, List.mem_cons, exists_eq_or_imp, or_assoc]

theorem idle_lockDue {s : State} (n : Nat) (hp : effPwrdn s = false) (hs : LockSeen s) :
    lockDue (idle n s) ↔ lockDue s := by
  induction n generalizing s with
  | zero => rw [idle_zero]
  | succ n ih =>
    rw [idle_succ, ih ((effPwrdn_of_soft (tick_soft s)).trans hp) ((lock_agents.tick s).1 hs), tick_lockDue hp hs]

/-! Stretches of a command in which the PLL stays powered. -/

/-- From `s` to `t` the lock is what agents make of it: nothing unlocks the PLL, no scheduled lock step is missed. -/
structure LockFollows (s t : State) : Prop where
  seen : LockSeen s → LockSeen t
  due : LockSeen s → (lockDue t ↔ lockDue s)
  inStep : LockInStep s → LockInStep t

theorem LockFollows.trans {s t u : State} (h1 : LockFollows s t) (h2 : LockFollows t u) : LockFollows s u where
  seen := h2.seen ∘ h1.seen
  due h := (h2.due (h1.seen h)).trans (h1.due h)
  inStep := h2.inStep ∘ h1.inStep

/-- The lock and the schedule of `t` are what `n` rounds of agents make of those of `s`, with the PLL powered. -/
theorem lockFollows_of_idle {s t : State} {n : Nat} (hp : effPwrdn s = false)
    (hlocked : t.pllLocked = (idle n s).pllLocked) (hris : t.risPllLock = (idle n s).risPllLock)
    (hsched : t.schedule = s.schedule.drop n) : LockFollows s t where
  seen h := by
    rw [LockSeen, hlocked, hris]
    exact (lock_agents.idle n s).1 h
  due h := by
    rw [← idle_lockDue n hp h, lockDue, lockDue, hris, hsched, idle_schedule]
  inStep h := by
    rw [LockInStep, hlocked, hris]
    exact (lock_agents.idle n s).2 h

/-! What every stretch of the bring-up keeps. -/

/-- The writes of a trace, in order. -/
def writesOf (tr : List BusEvent) : List (BusKind × Word) := (accesses tr).filter fun e => e.1 == .write

theorem writesOf_append (tr tr' : List BusEvent) : writesOf (tr ++ tr') = writesOf tr ++ writesOf tr' := by
  simp [writesOf, accesses]

/-- The sequencer got from `s` to `t` with these writes: nothing was queued for sending, the status bit stays set, and
where no agent can touch the queues they are as before. -/
structure Went (s t : State) (writes : List (BusKind × Word)) : Prop where
  trace : ∃ tr, t.trace = s.trace ++ tr ∧ writesOf tr = writes
  config : t.config = s.config
  result : t.result = s.result
  sent : ∀ c, sent t c = sent s c
  quiet : s.schedule = [] → t.schedule = [] ∧ t.hidden.queues = s.hidden.queues
  closed : s.gateUart = 0#32 → t.gateUart = 0#32 ∧ t.hidden.queues = s.hidden.queues
  sticky : s.risPllLock = true → t.risPllLock = true
  seen : LockSeen s → LockSeen t

theorem Went.refl (s : State) : Went s s [] :=
  ⟨⟨[], by simp, rfl⟩, rfl, rfl, fun _ => rfl, fun h => ⟨h, rfl⟩, fun h => ⟨h, rfl⟩, id, id⟩

theorem Went.trans {s t u : State} {ws ws' : List (BusKind × Word)} (h1 : Went s t ws) (h2 : Went t u ws') :
    Went s u (ws ++ ws') where
  trace := by
    obtain ⟨tr, ht, hw⟩ := h1.trace
    obtain ⟨tr', ht', hw'⟩ := h2.trace
    exact ⟨tr ++ tr', by rw [ht', ht, List.append_assoc], by rw [writesOf_append, hw, hw']⟩
  config := h2.config.trans h1.config
  result := h2.result.trans h1.result
  sent c := (h2.sent c).trans (h1.sent c)
  quiet h := by
    obtain ⟨ht, hq⟩ := h1.quiet h
    obtain ⟨hu, hq'⟩ := h2.quiet ht
    exact ⟨hu, hq'.trans hq⟩
  closed h := by
    obtain ⟨ht, hq⟩ := h1.closed h
    obtain ⟨hu, hq'⟩ := h2.closed ht
    exact ⟨hu, hq'.trans hq⟩
  sticky := h2.sticky ∘ h1.sticky
  seen := h2.seen ∘ h1.seen

theorem idle_sticky {s : State} (n : Nat) (h : s.risPllLock = true) : (idle n s).risPllLock = true :=
  (forward_elementary.agents.idle n s).sticky h

theorem idle_queues_closed {s : State} (n : Nat) (h : s.gateUart = 0#32) :
    (idle n s).hidden.queues = s.hidden.queues := by
  obtain ⟨-, hch⟩ := closed_agents.idle n s h
  simp [State.hidden, hch]

/-- The wait for the lock writes nothing (R160). -/
theorem RisPolled.went {s t : State} {reads : List BusEvent} {n : Nat} (h : RisPolled s t reads n) : Went s t [] where
  trace := ⟨reads, h.trace, by rw [writesOf, h.accesses]; simp⟩
  config := congrArg SoftView.config h.soft
  result := h.result
  sent := h.sent
  quiet hs := ⟨by rw [h.schedule, hs, List.drop_nil], by rw [h.hidden, idle_quiet hs]⟩
  closed hg := ⟨(congrArg SoftView.gateUart h.soft).trans hg, by rw [h.hidden, idle_queues_closed n hg]⟩
  sticky hr := (congrArg HiddenView.risPllLock h.hidden).trans (idle_sticky n hr)
  seen hs := by
    have hlocked : t.pllLocked = (idle n s).pllLocked := congrArg HiddenView.pllLocked h.hidden
    have hris : t.risPllLock = (idle n s).risPllLock := congrArg HiddenView.risPllLock h.hidden
    rw [LockSeen, hlocked, hris]
    exact (lock_agents.idle n s).1 hs

theorem RisPolled.lockFollows {s t : State} {reads : List BusEvent} {n : Nat} (h : RisPolled s t reads n)
    (hp : effPwrdn s = false) : LockFollows s t :=
  lockFollows_of_idle hp (congrArg HiddenView.pllLocked h.hidden) (congrArg HiddenView.risPllLock h.hidden) h.schedule

theorem went_advanceClock (k : Nat) (stage : Option ClkStage) (s : State) : Went s (advanceClock k stage s) [] :=
  ⟨⟨[], by simp, rfl⟩, rfl, rfl, fun _ => rfl, fun h => ⟨h, rfl⟩, fun h => ⟨h, rfl⟩, id, id⟩

theorem lockFollows_advanceClock (k : Nat) (stage : Option ClkStage) (s : State) :
    LockFollows s (advanceClock k stage s) := ⟨id, fun _ => Iff.rfl, id⟩

/-! Clock micro-steps one after the other. -/

namespace ClkRan

variable {u : ClkUpdate} {s t : State}

theorem pllLocked (h : ClkRan u s t) : t.pllLocked = ((idle 2 s).pllLocked && lockSurvives s t) :=
  congrArg HiddenView.pllLocked h.hidden

theorem risPllLock (h : ClkRan u s t) : t.risPllLock = (idle 2 s).risPllLock := congrArg HiddenView.risPllLock h.hidden

theorem gateUart (h : ClkRan u s t) : t.gateUart = s.gateUart := by
  refine (congrArg SoftView.gateUart h.moved.soft).trans ?_
  cases hr : u.target <;> simp [ClkUpdate.apply, hr, ClkReg.reg, softWrite, State.soft]

theorem went (h : ClkRan u s t) : Went s t [(.write, addrOf s.config.layout u.target.reg)] where
  trace := ⟨_, h.moved.trace, by simp [writesOf, accesses, modifyTrace]⟩
  config := h.moved.config
  result := h.moved.result
  sent := h.moved.sent
  quiet hs := ⟨by rw [h.moved.schedule, hs, List.drop_nil], h.moved.queues hs⟩
  closed hg := ⟨h.gateUart.trans hg, (congrArg HiddenView.queues h.hidden).trans (idle_queues_closed 2 hg)⟩
  sticky hr := h.risPllLock.trans (idle_sticky 2 hr)
  seen hs := by
    rw [LockSeen, h.pllLocked, h.risPllLock, Bool.and_eq_true]
    exact fun ⟨hlocked, _⟩ => (lock_agents.idle 2 s).1 hs hlocked

theorem clkStep (h : ClkRan u s t) : t.clkStep = s.clkStep + 1 := congrArg SoftView.clkStep h.moved.soft

/-- A write that leaves `pll_locked` as it is. -/
theorem lockFollows (h : ClkRan u s t) (hp : effPwrdn s = false) (hsurvives : lockSurvives s t = true) :
    LockFollows s t :=
  lockFollows_of_idle hp (by rw [h.pllLocked, hsurvives, Bool.and_true]) h.risPllLock h.moved.schedule

end ClkRan

/-- The clock micro-steps of a list of updates, one after the other. -/
inductive ClkRuns : List ClkUpdate → State → State → Prop
  | nil (s : State) : ClkRuns [] s s
  | cons {u : ClkUpdate} {us : List ClkUpdate} {s t v : State} (first : ClkRan u s t) (rest : ClkRuns us t v) :
      ClkRuns (u :: us) s v

/-- The micro-steps of a list of updates, numbered from `k`. -/
def clkMicros (c : Config) (k : Nat) (us : List ClkUpdate) : List Micro :=
  match us with
  | [] => []
  | u :: us => u.micro c k :: clkMicros c (k + 1) us

theorem clkRuns_exists (us : List ClkUpdate) {s : State} (hl : layoutWf s.config.layout = true) :
    ∃ t, ClkRuns us s t := by
  induction us generalizing s with
  | nil => exact ⟨s, .nil s⟩
  | cons u us ih =>
    obtain ⟨t, ht⟩ := clkRan_exists u hl
    obtain ⟨v, hv⟩ := ih (s := t) (by rw [ht.moved.config]; exact hl)
    exact ⟨v, .cons ht hv⟩

namespace ClkRuns

variable {us : List ClkUpdate} {s t : State}

theorem run (h : ClkRuns us s t) (rest : List Micro) :
    runMicros (clkMicros s.config s.clkStep us ++ rest) s = runMicros rest t := by
  induction h with
  | nil s => rfl
  | cons first _ ih =>
    rw [first.moved.config, first.clkStep] at ih
    exact (first.run _).trans ih

theorem soft (h : ClkRuns us s t) : t.soft = us.foldl (fun v u => u.apply v) s.soft := by
  induction h with
  | nil s => rfl
  | cons first _ ih => rw [ih, first.moved.soft, List.foldl_cons]

theorem went (h : ClkRuns us s t) :
    Went s t (us.map fun u => (.write, addrOf s.config.layout u.target.reg)) := by
  induction h with
  | nil s => exact .refl s
  | cons first _ ih =>
    rw [first.moved.config] at ih
    exact first.went.trans ih

theorem schedule (h : ClkRuns us s t) : t.schedule = s.schedule.drop (2 * us.length) := by
  induction h with
  | nil s => rfl
  | cons first _ ih =>
    rw [ih, first.moved.schedule, List.drop_drop, List.length_cons]
    congr 1
    omega

end ClkRuns

end Sys2Proof.Machine
end

section
/-! SUPPORT. `BRING_UP_CLOCK` (41_clock_controller.md R150, R159, R162): its micro-steps as field updates, what the two
clock-control registers hold after them, and when its wait ends. -/

namespace Sys2Proof.Machine

/-! Fields that share no bit. -/

theorem fieldsApart_symm {f g : Field} (h : fieldsApart f g = true) : fieldsApart g f = true := by
  rw [fieldsApart, Bool.or_comm]
  exact h

theorem FieldUpdate.flag {f g : Field} {good : Word → Prop} {old new : Word} (h : FieldUpdate f good old new)
    (hg : fieldOk 1 g = true) (ha : fieldsApart f g = true) : fieldFlag g new = fieldFlag g old :=
  fieldFlag_of_outside (fieldOk_width hg).1 ha h.outside

theorem FieldUpdate.get {f g : Field} {good : Word → Prop} {old new : Word} (h : FieldUpdate f good old new) {n : Nat}
    (hg : fieldOk n g = true) (ha : fieldsApart f g = true) : fieldGet g new = fieldGet g old :=
  fieldGet_of_outside (fieldOk_width hg).1 ha h.outside

/-- The pairs of fields of the clock-control registers of which the bring-up writes the first and needs the second. -/
structure ClockApart (l : Layout) : Prop where
  bypass_altsel : fieldsApart l.bypass l.altsel = true
  oscsrc_altsel : fieldsApart l.oscsrc l.altsel = true
  pwrdn_altsel : fieldsApart l.pwrdn l.altsel = true
  sysdiv_altsel : fieldsApart l.sysdiv l.altsel = true
  altsel_pwrdn : fieldsApart l.altsel l.pwrdn = true
  bypass_pwrdn : fieldsApart l.bypass l.pwrdn = true
  oscsrc_pwrdn : fieldsApart l.oscsrc l.pwrdn = true
  sysdiv_pwrdn : fieldsApart l.sysdiv l.pwrdn = true
  bypass_oscsrc : fieldsApart l.bypass l.oscsrc = true
  pwrdn_oscsrc : fieldsApart l.pwrdn l.oscsrc = true
  sysdiv_oscsrc : fieldsApart l.sysdiv l.oscsrc = true
  bypass_sysdiv : fieldsApart l.bypass l.sysdiv = true
  diven_lPwrdn : fieldsApart l.diven l.lPwrdn = true
  xtal_lPwrdn : fieldsApart l.xtal l.lPwrdn = true
  diven_xtal : fieldsApart l.diven l.xtal = true

theorem ClockFields.apart {l : Layout} (h : ClockFields l) : ClockApart l := by
  have halt := h.altApart
  have hlegacy := h.legacyApart
  simp only [fieldsDisjoint, List.all_cons, List.all_nil, Bool.and_true, Bool.and_eq_true] at halt hlegacy
  obtain ⟨⟨sel_sysdiv, sel_pwrdn, sel_bypass, sel_oscsrc⟩, ⟨sysdiv_pwrdn, sysdiv_bypass, sysdiv_oscsrc⟩,
    ⟨pwrdn_bypass, pwrdn_oscsrc⟩, bypass_oscsrc⟩ := halt
  obtain ⟨-, ⟨diven_lPwrdn, -, diven_xtal, -⟩, ⟨-, lPwrdn_xtal, -⟩, -, -⟩ := hlegacy
  exact
    { bypass_altsel := fieldsApart_symm sel_bypass, oscsrc_altsel := fieldsApart_symm sel_oscsrc
      pwrdn_altsel := fieldsApart_symm sel_pwrdn, sysdiv_altsel := fieldsApart_symm sel_sysdiv
      altsel_pwrdn := sel_pwrdn, bypass_pwrdn := fieldsApart_symm pwrdn_bypass
      oscsrc_pwrdn := fieldsApart_symm pwrdn_oscsrc, sysdiv_pwrdn := sysdiv_pwrdn
      bypass_oscsrc := bypass_oscsrc, pwrdn_oscsrc := pwrdn_oscsrc, sysdiv_oscsrc := sysdiv_oscsrc
      bypass_sysdiv := fieldsApart_symm sysdiv_bypass, diven_lPwrdn := diven_lPwrdn
      xtal_lPwrdn := fieldsApart_symm lPwrdn_xtal, diven_xtal := diven_xtal }

/-! The two words after the bring-up (R162). -/

/-- What the bring-up makes of `CLK_ALT`. -/
structure AltProgrammed (l : Layout) (old new : Word) : Prop where
  altsel : fieldFlag l.altsel new = true
  bypass : fieldFlag l.bypass new = false
  oscsrc : fieldGet l.oscsrc new = oscsrcExternal
  pwrdn : fieldFlag l.pwrdn new = false
  sysdiv : fieldGet l.sysdiv new = sysdivCode sysDivisor
  frame : ∀ j, outsideAltFields l j → new.getLsbD j = old.getLsbD j

/-- What the bring-up makes of `CLK_LEGACY`. -/
structure LegacyProgrammed (c : Config) (old new : Word) : Prop where
  diven : fieldFlag c.layout.diven new = true
  xtal : fieldGet c.layout.xtal new = c.xtalCode16MHz
  frame : ∀ j, outsideLegacyFields c.layout j → new.getLsbD j = old.getLsbD j

/-- Once the PLL is powered through `CLK_ALT` that register is still selected (R151, R156). -/
theorem altPowered_of {l : Layout} (hf : ClockFields l) {g : Word → Prop} {w0 w1 w2 w3 w4 : Word}
    (hsel : FieldUpdate l.altsel (fun w => fieldFlag l.altsel w = true) w0 w1) (hon : FieldUpdate l.bypass g w1 w2)
    (hosc : FieldUpdate l.oscsrc (fun w => fieldGet l.oscsrc w = 0) w2 w3)
    (hpll : FieldUpdate l.pwrdn (fun w => fieldFlag l.pwrdn w = false) w3 w4) :
    fieldFlag l.altsel w4 = true ∧ fieldFlag l.pwrdn w4 = false := by
  refine ⟨?_, hpll.good⟩
  rw [hpll.flag hf.altsel hf.apart.pwrdn_altsel, hosc.flag hf.altsel hf.apart.oscsrc_altsel,
    hon.flag hf.altsel hf.apart.bypass_altsel, hsel.good]

/-- The six updates of `CLK_ALT` in their order: no later one touches the field of an earlier one, but for `BYPASS`. -/
theorem altProgrammed_of {l : Layout} (hf : ClockFields l) {g : Word → Prop} {w0 w1 w2 w3 w4 w5 w6 : Word}
    (hsel : FieldUpdate l.altsel (fun w => fieldFlag l.altsel w = true) w0 w1) (hon : FieldUpdate l.bypass g w1 w2)
    (hosc : FieldUpdate l.oscsrc (fun w => fieldGet l.oscsrc w = 0) w2 w3)
    (hpll : FieldUpdate l.pwrdn (fun w => fieldFlag l.pwrdn w = false) w3 w4)
    (hdiv : FieldUpdate l.sysdiv (fun w => fieldGet l.sysdiv w = 3) w4 w5)
    (hoff : FieldUpdate l.bypass (fun w => fieldFlag l.bypass w = false) w5 w6) : AltProgrammed l w0 w6 where
  altsel := by
    rw [hoff.flag hf.altsel hf.apart.bypass_altsel, hdiv.flag hf.altsel hf.apart.sysdiv_altsel,
      (altPowered_of hf hsel hon hosc hpll).1]
  bypass := hoff.good
  oscsrc := by
    rw [hoff.get hf.oscsrc hf.apart.bypass_oscsrc, hdiv.get hf.oscsrc hf.apart.sysdiv_oscsrc,
      hpll.get hf.oscsrc hf.apart.pwrdn_oscsrc]
    exact hosc.good
  pwrdn := by
    rw [hoff.flag hf.pwrdn hf.apart.bypass_pwrdn, hdiv.flag hf.pwrdn hf.apart.sysdiv_pwrdn, hpll.good]
  sysdiv := by
    rw [hoff.get hf.sysdiv hf.apart.bypass_sysdiv]
    exact hdiv.good
  frame := fun j ⟨osel, obypass, oosc, opll, odiv⟩ => by
    rw [hoff.outside j obypass, hdiv.outside j odiv, hpll.outside j opll, hosc.outside j oosc, hon.outside j obypass,
      hsel.outside j osel]

/-- The three updates of `CLK_LEGACY` in their order. -/
theorem legacyProgrammed_of {c : Config} (hf : ClockFields c.layout) {g : Word → Prop} {w0 w1 w2 w3 : Word}
    (hoff : FieldUpdate c.layout.diven g w0 w1)
    (hxtal : FieldUpdate c.layout.xtal (fun w => fieldGet c.layout.xtal w = c.xtalCode16MHz) w1 w2)
    (hon : FieldUpdate c.layout.diven (fun w => fieldFlag c.layout.diven w = true) w2 w3) :
    LegacyProgrammed c w0 w3 where
  diven := hon.good
  xtal := by rw [hon.get hf.xtal hf.apart.diven_xtal, hxtal.good]
  frame := fun j ⟨odiven, oxtal⟩ => by
    rw [hon.outside j odiven, hxtal.outside j oxtal, hoff.outside j odiven]

/-! What an update does to the power and the source of the PLL (R27, R31). -/

theorem ClkUpdate.apply_of_alt {u : ClkUpdate} (h : u.target = .alt) (v : SoftView) :
    (u.apply v).clkLegacy = v.clkLegacy ∧ FieldUpdate u.field u.good v.clkAlt (u.apply v).clkAlt := by
  have hnew : u.apply v =
      { v with
        clkAlt := clearThenSet v.clkAlt u.set u.clr, clkStep := v.clkStep + 1
        clkStage := u.stage.getD v.clkStage } := by
    simp [apply, new, h, ClkReg.reg, ClkReg.word, softWrite]
  rw [hnew]
  exact ⟨rfl, u.update v.clkAlt⟩

theorem ClkUpdate.apply_of_legacy {u : ClkUpdate} (h : u.target = .legacy) (v : SoftView) :
    (u.apply v).clkAlt = v.clkAlt ∧ FieldUpdate u.field u.good v.clkLegacy (u.apply v).clkLegacy := by
  have hnew : u.apply v =
      { v with
        clkLegacy := clearThenSet v.clkLegacy u.set u.clr, clkStep := v.clkStep + 1
        clkStage := u.stage.getD v.clkStage } := by
    simp [apply, new, h, ClkReg.reg, ClkReg.word, softWrite]
  rw [hnew]
  exact ⟨rfl, u.update v.clkLegacy⟩

/-- The registers keep the PLL powered down, through whichever of them is selected (R27). -/
def UnpoweredRegs (l : Layout) (v : SoftView) : Prop :=
  fieldFlag l.pwrdn v.clkAlt = true ∧ (fieldFlag l.altsel v.clkAlt = true ∨ fieldFlag l.lPwrdn v.clkLegacy = true)

/-- The registers select `CLK_ALT` and power the PLL through it (R27). -/
def PoweredRegs (l : Layout) (v : SoftView) : Prop :=
  fieldFlag l.altsel v.clkAlt = true ∧ fieldFlag l.pwrdn v.clkAlt = false

theorem effPwrdn_of_unpowered {s : State} (h : UnpoweredRegs s.config.layout s.soft) : effPwrdn s = true := by
  obtain ⟨hpwrdn, hsel⟩ := h
  unfold effPwrdn altSelected
  split
  · exact hpwrdn
  · rename_i hnot
    exact hsel.resolve_left hnot

theorem effPwrdn_of_powered {s : State} (h : PoweredRegs s.config.layout s.soft) : effPwrdn s = false :=
  (if_pos h.1).trans h.2

/-- Updates that keep a PLL powered down that is so. -/
def ClkUpdate.KeepsUnpowered (l : Layout) (u : ClkUpdate) : Prop :=
  ∀ v, UnpoweredRegs l v → UnpoweredRegs l (u.apply v)

theorem ClkUpdate.keepsUnpowered_alt {l : Layout} {u : ClkUpdate} (hf : ClockFields l) (ht : u.target = .alt)
    (hpwrdn : fieldsApart u.field l.pwrdn = true)
    (hsel : fieldsApart u.field l.altsel = true ∨ ∀ w, u.good w → fieldFlag l.altsel w = true) :
    u.KeepsUnpowered l := by
  rintro v ⟨hoff, hpower⟩
  obtain ⟨hlegacy, halt⟩ := u.apply_of_alt ht v
  refine ⟨(halt.flag hf.pwrdn hpwrdn).trans hoff, ?_⟩
  obtain hsel | hsel := hsel
  · rwa [hlegacy, halt.flag hf.altsel hsel]
  · exact .inl (hsel _ halt.good)

theorem ClkUpdate.keepsUnpowered_legacy {l : Layout} {u : ClkUpdate} (hf : ClockFields l) (ht : u.target = .legacy)
    (hpwrdn : fieldsApart u.field l.lPwrdn = true) : u.KeepsUnpowered l := by
  rintro v ⟨hoff, hpower⟩
  obtain ⟨halt, hlegacy⟩ := u.apply_of_legacy ht v
  exact ⟨halt ▸ hoff, by rwa [halt, hlegacy.flag hf.lPwrdn hpwrdn]⟩

/-- Updates that leave alone what a powered PLL depends on (R31). -/
def ClkUpdate.LeavesPll (l : Layout) (u : ClkUpdate) : Prop :=
  (u.target = .alt ∧ fieldsApart u.field l.altsel = true ∧ fieldsApart u.field l.pwrdn = true ∧
    fieldsApart u.field l.oscsrc = true) ∨
  (u.target = .legacy ∧ fieldsApart u.field l.xtal = true)

/-- The PLL is off: powered down, not locked, and never seen locked. -/
structure PllOff (s : State) : Prop where
  regs : UnpoweredRegs s.config.layout s.soft
  pllLocked : s.pllLocked = false
  risPllLock : s.risPllLock = false

/-- A clock micro-step that begins with the PLL off ends with it not locked, even if it powers it (R156, R220). -/
theorem ClkRan.unlocked {u : ClkUpdate} {s t : State} (h : ClkRan u s t) (hs : PllOff s) :
    t.pllLocked = false ∧ t.risPllLock = false := by
  obtain ⟨-, hlocked, hris⟩ := unpowered_agents.idle 2 s (effPwrdn_of_unpowered hs.regs)
  rw [h.pllLocked, h.risPllLock, hlocked, hris, hs.pllLocked, hs.risPllLock]
  exact ⟨rfl, rfl⟩

theorem ClkRuns.pllOff {us : List ClkUpdate} {s t : State} (h : ClkRuns us s t)
    (hus : ∀ u ∈ us, u.KeepsUnpowered s.config.layout) (hs : PllOff s) : PllOff t := by
  induction h with
  | nil s => exact hs
  | cons first _ ih =>
    obtain ⟨hlocked, hris⟩ := first.unlocked hs
    have hregs := hus _ (.head _) _ hs.regs
    rw [← first.moved.soft, ← first.moved.config] at hregs
    exact ih (fun u hu => first.moved.config ▸ hus u (.tail _ hu)) ⟨hregs, hlocked, hris⟩

/-- A clock micro-step that leaves alone what the PLL depends on does not unlock it (R31). -/
theorem ClkRan.leavesPll {u : ClkUpdate} {s t : State} (h : ClkRan u s t) (hf : ClockFields s.config.layout)
    (hu : u.LeavesPll s.config.layout) (hs : PoweredRegs s.config.layout s.soft) :
    PoweredRegs t.config.layout t.soft ∧ LockFollows s t := by
  have hsoft := h.moved.soft
  have hconfig := h.moved.config
  have hp := effPwrdn_of_powered hs
  have hsel : altSelected s = true := hs.1
  suffices hkey : PoweredRegs t.config.layout t.soft ∧ effOscsrc t = effOscsrc s ∧ xtalCode t = xtalCode s by
    obtain ⟨ht, ho, hx⟩ := hkey
    exact ⟨ht, h.lockFollows hp (by simp [lockSurvives, effPwrdn_of_powered ht, ho, hx])⟩
  have hselt : fieldFlag s.config.layout.altsel t.clkAlt = true → altSelected t = true := fun h => by
    rwa [altSelected, hconfig]
  obtain ⟨ht, hsel', hpwrdn, hosc⟩ | ⟨ht, hxtal⟩ := hu
  · obtain ⟨hlegacy, halt⟩ := u.apply_of_alt ht s.soft
    rw [← hsoft] at hlegacy halt
    have hsel_t : fieldFlag s.config.layout.altsel t.clkAlt = true := (halt.flag hf.altsel hsel').trans hs.1
    have hlegacy : t.clkLegacy = s.clkLegacy := hlegacy
    refine ⟨⟨by rw [hconfig]; exact hsel_t, ?_⟩, ?_, ?_⟩
    · rw [hconfig]; exact (halt.flag hf.pwrdn hpwrdn).trans hs.2
    · rw [effOscsrc, effOscsrc, hselt hsel_t, hsel, hconfig]; exact halt.get hf.oscsrc hosc
    · rw [xtalCode, xtalCode, hlegacy, hconfig]
  · obtain ⟨halt, hlegacy⟩ := u.apply_of_legacy ht s.soft
    rw [← hsoft] at halt hlegacy
    have halt : t.clkAlt = s.clkAlt := halt
    refine ⟨⟨?_, ?_⟩, ?_, ?_⟩
    · rw [hconfig]; exact (congrArg _ halt).trans hs.1
    · rw [hconfig]; exact (congrArg _ halt).trans hs.2
    · rw [effOscsrc, effOscsrc, hselt (halt ▸ hs.1), hsel, hconfig, halt]; rfl
    · rw [xtalCode, xtalCode, hconfig]; exact hlegacy.get hf.xtal hxtal

theorem ClkRuns.leavesPll {us : List ClkUpdate} {s t : State} (h : ClkRuns us s t) (hf : ClockFields s.config.layout)
    (hus : ∀ u ∈ us, u.LeavesPll s.config.layout) (hs : PoweredRegs s.config.layout s.soft) :
    PoweredRegs t.config.layout t.soft ∧ LockFollows s t := by
  induction h with
  | nil s => exact ⟨hs, id, fun _ => Iff.rfl, id⟩
  | cons first _ ih =>
    obtain ⟨ht, hfirst⟩ := first.leavesPll hf (hus _ (.head _)) hs
    rw [first.moved.config] at ih ht
    obtain ⟨hv, hrest⟩ := ih hf (fun u hu => hus u (.tail _ hu)) ht
    exact ⟨hv, hfirst.trans hrest⟩

/-! The micro-steps of the bring-up (R150, R159). -/

theorem configWf_clockFields {c : Config} (h : configWf c = true) : ClockFields c.layout :=
  layoutWf_clockFields (configWf_layout h)

/-- Up to the external source: the PLL is still powered down (R151 to R155). -/
def unpoweredUpdates {c : Config} (h : configWf c = true) : List ClkUpdate :=
  [.setFlag .alt none (configWf_clockFields h).altsel, .setFlag .alt none (configWf_clockFields h).bypass,
   .clearFlag .legacy none (configWf_clockFields h).diven,
   .put .legacy none (configWf_clockFields h).xtal (configWf_xtalCode h),
   .clear .alt (some .sourceSelected) (configWf_clockFields h).oscsrc]

/-- `CLK_PLL_ON` (R156). -/
def pllOnUpdate {c : Config} (h : configWf c = true) : ClkUpdate :=
  .clearFlag .alt (some .pllPoweringUp) (configWf_clockFields h).pwrdn

/-- From there to the wait (R157, R158). -/
def poweredUpdates {c : Config} (h : configWf c = true) : List ClkUpdate :=
  [.put .alt none (configWf_clockFields h).sysdiv (v := sysdivCode sysDivisor) (by decide),
   .setFlag .legacy none (configWf_clockFields h).diven]

/-- `CLK_BYPASS_OFF` (R161). -/
def bypassOffUpdate {c : Config} (h : configWf c = true) : ClkUpdate :=
  .clearFlag .alt (some .dividerActive) (configWf_clockFields h).bypass

theorem bringUpSteps_eq {c : Config} (h : configWf c = true) :
    bringUpSteps c = clkMicros c 0 (unpoweredUpdates h) ++
      ((pllOnUpdate h).micro c 5 :: (clkMicros c 6 (poweredUpdates h) ++ [.clkWait, bypassOffStep c])) := rfl

theorem unpoweredUpdates_keep {c : Config} (h : configWf c = true) :
    ∀ u ∈ unpoweredUpdates h, u.KeepsUnpowered c.layout := by
  have hf := configWf_clockFields h
  simp only [unpoweredUpdates, List.forall_mem_cons]
  exact ⟨ClkUpdate.keepsUnpowered_alt hf rfl hf.apart.altsel_pwrdn (.inr fun _ hw => hw),
    ClkUpdate.keepsUnpowered_alt hf rfl hf.apart.bypass_pwrdn (.inl hf.apart.bypass_altsel),
    ClkUpdate.keepsUnpowered_legacy hf rfl hf.apart.diven_lPwrdn,
    ClkUpdate.keepsUnpowered_legacy hf rfl hf.apart.xtal_lPwrdn,
    ClkUpdate.keepsUnpowered_alt hf rfl hf.apart.oscsrc_pwrdn (.inl hf.apart.oscsrc_altsel), nofun⟩

theorem poweredUpdates_leavePll {c : Config} (h : configWf c = true) :
    ∀ u ∈ poweredUpdates h, u.LeavesPll c.layout := by
  have hf := configWf_clockFields h
  simp only [poweredUpdates, List.forall_mem_cons]
  exact ⟨.inl ⟨rfl, hf.apart.sysdiv_altsel, hf.apart.sysdiv_pwrdn, hf.apart.sysdiv_oscsrc⟩,
    .inr ⟨rfl, hf.apart.diven_xtal⟩, nofun⟩

theorem bypassOffUpdate_leavesPll {c : Config} (h : configWf c = true) : (bypassOffUpdate h).LeavesPll c.layout := by
  have hf := configWf_clockFields h
  exact .inl ⟨rfl, hf.apart.bypass_altsel, hf.apart.bypass_pwrdn, hf.apart.bypass_oscsrc⟩

/-- `CLK_PLL_ON` powers the PLL through `CLK_ALT`, which is selected by then (R151, R156). -/
theorem poweredRegs_pllOn {c : Config} (h : configWf c = true) (v : SoftView) :
    PoweredRegs c.layout ((pllOnUpdate h).apply ((unpoweredUpdates h).foldl (fun v u => u.apply v) v)) := by
  have hf := configWf_clockFields h
  exact altPowered_of hf ((ClkUpdate.setFlag .alt none hf.altsel).update _)
    ((ClkUpdate.setFlag .alt none hf.bypass).update _) ((ClkUpdate.clear .alt none hf.oscsrc).update _)
    ((ClkUpdate.clearFlag .alt none hf.pwrdn).update _)

/-! The wait (R160). -/

/-- The wait ends when a read shows the status bit, or no agent has a step left and it stays pending (R160, R244). -/
theorem clkWait_cases {s : State} (hl : layoutWf s.config.layout = true) (hk : s.clkStep = 8) :
    ∃ t reads n, RisPolled s t reads n ∧
      ((t.risPllLock = true ∧ runMicro .clkWait s = .ok .done (advanceClock 8 (some .pllLocked) t)) ∨
        (t.risPllLock = false ∧ t.schedule = [] ∧ runMicro .clkWait s = .ok .wait t)) := by
  by_cases hseen : ∃ k, k < s.schedule.length + 1 ∧ (idle (k + 1) s).risPllLock = true
  · obtain ⟨hlt, hlast⟩ := Nat.find_spec hseen
    have hbefore : ∀ j, j < Nat.find hseen → (idle (j + 1) s).risPllLock = false := fun j hj => by
      have hnot := Nat.find_min hseen hj
      simpa [Nat.lt_trans hj hlt] using hnot
    obtain ⟨t, reads, hpoll, hpolled⟩ := pollRis_seen rfl hl hlt hbefore hlast
    exact ⟨t, reads, _, hpolled, .inl ⟨(congrArg HiddenView.risPllLock hpolled.hidden).trans hlast,
      runMicro_clkWait hk hpoll⟩⟩
  · have hall : ∀ j, j < s.schedule.length + 1 → (idle (j + 1) s).risPllLock = false := fun j hj => by
      have hnot : ¬ (idle (j + 1) s).risPllLock = true := fun hris => hseen ⟨j, hj, hris⟩
      simpa using hnot
    obtain ⟨t, reads, hpoll, hpolled⟩ := pollRis_unseen rfl hl hall
    exact ⟨t, reads, _, hpolled, .inr ⟨(congrArg HiddenView.risPllLock hpolled.hidden).trans
      (hall _ (Nat.lt_succ_self _)), by rw [hpolled.schedule]; simp, runMicro_clkWait hk hpoll⟩⟩

/-! The bring-up up to the end of its wait. -/

/-- `BRING_UP_CLOCK` from `s`: in `off` the PLL is still powered down, in `on` it is powered, in `gate` the wait begins,
and `u` is what its `n` reads leave. -/
structure ReachesWait {s : State} (h : configWf s.config = true) (off on gate u : State) (reads : List BusEvent)
    (n : Nat) : Prop where
  unpowered : ClkRuns (unpoweredUpdates h) (clearResult s) off
  pllOn : ClkRan (pllOnUpdate h) off on
  powered : ClkRuns (poweredUpdates h) on gate
  wait : RisPolled gate u reads n

namespace ReachesWait

variable {s off on gate u : State} {h : configWf s.config = true} {reads : List BusEvent} {n : Nat}

theorem config_off (r : ReachesWait h off on gate u reads n) : off.config = s.config := r.unpowered.went.config

theorem config_on (r : ReachesWait h off on gate u reads n) : on.config = s.config :=
  r.pllOn.went.config.trans r.config_off

theorem wentOn (r : ReachesWait h off on gate u reads n) :
    Went (clearResult s) on ([.alt, .alt, .legacy, .legacy, .alt, .alt].map
      fun r => (BusKind.write, addrOf s.config.layout r)) := by
  have hon := r.pllOn.went
  rw [r.config_off] at hon
  exact r.unpowered.went.trans hon

theorem wentWait (r : ReachesWait h off on gate u reads n) :
    Went (clearResult s) u ([.alt, .alt, .legacy, .legacy, .alt, .alt, .alt, .legacy].map
      fun r => (BusKind.write, addrOf s.config.layout r)) := by
  have hgate := r.powered.went
  rw [r.config_on] at hgate
  exact r.wentOn.trans (hgate.trans r.wait.went)

theorem softOn (r : ReachesWait h off on gate u reads n) :
    on.soft = (pllOnUpdate h).apply ((unpoweredUpdates h).foldl (fun v u => u.apply v) s.soft) := by
  rw [r.pllOn.moved.soft, r.unpowered.soft, soft_clearResult]

theorem softWait (r : ReachesWait h off on gate u reads n) :
    u.soft = (poweredUpdates h).foldl (fun v u => u.apply v)
      ((pllOnUpdate h).apply ((unpoweredUpdates h).foldl (fun v u => u.apply v) s.soft)) := by
  rw [r.wait.soft, r.powered.soft, r.softOn]

theorem schedule_on (r : ReachesWait h off on gate u reads n) : on.schedule = s.schedule.drop 12 := by
  rw [r.pllOn.moved.schedule, r.unpowered.schedule, List.drop_drop]
  rfl

/-- From `CLK_PLL_ON` on the PLL stays powered, and the lock follows the schedule. -/
theorem lockFollows (r : ReachesWait h off on gate u reads n) :
    PoweredRegs s.config.layout u.soft ∧ LockFollows on u := by
  have hon : PoweredRegs s.config.layout on.soft := r.softOn ▸ poweredRegs_pllOn h s.soft
  have hpowered := r.powered.leavesPll
  rw [r.config_on] at hpowered
  obtain ⟨hgate, hfollows⟩ := hpowered (configWf_clockFields h) (poweredUpdates_leavePll h) hon
  have hconfig : gate.config = s.config := r.powered.went.config.trans r.config_on
  refine ⟨?_, hfollows.trans (r.wait.lockFollows (effPwrdn_of_powered hgate))⟩
  rw [hconfig] at hgate
  exact r.wait.soft ▸ hgate

/-- The lock that ends the wait is one that was due when the PLL had been powered. -/
theorem lockDue_iff (r : ReachesWait h off on gate u reads n) (hs : LockSeen s) : lockDue u ↔ lockDue on :=
  r.lockFollows.2.due (r.wentOn.seen hs)

end ReachesWait

/-- The eight micro-steps before the wait complete, and then the wait decides (R150, R160). -/
theorem bringUp_reachesWait {s : State} (h : configWf s.config = true) (hk : s.clkStep = 0) :
    ∃ off on gate u reads n, ReachesWait h off on gate u reads n ∧
      ((u.risPllLock = true ∧
          exec .bringUpClock s = runMicros [bypassOffStep s.config] (advanceClock 8 (some .pllLocked) u)) ∨
        (u.risPllLock = false ∧ u.schedule = [] ∧
          exec .bringUpClock s = .next (setPending u [.clkWait, bypassOffStep s.config]))) := by
  have hl := configWf_layout h
  obtain ⟨off, hoff⟩ := clkRuns_exists (unpoweredUpdates h) (s := clearResult s) hl
  have hcoff : off.config = s.config := hoff.went.config
  have hkoff : off.clkStep = 5 := by
    have hstep := congrArg SoftView.clkStep hoff.soft
    rw [show off.clkStep = s.clkStep + 5 from hstep, hk]
  obtain ⟨on, hon⟩ := clkRan_exists (pllOnUpdate h) (s := off) (by rw [hcoff]; exact hl)
  have hcon : on.config = s.config := hon.went.config.trans hcoff
  have hkon : on.clkStep = 6 := by rw [hon.clkStep, hkoff]
  obtain ⟨gate, hgate⟩ := clkRuns_exists (poweredUpdates h) (s := on) (by rw [hcon]; exact hl)
  have hcgate : gate.config = s.config := hgate.went.config.trans hcon
  have hkgate : gate.clkStep = 8 := by
    have hstep := congrArg SoftView.clkStep hgate.soft
    rw [show gate.clkStep = on.clkStep + 2 from hstep, hkon]
  obtain ⟨u, reads, n, hwait, hend⟩ := clkWait_cases (s := gate) (by rw [hcgate]; exact hl) hkgate
  have hexec : exec .bringUpClock s = runMicros [.clkWait, bypassOffStep s.config] gate := by
    have hrun_off := hoff.run ((pllOnUpdate h).micro s.config 5 ::
      (clkMicros s.config 6 (poweredUpdates h) ++ [.clkWait, bypassOffStep s.config]))
    have hrun_on := hon.run (clkMicros s.config 6 (poweredUpdates h) ++ [.clkWait, bypassOffStep s.config])
    have hrun_gate := hgate.run [.clkWait, bypassOffStep s.config]
    rw [clearResult_config, clearResult_clkStep, hk, ← bringUpSteps_eq] at hrun_off
    rw [hcoff, hkoff] at hrun_on
    rw [hcon, hkon] at hrun_gate
    exact hrun_off.trans (hrun_on.trans hrun_gate)
  refine ⟨off, on, gate, u, reads, n, ⟨hoff, hon, hgate, hwait⟩, hend.imp ?_ ?_⟩
  · rintro ⟨hris, hdone⟩
    exact ⟨hris, hexec.trans (runMicros_done hdone)⟩
  · rintro ⟨hris, hsched, hwaits⟩
    exact ⟨hris, hsched, hexec.trans (runMicros_wait hwaits)⟩

/-! When the wait ends. -/

theorem lockComes_iff {s : State} : lockComes s ↔ ∃ evs ∈ s.schedule.drop 12, AgentEvent.pllLock ∈ evs := by
  constructor
  · rintro ⟨k, evs, hk, hget, hmem⟩
    refine ⟨evs, List.mem_iff_getElem?.2 ⟨k - 12, ?_⟩, hmem⟩
    rw [List.getElem?_drop, Nat.add_sub_cancel' hk, hget]
  · rintro ⟨evs, hevs, hmem⟩
    obtain ⟨i, hi⟩ := List.mem_iff_getElem?.1 hevs
    rw [List.getElem?_drop] at hi
    exact ⟨12 + i, evs, Nat.le_add_right 12 i, hi, hmem⟩

/-- Where the wait has ended or nothing is scheduled any more, the status bit says whether the lock is due. -/
theorem lockDue_of_ended {u : State} (h : u.risPllLock = true ∨ u.schedule = []) :
    lockDue u ↔ u.risPllLock = true := by
  obtain h | h := h <;> simp [lockDue, h]

section

variable {s off on gate u : State} {h : configWf s.config = true} {reads : List BusEvent} {n : Nat}

theorem ReachesWait.lockDue_of_waitEnds (r : ReachesWait h off on gate u reads n) (hw : waitEnds s) : lockDue u := by
  obtain hris | ⟨hunlocked, hcomes⟩ := hw
  · exact .inl (r.wentWait.sticky hris)
  · have hs : LockSeen s := fun hlocked => by rw [hunlocked] at hlocked; cases hlocked
    rw [r.lockDue_iff hs]
    exact .inr (r.schedule_on ▸ lockComes_iff.1 hcomes)

/-- After reset the PLL is off (R61). -/
theorem pllOff_of_atReset (hr : s.AtReset) : PllOff s := by
  obtain ⟨-, -, -, ⟨hlocked, hris, -, hlpwrdn, hpwrdn, -⟩, -⟩ := hr
  exact ⟨⟨hpwrdn, .inr hlpwrdn⟩, hlocked, hris⟩

/-- From reset the PLL is powered without being locked, or having been so (R61, R220). -/
theorem ReachesWait.unlocked_on (r : ReachesWait h off on gate u reads n) (hs : PllOff s) :
    on.pllLocked = false ∧ on.risPllLock = false := by
  have hstart : PllOff (clearResult s) := ⟨hs.regs, hs.pllLocked, hs.risPllLock⟩
  exact r.pllOn.unlocked (r.unpowered.pllOff (unpoweredUpdates_keep h) hstart)

/-- From reset the lock is due exactly if it is scheduled after `CLK_PLL_ON`. -/
theorem ReachesWait.lockDue_iff_lockComes (r : ReachesWait h off on gate u reads n) (hs : PllOff s) :
    lockDue u ↔ lockComes s := by
  obtain ⟨-, hris⟩ := r.unlocked_on hs
  have hseen : LockSeen s := fun hlocked => by rw [hs.pllLocked] at hlocked; cases hlocked
  rw [r.lockDue_iff hseen, lockComes_iff, ← r.schedule_on, lockDue, hris]
  simp

end

/-! The state after a completed bring-up (R162). -/

/-- With the PLL locked the system clock is 50 MHz (R32, R162). -/
theorem ClockProgrammed.clockUp {s : State} (h : ClockProgrammed s) (hlocked : s.pllLocked = true) : ClockUp s where
  toClockProgrammed := h
  pllLocked := hlocked
  sysclk := by
    have hsel : altSelected s = true := h.altsel
    have hbypass : effBypass s = false := by simp [effBypass, hsel, h.bypass]
    have hosc : effOscsrc s = oscsrcExternal := by simp [effOscsrc, hsel, h.oscsrc]
    have hdiv : effSysdiv s = sysdivCode sysDivisor := by simp [effSysdiv, hsel, h.sysdiv]
    have hon : dividerOn s = true := h.diven
    rw [sysclkHz_eq, rawHz_not_bypassed hbypass, pllHz, if_pos ⟨hlocked, hosc, h.xtal⟩, Option.map_some, if_pos hon,
      hdiv]
    norm_num [pllOutHz, sysdivCode, sysDivisor, sysHz]

/-- `CLK_BYPASS_OFF` after the wait completes the bring-up: what it leaves of the registers (R161, R162). -/
structure BroughtUp {s : State} (h : configWf s.config = true) (u t : State) : Prop where
  went : Went u t [(.write, addrOf s.config.layout .alt)]
  alt : AltProgrammed s.config.layout s.clkAlt t.clkAlt
  legacy : LegacyProgrammed s.config s.clkLegacy t.clkLegacy
  soft : t.soft = { s.soft with
    clkLegacy := t.clkLegacy, clkAlt := t.clkAlt, clkStep := 10, clkStage := .dividerActive }
  lockFollows : LockFollows u t

theorem ReachesWait.broughtUp {s off on gate u : State} {h : configWf s.config = true} {reads : List BusEvent} {n : Nat}
    (r : ReachesWait h off on gate u reads n) :
    ∃ t, runMicros [bypassOffStep s.config] (advanceClock 8 (some .pllLocked) u) = .next (setPending t []) ∧
      BroughtUp h u t := by
  have hf := configWf_clockFields h
  have hconfig : u.config = s.config := r.wentWait.config
  obtain ⟨t, ht⟩ := clkRan_exists (bypassOffUpdate h) (s := advanceClock 8 (some .pllLocked) u)
    (by rw [advanceClock_config, hconfig]; exact configWf_layout h)
  have hrun := ht.run []
  have hwent := ht.went
  have hleaves := ht.leavesPll
  have hsoft := ht.moved.soft
  rw [advanceClock_config, hconfig] at hwent hrun hleaves
  rw [soft_advanceClock, r.softWait] at hsoft
  obtain ⟨-, hlock⟩ := hleaves hf (bypassOffUpdate_leavesPll h) r.lockFollows.1
  refine ⟨t, hrun, (went_advanceClock 8 _ u).trans hwent, ?_, ?_, ?_, (lockFollows_advanceClock 8 _ u).trans hlock⟩
  · rw [show t.clkAlt = _ from congrArg SoftView.clkAlt hsoft]
    exact altProgrammed_of hf ((ClkUpdate.setFlag .alt none hf.altsel).update _)
      ((ClkUpdate.setFlag .alt none hf.bypass).update _) ((ClkUpdate.clear .alt none hf.oscsrc).update _)
      ((ClkUpdate.clearFlag .alt none hf.pwrdn).update _)
      ((ClkUpdate.put .alt none hf.sysdiv (v := 3) (by decide)).update _)
      ((ClkUpdate.clearFlag .alt none hf.bypass).update _)
  · rw [show t.clkLegacy = _ from congrArg SoftView.clkLegacy hsoft]
    exact legacyProgrammed_of hf ((ClkUpdate.clearFlag .legacy none hf.diven).update _)
      ((ClkUpdate.put .legacy none hf.xtal (configWf_xtalCode h)).update _)
      ((ClkUpdate.setFlag .legacy none hf.diven).update _)
  · rw [show t.clkAlt = _ from congrArg SoftView.clkAlt hsoft,
      show t.clkLegacy = _ from congrArg SoftView.clkLegacy hsoft, hsoft]
    rfl

theorem BroughtUp.clockProgrammed {s u t : State} {h : configWf s.config = true} (b : BroughtUp h u t)
    (hconfig : u.config = s.config) (hris : u.risPllLock = true) : ClockProgrammed t := by
  have hc : t.config = s.config := b.went.config.trans hconfig
  have halt := b.alt
  have hlegacy := b.legacy
  rw [← hc] at halt hlegacy
  exact
    { clkStep := congrArg SoftView.clkStep b.soft, clkStage := congrArg SoftView.clkStage b.soft
      altsel := halt.altsel, bypass := halt.bypass, oscsrc := halt.oscsrc, pwrdn := halt.pwrdn, sysdiv := halt.sysdiv
      diven := hlegacy.diven, xtal := hlegacy.xtal, risPllLock := b.went.sticky hris }

/-- From reset a completed bring-up leaves the PLL locked, and no queue was touched (R61, R162). -/
theorem ReachesWait.hidden_of_atReset {s off on gate u t : State} {h : configWf s.config = true} {reads : List BusEvent}
    {n : Nat} (r : ReachesWait h off on gate u reads n) (b : BroughtUp h u t) (hris : u.risPllLock = true)
    (hr : s.AtReset) : t.hidden = { s.hidden with pllLocked := true, risPllLock := true } := by
  obtain ⟨hlocked_on, hris_on⟩ := r.unlocked_on (pllOff_of_atReset hr)
  have hstep : LockInStep t := b.lockFollows.inStep (r.lockFollows.2.inStep (hlocked_on.trans hris_on.symm))
  have hris_t : t.risPllLock = true := b.went.sticky hris
  obtain ⟨-, -, -, -, -, hgate, -⟩ := hr
  obtain ⟨-, hqueues⟩ := (r.wentWait.trans b.went).closed hgate
  have hview : t.hidden = ⟨t.pllLocked, t.risPllLock, t.hidden.queues⟩ := rfl
  rw [hview, hstep.trans hris_t, hris_t, hqueues]
  rfl

/-- Settles O30: `bringUp_reachesWait` takes the machine to the wait, `lockDue` says whether the wait ends, and
`ReachesWait.broughtUp` takes it to the end. -/
theorem bringUpClockReaches50MHz : Obligations.BringUpClockReaches50MHz := by
  intro s h hk
  obtain ⟨off, on, gate, u, reads, n, r, ⟨hris, hexec⟩ | ⟨hris, hsched, hexec⟩⟩ := bringUp_reachesWait h hk
  · obtain ⟨t, hrun, b⟩ := r.broughtUp
    have hprogrammed : ClockProgrammed t := b.clockProgrammed r.wentWait.config hris
    have hwent := r.wentWait.trans b.went
    refine ⟨setPending t [], hexec.trans hrun, hwent.result, .inl ⟨rfl, hprogrammed.risPllLock⟩, fun _ => rfl,
      fun _ => ⟨?_, ?_, b.alt.frame, b.legacy.frame, b.soft, hwent.sent, fun hq => (hwent.quiet hq).2, hwent.trace⟩,
      fun hr => ⟨⟨fun _ => ?_, fun _ => rfl⟩, fun _ => ?_⟩⟩
    · exact { hprogrammed with }
    · exact fun hlocked => { hprogrammed.clockUp hlocked with }
    · exact (r.lockDue_iff_lockComes (pllOff_of_atReset hr)).1 (.inl hris)
    · have hhidden := r.hidden_of_atReset b hris hr
      exact ⟨{ hprogrammed.clockUp (congrArg HiddenView.pllLocked hhidden) with }, hhidden⟩
  · have hnotDue : ¬ lockDue u := by rw [lockDue_of_ended (.inr hsched), hris]; exact Bool.false_ne_true
    have hsoft := r.softWait
    have hstep : u.clkStep = s.clkStep + 8 := congrArg SoftView.clkStep hsoft
    have hstage : u.clkStage = .pllPoweringUp := congrArg SoftView.clkStage hsoft
    refine ⟨_, hexec, r.wentWait.result, .inr ⟨rfl, by rw [setPending_clkStep, hstep, hk], hstage, hris, hsched⟩,
      fun hw => absurd (r.lockDue_of_waitEnds hw) hnotDue, nofun, fun hr => ⟨⟨nofun, fun hcomes => ?_⟩, nofun⟩⟩
    exact absurd ((r.lockDue_iff_lockComes (pllOff_of_atReset hr)).2 hcomes) hnotDue

end Sys2Proof.Machine
end

section
/-! SUPPORT. The operations of 42_gpio_port.md that are one `MODIFY` after a range check: `ENABLE_PORT` (R171) and
`DRIVE_PINS` (R176). -/

namespace Sys2Proof.Machine

/-! A range check and one `MODIFY` (R123, R143). -/

/-- A command on an existing port passes its range check, which makes no access (R123). -/
theorem runCommand_onPort {s : State} {p : Nat} (ms : List Micro) (hp : p < nPorts s.config) :
    runCommand (.inRange [p] [] :: ms) s = runMicros ms (clearResult s) :=
  runMicros_done (runMicro_inRange (s := clearResult s) (inRange_port hp))

/-- A command that checks its port operand and then makes one `MODIFY` of a register of plain storage outside the clock
block and the channels completes: the agents step before each of the two accesses, and nothing else that is hidden
changes. -/
theorem checkedModify_completes {s : State} {p : Nat} {r : Reg} {w : Word} (st cl : Word)
    (hl : layoutWf s.config.layout = true) (hp : p < nPorts s.config) (hr : r ∈ allRegs s.config.layout)
    (hb : writable r = true) (hc : clocked s r = true) (hw : plainWord s r = some w) (huart : ∀ c u, r ≠ .uart c u)
    (hlegacy : r ≠ .legacy) (halt : r ≠ .alt) :
    ∃ t, runCommand [.inRange [p] [], .modify (addrOf s.config.layout r) st cl] s = .next t ∧
      t.soft = softWrite s.soft r (clearThenSet w st cl) ∧ t.hidden = (idle 2 s).hidden ∧
      t.trace = s.trace ++ modifyTrace (addrOf s.config.layout r) w (clearThenSet w st cl) ∧ Issued s t none 2 0 := by
  obtain ⟨t, u, hbus, hmoved, hwrite, rfl⟩ := busModify_plain_moved (s := clearResult s) st cl hl hr hb
    ((clocked_clearResult s r).trans hc) ((plainWord_clearResult s r).trans hw) fun c => huart c .lcrh
  refine ⟨_, (runCommand_onPort _ hp).trans (exec_modify_next hbus), hmoved.soft, ?_, hmoved.trace, hmoved.issued⟩
  rw [hidden_setPending, hidden_logBus, writeReg_hidden hwrite (fun c => huart c .dr) hlegacy halt, idle_two]
  simp

/-! `ENABLE_PORT` (R171). -/

/-- The gate bit of a port is a one-bit field, and the port exists (R9, R29). -/
theorem gatePort_field {l : Layout} {p : Nat} {f : Field} (h : layoutWf l = true) (hf : l.gatePort[p]? = some f) :
    fieldOk 1 f = true ∧ p < l.gpioBase.length := by
  have hgates : l.gatePort.all (fieldOk 1) = true ∧ (l.gatePort.length == l.gpioBase.length) = true := by
    simp only [layoutWf, Bool.and_eq_true] at h
    tauto
  obtain ⟨hok, hlength⟩ := hgates
  obtain ⟨hlt, -⟩ := List.getElem?_eq_some_iff.1 hf
  exact ⟨List.all_eq_true.1 hok f (List.mem_of_getElem? hf), (beq_iff_eq.1 hlength) ▸ hlt⟩

theorem portGateBit_eq {c : Config} {p : Nat} {f : Field} (hf : c.layout.gatePort[p]? = some f) :
    portGateBit c p = fieldBit f := by simp only [portGateBit, hf]

theorem portClocked_eq {s : State} {p : Nat} {f : Field} (hf : s.config.layout.gatePort[p]? = some f) :
    portClocked s p = fieldFlag f s.gateGpio := by simp only [portClocked, hf]

/-- Settles O32: one checked `MODIFY` of `GATE_GPIO`, which sets the one bit of the port's gate. -/
theorem enablePortOpensOneGate : Obligations.EnablePortOpensOneGate := by
  intro s p f hwf hf
  have hl := configWf_layout hwf
  obtain ⟨hok, hp⟩ := gatePort_field hl hf
  obtain ⟨t, hexec, hsoft, hhidden, htrace, hissued⟩ :=
    checkedModify_completes (r := .gateGpio) (portGateBit s.config p) 0#32 hl hp (mem_allRegs_sys _ (by simp [sysRegs]))
      rfl rfl rfl nofun nofun nofun
  rw [portGateBit_eq hf] at hsoft htrace
  have hconfig : t.config = s.config := congrArg SoftView.config hsoft
  have hgate : t.gateGpio = clearThenSet s.gateGpio (fieldBit f) 0#32 := congrArg SoftView.gateGpio hsoft
  refine ⟨t, _, hexec, ?_, fun j => setBit_outside hok _, hsoft, hhidden, htrace, hissued⟩
  rw [portClocked_eq (hconfig ▸ hf), hgate, fieldFlag_setBit hok]

/-! `DRIVE_PINS` (R176). -/

/-- Bit `j` of a pin mask or byte as a register word. -/
@[simp] theorem byteWord_bit (b : Byte) (j : Nat) : (byteWord b).getLsbD j = b.getLsbD j := by
  rw [byteWord, BitVec.getLsbD_setWidth]
  by_cases hj : j < 8
  · simp [show j < 32 by omega]
  · simp [BitVec.getLsbD_of_ge b j (by omega)]

/-- The word that `DRIVE_PINS` writes back: the value under the mask, every other bit as read (R176). -/
theorem driven_bit (old : Word) (value mask : Byte) (j : Nat) :
    (clearThenSet old (byteWord value &&& byteWord mask) (byteWord mask)).getLsbD j =
      if mask.getLsbD j then value.getLsbD j else old.getLsbD j := by
  rw [clearThenSet_bit, BitVec.getLsbD_and, byteWord_bit, byteWord_bit]
  cases mask.getLsbD j <;> simp

/-- A pin of a clocked port that is a digital output shows its bit of `DATA` (R230). -/
theorem pinLevel_output {s : State} {p i : Nat} {pt : Port} (hl : Placed s.config.layout) (hc : portClocked s p = true)
    (hpt : s.ports[p]? = some pt) (hi : i < 8) (hafsel : pt.afsel.getLsbD i = false) (hden : pt.den.getLsbD i = true)
    (hdir : pt.dir.getLsbD i = true) : pinLevel s p i = some (pt.data.getLsbD i) := by
  have hbit (w : Word) : (byteField lowByte w).getLsbD i = w.getLsbD i := by
    rw [byteField_bit, decide_eq_true hi, Bool.true_and, lowByte, Nat.zero_add]
  simp only [pinLevel, hpt, hl.afselA, hl.denE, hl.dirD, hl.dataD, hbit]
  simp [hc, hafsel, hden, hdir]

/-- Settles O34: one checked `MODIFY` of `DATA`, whose word is that of `driven_bit`, and the level by
`pinLevel_output`. -/
theorem drivePinsWritesUnderTheMask : Obligations.DrivePinsWritesUnderTheMask := by
  intro s p pt value hwf hp hc hpt mask
  have hl := configWf_layout hwf
  obtain ⟨t, hexec, hsoft, hhidden, htrace, hissued⟩ :=
    checkedModify_completes (r := .gpio p .data) (w := pt.data) (byteWord value &&& byteWord mask) (byteWord mask) hl hp
      (mem_allRegs_gpio hp .data) rfl hc (by simp [plainWord, hpt]) nofun nofun nofun
  simp only [softWrite, soft_ports, hpt, writePort] at hsoft
  obtain ⟨hconfig, hclocked, hport, -⟩ := after_port hpt hsoft
  refine ⟨t, _, hexec, driven_bit pt.data value mask, hsoft, hhidden, htrace, hissued,
    fun i hi hmask hafsel hden hdir => ?_⟩
  have hplaced : Placed t.config.layout := by rw [hconfig]; exact layoutWf_placed hl
  rw [pinLevel_output hplaced (hclocked.trans hc) hport hi hafsel hden hdir, driven_bit, if_pos hmask]

end Sys2Proof.Machine
end

section
/-! SUPPORT. `CONFIGURE_PINS` (42_gpio_port.md R172 to R175, R177): micro-steps on one port as triples of the port before
them, the port after them and their accesses, and what the whole list makes of each bit of the port. -/

namespace Sys2Proof.Machine

/-! Stretches of micro-steps on one port. -/

/-- The sequencer can access port `p`, which is `pt`, under configuration `c`. -/
structure PortReady (c : Config) (p : Nat) (pt : Port) (s : State) : Prop where
  config : s.config = c
  layout : layoutWf s.config.layout = true
  inRange : p < nPorts s.config
  clocked : portClocked s p = true
  port : s.ports[p]? = some pt

/-- The micro-steps `ms` run to their end wherever port `p` is `pt` and can be accessed: they make `pt'` of it with the
accesses `acc`, and change no other register. -/
def PortRuns (c : Config) (p : Nat) (ms : List Micro) (pt pt' : Port) (acc : List (BusKind × Word)) : Prop :=
  ∀ s, PortReady c p pt s →
    ∃ t tr, Ran ms s t { s.soft with ports := s.ports.set p pt' } tr tr.length ∧ accesses tr = acc

/-- A stretch on a port leaves it ready for the next one. -/
theorem PortReady.after {c : Config} {p : Nat} {pt pt' : Port} {s t : State} (h : PortReady c p pt s)
    (hsoft : t.soft = { s.soft with ports := s.ports.set p pt' }) : PortReady c p pt' t := by
  obtain ⟨hconfig, hclocked, hport, -⟩ := after_port h.port hsoft
  exact ⟨hconfig.trans h.config, by rw [hconfig]; exact h.layout, by rw [hconfig]; exact h.inRange,
    hclocked.trans h.clocked, hport⟩

theorem accesses_append (tr tr' : List BusEvent) : accesses (tr ++ tr') = accesses tr ++ accesses tr' :=
  List.map_append

namespace PortRuns

variable {c : Config} {p : Nat} {ms ms' : List Micro} {pt pt' pt'' : Port} {acc acc' : List (BusKind × Word)}

theorem skip (c : Config) (p : Nat) (pt : Port) : PortRuns c p [] pt pt [] := fun s h =>
  ⟨s, [], by rw [set_same h.port]; exact Ran.refl s, rfl⟩

theorem trans (h1 : PortRuns c p ms pt pt' acc) (h2 : PortRuns c p ms' pt' pt'' acc') :
    PortRuns c p (ms ++ ms') pt pt'' (acc ++ acc') := fun s h => by
  obtain ⟨t, tr, hran, rfl⟩ := h1 s h
  obtain ⟨u, tr', hran', rfl⟩ := h2 t (h.after hran.moved.soft)
  obtain ⟨-, -, -, hset⟩ := after_port h.port hran.moved.soft
  rw [hset] at hran'
  exact ⟨u, tr ++ tr', by rw [List.length_append]; exact hran.trans hran', accesses_append tr tr'⟩

/-- A stretch that a flag of the command asks for, or nothing. -/
theorem onlyIf (h : PortRuns c p ms pt pt' acc) (b : Bool) :
    PortRuns c p (if b then ms else []) pt (if b then pt' else pt) (if b then acc else []) := by
  cases b
  · exact skip c p pt
  · exact h

theorem modify (c : Config) (p : Nat) (pt : Port) (g : GpioReg) (st cl : Word) :
    PortRuns c p [.modify (gpioAddr c p g) st cl] pt (writePort c pt g (clearThenSet (readPort pt g) st cl))
      (modifyOf (gpioAddr c p g)) := by
  rintro s ⟨rfl, hl, hp, hc, hpt⟩
  obtain ⟨t, hran⟩ := ran_port_modify st cl g hl hp hc hpt
  exact ⟨t, _, hran, rfl⟩

theorem write (c : Config) (p : Nat) (pt : Port) (g : GpioReg) (v : Word) :
    PortRuns c p [.write (gpioAddr c p g) v] pt (writePort c pt g v) [(.write, gpioAddr c p g)] := by
  rintro s ⟨rfl, hl, hp, hc, hpt⟩
  obtain ⟨t, hran⟩ := ran_port_write v g hl hp hc hpt
  exact ⟨t, _, hran, rfl⟩

theorem noteUnlock (c : Config) (p : Nat) (pt : Port) :
    PortRuns c p [.noteUnlock p] pt { pt with unlockRan := true } [] := fun _ h =>
  ⟨_, [], ran_noteUnlock h.port, rfl⟩

end PortRuns

/-! What the three parts of `CONFIGURE_PINS` make of a port. -/

/-- The port after the key write and the commit update (R173). -/
def unlockedPort (mask : Byte) (pt : Port) : Port :=
  { pt with unlocked := true, unlockRan := true, cr := clearThenSet pt.cr (byteWord mask) 0#32 }

/-- The port after the routing micro-steps, both through the commit filter (R42, R174). -/
def routedPort (c : Config) (mask : Byte) (codes : Word) (pt : Port) : Port :=
  { pt with
    afsel := commitByte c.layout.afselA (committedPins c.layout pt) pt.afsel (clearThenSet pt.afsel (byteWord mask) 0#32)
    pctl := commitNibbles c.layout.pctlF (committedPins c.layout pt) pt.pctl
      (clearThenSet pt.pctl (codes &&& nibbleMask mask) (nibbleMask mask)) }

/-- The port after the digital-enable micro-step, through the commit filter (R42, R175). -/
def digitalPort (c : Config) (mask : Byte) (pt : Port) : Port :=
  { pt with
    den := commitByte c.layout.denE (committedPins c.layout pt) pt.den (clearThenSet pt.den (byteWord mask) 0#32) }

/-- The port after `CONFIGURE_PINS`: the parts asked for, in their order (R172). -/
def configuredPort (c : Config) (mask : Byte) (codes : Word) (digital unlock : Bool) (pt : Port) : Port :=
  let routed := routedPort c mask codes (if unlock then unlockedPort mask pt else pt)
  if digital then digitalPort c mask routed else routed

theorem portRuns_unlock (c : Config) (p : Nat) (mask : Byte) (pt : Port) :
    PortRuns c p (unlockSteps c p mask) pt (unlockedPort mask pt)
      ((.write, gpioAddr c p .lock) :: modifyOf (gpioAddr c p .cr)) := by
  have hkey := PortRuns.write c p pt .lock c.unlockKey
  simp only [writePort, beq_self_eq_true] at hkey
  exact hkey.trans ((PortRuns.modify c p _ .cr (byteWord mask) 0#32).trans (PortRuns.noteUnlock c p _))

theorem portRuns_route (c : Config) (p : Nat) (mask : Byte) (codes : Word) (pt : Port) :
    PortRuns c p (routeSteps c p mask codes) pt (routedPort c mask codes pt)
      (modifyOf (gpioAddr c p .afsel) ++ modifyOf (gpioAddr c p .pctl)) :=
  (PortRuns.modify c p pt .afsel (byteWord mask) 0#32).trans (PortRuns.modify c p _ .pctl _ _)

theorem portRuns_digital (c : Config) (p : Nat) (mask : Byte) (pt : Port) :
    PortRuns c p (digitalSteps c p mask) pt (digitalPort c mask pt) (modifyOf (gpioAddr c p .den)) :=
  PortRuns.modify c p pt .den (byteWord mask) 0#32

/-- The accesses of `CONFIGURE_PINS` in their order (R172). -/
def configurePinsAccesses (c : Config) (p : Nat) (digital unlock : Bool) : List (BusKind × Word) :=
  (if unlock then (BusKind.write, gpioAddr c p .lock) :: modifyOf (gpioAddr c p .cr) else []) ++
    modifyOf (gpioAddr c p .afsel) ++ modifyOf (gpioAddr c p .pctl) ++
    (if digital then modifyOf (gpioAddr c p .den) else [])

/-- The micro-steps of `CONFIGURE_PINS` run to their end on a clocked port (R172). -/
theorem portRuns_configurePins (c : Config) (p : Nat) (mask : Byte) (codes : Word) (digital unlock : Bool) (pt : Port) :
    PortRuns c p (configurePinsSteps c p mask codes digital unlock) pt (configuredPort c mask codes digital unlock pt)
      (configurePinsAccesses c p digital unlock) := by
  have hruns := (((portRuns_unlock c p mask pt).onlyIf unlock).trans (portRuns_route c p mask codes _)).trans
    ((portRuns_digital c p mask _).onlyIf digital)
  rw [← List.append_assoc] at hruns
  exact hruns

/-! The bits of the port (R42, R177). -/

/-- Pins set in a pin register, through the commit filter: committed pins of the mask are added (R42). -/
theorem commitByte_setPins {l : Layout} (hl : Placed l) (pt : Port) (old : Word) (mask : Byte) (j : Nat) :
    (commitByte lowByte (committedPins l pt) old (clearThenSet old (byteWord mask) 0#32)).getLsbD j =
      (old.getLsbD j || (mask.getLsbD j && pt.cr.getLsbD j)) := by
  rw [commitByte_port hl, clearThenSet_bit, byteWord_bit]
  by_cases hj : j < 8
  · cases pt.cr.getLsbD j <;> simp [hj]
  · simp [hj, BitVec.getLsbD_of_ge mask j (by omega)]

/-- Codes put in the port-control word, through the commit filter: committed pins of the mask take their code, every
other pin keeps its own (R42, R174). -/
theorem commitNibbles_putCodes {l : Layout} (hl : Placed l) (pt : Port) (old codes : Word) (mask : Byte) {i k : Nat}
    (hk : k < 4) :
    (commitNibbles ((List.range 8).map nibble) (committedPins l pt) old
        (clearThenSet old (codes &&& nibbleMask mask) (nibbleMask mask))).getLsbD (4 * i + k) =
      if mask.getLsbD i && pt.cr.getLsbD i then codes.getLsbD (4 * i + k) else old.getLsbD (4 * i + k) := by
  by_cases hi : i < 8
  · rw [commitNibbles_bit _ _ _ i k hi hk, committedPins_bit hl, clearThenSet_bit, BitVec.getLsbD_and,
      nibbleMask_bit mask i k hi hk, decide_eq_true hi, Bool.true_and]
    cases pt.cr.getLsbD i <;> cases mask.getLsbD i <;> simp
  · have habove (w : Word) : w.getLsbD (4 * i + k) = false := BitVec.getLsbD_of_ge w _ (by omega)
    rw [habove, habove, habove, ite_self]

/-- Routing and digital enable leave `DATA`, `DIR`, the lock and the commit bits as the unlock part left them (R177). -/
theorem configuredPort_frame (c : Config) (mask : Byte) (codes : Word) (digital unlock : Bool) (pt : Port) :
    let pt' := configuredPort c mask codes digital unlock pt
    let unlocked := if unlock then unlockedPort mask pt else pt
    pt'.data = unlocked.data ∧ pt'.dir = unlocked.dir ∧ pt'.unlocked = unlocked.unlocked ∧
      pt'.unlockRan = unlocked.unlockRan ∧ pt'.cr = unlocked.cr := by
  cases digital <;> exact ⟨rfl, rfl, rfl, rfl, rfl⟩

/-- `CONFIGURE_PINS` makes of a port what R172 to R177 say. -/
theorem pinsConfigured {c : Config} (hl : Placed c.layout) (mask : Byte) (codes : Word) (digital unlock : Bool)
    (pt : Port) : PinsConfigured pt (configuredPort c mask codes digital unlock pt) mask codes digital unlock := by
  obtain ⟨hdata, hdir, hunlocked, hran, hcr⟩ := configuredPort_frame c mask codes digital unlock pt
  constructor
  case data => rw [hdata]; cases unlock <;> rfl
  case dir => rw [hdir]; cases unlock <;> rfl
  case unlocked => rw [hunlocked]; cases unlock <;> simp [unlockedPort]
  case unlockRan => rw [hran]; cases unlock <;> simp [unlockedPort]
  case cr => intro j; rw [hcr]; cases unlock <;> simp [unlockedPort]
  case afsel =>
    intro j
    have hbit (old : Port) := commitByte_setPins hl old old.afsel mask j
    rw [← hl.afselA] at hbit
    cases digital <;> cases unlock <;> exact hbit _
  case den =>
    intro j
    have hbit (old : Port) := commitByte_setPins hl old old.den mask j
    rw [← hl.denE] at hbit
    cases digital with
    | true => cases unlock <;> exact hbit _
    | false => cases unlock <;> simp [configuredPort, routedPort, unlockedPort]
  case pctl =>
    intro i k hk
    have hbit (old : Port) := commitNibbles_putCodes hl old old.pctl codes mask (i := i) hk
    rw [← hl.pctlF] at hbit
    cases digital <;> cases unlock <;> exact hbit _

/-! What is hidden (R177). -/

/-- Different registers have different addresses (R9). -/
theorem addrOf_ne {l : Layout} {r r' : Reg} (hl : layoutWf l = true) (hr : r ∈ allRegs l) (hr' : r' ∈ allRegs l)
    (hne : r ≠ r') : addrOf l r ≠ addrOf l r' := fun h => by
  have hlocate := locate_addrOf hl hr
  rw [h, locate_addrOf hl hr'] at hlocate
  exact hne (Option.some.inj hlocate).symm

theorem noWriteTo_of_accesses {a : Word} {tr : List BusEvent} (h : (BusKind.write, a) ∉ accesses tr) :
    noWriteTo a tr = true := by
  refine List.all_eq_true.2 fun e he => ?_
  have hne : (e.kind, e.address) ≠ (.write, a) := fun heq => h (heq ▸ List.mem_map_of_mem he)
  cases hkind : e.kind with
  | read => rfl
  | write => simpa [hkind] using hne

theorem address_of_mem_modifyOf {a : Word} {e : BusKind × Word} (h : e ∈ modifyOf a) : e.2 = a := by
  simp only [modifyOf, List.mem_cons, List.not_mem_nil, or_false] at h
  obtain rfl | rfl := h <;> rfl

/-- `CONFIGURE_PINS` accesses registers of its port only (R177). -/
theorem configurePinsAccesses_port {c : Config} {p : Nat} {digital unlock : Bool} {e : BusKind × Word}
    (h : e ∈ configurePinsAccesses c p digital unlock) : ∃ g, e.2 = gpioAddr c p g := by
  simp only [configurePinsAccesses, List.mem_append, List.mem_ite_nil_right, List.mem_cons] at h
  obtain ((⟨-, rfl | hcr⟩ | hafsel) | hpctl) | ⟨-, hden⟩ := h
  · exact ⟨.lock, rfl⟩
  · exact ⟨.cr, address_of_mem_modifyOf hcr⟩
  · exact ⟨.afsel, address_of_mem_modifyOf hafsel⟩
  · exact ⟨.pctl, address_of_mem_modifyOf hpctl⟩
  · exact ⟨.den, address_of_mem_modifyOf hden⟩

/-- `CONFIGURE_PINS` writes no register outside the ports (R177). -/
theorem configurePins_noWriteTo {c : Config} {p : Nat} {digital unlock : Bool} {tr : List BusEvent} {r : Reg}
    (hl : layoutWf c.layout = true) (hp : p < nPorts c) (hr : r ∈ sysRegs)
    (htr : accesses tr = configurePinsAccesses c p digital unlock) : noWriteTo (addrOf c.layout r) tr = true := by
  refine noWriteTo_of_accesses fun hmem => ?_
  obtain ⟨g, hg⟩ := configurePinsAccesses_port (htr ▸ hmem)
  exact addrOf_ne hl (mem_allRegs_sys _ hr) (mem_allRegs_gpio hp g) (by rintro rfl; simp [sysRegs] at hr) hg

/-- Settles O33: the run by `portRuns_configurePins`, the bits of the port by `pinsConfigured`; what is hidden stays
because no access is a write of a clock-control register. -/
theorem configurePinsTouchesOnlyItsPins : Obligations.ConfigurePinsTouchesOnlyItsPins := by
  intro s p pt mask codes digital unlock hwf hp hc hpt
  have hl := configWf_layout hwf
  obtain ⟨t, tr, hran, haccesses⟩ :=
    portRuns_configurePins s.config p mask codes digital unlock pt (clearResult s) ⟨rfl, hl, hp, hc, hpt⟩
  refine ⟨_, _, tr, (runCommand_onPort _ hp).trans hran.ends, pinsConfigured (layoutWf_placed hl) ..,
    hran.moved.soft, hran.moved.trace, haccesses, hran.moved.sent, fun hquiet => ?_, hran.moved.issued⟩
  exact hran.moved.hidden hquiet (configurePins_noWriteTo hl hp (by simp [sysRegs]) haccesses)
    (configurePins_noWriteTo hl hp (by simp [sysRegs]) haccesses)

end Sys2Proof.Machine
end

section
/-! SUPPORT. The divisor arithmetic of 43_uart_channel.md R196. -/

namespace Sys2Proof.Machine

/-- The divisor in 64ths: what is left of the division by `16 * baud` gives the fraction, rounded half up (R196). -/
theorem divisor_in_64ths (clock : Nat) {baud : Nat} (hb : 0 < baud) :
    (8 * clock + baud) / (2 * baud) =
      64 * (clock / (16 * baud)) + (8 * (clock % (16 * baud)) + baud) / (2 * baud) := by
  have hsplit : 8 * clock + baud =
      8 * (clock % (16 * baud)) + baud + 2 * baud * (64 * (clock / (16 * baud))) := by
    have hdiv := Nat.div_add_mod clock (16 * baud)
    calc 8 * clock + baud
        = 8 * (16 * baud * (clock / (16 * baud)) + clock % (16 * baud)) + baud := by rw [hdiv]
      _ = _ := by ring
  rw [hsplit, Nat.add_mul_div_left _ _ (by omega), Nat.add_comm]

/-- The rounded fraction is at most one whole, which is the carry of R196. -/
theorem fraction_le_64 (clock : Nat) {baud : Nat} (hb : 0 < baud) :
    (8 * (clock % (16 * baud)) + baud) / (2 * baud) ≤ 64 := by
  have hrem := Nat.mod_lt clock (show 0 < 16 * baud by omega)
  exact Nat.le_of_lt_succ ((Nat.div_lt_iff_lt_mul (by omega)).2 (by omega))

/-- The two branches of the carry are one equation: the divisor in 64ths, cut into its integer part and its fraction. -/
theorem baudDivisors_eq (clock : Nat) {baud : Nat} (hb : 0 < baud) :
    ∃ int frac, baudDivisors clock baud = some (int, frac) ∧ frac < 64 ∧
      64 * int + frac = (8 * clock + baud) / (2 * baud) := by
  have hle := fraction_le_64 clock hb
  rw [divisor_in_64ths clock hb]
  simp only [baudDivisors, if_neg (Nat.ne_of_gt hb)]
  split
  · rename_i hcarry
    exact ⟨_, _, rfl, by decide, by omega⟩
  · rename_i hcarry
    exact ⟨_, _, rfl, by omega, rfl⟩

/-- Settles O44, by `baudDivisors_eq`. -/
theorem baudDivisorsAreTheNearest : Obligations.BaudDivisorsAreTheNearest := by
  refine ⟨fun clock baud int frac h => ?_, fun clock baud hb => ?_, rfl⟩
  · have hb : 0 < baud := Nat.pos_of_ne_zero fun h0 => by simp [baudDivisors, h0] at h
    obtain ⟨int', frac', heq, hfrac⟩ := baudDivisors_eq clock hb
    cases h.symm.trans heq
    exact ⟨hb, hfrac⟩
  · obtain ⟨int, frac, heq, -⟩ := baudDivisors_eq clock hb
    exact ⟨_, heq⟩

end Sys2Proof.Machine
end

section
/-! SUPPORT. The operations of 43_uart_channel.md that are one read of a channel register (R192, R193, R195), and the
iteration of the echo loop that finds no byte (44_serial_echo_service.md R208, R209). -/

namespace Sys2Proof.Machine

/-- A command that reads one register of a channel completes as `READ` of that register does, but for its answer. -/
theorem readChannelFor_completes {s t : State} {c : Nat} {u : UartReg} {f : ReadValue → Word} {v : ReadValue}
    {draws : Nat} (hn : c < nChannels s.config) (h : busRead (chanAddr s.config c u) (clearResult s) = .ok v t)
    (hd : t.drawCount = s.drawCount + draws) :
    ∃ t', readChannelFor c u f s = .next t' ∧ t'.soft = s.soft ∧ t'.hidden = t.hidden ∧
      t'.trace = s.trace ++ [{ kind := .read, address := chanAddr s.config c u, value := v.word }] ∧
      Issued s t' (some (f v)) 1 draws := by
  obtain ⟨t', hexec, hsoft, hhidden, htrace, hissued⟩ := exec_read_completes h hd
  cases (exec_read_next h).symm.trans hexec
  exact ⟨_, readChannelFor_next hn h, hsoft, hhidden, htrace, rfl, rfl, hissued.schedule, hissued.drawCount⟩

/-- The flags that a read of `FR` shows are those that the agents scheduled before it left (R49). -/
theorem frValue_tick_flags {s : State} (hl : layoutWf s.config.layout = true) (ch : Channel) :
    (frValue (tick s) ch).flag s.config.layout.txff = txFull s.config ch ∧
      (frValue (tick s) ch).flag s.config.layout.rxfe = rxEmpty ch := by
  simpa using frValue_flags (s := tick s) (by simpa using hl) ch

/-- A command that is one read of `FR` completes, with a function of what the read returned as its answer (R49). -/
theorem readFrFor_completes {s : State} {c : Nat} {ch : Channel} (f : ReadValue → Word)
    (hl : layoutWf s.config.layout = true) (hn : c < nChannels s.config) (hc : chanClocked s c = true)
    (hch : (tick s).channels[c]? = some ch) :
    ∃ t w, readChannelFor c .fr f s = .next t ∧ t.soft = s.soft ∧ t.hidden = (tick s).hidden ∧
      t.trace = s.trace ++ [{ kind := .read, address := chanAddr s.config c .fr, value := w }] ∧
      Issued s t (some (f (frValue (tick s) ch))) 1 1 := by
  have hread := busRead_fr (s := clearResult s) (ch := ch) hl hn hc (by simpa using hch)
  rw [tick_clearResult, frValue_clearResult] at hread
  obtain ⟨t, hexec, hsoft, hhidden, htrace, hissued⟩ := readChannelFor_completes (f := f) (draws := 1) hn hread (by simp)
  exact ⟨t, _, hexec, hsoft, by simpa using hhidden, htrace, hissued⟩

/-- Settles O42: one read of `FR` each, whose flags are those of `frValue_tick_flags`. -/
theorem flagPredicatesAnswerTheFlags : Obligations.FlagPredicatesAnswerTheFlags := by
  intro s c ch hwf hn hc hch
  have hl := configWf_layout hwf
  obtain ⟨hfull, hempty⟩ := frValue_tick_flags hl ch
  constructor
  · have hanswer : (if ch.rxq.length = 0 then 0#32 else 1#32) =
        boolWord (!(frValue (tick s) ch).flag s.config.layout.rxfe) := by
      rw [hempty, rxEmpty_eq, boolWord]
      by_cases h : ch.rxq.length = 0 <;> simp [h]
    rw [hanswer]
    exact readFrFor_completes (fun v => boolWord (!v.flag s.config.layout.rxfe)) hl hn hc hch
  · have hanswer : (if ch.txq.length = fifoCap s.config ch then 1#32 else 0#32) =
        boolWord ((frValue (tick s) ch).flag s.config.layout.txff) := by
      simp [hfull, txFull_eq, boolWord]
    rw [hanswer]
    exact readFrFor_completes (fun v => boolWord (v.flag s.config.layout.txff)) hl hn hc hch

/-- Settles O43: one read of `DR`, whose low byte is the oldest received byte or drawn. -/
theorem receiveBytePopsTheOldestByte : Obligations.ReceiveBytePopsTheOldestByte := by
  intro s c ch hwf hn hc hch
  have hread := busRead_dr (s := clearResult s) (ch := ch) (configWf_layout hwf) hn hc (by simpa using hch)
  rw [tick_clearResult, drValue_clearResult] at hread
  obtain ⟨t, hexec, hsoft, hhidden, htrace, hissued⟩ :=
    readChannelFor_completes (f := fun v => byteWord v.low8) (draws := 1) hn hread (by simp)
  refine ⟨t, _, (drValue (tick s) ch).low8, hexec, fun b q hq => drValue_low8 hq, hsoft, fun hq => ?_, ?_, htrace,
    hissued⟩
  · rw [drValue_low8_nil hq, tick_drawCount]
  · rw [hhidden, hidden_logBus, hidden_countDraw, hidden_setChannel, hidden_clearResult]
    rfl

/-! The echo loop without data (R194, R208). -/

/-- An iteration of the echo loop that finds no byte: the pulse, and the one read of `FR` that shows `RXFE`. -/
theorem echoOnce_noByte {s : State} {ch : Channel} (hl : layoutWf s.config.layout = true)
    (hn : s.config.chA < nChannels s.config) (hc : chanClocked s s.config.chA = true)
    (hch : (idle (s.config.ledPulseSpins + 1) s).channels[s.config.chA]? = some ch) (hq : ch.rxq = []) :
    ∃ v : ReadValue, v.flag s.config.layout.rxfe = true ∧
      echoOnce s = .ok (.become [.echo]) (logBus .read (chanAddr s.config s.config.chA .fr) v.word
        (countDraw (idle (s.config.ledPulseSpins + 1) s))) := by
  have hidle : tick (idle s.config.ledPulseSpins s) = idle (s.config.ledPulseSpins + 1) s := by
    rw [idle_succ, idle_tick]
  have hread := busRead_fr (s := ledPulse s.config.colorReceived s) (c := s.config.chA) (ch := ch)
    (by simpa [ledPulse] using hl) (by simpa [ledPulse] using hn) (by simpa [ledPulse] using hc)
    (by rwa [ledPulse, hidle])
  rw [ledPulse, hidle, idle_config] at hread
  have hflag : (frValue (idle (s.config.ledPulseSpins + 1) s) ch).flag s.config.layout.rxfe = true := by
    have hflags := (frValue_flags (s := idle (s.config.ledPulseSpins + 1) s) (by simpa using hl) ch).2
    rw [idle_config] at hflags
    rw [hflags, rxEmpty, hq]
    rfl
  refine ⟨_, hflag, ?_⟩
  simp only [echoOnce, ledPulse, uartAddr, idle_config]
  rw [hread]
  simp [hflag, echoNext, chanAddr]

/-- Settles O56: the loop is what is pending, and its iteration is that of `echoOnce_noByte`. -/
theorem echoPollWithoutDataReadsNoData : Obligations.EchoPollWithoutDataReadsNoData := by
  intro s ch hwf hpending hn hc hch hq
  have hl := configWf_layout hwf
  obtain ⟨-, -, hrxfe, -⟩ := layout_fields hl
  obtain ⟨v, hflag, hecho⟩ := echoOnce_noByte hl hn hc hch hq
  have hstep : step s = runMicros [.echo] s := by rw [step_pending (by simp [hpending]), hpending]
  refine ⟨_, v.word, hstep.trans (runMicros_become (m := .echo) hecho), by simp, by simp, by simp, by simp, ?_⟩
  rw [fieldFlag_word _ (fieldOk_lo hrxfe), hflag]

end Sys2Proof.Machine
end

section
/-! SUPPORT. `TRANSMIT_BYTE` (43_uart_channel.md R190, R191): its one write of the data register, the reads of `FR` that
come before it, and how its wait ends or stays pending. -/

namespace Sys2Proof.Machine

/-! The write of the data register (R50, R190). -/

theorem fifoCap_of_regs (cfg : Config) {ch ch' : Channel} (h : chanRegsOf ch' = chanRegsOf ch) :
    fifoCap cfg ch' = fifoCap cfg ch := by
  have hlcrh : ch'.lcrh = ch.lcrh := congrArg ChanRegs.lcrh h
  rw [fifoCap, fifoCap, hlcrh]

/-- Agents never take room in the transmit FIFO (R223). -/
theorem Drained.room {ch ch' : Channel} (h : Drained ch ch') {cfg : Config} (hroom : ch.txq.length < fifoCap cfg ch) :
    ch'.txq.length < fifoCap cfg ch' := by
  obtain ⟨hregs, htxq, -⟩ := h
  rw [fifoCap_of_regs cfg hregs]
  exact htxq.length_le.trans_lt hroom

theorem pushTx_of_room {cfg : Config} {ch : Channel} (b : Byte) (h : ch.txq.length < fifoCap cfg ch) :
    pushTx cfg ch b = { ch with txq := ch.txq ++ [b] } := if_pos h

/-- A byte at the end of the transmit FIFO is the last byte that the channel was given to send. -/
theorem sent_queue {s : State} {c : Nat} {ch : Channel} (b : Byte) (h : s.channels[c]? = some ch) :
    sent (setChannel s c { ch with txq := ch.txq ++ [b] }) c = sent s c ++ [b] := by
  obtain ⟨hlt, rfl⟩ := List.getElem?_eq_some_iff.1 h
  simp [sent, hlt]

theorem sent_setChannel_other {s : State} {c c' : Nat} (ch : Channel) (h : c' ≠ c) :
    sent (setChannel s c ch) c' = sent s c' := by
  simp [sent, h.symm]

/-- The sequencer wrote one byte to the data register of channel `c`, which had room for it: from `s` to `t` the byte was
queued last, where agents had left the channel as `ch`, and nothing else changed. -/
structure ByteQueued (s t : State) (c : Nat) (ch : Channel) (b : Byte) : Prop where
  soft : t.soft = s.soft
  hidden : t.hidden = { (tick s).hidden with
    queues := (tick s).hidden.queues.set c { chanQueuesOf ch with txq := ch.txq ++ [b] } }
  trace : t.trace = s.trace ++ writeTrace (chanAddr s.config c .dr) (b.setWidth 32)
  sent : sent t c = sent s c ++ [b]
  others : ∀ c', c' ≠ c → Machine.sent t c' = Machine.sent s c'
  issued : Issued s t s.result 1 0

theorem byteWord_setWidth (b : Byte) : (byteWord b).setWidth 8 = b := by
  rw [byteWord, BitVec.setWidth_setWidth_of_le _ (by decide), BitVec.setWidth_eq]

/-- The write at the end of `TRANSMIT_BYTE` queues the byte where there is room. -/
theorem dataWrite_queues {s : State} {c : Nat} {ch : Channel} (b : Byte) (hl : layoutWf s.config.layout = true)
    (hn : c < nChannels s.config) (hc : chanClocked s c = true) (hch : (tick s).channels[c]? = some ch)
    (hroom : ch.txq.length < fifoCap s.config ch) :
    ∃ t, runMicros [.write (chanAddr s.config c .dr) (byteWord b)] s = .next t ∧ ByteQueued s t c ch b := by
  have hbus := busWrite_dr (byteWord b) hl hn hc hch
  rw [byteWord_setWidth, pushTx_of_room b hroom] at hbus
  refine ⟨_, (runMicros_done (runMicro_write hbus)).trans (runMicros_nil _), ?_⟩
  exact
    { soft := by rw [soft_setPending, soft_logBus, soft_setChannel_same hch (by rfl), tick_soft]
      hidden := by rw [hidden_setPending, hidden_logBus, hidden_setChannel]; rfl
      trace := (busWrite_trace hbus :)
      sent := by rw [sent_setPending, sent_logBus, sent_queue b hch, tick_sent]
      others := fun c' hne => by rw [sent_setPending, sent_logBus, sent_setChannel_other _ hne, tick_sent]
      issued := ⟨by simp, rfl, by simp, by simp⟩ }

/-! The reads of `FR` (R190). -/

/-- What a read of `FR` of channel `c` leaves, where agents had left the channel as `ch` (R49, R84). -/
def afterFrRead (s : State) (c : Nat) (ch : Channel) : State :=
  logBus .read (chanAddr s.config c .fr) (frValue (tick s) ch).word (countDraw (tick s))

/-- Its trace entry. -/
def frRead (s : State) (c : Nat) (ch : Channel) : BusEvent :=
  { kind := .read, address := chanAddr s.config c .fr, value := (frValue (tick s) ch).word }

theorem afterFrRead_soft (s : State) (c : Nat) (ch : Channel) : (afterFrRead s c ch).soft = s.soft := by
  simp [afterFrRead]

theorem afterFrRead_config (s : State) (c : Nat) (ch : Channel) : (afterFrRead s c ch).config = s.config := by
  simp [afterFrRead]

theorem tick_afterFrRead (s : State) (c : Nat) (ch : Channel) :
    tick (afterFrRead s c ch) =
      logBus .read (chanAddr s.config c .fr) (frValue (tick s) ch).word (countDraw (idle 2 s)) := by
  rw [afterFrRead, tick_logBus, tick_countDraw, idle_two]

/-- `TXFF` in the trace entry is whether the FIFO was full (R49). -/
theorem frRead_txff {s : State} (hl : layoutWf s.config.layout = true) (c : Nat) (ch : Channel) :
    fieldFlag s.config.layout.txff (frRead s c ch).value = txFull s.config ch := by
  obtain ⟨-, htxff, -⟩ := layout_fields hl
  rw [frRead, fieldFlag_word _ (fieldOk_lo htxff), (frValue_tick_flags hl ch).1]

/-- A read of `FR` that answers was of a clocked channel that exists. -/
theorem busRead_fr_ok {s t : State} {c : Nat} {v : ReadValue} (hl : layoutWf s.config.layout = true)
    (hn : c < nChannels s.config) (h : busRead (chanAddr s.config c .fr) s = .ok v t) :
    chanClocked s c = true ∧
      ∃ ch, (tick s).channels[c]? = some ch ∧ v = frValue (tick s) ch ∧ t = afterFrRead s c ch := by
  obtain ⟨r, u, hlocate, hclocked, hread, -⟩ := busRead_ok h
  cases (locate_addrOf hl (mem_allRegs_uart hn .fr)).symm.trans hlocate
  have hc : chanClocked s c = true := by rwa [tick_clocked] at hclocked
  cases hch : (tick s).channels[c]? with
  | none => simp only [readReg, hch] at hread; cases hread
  | some ch =>
    cases (busRead_fr hl hn hc hch).symm.trans h
    exact ⟨hc, ch, rfl, rfl, rfl⟩

/-- `reads`, all of `FR` of channel `c`, took the machine from `s` to `t`: agents stepped before each, and nothing but
the trace is the sequencer's. -/
structure FrPolled (c : Nat) (s t : State) (reads : List BusEvent) : Prop where
  soft : t.soft = s.soft
  trace : t.trace = s.trace ++ reads
  schedule : t.schedule = s.schedule.drop reads.length
  sent : ∀ c', sent t c' = sent s c'
  access : ∀ e ∈ reads, e.kind = .read ∧ e.address = chanAddr s.config c .fr
  fits : (∀ ch ∈ s.channels, fifosFit s.config ch = true) → ∀ ch ∈ t.channels, fifosFit s.config ch = true

theorem FrPolled.zero (c : Nat) (s : State) : FrPolled c s s [] :=
  ⟨rfl, (List.append_nil _).symm, rfl, fun _ => rfl, nofun, id⟩

/-- One read, and then the others. -/
theorem FrPolled.cons {c : Nat} {s t : State} {ch : Channel} {reads : List BusEvent}
    (h : FrPolled c (afterFrRead s c ch) t reads) : FrPolled c s t (frRead s c ch :: reads) where
  soft := h.soft.trans (afterFrRead_soft s c ch)
  trace := by rw [h.trace]; simp [afterFrRead, frRead]
  schedule := by rw [h.schedule]; simp [afterFrRead]
  sent c' := by rw [h.sent]; simp [afterFrRead]
  access e he := by
    obtain rfl | he := List.mem_cons.1 he
    · exact ⟨rfl, rfl⟩
    · simpa [afterFrRead_config] using h.access e he
  fits hs := by
    have hfits := h.fits
    rw [afterFrRead_config] at hfits
    exact hfits ((fifos_agents.tick s).2 hs)

/-- The wait of `TRANSMIT_BYTE` with at most `n` reads (R190). -/
def pollTxff (cfg : Config) (c n : Nat) (s : State) : Res Bool :=
  pollFor (chanAddr cfg c .fr) (fun r => !r.flag cfg.layout.txff) n s

/-- What the wait did: reads that showed the FIFO full, then, if it ended, one that showed room, which is still there. -/
structure TxWaited (cfg : Config) (c n : Nat) (s t : State) (ended : Bool) (full last : List BusEvent) : Prop where
  polled : FrPolled c s t (full ++ last)
  shownFull : ∀ e ∈ full, fieldFlag cfg.layout.txff e.value = true
  goesOn : ended = false → last = [] ∧ full.length = n
  ends : ended = true → (∃ e, last = [e] ∧ fieldFlag cfg.layout.txff e.value = false) ∧
    chanClocked t c = true ∧ ∃ ch, t.channels[c]? = some ch ∧ txFull cfg ch = false

theorem pollTxff_ok {cfg : Config} {c n : Nat} {s t : State} {ended : Bool} (hs : s.config = cfg)
    (hl : layoutWf cfg.layout = true) (hn : c < nChannels cfg) (h : pollTxff cfg c n s = .ok ended t) :
    ∃ full last, TxWaited cfg c n s t ended full last := by
  induction n generalizing s with
  | zero =>
    cases h
    exact ⟨[], [], FrPolled.zero c _, nofun, fun _ => ⟨rfl, rfl⟩, nofun⟩
  | succ n ih =>
    subst hs
    obtain ⟨v, u, hread, hrest⟩ := bind_ok h
    obtain ⟨hc, ch, hch, rfl, rfl⟩ := busRead_fr_ok hl hn hread
    have hflag := frRead_txff hl c ch
    simp only [(frValue_tick_flags hl ch).1] at hrest
    cases hfull : txFull s.config ch with
    | false =>
      rw [hfull] at hrest hflag
      cases hrest
      refine ⟨[], [frRead s c ch], (FrPolled.zero c _).cons, nofun, nofun, fun _ => ⟨⟨_, rfl, hflag⟩, ?_, ch, ?_, hfull⟩⟩
      · simpa [afterFrRead] using hc
      · simpa [afterFrRead] using hch
    | true =>
      rw [hfull] at hrest hflag
      obtain ⟨full, last, hwaited⟩ := ih (afterFrRead_config s c ch) hrest
      refine ⟨frRead s c ch :: full, last, hwaited.polled.cons, ?_, fun he => ?_, hwaited.ends⟩
      · exact List.forall_mem_cons.2 ⟨hflag, hwaited.shownFull⟩
      · obtain ⟨hlast, hlength⟩ := hwaited.goesOn he
        exact ⟨hlast, by rw [List.length_cons, hlength]⟩

/-! The command (R190, R191). -/

/-- A command on an existing channel passes its range check, which makes no access (R123). -/
theorem runCommand_onChannel {s : State} {c : Nat} (ms : List Micro) (hn : c < nChannels s.config) :
    runCommand (.inRange [] [c] :: ms) s = runMicros ms (clearResult s) :=
  runMicros_done (runMicro_inRange (s := clearResult s) (inRange_channel hn))

/-- With room in the FIFO the wait ends with its first read (R190). -/
theorem runMicro_txWait_room {s : State} {c : Nat} {ch : Channel} (hl : layoutWf s.config.layout = true)
    (hn : c < nChannels s.config) (hc : chanClocked s c = true) (hch : (tick s).channels[c]? = some ch)
    (hfull : txFull s.config ch = false) : runMicro (.txWait c) s = .ok .done (afterFrRead s c ch) := by
  refine runMicro_txWait (ended := true) (poll_first (busRead_fr hl hn hc hch) ?_)
  rw [(frValue_tick_flags hl ch).1, hfull]
  rfl

/-- Settles O40: the first read shows room, which agents leave, and the byte is queued by `dataWrite_queues`. -/
theorem transmitByteQueuesTheByte : Obligations.TransmitByteQueuesTheByte := by
  intro s c ch b hwf hn hc hch hroom
  have hl := configWf_layout hwf
  have hfull : txFull s.config ch = false := by rw [txFull_eq]; exact decide_eq_false (Nat.ne_of_lt hroom)
  have hwait := runMicro_txWait_room (s := clearResult s) hl hn hc (by simpa using hch) hfull
  obtain ⟨ch₂, hch₂, hdrained⟩ := drained_agents.tick (tick s) c ch hch
  rw [← idle_two] at hch₂
  have hconfig : (afterFrRead (clearResult s) c ch).config = s.config := afterFrRead_config ..
  obtain ⟨t, hrun, hqueued⟩ := dataWrite_queues (s := afterFrRead (clearResult s) c ch) (c := c) (ch := ch₂) b
    (by rwa [hconfig]) (by rwa [hconfig]) (by simpa [afterFrRead] using hc) (by simpa [tick_afterFrRead] using hch₂)
    (by rw [hconfig]; exact hdrained.room hroom)
  rw [hconfig] at hrun
  refine ⟨t, (frRead (clearResult s) c ch).value, (runCommand_onChannel _ hn).trans ((runMicros_done hwait).trans hrun),
    ?_, ?_, fun c' hne => ?_, ?_, (frRead_txff (s := clearResult s) hl c ch).trans hfull, ?_, ch₂, hch₂, ?_⟩
  · rw [hqueued.soft, afterFrRead_soft, soft_clearResult]
  · rw [hqueued.sent]; simp [afterFrRead]
  · rw [hqueued.others c' hne]; simp [afterFrRead]
  · rw [hqueued.trace, hconfig]; simp [afterFrRead, frRead]
  · obtain ⟨hresult, hpending, hschedule, hdraws⟩ := hqueued.issued
    exact ⟨by simpa [afterFrRead] using hresult, hpending, by simpa [afterFrRead] using hschedule,
      by simpa [afterFrRead] using hdraws⟩
  · rw [hqueued.hidden, tick_afterFrRead]; simp

/-- A step of `TRANSMIT_BYTE` was on an existing channel, and ended in its wait or went on to its write. -/
theorem transmitByte_next {s t : State} {c : Nat} {b : Byte} (h : exec (.transmitByte c b) s = .next t) :
    c < nChannels s.config ∧ ∃ ended u, pollTxff s.config c (s.schedule.length + 1) (clearResult s) = .ok ended u ∧
      (if ended then runMicros [.write (chanAddr s.config c .dr) (byteWord b)] u
        else .next (setPending u (transmitSteps s.config c b))) = .next t := by
  have hn : c < nChannels s.config := by
    by_contra hn
    obtain ⟨-, houtOfRange, -⟩ := outOfRangeOperandsFault s 0 c b 0 0 0 0 false false
    obtain ⟨⟨last, hfault, -⟩, -⟩ := houtOfRange (Nat.not_lt.1 hn)
    cases h.symm.trans hfault
  refine ⟨hn, ?_⟩
  have hrun : runMicros (transmitSteps s.config c b) (clearResult s) = .next t := (runCommand_onChannel _ hn).symm.trans h
  cases hpoll : pollTxff s.config c (s.schedule.length + 1) (clearResult s) with
  | ok ended u =>
    have hwait : runMicro (.txWait c) (clearResult s) = .ok (waited ended) u :=
      runMicro_txWait (s := clearResult s) hpoll
    refine ⟨ended, u, rfl, ?_⟩
    cases ended with
    | false => exact (runMicros_wait hwait).symm.trans hrun
    | true => exact (runMicros_done hwait).symm.trans hrun
  | fault f =>
    have hwait : runMicro (.txWait c) (clearResult s) = .fault f := by
      show Res.bind (pollTxff s.config c (s.schedule.length + 1) (clearResult s)) _ = _
      rw [hpoll, fault_bind]
    cases (runMicros_fault hwait).symm.trans hrun
  | refused why => exact (pollFor_ne_refused _ _ _ _ _ hpoll).elim

/-- Settles O41: what the wait did is `TxWaited`; if it ended, the room it saw is still there when the byte is written. -/
theorem transmitByteNeverWritesWhileFull : Obligations.TransmitByteNeverWritesWhileFull := by
  intro s t c b hwf hfits h
  have hl := configWf_layout hwf
  obtain ⟨hn, ended, u, hpoll, hrest⟩ := transmitByte_next h
  obtain ⟨full, last, hwaited⟩ := pollTxff_ok (s := clearResult s) rfl hl hn hpoll
  have hpolled := hwaited.polled
  refine ⟨full ++ last, hpolled.access, ?_⟩
  cases ended with
  | false =>
    obtain ⟨rfl, hlength⟩ := hwaited.goesOn rfl
    rw [List.append_nil] at hpolled ⊢
    cases hrest
    refine .inl ⟨rfl, hpolled.trace, ?_, hwaited.shownFull, hpolled.sent⟩
    rw [setPending_schedule, hpolled.schedule, hlength]
    simp
  | true =>
    obtain ⟨⟨e, rfl, hroom⟩, hc, ch, hch, hnotFull⟩ := hwaited.ends rfl
    have hconfig : u.config = s.config := congrArg SoftView.config hpolled.soft
    have hlt : ch.txq.length < fifoCap s.config ch := by
      rw [txFull_eq, decide_eq_false_iff_not] at hnotFull
      exact Nat.lt_of_le_of_ne (fifosFit_iff.1 (hpolled.fits hfits ch (List.mem_of_getElem? hch))).1 hnotFull
    obtain ⟨ch₂, hch₂, hdrained⟩ := drained_agents.tick u c ch hch
    obtain ⟨t', hrun, hqueued⟩ := dataWrite_queues b (by rwa [hconfig]) (by rwa [hconfig]) hc hch₂
      (by rw [hconfig]; exact hdrained.room hlt)
    rw [hconfig] at hrun
    cases hrun.symm.trans hrest
    refine .inr ⟨hqueued.issued.pending, ?_, ⟨full, e, rfl, hroom, hwaited.shownFull⟩, ?_, fun c' hne => ?_⟩
    · rw [hqueued.trace, hpolled.trace, hconfig]; rfl
    · rw [hqueued.sent, hpolled.sent]; rfl
    · rw [hqueued.others c' hne, hpolled.sent]; rfl

end Sys2Proof.Machine
end

section
/-! SUPPORT. `UART_CONFIGURE` (43_uart_channel.md R186 to R189): the bus accesses of a list of micro-steps that never
waits, which registers those of `UART_CONFIGURE` are, and their order (70_reset_and_hazards.md R271). -/

namespace Sys2Proof.Machine

/-! The accesses of micro-steps that never wait (R96, R128). -/

/-- A micro-step that ends well ends at once: a range check, `MODIFY`, `WRITE` or the record of the unlock. -/
def Micro.straight (m : Micro) : Bool :=
  match m with
  | .inRange _ _ | .modify _ _ _ | .write _ _ | .noteUnlock _ => true
  | _ => false

/-- The bus accesses of such a micro-step, in order. -/
def Micro.accesses (m : Micro) : List (BusKind × Word) :=
  match m with
  | .modify a _ _ => modifyOf a
  | .write a _ => [(.write, a)]
  | _ => []

theorem busModify_trace {a st cl : Word} {s t : State} (h : busModify a st cl s = .ok () t) :
    ∃ old new, t.trace = s.trace ++ modifyTrace a old new := by
  obtain ⟨v, u, hread, hwrite⟩ := bind_ok h
  exact ⟨_, _, by rw [busWrite_trace hwrite, busRead_trace hread, List.append_assoc]; rfl⟩

theorem runMicro_straight {m : Micro} {s t : State} {p : Progress} (hm : m.straight = true)
    (h : runMicro m s = .ok p t) : p = .done ∧ ∃ tr, t.trace = s.trace ++ tr ∧ accesses tr = m.accesses := by
  cases m with
  | inRange ps cs =>
    simp only [runMicro] at h
    split at h
    · cases h; exact ⟨rfl, [], (List.append_nil _).symm, rfl⟩
    · cases h
  | modify a st cl =>
    obtain ⟨_, u, hbus, hdone⟩ := bind_ok h
    cases hdone
    obtain ⟨old, new, htrace⟩ := busModify_trace hbus
    exact ⟨rfl, _, htrace, rfl⟩
  | write a v =>
    obtain ⟨_, u, hbus, hdone⟩ := bind_ok h
    cases hdone
    exact ⟨rfl, _, busWrite_trace hbus, rfl⟩
  | noteUnlock p => cases h; exact ⟨rfl, [], (List.append_nil _).symm, rfl⟩
  | _ => cases hm

/-- A list of such micro-steps that ends with a next state made all its accesses, in order. -/
theorem runMicros_straight {ms : List Micro} {s t : State} (hms : ms.all Micro.straight = true)
    (h : runMicros ms s = .next t) :
    ∃ new, t.trace = s.trace ++ new ∧ accesses new = ms.flatMap Micro.accesses := by
  induction ms generalizing s with
  | nil => cases h; exact ⟨[], (List.append_nil _).symm, rfl⟩
  | cons m rest ih =>
    rw [List.all_cons, Bool.and_eq_true] at hms
    obtain ⟨hm, hrest⟩ := hms
    cases hmicro : runMicro m s with
    | ok p u =>
      obtain ⟨rfl, tr, htrace, hacc⟩ := runMicro_straight hm hmicro
      rw [runMicros_done hmicro] at h
      obtain ⟨new, htrace', hacc'⟩ := ih hrest h
      exact ⟨tr ++ new, by rw [htrace', htrace, List.append_assoc], by
        rw [accesses_append, hacc, hacc', List.flatMap_cons]⟩
    | fault f => rw [runMicros_fault hmicro] at h; cases h
    | refused why => rw [runMicros_refused hmicro] at h; cases h

/-! The registers that `UART_CONFIGURE` accesses (R186). -/

/-- The two accesses of one `MODIFY`, by register. -/
def modifies (r : Reg) : List (BusKind × Reg) := [(.read, r), (.write, r)]

/-- Every access of `UART_CONFIGURE` but the last, by register, in the order of R186. -/
def uartPrepareAccesses (c p : Nat) (unlock : Bool) : List (BusKind × Reg) :=
  modifies .gateUart ++ modifies .gateGpio ++
    (if unlock then (.write, .gpio p .lock) :: modifies (.gpio p .cr) else []) ++
    modifies (.gpio p .afsel) ++ modifies (.gpio p .pctl) ++ modifies (.gpio p .den) ++ modifies (.uart c .ctl) ++
    [(.write, .uart c .ibrd), (.write, .uart c .fbrd)]

/-- The accesses of `UART_CONFIGURE`, the line control last (R189). -/
def uartConfigureAccesses (c p : Nat) (unlock : Bool) : List (BusKind × Reg) :=
  uartPrepareAccesses c p unlock ++ [(.write, .uart c .lcrh)]

/-- Accesses by register, at the addresses of a layout. -/
def atAddresses (l : Layout) (acc : List (BusKind × Reg)) : List (BusKind × Word) := acc.map fun e => (e.1, addrOf l e.2)

theorem uartConfigureSteps_straight (cfg : Config) (c p : Nat) (mask : Byte) (f : BitVec 4) (bi : BitVec 16)
    (bf : BitVec 6) (wl : Nat) (fifo : Bool) :
    (uartConfigureSteps cfg c p mask f bi bf wl fifo).all Micro.straight = true := by
  cases h : needsUnlock cfg p mask <;> simp only [uartConfigureSteps, h] <;> rfl

theorem uartConfigureSteps_accesses (cfg : Config) (c p : Nat) (mask : Byte) (f : BitVec 4) (bi : BitVec 16)
    (bf : BitVec 6) (wl : Nat) (fifo : Bool) :
    (uartConfigureSteps cfg c p mask f bi bf wl fifo).flatMap Micro.accesses =
      atAddresses cfg.layout (uartConfigureAccesses c p (needsUnlock cfg p mask)) := by
  cases h : needsUnlock cfg p mask <;> simp only [uartConfigureSteps, h] <;> rfl

/-- `UART_CONFIGURE` accesses two gates, its port and its channel. -/
theorem mem_uartConfigureAccesses {c p : Nat} {unlock : Bool} {k : BusKind} {r : Reg}
    (h : (k, r) ∈ uartConfigureAccesses c p unlock) :
    r = .gateUart ∨ r = .gateGpio ∨ (∃ g, r = .gpio p g) ∨ ∃ u, r = .uart c u := by
  have hall : ∀ e ∈ uartConfigureAccesses c p unlock,
      e.2 = .gateUart ∨ e.2 = .gateGpio ∨ (∃ g, e.2 = .gpio p g) ∨ ∃ u, e.2 = .uart c u := by
    cases unlock <;> simp [uartConfigureAccesses, uartPrepareAccesses, modifies]
  exact hall (k, r) h

theorem uartConfigureAccesses_mem_allRegs {l : Layout} {c p : Nat} {unlock : Bool} {k : BusKind} {r : Reg}
    (hp : p < l.gpioBase.length) (hn : c < l.uartBase.length) (h : (k, r) ∈ uartConfigureAccesses c p unlock) :
    r ∈ allRegs l := by
  obtain rfl | rfl | ⟨g, rfl⟩ | ⟨u, rfl⟩ := mem_uartConfigureAccesses h
  · exact mem_allRegs_sys l (by simp [sysRegs])
  · exact mem_allRegs_sys l (by simp [sysRegs])
  · exact mem_allRegs_gpio hp g
  · exact mem_allRegs_uart hn u

/-- A register whose address `UART_CONFIGURE` accesses is one of those that it accesses (R9). -/
theorem mem_of_address {l : Layout} {c p : Nat} {unlock : Bool} {k : BusKind} {r : Reg} (hl : layoutWf l = true)
    (hp : p < l.gpioBase.length) (hn : c < l.uartBase.length) (hr : r ∈ allRegs l)
    (h : (k, addrOf l r) ∈ atAddresses l (uartConfigureAccesses c p unlock)) :
    (k, r) ∈ uartConfigureAccesses c p unlock := by
  obtain ⟨⟨k', r'⟩, hmem, heq⟩ := List.mem_map.1 h
  obtain ⟨rfl, haddr⟩ := Prod.mk.inj heq
  have hr' := uartConfigureAccesses_mem_allRegs hp hn hmem
  obtain rfl : r' = r := by
    by_contra hne
    exact addrOf_ne hl hr' hr hne haddr
  exact hmem

/-! The order of the writes (R189, R271). -/

theorem noWriteTo_eq_false {a : Word} {tr : List BusEvent} (h : (BusKind.write, a) ∈ accesses tr) :
    noWriteTo a tr = false := by
  obtain ⟨e, he, heq⟩ := List.mem_map.1 h
  obtain ⟨hkind, haddress⟩ := Prod.mk.inj heq
  exact List.all_eq_false.2 ⟨e, he, by simp [hkind, haddress]⟩

/-- What stands before the last access of a trace is followed by it. -/
theorem last_follows {tr before after : List BusEvent} {e : BusEvent} {acc : List (BusKind × Word)}
    {last : BusKind × Word} (hacc : accesses tr = acc ++ [last]) (htr : tr = before ++ e :: after)
    (hne : (e.kind, e.address) ≠ last) : last ∈ accesses after := by
  have hlast : [last] <:+ accesses tr := ⟨acc, hacc.symm⟩
  have hafter : accesses (e :: after) <:+ accesses tr := ⟨accesses before, by rw [← accesses_append, htr]⟩
  have hsuffix := List.suffix_of_suffix_length_le hlast hafter (by simp [accesses])
  exact (List.mem_cons.1 (hsuffix.subset (List.mem_singleton_self last))).resolve_left hne.symm

/-- The one channel whose divisors `UART_CONFIGURE` writes is its own, and it writes the line control of that channel
last (R189). -/
theorem replayOrder_uartConfigure {l : Layout} {c p : Nat} {unlock : Bool} {tr : List BusEvent}
    (hl : layoutWf l = true) (hp : p < l.gpioBase.length) (hn : c < l.uartBase.length)
    (hacc : accesses tr = atAddresses l (uartConfigureAccesses c p unlock)) {c' : Nat} (hn' : c' < l.uartBase.length) :
    replayOrder l c' tr := by
  have key : ∀ u before after v, u = UartReg.ibrd ∨ u = UartReg.fbrd →
      tr = before ++ { kind := .write, address := addrOf l (.uart c' u), value := v } :: after →
      noWriteTo (addrOf l (.uart c' .lcrh)) after = false := by
    intro u before after v hu htr
    have hmem : (BusKind.write, addrOf l (.uart c' u)) ∈ accesses tr := by rw [htr, accesses_append]; simp [accesses]
    rw [hacc] at hmem
    obtain rfl : c' = c := by
      simpa using mem_uartConfigureAccesses (mem_of_address hl hp hn (mem_allRegs_uart hn' u) hmem)
    have hne : addrOf l (.uart c' u) ≠ addrOf l (.uart c' .lcrh) :=
      addrOf_ne hl (mem_allRegs_uart hn u) (mem_allRegs_uart hn .lcrh) (by rintro ⟨⟩; simp at hu)
    rw [uartConfigureAccesses, atAddresses, List.map_append] at hacc
    exact noWriteTo_eq_false (last_follows hacc htr fun h => hne (Prod.mk.inj h).2)
  rintro before after a v (rfl | rfl) htr
  · exact key .ibrd before after v (.inl rfl) htr
  · exact key .fbrd before after v (.inr rfl) htr

/-- `UART_CONFIGURE` that answers a next state had the supported profile and operands in range, and ran its
micro-steps. -/
theorem uartConfigure_next {s t : State} {c p : Nat} {mask : Byte} {f : BitVec 4} {bi : BitVec 16} {bf : BitVec 6}
    {wl sb : Nat} {par fifo : Bool} (h : exec (.uartConfigure c p mask f bi bf wl sb par fifo) s = .next t) :
    p < nPorts s.config ∧ c < nChannels s.config ∧
      runMicros (uartConfigureSteps s.config c p mask f bi bf wl fifo) (clearResult s) = .next t := by
  change execUartConfigure .. = _ at h
  rw [execUartConfigure] at h
  split at h
  · cases hr : inRange s [p] [c] with
    | false =>
      cases h.symm.trans (runMicros_fault (s := clearResult s) (if_neg (Bool.not_eq_true _ ▸ hr)))
    | true =>
      simp only [inRange, List.all_cons, List.all_nil, Bool.and_true, Bool.and_eq_true, decide_eq_true_eq] at hr
      exact ⟨hr.1, hr.2, h⟩
  · cases h

/-- Settles O38: the accesses of the micro-steps are those of R186, in their order. -/
theorem divisorsPrecedeLineControl : Obligations.DivisorsPrecedeLineControl := by
  intro s t c p mask f bi bf wl sb par fifo hwf h
  obtain ⟨hp, hn, hrun⟩ := uartConfigure_next h
  obtain ⟨new, htrace, hacc⟩ := runMicros_straight (uartConfigureSteps_straight ..) hrun
  rw [uartConfigureSteps_accesses] at hacc
  exact ⟨new, htrace, fun c' hn' => replayOrder_uartConfigure (configWf_layout hwf) hp hn hacc hn'⟩

end Sys2Proof.Machine
end

section
/-! SUPPORT. `UART_CONFIGURE` (43_uart_channel.md R186 to R188): the stretches of its micro-steps before the line-control
write, and what that write does. -/

namespace Sys2Proof.Machine

/-! The channel's fields (R9, R30, R48). -/

/-- The gate bit of a channel is a one-bit field, and the channel exists (R9, R30). -/
theorem gateChan_field {l : Layout} {c : Nat} {f : Field} (h : layoutWf l = true) (hf : l.gateChan[c]? = some f) :
    fieldOk 1 f = true ∧ c < l.uartBase.length := by
  have hgates : l.gateChan.all (fieldOk 1) = true ∧ (l.gateChan.length == l.uartBase.length) = true := by
    simp only [layoutWf, Bool.and_eq_true] at h
    tauto
  obtain ⟨hok, hlength⟩ := hgates
  obtain ⟨hlt, -⟩ := List.getElem?_eq_some_iff.1 hf
  exact ⟨List.all_eq_true.1 hok f (List.mem_of_getElem? hf), (beq_iff_eq.1 hlength) ▸ hlt⟩

theorem chanGateBit_eq {cfg : Config} {c : Nat} {f : Field} (hf : cfg.layout.gateChan[c]? = some f) :
    chanGateBit cfg c = fieldBit f := by simp only [chanGateBit, hf]

theorem chanClocked_eq {s : State} {c : Nat} {f : Field} (hf : s.config.layout.gateChan[c]? = some f) :
    chanClocked s c = fieldFlag f s.gateUart := by simp only [chanClocked, hf]

/-- The fields of `LCRH` and `CTL` have their widths, and those of `LCRH` share no bit (R9, R45, R48). -/
structure LineFields (l : Layout) : Prop where
  wlen : fieldOk 2 l.wlen = true
  fen : fieldOk 1 l.fen = true
  stp2 : fieldOk 1 l.stp2 = true
  pen : fieldOk 1 l.pen = true
  en : fieldOk 1 l.en = true
  wlen_fen : fieldsApart l.wlen l.fen = true
  wlen_stp2 : fieldsApart l.wlen l.stp2 = true
  wlen_pen : fieldsApart l.wlen l.pen = true
  fen_stp2 : fieldsApart l.fen l.stp2 = true
  fen_pen : fieldsApart l.fen l.pen = true

theorem layoutWf_lineFields {l : Layout} (h : layoutWf l = true) : LineFields l := by
  simp only [layoutWf, Bool.and_eq_true, fieldsDisjoint, List.all_cons, List.all_nil] at h
  constructor <;> tauto

/-! The line-control word (R188). -/

theorem lcrhWord_bit {l : Layout} (h : LineFields l) (fifo : Bool) (j : Nat) :
    (lcrhWord l 8 fifo).getLsbD j =
      ((decide (l.wlen.lo ≤ j) && decide (j ≤ l.wlen.hi) && (3).testBit (j - l.wlen.lo)) ||
        (fifo && decide (j = l.fen.lo))) := by
  rw [lcrhWord, BitVec.getLsbD_or, fieldPut_bit h.wlen, wlenCode]
  cases fifo <;> simp [fieldBit_bit (fieldOk_lo h.fen)]

/-- A one-bit field of `LCRH` is clear of the word length. -/
theorem lcrhWord_flag {l : Layout} (h : LineFields l) (fifo : Bool) {g : Field} (hg : fieldOk 1 g = true)
    (hapart : fieldsApart l.wlen g = true) : fieldFlag g (lcrhWord l 8 fifo) = (fifo && decide (g.lo = l.fen.lo)) := by
  have hone := one_bit_field hg
  have houtside : (decide (l.wlen.lo ≤ g.lo) && decide (g.lo ≤ l.wlen.hi)) = false := by
    simp only [fieldsApart, Bool.or_eq_true, decide_eq_true_eq] at hapart
    simp only [Bool.and_eq_false_iff, decide_eq_false_iff_not]
    omega
  rw [fieldFlag, lcrhWord_bit h, houtside, Bool.false_and, Bool.false_or]

theorem fieldsApart_lo {f g : Field} (hf : fieldOk 1 f = true) (hg : fieldOk 1 g = true)
    (h : fieldsApart f g = true) : g.lo ≠ f.lo := by
  have hf := one_bit_field hf
  have hg := one_bit_field hg
  simp only [fieldsApart, Bool.or_eq_true, decide_eq_true_eq] at h
  omega

/-- The line-control word is 8 data bits, 1 stop bit, no parity, with the FIFOs as asked for (R188). -/
theorem lcrhWord_fields {l : Layout} (h : LineFields l) (fifo : Bool) :
    fieldGet l.wlen (lcrhWord l 8 fifo) = wlenCode wordLengthWanted ∧ fieldFlag l.fen (lcrhWord l 8 fifo) = fifo ∧
      fieldFlag l.stp2 (lcrhWord l 8 fifo) = false ∧ fieldFlag l.pen (lcrhWord l 8 fifo) = false := by
  obtain ⟨-, -, hwidth, hhi, -⟩ := fieldOk_width h.wlen
  refine ⟨fieldGet_eq (by rw [hwidth]; decide) fun i hi => ?_, ?_, ?_, ?_⟩
  · rw [hwidth] at hi
    have hbit : (wlenCode wordLengthWanted).testBit i = true := by interval_cases i <;> rfl
    have hin : l.wlen.lo + i ≤ l.wlen.hi := by omega
    rw [lcrhWord_bit h, Nat.add_sub_cancel_left, hbit]
    simp [hin, show Nat.testBit 3 i = true from hbit]
  · rw [lcrhWord_flag h fifo h.fen h.wlen_fen]; simp
  · rw [lcrhWord_flag h fifo h.stp2 h.wlen_stp2]; simp [fieldsApart_lo h.fen h.stp2 h.fen_stp2]
  · rw [lcrhWord_flag h fifo h.pen h.wlen_pen]; simp [fieldsApart_lo h.fen h.pen h.fen_pen]

/-! When the line-control word lowers no FIFO below a queue (R52). -/

theorem configWf_fifoDepth {c : Config} (h : configWf c = true) : 1 ≤ c.fifoDepth := by
  simp only [configWf, Bool.and_eq_true, decide_eq_true_eq] at h
  tauto

/-- It lowers none if it switches the FIFOs on, if they were off, or if no queue holds more than one byte. -/
theorem not_lowersBelow_lcrhWord {cfg : Config} {ch : Channel} {fifo : Bool} (hwf : configWf cfg = true)
    (h : fifo = true ∨ fieldFlag cfg.layout.fen ch.lcrh = false ∨ (ch.txq.length ≤ 1 ∧ ch.rxq.length ≤ 1)) :
    ¬ lowersBelow cfg ch (lcrhWord cfg.layout 8 fifo) := by
  have hdepth := configWf_fifoDepth hwf
  obtain ⟨-, hfen, -⟩ := lcrhWord_fields (layoutWf_lineFields (configWf_layout hwf)) fifo
  rintro ⟨hless, hlong⟩
  rw [hfen] at hless hlong
  obtain rfl | hoff | ⟨htx, hrx⟩ := h
  · have hcap : fifoCap cfg ch ≤ cfg.fifoDepth := by
      rw [fifoCap]
      split
      · exact le_rfl
      · exact hdepth
    exact Nat.not_lt.2 hcap hless
  · rw [fifoCap, hoff] at hless
    cases fifo <;> simp at hless
    omega
  · have hroom : 1 ≤ if fifo = true then cfg.fifoDepth else 1 := by
      split
      · exact hdepth
      · exact le_rfl
    omega

/-- What the refusal depends on: the capacity and how long the queues are. -/
theorem lowersBelow_congr {cfg : Config} {ch ch' : Channel} (v : Word) (hlcrh : ch'.lcrh = ch.lcrh)
    (hqueues : chanQueuesOf ch' = chanQueuesOf ch) : lowersBelow cfg ch' v ↔ lowersBelow cfg ch v := by
  have htx : ch'.txq = ch.txq := congrArg ChanQueues.txq hqueues
  have hrx : ch'.rxq = ch.rxq := congrArg ChanQueues.rxq hqueues
  rw [lowersBelow, lowersBelow, fifoCap, fifoCap, hlcrh, htx, hrx]

/-! Stretches of micro-steps on one channel. -/

/-- The sequencer can access channel `c`, whose registers are `x`, under configuration `cfg`. -/
structure ChannelReady (cfg : Config) (c : Nat) (x : ChanRegs) (s : State) : Prop where
  config : s.config = cfg
  layout : layoutWf s.config.layout = true
  inRange : c < nChannels s.config
  clocked : chanClocked s c = true
  regs : s.soft.channels[c]? = some x

/-- The micro-steps `ms` run to their end wherever the registers of channel `c` are `x` and can be accessed: they make
`x'` of them, and change no other register. -/
def ChannelRuns (cfg : Config) (c : Nat) (ms : List Micro) (x x' : ChanRegs) : Prop :=
  ∀ s, ChannelReady cfg c x s →
    ∃ t tr, Ran ms s t { s.soft with channels := s.soft.channels.set c x' } tr tr.length

/-- A stretch on a channel leaves it ready for the next one. -/
theorem ChannelReady.after {cfg : Config} {c : Nat} {x x' : ChanRegs} {s t : State} (h : ChannelReady cfg c x s)
    (hsoft : t.soft = { s.soft with channels := s.soft.channels.set c x' }) : ChannelReady cfg c x' t := by
  obtain ⟨hconfig, hclocked, hregs, -⟩ := after_channel h.regs hsoft
  exact ⟨hconfig.trans h.config, by rw [hconfig]; exact h.layout, by rw [hconfig]; exact h.inRange,
    hclocked.trans h.clocked, hregs⟩

namespace ChannelRuns

variable {cfg : Config} {c : Nat} {ms ms' : List Micro} {x x' x'' : ChanRegs}

theorem trans (h1 : ChannelRuns cfg c ms x x') (h2 : ChannelRuns cfg c ms' x' x'') :
    ChannelRuns cfg c (ms ++ ms') x x'' := fun s h => by
  obtain ⟨t, tr, hran⟩ := h1 s h
  obtain ⟨u, tr', hran'⟩ := h2 t (h.after hran.moved.soft)
  obtain ⟨-, -, -, hset⟩ := after_channel h.regs hran.moved.soft
  rw [hset] at hran'
  exact ⟨u, tr ++ tr', by rw [List.length_append]; exact hran.trans hran'⟩

theorem write (cfg : Config) (c : Nat) (x : ChanRegs) {u : UartReg} (v : Word) (hu : u = .ibrd ∨ u = .fbrd ∨ u = .ctl) :
    ChannelRuns cfg c [.write (chanAddr cfg c u) v] x (regsWrite cfg.layout x u v) := by
  rintro s ⟨rfl, hl, hn, hc, hx⟩
  obtain ⟨t, hran⟩ := ran_channel_write v hl hn hc hx hu
  exact ⟨t, _, hran⟩

theorem modifyCtl (cfg : Config) (c : Nat) (x : ChanRegs) (st cl : Word) :
    ChannelRuns cfg c [.modify (chanAddr cfg c .ctl) st cl] x { x with ctl := clearThenSet x.ctl st cl } := by
  rintro s ⟨rfl, hl, hn, hc, hx⟩
  obtain ⟨t, hran⟩ := ran_modify (s := s) (r := .uart c .ctl) (w := x.ctl) st cl hl (mem_allRegs_uart hn _) rfl hc
    (by rw [plainWord_eq]; simp only [softWord, hx, Option.bind_some, regsWord]) (by simp)
  simp only [softWrite, hx, regsWrite] at hran
  exact ⟨t, _, hran⟩

end ChannelRuns

/-- The registers of a channel with the transceiver enabled and the divisors written (R186, R187). -/
def preparedRegs (l : Layout) (bi : BitVec 16) (bf : BitVec 6) (x : ChanRegs) : ChanRegs :=
  { x with ctl := clearThenSet x.ctl (fieldBit l.en) 0#32, ibrd := bi.setWidth 32, fbrd := bf.setWidth 32 }

/-- The micro-steps of `UART_CONFIGURE` on its channel, but for the last. -/
def channelSteps (cfg : Config) (c : Nat) (bi : BitVec 16) (bf : BitVec 6) : List Micro :=
  [.modify (chanAddr cfg c .ctl) (fieldBit cfg.layout.en) 0#32] ++ [.write (chanAddr cfg c .ibrd) (bi.setWidth 32)] ++
    [.write (chanAddr cfg c .fbrd) (bf.setWidth 32)]

theorem channelRuns_prepare (cfg : Config) (c : Nat) (bi : BitVec 16) (bf : BitVec 6) (x : ChanRegs) :
    ChannelRuns cfg c (channelSteps cfg c bi bf) x (preparedRegs cfg.layout bi bf x) :=
  ((ChannelRuns.modifyCtl cfg c x _ _).trans (ChannelRuns.write cfg c _ _ (.inl rfl))).trans
    (ChannelRuns.write cfg c _ _ (.inr (.inl rfl)))

/-- A divisor register holds its operand zero-extended, and the field reads it back (R187, R118). -/
theorem extractLow_setWidth {n : Nat} (b : BitVec n) (hn : n ≤ 32) : (b.setWidth 32).extractLsb' 0 n = b := by
  apply BitVec.eq_of_getLsbD_eq
  intro i hi
  simp [hi, show i < 32 by omega]

/-- The registers of a channel after the line-control write, which latches the divisors as they stand (R188, R53). -/
theorem latched_preparedRegs {l : Layout} (hl : Placed l) (bi : BitVec 16) (bf : BitVec 6) (x : ChanRegs) (v : Word) :
    regsWrite l (preparedRegs l bi bf x) .lcrh v =
      { ctl := clearThenSet x.ctl (fieldBit l.en) 0#32, ibrd := bi.setWidth 32, fbrd := bf.setWidth 32, lcrh := v,
        baudLatch := some (bi, bf) } := by
  simp only [regsWrite, preparedRegs, hl.divint, hl.divfrac]
  rw [extractLow_setWidth bi (by decide), extractLow_setWidth bf (by decide)]

/-! The line-control write (R52, R188). -/

/-- A line-control write latches the divisors or is refused (R52, R53), by what agents have left of the channel. -/
theorem lineWrite_ends {cfg : Config} {c : Nat} {x : ChanRegs} {s : State} (v : Word) (h : ChannelReady cfg c x s) :
    ∃ ch, (tick s).channels[c]? = some ch ∧ chanRegsOf ch = x ∧
      (¬ lowersBelow cfg ch v → ∃ t, Ran [.write (chanAddr cfg c .lcrh) v] s t
        { s.soft with channels := s.soft.channels.set c (regsWrite cfg.layout x .lcrh v) }
        (writeTrace (chanAddr cfg c .lcrh) v) 1) ∧
      (lowersBelow cfg ch v → runMicros [.write (chanAddr cfg c .lcrh) v] s = .refused (.fifoShrink c)) := by
  obtain ⟨rfl, hl, hn, hc, hx⟩ := h
  obtain ⟨ch₀, hch₀, hregs₀⟩ := channel_of_regs hx
  obtain ⟨ch, hch, hregs⟩ := channel_of_soft (tick_soft s) hch₀
  refine ⟨ch, hch, hregs.trans hregs₀, fun hfits => ?_, fun hlowers => ?_⟩
  · have hs : shrinks s.config ch v = false := Bool.eq_false_iff.2 fun hs => hfits ((shrinks_iff ..).1 hs)
    obtain ⟨t, hran⟩ := ran_write (s := s) (r := .uart c .lcrh) (v := v) hl (mem_allRegs_uart hn _) rfl hc (by simp)
      (u := setChannel (tick s) c (latchLine s.config.layout ch v)) (by simp [writeReg, writeChannel, hch, hs])
    simp only [softWrite, hx] at hran
    exact ⟨t, hran⟩
  · have hs : shrinks s.config ch v = true := (shrinks_iff ..).2 hlowers
    have hbus : busWrite (chanAddr s.config c .lcrh) v s = .refused (.fifoShrink c) :=
      (busWrite_at (r := .uart c .lcrh) hl (mem_allRegs_uart hn _) rfl hc v).trans
        (by simp [writeReg, writeChannel, hch, hs])
    exact runMicros_refused (by rw [runMicro, hbus, refused_bind])

end Sys2Proof.Machine
end

section
/-! SUPPORT. `UART_CONFIGURE` as a whole (43_uart_channel.md R186 to R188): its run up to the line-control write, the two
ways that this write can end (10_state.md R52), and the machine that it leaves. -/

namespace Sys2Proof.Machine

/-- The operands of `UART_CONFIGURE` with the supported profile (R186). -/
structure UartOp where
  channel : Nat
  port : Nat
  mask : Byte
  fcode : BitVec 4
  baudInt : BitVec 16
  baudFrac : BitVec 6
  fifo : Bool

namespace UartOp

/-- Its micro-steps (R186). -/
def steps (o : UartOp) (cfg : Config) : List Micro :=
  uartConfigureSteps cfg o.channel o.port o.mask o.fcode o.baudInt o.baudFrac 8 o.fifo

/-- Whether it makes the unlock of `CONFIGURE_PINS` (R186). -/
def unlock (o : UartOp) (cfg : Config) : Bool := needsUnlock cfg o.port o.mask

/-- The word that it writes to `LCRH` (R188). -/
def lineWord (o : UartOp) (cfg : Config) : Word := lcrhWord cfg.layout 8 o.fifo

/-- The port after it (R186). -/
def configured (o : UartOp) (cfg : Config) (pt : Port) : Port :=
  configuredPort cfg o.mask (replicateCode o.fcode) true (o.unlock cfg) pt

/-- The registers of the machine with both gates open, the pins configured, and `x` the registers of the channel. -/
def view (o : UartOp) (v : SoftView) (pt : Port) (fp fc : Field) (x : ChanRegs) : SoftView :=
  { v with
    gateUart := clearThenSet v.gateUart (fieldBit fc) 0#32
    gateGpio := clearThenSet v.gateGpio (fieldBit fp) 0#32
    ports := v.ports.set o.port (o.configured v.config pt)
    channels := v.channels.set o.channel x }

/-- The registers of the channel after it (R186 to R188). -/
def regs (o : UartOp) (cfg : Config) (x : ChanRegs) : ChanRegs :=
  { ctl := clearThenSet x.ctl (fieldBit cfg.layout.en) 0#32, ibrd := o.baudInt.setWidth 32,
    fbrd := o.baudFrac.setWidth 32, lcrh := o.lineWord cfg, baudLatch := some (o.baudInt, o.baudFrac) }

/-- The port and the channel that the operands name exist: they are `pt` and `ch`, with gate bits `fp` and `fc`. -/
structure Site (o : UartOp) (s : State) (pt : Port) (ch : Channel) (fp fc : Field) : Prop where
  wf : configWf s.config = true
  port : s.ports[o.port]? = some pt
  channel : s.channels[o.channel]? = some ch
  portGate : s.config.layout.gatePort[o.port]? = some fp
  chanGate : s.config.layout.gateChan[o.channel]? = some fc

/-! The run up to the line-control write. -/

/-- The micro-steps that open the two gates (R186). -/
def gateSteps (o : UartOp) (cfg : Config) : List Micro :=
  [.inRange [o.port] [o.channel]] ++ [.modify (addrOf cfg.layout .gateUart) (chanGateBit cfg o.channel) 0#32] ++
    enablePortSteps cfg o.port

/-- All the micro-steps but the line-control write. -/
def prepareSteps (o : UartOp) (cfg : Config) : List Micro :=
  o.gateSteps cfg ++ configurePinsSteps cfg o.port o.mask (replicateCode o.fcode) true (o.unlock cfg) ++
    channelSteps cfg o.channel o.baudInt o.baudFrac

theorem steps_eq (o : UartOp) (cfg : Config) :
    o.steps cfg = o.prepareSteps cfg ++ [.write (chanAddr cfg o.channel .lcrh) (o.lineWord cfg)] := by
  simp [steps, prepareSteps, gateSteps, uartConfigureSteps, channelSteps, unlock, lineWord]

variable {o : UartOp} {s : State} {pt : Port} {ch : Channel} {fp fc : Field}

theorem Site.ran_gates (h : o.Site s pt ch fp fc) :
    ∃ t tr, Ran (o.gateSteps s.config) s t
      { s.soft with
        gateUart := clearThenSet s.gateUart (fieldBit fc) 0#32
        gateGpio := clearThenSet s.gateGpio (fieldBit fp) 0#32 } tr tr.length := by
  have hl := configWf_layout h.wf
  obtain ⟨-, hp⟩ := gatePort_field hl h.portGate
  obtain ⟨-, hn⟩ := gateChan_field hl h.chanGate
  have hrange : inRange s [o.port] [o.channel] = true := by simp [inRange, nPorts, nChannels, hp, hn]
  obtain ⟨t, huart⟩ := ran_modify (s := s) (r := .gateUart) (chanGateBit s.config o.channel) 0#32 hl
    (mem_allRegs_sys _ (by simp [sysRegs])) rfl rfl rfl nofun
  have hconfig : t.config = s.config := huart.moved.config
  have hgpioGate : t.gateGpio = s.gateGpio := congrArg SoftView.gateGpio huart.moved.soft
  obtain ⟨u, hgpio⟩ := ran_modify (s := t) (r := .gateGpio) (portGateBit s.config o.port) 0#32 (by rwa [hconfig])
    (mem_allRegs_sys _ (by simp [sysRegs])) rfl rfl rfl nofun
  have hcheck := ran_inRange (inRange_port (s := t) (p := o.port) (by rwa [hconfig]))
  have hran := ((ran_inRange hrange).trans huart).trans (hcheck.trans hgpio)
  rw [hconfig, hgpioGate, huart.moved.soft, chanGateBit_eq h.chanGate, portGateBit_eq h.portGate] at hran
  exact ⟨u, _, by
    rw [gateSteps, enablePortSteps, chanGateBit_eq h.chanGate, portGateBit_eq h.portGate]
    exact hran⟩

/-- Everything before the line-control write runs to its end: both gates are open by then, the pins are configured, the
transceiver is enabled and the divisors are written. -/
theorem Site.ran_prepare (h : o.Site s pt ch fp fc) :
    ∃ u tr, Ran (o.prepareSteps s.config) s u
        (o.view s.soft pt fp fc (preparedRegs s.config.layout o.baudInt o.baudFrac (chanRegsOf ch))) tr tr.length ∧
      ChannelReady s.config o.channel (preparedRegs s.config.layout o.baudInt o.baudFrac (chanRegsOf ch)) u := by
  have hl := configWf_layout h.wf
  obtain ⟨hportField, hp⟩ := gatePort_field hl h.portGate
  obtain ⟨hchanField, hn⟩ := gateChan_field hl h.chanGate
  obtain ⟨t₁, tr₁, hgates⟩ := h.ran_gates
  have hsoft₁ := hgates.moved.soft
  have hconfig₁ : t₁.config = s.config := hgates.moved.config
  have hgpio₁ : t₁.gateGpio = _ := congrArg SoftView.gateGpio hsoft₁
  have hports₁ : t₁.ports = s.ports := congrArg SoftView.ports hsoft₁
  obtain ⟨t₂, tr₂, hpins, -⟩ := portRuns_configurePins s.config o.port o.mask (replicateCode o.fcode) true
    (o.unlock s.config) pt t₁
    { config := hconfig₁
      layout := by rwa [hconfig₁]
      inRange := by rwa [hconfig₁]
      clocked := by rw [portClocked_eq (by rw [hconfig₁]; exact h.portGate), hgpio₁, fieldFlag_setBit hportField]
      port := by rw [hports₁]; exact h.port }
  have hsoft₂ := hpins.moved.soft
  rw [hsoft₁, hports₁] at hsoft₂
  have hconfig₂ : t₂.config = s.config := congrArg SoftView.config hsoft₂
  have huart₂ : t₂.gateUart = _ := congrArg SoftView.gateUart hsoft₂
  have hready : ChannelReady s.config o.channel (chanRegsOf ch) t₂ :=
    { config := hconfig₂
      layout := by rwa [hconfig₂]
      inRange := by rwa [hconfig₂]
      clocked := by rw [chanClocked_eq (by rw [hconfig₂]; exact h.chanGate), huart₂, fieldFlag_setBit hchanField]
      regs := by rw [hsoft₂]; exact soft_channel h.channel }
  obtain ⟨u, tr₃, hchannel⟩ := channelRuns_prepare s.config o.channel o.baudInt o.baudFrac _ t₂ hready
  refine ⟨u, tr₁ ++ tr₂ ++ tr₃, ?_, hready.after hchannel.moved.soft⟩
  have hran := (hgates.trans hpins).trans hchannel
  rw [hsoft₂, ← List.length_append, ← List.length_append] at hran
  exact hran

/-! The two ends (R52). -/

/-- What the agents have left of the channel when its line control is written: its registers but those that the sequencer
wrote, fewer bytes to send, no more received ones than its line presented, and with no agent scheduled its queues. -/
structure AtLineWrite (s : State) (c : Nat) (ch ch' : Channel) : Prop where
  lcrh : ch'.lcrh = ch.lcrh
  txq : ch'.txq.length ≤ ch.txq.length
  rxq : ch'.rxq.length ≤ ch.rxq.length + (lineBytes c s.schedule).length
  quiet : s.quiet → chanQueuesOf ch' = chanQueuesOf ch

theorem Site.atLineWrite (h : o.Site s pt ch fp fc) {u : State} {ms : List Micro} {A : SoftView} {tr : List BusEvent}
    {n : Nat} {ch' : Channel} (hran : Ran ms s u A tr n) (hch' : (tick u).channels[o.channel]? = some ch')
    (hlcrh : ch'.lcrh = ch.lcrh) : AtLineWrite s o.channel ch ch' := by
  obtain ⟨ch'', hch'', htxq, hrxq⟩ := (hran.moved.noLonger.trans (tick_noLonger u)) _ _ h.channel
  cases hch'.symm.trans hch''
  refine ⟨hlcrh, htxq, by omega, fun hquiet => ?_⟩
  have hsched : u.schedule = [] := by rw [hran.moved.schedule, show s.schedule = [] from hquiet, List.drop_nil]
  have hqueues := hidden_channel hch'
  rw [tick_quiet hsched, hran.moved.queues hquiet, hidden_channel h.channel] at hqueues
  exact (Option.some.inj hqueues).symm

/-- `UART_CONFIGURE` runs to its end, or its line-control write is refused. -/
theorem Site.ends (h : o.Site s pt ch fp fc) :
    ∃ ch', AtLineWrite s o.channel ch ch' ∧
      (¬ lowersBelow s.config ch' (o.lineWord s.config) → ∃ t tr,
        Ran (o.steps s.config) s t (o.view s.soft pt fp fc (o.regs s.config (chanRegsOf ch))) tr tr.length) ∧
      (lowersBelow s.config ch' (o.lineWord s.config) →
        runMicros (o.steps s.config) s = .refused (.fifoShrink o.channel)) := by
  have hplaced := layoutWf_placed (configWf_layout h.wf)
  obtain ⟨u, tr, hran, hready⟩ := h.ran_prepare
  obtain ⟨ch', hch', hregs, hfits, hlowers⟩ := lineWrite_ends (o.lineWord s.config) hready
  refine ⟨ch', h.atLineWrite hran hch' (congrArg ChanRegs.lcrh hregs), fun hf => ?_, fun hf => ?_⟩
  · obtain ⟨t, hline⟩ := hfits hf
    have hall := hran.trans hline
    rw [latched_preparedRegs hplaced, hran.moved.soft] at hall
    refine ⟨t, tr ++ writeTrace (chanAddr s.config o.channel .lcrh) (o.lineWord s.config), ?_⟩
    rw [steps_eq, List.length_append]
    simpa [view, regs, writeTrace] using hall
  · rw [steps_eq, hran.run]
    exact hlowers hf

/-! The machine after it. -/

/-- The function code stands in every nibble (R117). -/
theorem replicateCode_nibble (f : BitVec 4) (i : Nat) (hi : i < 8) : (replicateCode f).extractLsb' (4 * i) 4 = f := by
  revert f i
  decide

/-- A pin of the mask that is committed is routed by the code that `CONFIGURE_PINS` gave it (R55, R229). -/
theorem pinCarries_of_configured {l : Layout} {pt pt' : Port} {mask : Byte} {f : BitVec 4} {unlock : Bool} {i : Nat}
    (hl : Placed l) (h : PinsConfigured pt pt' mask (replicateCode f) true unlock) (hi : i < 8)
    (hmask : mask.getLsbD i = true) (hcommitted : unlock = true ∨ pt.cr.getLsbD i = true) :
    pinCarries l pt' i f = true := by
  have hcr : pt'.cr.getLsbD i = true := by
    rw [h.cr, hmask]
    obtain rfl | hc := hcommitted
    · simp
    · simp [hc]
  have hbit (w : Word) : (byteField lowByte w).getLsbD i = w.getLsbD i := by
    rw [byteField_lowByte]; simp [hi]
  have hcode : pctlCode l pt'.pctl i = f := by
    rw [pctlCode_placed hl _ hi]
    refine Eq.trans ?_ (replicateCode_nibble f i hi)
    apply BitVec.eq_of_getLsbD_eq
    intro k hk
    rw [BitVec.getLsbD_extractLsb', BitVec.getLsbD_extractLsb', h.pctl i k hk, hmask, hcr]
    rfl
  simp [pinCarries, hl.afselA, hl.denE, hbit, h.afsel, h.den, hmask, hcr, hcode]

/-- A channel is routed once `CONFIGURE_PINS` has given all its pins its function code (R55). -/
theorem pinRouted_of_configured {t : State} {c p : Nat} {pt pt' : Port} {mask : Byte} {f : BitVec 4} {unlock : Bool}
    (hl : Placed t.config.layout) (hmux : t.config.pinmux[c]? = some { port := p, pins := mask, fcode := f })
    (hclocked : portClocked t p = true) (hport : t.ports[p]? = some pt')
    (h : PinsConfigured pt pt' mask (replicateCode f) true unlock)
    (hcommitted : unlock = true ∨ ∀ i, i < 8 → mask.getLsbD i = true → pt.cr.getLsbD i = true) :
    pinRouted t c = true := by
  simp only [pinRouted, hmux, pinsRouted, hport, hclocked, Bool.true_and, List.all_eq_true, List.mem_range]
  intro i hi
  cases hmask : mask.getLsbD i with
  | false => rfl
  | true => exact pinCarries_of_configured hl h hi hmask (hcommitted.imp_right fun hall => hall i hi hmask)

/-- A channel with these registers and an open gate is up (R186 to R188). -/
theorem channelUp_of_regs {t : State} {cfg : Config} {x : ChanRegs} (hl : layoutWf cfg.layout = true)
    (hconfig : t.config = cfg) (hclocked : chanClocked t o.channel = true)
    (hregs : t.soft.channels[o.channel]? = some (o.regs cfg x)) :
    ChannelUp t o.channel o.baudInt o.baudFrac o.fifo := by
  subst hconfig
  have hplaced := layoutWf_placed hl
  have hfields := layoutWf_lineFields hl
  obtain ⟨hwlen, hfen, hstp2, hpen⟩ := lcrhWord_fields hfields o.fifo
  obtain ⟨ch', hch', hregs'⟩ := channel_of_regs hregs
  simp only [chanRegsOf, UartOp.regs, ChanRegs.mk.injEq] at hregs'
  obtain ⟨hctl, hibrd, hfbrd, hlcrh, hlatch⟩ := hregs'
  refine ⟨hclocked, ch', hch', ?_, ?_, ?_, hlatch, ?_, ?_, ?_, ?_⟩
  · rw [enabled, hctl, fieldFlag_setBit hfields.en]
  · rw [divInt, hibrd, hplaced.divint]; exact extractLow_setWidth _ (by decide)
  · rw [divFrac, hfbrd, hplaced.divfrac]; exact extractLow_setWidth _ (by decide)
  · rw [hlcrh, lineWord, hwlen]
  · rw [hlcrh, lineWord, hfen]
  · rw [hlcrh, lineWord, hstp2]
  · rw [hlcrh, lineWord, hpen]

/-- `UART_CONFIGURE` writes no register of the clock block. -/
theorem Site.noWriteTo_clock (h : o.Site s pt ch fp fc) {tr : List BusEvent} {r : Reg} (hr : r = .legacy ∨ r = .alt)
    (hacc : accesses tr = atAddresses s.config.layout (uartConfigureAccesses o.channel o.port (o.unlock s.config))) :
    noWriteTo (addrOf s.config.layout r) tr = true := by
  have hl := configWf_layout h.wf
  obtain ⟨-, hp⟩ := gatePort_field hl h.portGate
  obtain ⟨-, hn⟩ := gateChan_field hl h.chanGate
  have hmem : r ∈ allRegs s.config.layout := mem_allRegs_sys _ (by rcases hr with rfl | rfl <;> simp [sysRegs])
  refine noWriteTo_of_accesses fun hwrite => ?_
  have htouched := mem_uartConfigureAccesses (mem_of_address hl hp hn hmem (hacc ▸ hwrite))
  rcases hr with rfl | rfl <;> simp at htouched

/-- The accesses of `UART_CONFIGURE` at their addresses, as R186 lists them. -/
theorem uartConfigureAccesses_at (cfg : Config) (c p : Nat) (unlock : Bool) :
    atAddresses cfg.layout (uartConfigureAccesses c p unlock) =
      modifyOf (addrOf cfg.layout .gateUart) ++ modifyOf (addrOf cfg.layout .gateGpio) ++
        (if unlock then (BusKind.write, gpioAddr cfg p .lock) :: modifyOf (gpioAddr cfg p .cr) else []) ++
        modifyOf (gpioAddr cfg p .afsel) ++ modifyOf (gpioAddr cfg p .pctl) ++ modifyOf (gpioAddr cfg p .den) ++
        modifyOf (chanAddr cfg c .ctl) ++
        [(.write, chanAddr cfg c .ibrd), (.write, chanAddr cfg c .fbrd), (.write, chanAddr cfg c .lcrh)] := by
  cases unlock <;> rfl

/-- A run of the micro-steps of `UART_CONFIGURE` to their end made the accesses of R186. -/
theorem accesses_of_ran {t : State} {A : SoftView} {tr : List BusEvent} {n : Nat}
    (hran : Ran (o.steps s.config) s t A tr n) :
    accesses tr = atAddresses s.config.layout (uartConfigureAccesses o.channel o.port (o.unlock s.config)) := by
  obtain ⟨new, htrace, hacc⟩ := runMicros_straight (uartConfigureSteps_straight ..) hran.ends
  obtain rfl : tr = new := List.append_cancel_left (hran.moved.trace.symm.trans htrace)
  rw [hacc, uartConfigureSteps_accesses, unlock]

/-- In the machine after it both gates are open, and the port and the channel are as configured. -/
theorem Site.of_view (h : o.Site s pt ch fp fc) {t : State} {x : ChanRegs} (hsoft : t.soft = o.view s.soft pt fp fc x) :
    portClocked t o.port = true ∧ chanClocked t o.channel = true ∧
      t.ports[o.port]? = some (o.configured s.config pt) ∧ t.soft.channels[o.channel]? = some x := by
  have hl := configWf_layout h.wf
  obtain ⟨hportField, -⟩ := gatePort_field hl h.portGate
  obtain ⟨hchanField, -⟩ := gateChan_field hl h.chanGate
  have hconfig : t.config = s.config := congrArg SoftView.config hsoft
  have hgpio : t.gateGpio = clearThenSet s.gateGpio (fieldBit fp) 0#32 := congrArg SoftView.gateGpio hsoft
  have huart : t.gateUart = clearThenSet s.gateUart (fieldBit fc) 0#32 := congrArg SoftView.gateUart hsoft
  have hports : t.ports = s.ports.set o.port (o.configured s.config pt) := congrArg SoftView.ports hsoft
  obtain ⟨hport, -⟩ := List.getElem?_eq_some_iff.1 h.port
  obtain ⟨hchannel, -⟩ := List.getElem?_eq_some_iff.1 (soft_channel h.channel)
  refine ⟨?_, ?_, ?_, ?_⟩
  · rw [portClocked_eq (by rw [hconfig]; exact h.portGate), hgpio, fieldFlag_setBit hportField]
  · rw [chanClocked_eq (by rw [hconfig]; exact h.chanGate), huart, fieldFlag_setBit hchanField]
  · rw [hports, List.getElem?_set_self hport]
  · rw [hsoft]
    exact List.getElem?_set_self hchannel

/-- The machine after `UART_CONFIGURE` ran to its end. -/
theorem Site.configured_of_ran (h : o.Site s pt ch fp fc) {t : State} {tr : List BusEvent}
    (hran : Ran (o.steps s.config) (clearResult s) t (o.view s.soft pt fp fc (o.regs s.config (chanRegsOf ch))) tr
      tr.length) :
    UartConfigured s (setPending t []) o.channel o.port o.mask o.fcode o.baudInt o.baudFrac o.fifo pt ch fp fc := by
  have hl := configWf_layout h.wf
  obtain ⟨hportField, -⟩ := gatePort_field hl h.portGate
  obtain ⟨hchanField, -⟩ := gateChan_field hl h.chanGate
  have hsoft := hran.moved.soft
  have hconfig : t.config = s.config := hran.moved.config
  have hgpio : t.gateGpio = clearThenSet s.gateGpio (fieldBit fp) 0#32 := congrArg SoftView.gateGpio hsoft
  have huart : t.gateUart = clearThenSet s.gateUart (fieldBit fc) 0#32 := congrArg SoftView.gateUart hsoft
  obtain ⟨hportClocked, hchanClocked, hport, hregs⟩ := h.of_view hsoft
  have hpins : PinsConfigured pt (o.configured s.config pt) o.mask (replicateCode o.fcode) true (o.unlock s.config) :=
    pinsConfigured (layoutWf_placed hl) ..
  have hacc := accesses_of_ran (s := clearResult s) hran
  refine ⟨o.configured s.config pt, clearThenSet ch.ctl (fieldBit s.config.layout.en) 0#32, tr,
    channelUp_of_regs hl hconfig hchanClocked hregs, hportClocked, hpins, fun j hj => ?_, fun j hj => ?_,
    fun j => setBit_outside (layoutWf_lineFields hl).en _, ?_, hran.moved.sent, fun hquiet => ?_, hran.moved.trace,
    hacc.trans (uartConfigureAccesses_at ..), hran.moved.issued, fun hmux hcommitted => ?_⟩
  · rw [setPending_gateGpio, hgpio, setBit_outside hportField _ hj]
  · rw [setPending_gateUart, huart, setBit_outside hchanField _ hj]
  · rw [setPending_gateGpio, setPending_gateUart, soft_setPending, hgpio, huart, hsoft]
    rfl
  · exact hran.moved.hidden hquiet (h.noWriteTo_clock (.inl rfl) hacc) (h.noWriteTo_clock (.inr rfl) hacc)
  · exact pinRouted_of_configured (t := setPending t []) (by rw [setPending_config, hconfig]; exact layoutWf_placed hl)
      (by rw [setPending_config, hconfig]; exact hmux) hportClocked hport hpins hcommitted

end UartOp

/-- Settles O37: the two ends of the command by `UartOp.Site.ends`, what it leaves by
`UartOp.Site.configured_of_ran`. -/
theorem uartConfigureBringsTheChannelUp : Obligations.UartConfigureBringsTheChannelUp := by
  intro s c p mask f bi bf fifo pt ch fp fc hwf hport hchannel hportGate hchanGate i
  let o : UartOp := ⟨c, p, mask, f, bi, bf, fifo⟩
  have hsite : o.Site s pt ch fp fc := ⟨hwf, hport, hchannel, hportGate, hchanGate⟩
  have hcleared : o.Site (clearResult s) pt ch fp fc := ⟨hwf, hport, hchannel, hportGate, hchanGate⟩
  obtain ⟨ch', hline, hcompletes, hrefused⟩ := hcleared.ends
  have hends : (∃ t, exec i s = .next t) ∨ exec i s = .refused (.fifoShrink c) := by
    by_cases hlowers : lowersBelow s.config ch' (lcrhWord s.config.layout 8 fifo)
    · exact .inr (hrefused hlowers)
    · obtain ⟨t, tr, hran⟩ := hcompletes hlowers
      exact .inl ⟨_, hran.ends⟩
  have hrefused_iff : exec i s = .refused (.fifoShrink c) ↔ lowersBelow s.config ch' (lcrhWord s.config.layout 8 fifo) := by
    refine ⟨fun h => ?_, hrefused⟩
    by_contra hlowers
    obtain ⟨t, tr, hran⟩ := hcompletes hlowers
    cases h.symm.trans hran.ends
  refine ⟨fun hfits => ?_, fun t h => ?_, hends, fun hquiet => ?_⟩
  · refine hends.resolve_right fun h => not_lowersBelow_lcrhWord hwf ?_ (hrefused_iff.1 h)
    refine hfits.imp_right (Or.imp (fun hoff => ?_) fun ⟨htx, hrx⟩ => ?_)
    · rw [hline.lcrh]; exact hoff
    · exact ⟨hline.txq.trans htx, hline.rxq.trans hrx⟩
  · have hlowers : ¬ lowersBelow s.config ch' (lcrhWord s.config.layout 8 fifo) := fun hlowers => by
      cases h.symm.trans (hrefused_iff.2 hlowers)
    obtain ⟨t', tr, hran⟩ := hcompletes hlowers
    cases h.symm.trans hran.ends
    exact hsite.configured_of_ran hran
  · rw [hrefused_iff, lowersBelow_congr _ hline.lcrh (hline.quiet hquiet)]

end Sys2Proof.Machine
end

section
/-! SUPPORT. The clock and one channel as the service configured them (44_serial_echo_service.md R206, R212): the format
that the channel then sends in, and that neither agents nor accesses to the channel's data and flags undo it. -/

namespace Sys2Proof.Machine

/-- The registers and stages of the clock block, with the configuration that places their fields. -/
def clockRegs (v : SoftView) : Word × Word × Nat × ClkStage × Config :=
  (v.clkLegacy, v.clkAlt, v.clkStep, v.clkStage, v.config)

theorem ClockProgrammed.of_regs {s t : State} (h : ClockProgrammed s) (hregs : clockRegs t.soft = clockRegs s.soft)
    (hris : t.risPllLock = true) : ClockProgrammed t := by
  simp only [clockRegs, Prod.mk.injEq] at hregs
  obtain ⟨(hlegacy : t.clkLegacy = s.clkLegacy), (halt : t.clkAlt = s.clkAlt), (hstep : t.clkStep = s.clkStep),
    (hstage : t.clkStage = s.clkStage), (hconfig : t.config = s.config)⟩ := hregs
  constructor
  case risPllLock => exact hris
  all_goals simp only [hlegacy, halt, hstep, hstage, hconfig, h.clkStep, h.clkStage, h.altsel, h.bypass, h.oscsrc,
    h.pwrdn, h.sysdiv, h.diven, h.xtal]

/-- No agent unlocks the PLL (R220). -/
theorem locked_agents : AgentRel fun s t => s.pllLocked = true → t.pllLocked = true where
  refl _ := id
  trans h1 h2 := h2 ∘ h1
  schedule _ _ := id
  agent s e h := by
    obtain hs | ⟨-, hs⟩ | ⟨_, _, _, _, -, -, -, hs⟩ | ⟨_, _, _, -, -, hs⟩ := agentStep_cases s e <;> rw [hs]
    · exact h
    · exact h
    · exact h

/-- Whether a channel is up is said of its registers and its gate. -/
theorem ChannelUp.of_regs {s t : State} {c : Nat} {bi : BitVec 16} {bf : BitVec 6} {fifo : Bool}
    (h : ChannelUp s c bi bf fifo) (hconfig : t.config = s.config) (hclocked : chanClocked t c = chanClocked s c)
    (hregs : t.soft.channels[c]? = s.soft.channels[c]?) : ChannelUp t c bi bf fifo := by
  obtain ⟨hopen, ch, hch, hup⟩ := h
  obtain ⟨ch', hch', heq⟩ := channel_of_regs (hregs.trans (soft_channel hch))
  simp only [chanRegsOf, ChanRegs.mk.injEq] at heq
  obtain ⟨hctl, hibrd, hfbrd, hlcrh, hlatch⟩ := heq
  refine ⟨hclocked.trans hopen, ch', hch', ?_⟩
  simpa only [enabled, divInt, divFrac, hctl, hibrd, hfbrd, hlcrh, hlatch, hconfig] using hup

theorem ChannelUp.of_soft {s t : State} {c : Nat} {bi : BitVec 16} {bf : BitVec 6} {fifo : Bool}
    (h : ChannelUp s c bi bf fifo) (hsoft : t.soft = s.soft) : ChannelUp t c bi bf fifo :=
  h.of_regs (congrArg SoftView.config hsoft) (clocked_of_soft hsoft (.uart c .dr))
    (congrArg (fun v => v.channels[c]?) hsoft)

/-- A channel that is up with the source's divisors sends in the source's format (R222). -/
theorem channelFormat_of_up {s : State} {c : Nat} {fifo : Bool} {ch : Channel} (hclock : ClockUp s)
    (hup : ChannelUp s c 27 8 fifo) (hch : s.channels[c]? = some ch) : channelFormat s ch = some sourceFormat := by
  obtain ⟨-, ch', hch', -, -, -, hlatch, hwlen, -, hstp2, hpen⟩ := hup
  cases hch.symm.trans hch'
  have hclk : ((sysHz : Nat) : Rat) = 50000000 := by norm_num [sysHz]
  simp [channelFormat, hlatch, hclock.sysclk, hwlen, hstp2, hpen, hclk, sourceFormat, wlenCode, wordLengthWanted]

/-- The clock runs at 50 MHz, channel `c` is configured with divisors 27 and 8, and its wire log has the source's format
throughout (R206, R212). -/
structure SourceUp (s : State) (c : Nat) : Prop where
  clock : ClockUp s
  channel : ChannelUp s c 27 8 true
  wire : wireInSourceFormat s c

/-- Replacing a channel keeps all that, if its registers stay and what joins its wire log has the format of the
instant. -/
theorem SourceUp.setChannel {s : State} {c i : Nat} {ch ch' : Channel} (h : SourceUp s c)
    (hch : s.channels[i]? = some ch) (hregs : chanRegsOf ch' = chanRegsOf ch)
    (hwire : ∀ e ∈ ch'.wireTx, e ∈ ch.wireTx ∨ e.fmt = channelFormat s ch) :
    SourceUp (setChannel s i ch') c := by
  refine ⟨{ h.clock with }, h.channel.of_soft (soft_setChannel_same hch hregs), fun x hx e he => ?_⟩
  by_cases hi : i = c
  · subst hi
    obtain ⟨hlt, -⟩ := List.getElem?_eq_some_iff.1 hch
    cases (List.getElem?_set_self hlt).symm.trans hx
    obtain hold | hnew := hwire e he
    · exact h.wire ch hch e hold
    · exact hnew.trans (channelFormat_of_up h.clock h.channel hch)
  · exact h.wire x ((List.getElem?_set_ne hi).symm.trans hx) e he

theorem sourceUp_agents (c : Nat) : AgentRel fun s t => SourceUp s c → SourceUp t c where
  refl _ := id
  trans h1 h2 := h2 ∘ h1
  schedule _ _ h := ⟨{ h.clock with }, { h.channel with }, h.wire⟩
  agent s e h := by
    obtain hs | ⟨henabled, -⟩ | ⟨i, ch, b, q, hch, -, -, hs⟩ | ⟨i, ch, b, hch, -, hs⟩ := agentStep_cases s e
    · rwa [hs]
    · simp [pllEnabled, h.clock.pllLocked] at henabled
    · rw [hs]
      refine h.setChannel hch rfl fun e he => ?_
      obtain he | he := List.mem_append.1 he
      · exact .inl he
      · exact .inr (by rw [List.mem_singleton.1 he])
    · rw [hs]
      exact h.setChannel hch rfl fun _ => .inl

end Sys2Proof.Machine
end

section
/-! SUPPORT. What passes through one channel while a command runs (44_serial_echo_service.md R207, R208, R212): the
bytes that it was given to send, the received bytes that were read, and those that its line presented meanwhile. -/

namespace Sys2Proof.Machine

/-- From `s` to `t` channel `c` was given `out` to send and `read` was taken from the bytes it received; those are bytes
that it had received before, and then bytes that its line presented. No other channel was given anything, and what
`SourceUp` says was not undone. -/
structure Relayed (c : Nat) (s t : State) (out read : List Byte) : Prop where
  config : t.config = s.config
  sent : sent t c = sent s c ++ out
  others : ∀ c', c' ≠ c → Machine.sent t c' = Machine.sent s c'
  heard : ∃ got, read ++ received t c = received s c ++ got ∧
    (got ++ lineBytes c t.schedule).Sublist (lineBytes c s.schedule)
  sourceUp : SourceUp s c → SourceUp t c

namespace Relayed

variable {c : Nat} {s t u : State} {out out' read read' : List Byte}

theorem refl (c : Nat) (s : State) : Relayed c s s [] [] :=
  ⟨rfl, (List.append_nil _).symm, fun _ _ => rfl, ⟨[], (List.append_nil _).symm, .refl _⟩, id⟩

theorem trans (h1 : Relayed c s t out read) (h2 : Relayed c t u out' read') :
    Relayed c s u (out ++ out') (read ++ read') where
  config := h2.config.trans h1.config
  sent := by rw [h2.sent, h1.sent, List.append_assoc]
  others c' hne := (h2.others c' hne).trans (h1.others c' hne)
  heard := by
    obtain ⟨got, hgot, hsub⟩ := h1.heard
    obtain ⟨got', hgot', hsub'⟩ := h2.heard
    refine ⟨got ++ got', ?_, ?_⟩
    · rw [List.append_assoc, hgot', ← List.append_assoc, hgot, List.append_assoc]
    · rw [List.append_assoc]
      exact (hsub'.append_left got).trans hsub
  sourceUp := h2.sourceUp ∘ h1.sourceUp

/-- A change of neither the channels nor the schedule. -/
theorem of_same (hconfig : t.config = s.config) (hchannels : t.channels = s.channels)
    (hschedule : t.schedule = s.schedule) (hup : SourceUp s c → SourceUp t c) : Relayed c s t [] [] where
  config := hconfig
  sent := by simp [Machine.sent, hchannels]
  others c' _ := by simp [Machine.sent, hchannels]
  heard := ⟨[], by simp [received, hchannels], by rw [hschedule, List.nil_append]⟩
  sourceUp := hup

theorem logBus (c : Nat) (k : BusKind) (a v : Word) (s : State) : Relayed c s (logBus k a v s) [] [] :=
  of_same rfl rfl rfl fun h => ⟨{ h.clock with }, { h.channel with }, h.wire⟩

theorem countDraw (c : Nat) (s : State) : Relayed c s (countDraw s) [] [] :=
  of_same rfl rfl rfl fun h => ⟨{ h.clock with }, { h.channel with }, h.wire⟩

theorem setSvcStage (c : Nat) (s : State) (st : SvcStage) : Relayed c s (setSvcStage s st) [] [] :=
  of_same rfl rfl rfl fun h => ⟨{ h.clock with }, { h.channel with }, h.wire⟩

theorem setPending (c : Nat) (s : State) (ms : List Micro) : Relayed c s (setPending s ms) [] [] :=
  of_same rfl rfl rfl fun h => ⟨{ h.clock with }, { h.channel with }, h.wire⟩

end Relayed

/-! Agents. -/

theorem received_setChannel {s : State} {c : Nat} {ch : Channel} (ch' : Channel) (h : s.channels[c]? = some ch) :
    received (setChannel s c ch') c = ch'.rxq := by
  obtain ⟨hlt, -⟩ := List.getElem?_eq_some_iff.1 h
  simp [received, hlt]

theorem received_setChannel_other {s : State} {c c' : Nat} (ch : Channel) (h : c' ≠ c) :
    received (setChannel s c ch) c' = received s c' := by
  simp [received, h.symm]

theorem received_eq {s : State} {c : Nat} {ch : Channel} (h : s.channels[c]? = some ch) : received s c = ch.rxq := by
  simp [received, h]

/-- An agent's step adds to the received bytes of a channel at most what its line presents (R225, R226). -/
theorem agentStep_received (s : State) (e : AgentEvent) (c : Nat) :
    ∃ got, received (agentStep s e) c = received s c ++ got ∧ got.Sublist (lineBytes c [[e]]) := by
  have same {t : State} (h : received t c = received s c) :
      ∃ got, received t c = received s c ++ got ∧ got.Sublist (lineBytes c [[e]]) :=
    ⟨[], by rw [h, List.append_nil], List.nil_sublist _⟩
  cases e with
  | pllLock => obtain hs | ⟨-, hs⟩ := pllLockStep_cases s <;> exact same ((congrArg (received · c) hs).trans rfl)
  | transmit i =>
    obtain hs | ⟨ch, b, q, hch, -, -, hs⟩ := transmitStep_cases s i
    · exact same (by rw [agentStep, hs])
    · refine same ?_
      rw [agentStep, hs]
      by_cases hi : c = i
      · subst hi
        rw [received_setChannel _ hch, received_eq hch]
      · exact received_setChannel_other _ hi
  | line i b =>
    obtain hs | ⟨ch, hch, -, hs⟩ := lineStep_cases s i b
    · exact same (by rw [agentStep, hs])
    · rw [agentStep, hs]
      by_cases hi : c = i
      · subst hi
        exact ⟨[b], by rw [received_setChannel _ hch, received_eq hch], by simp [lineBytes]⟩
      · exact same (received_setChannel_other _ hi)

theorem events_received (evs : List AgentEvent) (s : State) (c : Nat) :
    ∃ got, received (evs.foldl agentStep s) c = received s c ++ got ∧ got.Sublist (lineBytes c [evs]) := by
  induction evs generalizing s with
  | nil => exact ⟨[], (List.append_nil _).symm, List.nil_sublist _⟩
  | cons e evs ih =>
    obtain ⟨got, hgot, hsub⟩ := agentStep_received s e c
    obtain ⟨got', hgot', hsub'⟩ := ih (agentStep s e)
    refine ⟨got ++ got', ?_, ?_⟩
    · rw [List.foldl_cons, hgot', hgot, List.append_assoc]
    · rw [lineBytes_event]
      exact hsub.append hsub'

namespace Relayed

theorem tick (c : Nat) (s : State) : Relayed c s (tick s) [] [] where
  config := tick_config s
  sent := by rw [tick_sent, List.append_nil]
  others c' _ := tick_sent s c'
  heard := by
    cases hsched : s.schedule with
    | nil => rw [tick_quiet hsched, hsched]; exact ⟨[], (List.append_nil _).symm, .refl _⟩
    | cons evs rest =>
      obtain ⟨got, hgot, hsub⟩ := events_received evs { s with schedule := rest } c
      refine ⟨got, ?_, ?_⟩
      · rw [show Machine.tick s = evs.foldl agentStep { s with schedule := rest } by simp [Machine.tick, hsched]]
        exact hgot
      · rw [tick_schedule, hsched, List.tail_cons, lineBytes_cons]
        exact hsub.append_right _
  sourceUp := (sourceUp_agents c).tick s

theorem idle (c n : Nat) (s : State) : Relayed c s (idle n s) [] [] := by
  induction n generalizing s with
  | zero => rw [idle_zero]; exact refl c s
  | succ n ih => rw [idle_succ]; exact (tick c s).trans (ih _)

/-! The data register (R50, R51). -/

variable {c : Nat} {s : State} {ch : Channel} {b : Byte}

theorem queued (hch : s.channels[c]? = some ch) :
    Relayed c s (setChannel s c { ch with txq := ch.txq ++ [b] }) [b] [] where
  config := rfl
  sent := sent_queue b hch
  others c' hne := sent_setChannel_other _ hne
  heard := ⟨[], by rw [received_setChannel _ hch, received_eq hch, List.append_nil]; rfl, .refl _⟩
  sourceUp h := h.setChannel hch rfl fun _ => .inl

theorem popped {q : List Byte} (hch : s.channels[c]? = some ch) (hq : ch.rxq = b :: q) :
    Relayed c s (setChannel s c (popped ch)) [] [b] where
  config := rfl
  sent := by
    obtain ⟨hlt, rfl⟩ := List.getElem?_eq_some_iff.1 hch
    simp [Machine.sent, hlt, Machine.popped]
  others c' hne := sent_setChannel_other _ hne
  heard := ⟨[], by rw [received_setChannel _ hch, received_eq hch, Machine.popped, hq]; simp, .refl _⟩
  sourceUp h := h.setChannel hch rfl fun _ => .inl

end Relayed

/-! Reads and the wait for room. -/

theorem afterFrRead_relayed (c' : Nat) (s : State) (c : Nat) (ch : Channel) :
    Relayed c' s (afterFrRead s c ch) [] [] :=
  ((Relayed.tick c' s).trans (.countDraw c' _)).trans (.logBus c' ..)

theorem pollTxff_relayed {cfg : Config} {c n : Nat} {s t : State} {ended : Bool} (hs : s.config = cfg)
    (hl : layoutWf cfg.layout = true) (hn : c < nChannels cfg) (h : pollTxff cfg c n s = .ok ended t) :
    Relayed c s t [] [] := by
  induction n generalizing s with
  | zero => cases h; exact .refl c _
  | succ n ih =>
    subst hs
    obtain ⟨v, u, hread, hrest⟩ := bind_ok h
    obtain ⟨-, ch, -, rfl, rfl⟩ := busRead_fr_ok hl hn hread
    have hfirst := afterFrRead_relayed c s c ch
    split at hrest
    · cases hrest; exact hfirst
    · exact hfirst.trans (ih (afterFrRead_config s c ch) hrest)

/-! Blocks of the service's micro-steps. -/

/-- `TRANSMIT_BYTE` inside the service: its wait has not ended, or the byte was queued and the rest runs (R190). -/
theorem transmitSteps_relays {s t : State} {c : Nat} {b : Byte} {rest : List Micro} (hc : CoreInv s)
    (hn : c < nChannels s.config) (h : runMicros (transmitSteps s.config c b ++ rest) s = .next t) :
    (Relayed c s t [] [] ∧ t.pending = transmitSteps s.config c b ++ rest) ∨
      ∃ u, Relayed c s u [b] [] ∧ runMicros rest u = .next t := by
  have hl := configWf_layout hc.config
  obtain ⟨p, u, hwait, -⟩ := runMicros_cons h
  obtain ⟨ended, u', hpoll, hended⟩ := bind_ok hwait
  cases hended
  have hpoll' : pollTxff s.config c (s.schedule.length + 1) s = .ok ended u := hpoll
  have hrelayed := pollTxff_relayed rfl hl hn hpoll'
  cases ended with
  | false =>
    cases (runMicros_wait hwait).symm.trans h
    exact .inl ⟨hrelayed.trans (.setPending c u _), rfl⟩
  | true =>
    obtain ⟨full, last, hwaited⟩ := pollTxff_ok rfl hl hn hpoll'
    obtain ⟨-, hclocked, ch, hch, hroom⟩ := hwaited.ends rfl
    have hconfig := hrelayed.config
    have hlt : ch.txq.length < fifoCap s.config ch := by
      rw [txFull_eq, decide_eq_false_iff_not] at hroom
      exact Nat.lt_of_le_of_ne (fifosFit_iff.1 (hwaited.polled.fits hc.fifos ch (List.mem_of_getElem? hch))).1 hroom
    obtain ⟨ch', hch', hdrained⟩ := drained_agents.tick u c ch hch
    have hbus := busWrite_dr (byteWord b) (by rwa [hconfig]) (by rwa [hconfig]) hclocked hch'
    rw [byteWord_setWidth, hconfig, pushTx_of_room b (hdrained.room hlt)] at hbus
    have hqueued := ((Relayed.tick c u).trans (.queued (b := b) hch')).trans
      (.logBus c .write (chanAddr s.config c .dr) (byteWord b) _)
    refine .inr ⟨_, hrelayed.trans hqueued, ?_⟩
    have hrest := (runMicros_done hwait).symm.trans h
    exact (runMicros_done (runMicro_write hbus)).symm.trans hrest

/-- A micro-step of the service that accesses nothing and moves on. -/
def Micro.passes (m : Micro) : Bool :=
  match m with
  | .led _ => true
  | .idle _ => true
  | .stage _ => true
  | _ => false

theorem runMicro_passes {m : Micro} (hm : m.passes = true) (c : Nat) (s : State) :
    ∃ t, runMicro m s = .ok .done t ∧ Relayed c s t [] [] := by
  cases m with
  | led color => exact ⟨_, rfl, .idle c _ s⟩
  | idle n => exact ⟨_, rfl, .idle c n s⟩
  | stage st => exact ⟨_, rfl, .setSvcStage c s st⟩
  | _ => cases hm

/-- Micro-steps that access nothing, up to the end of the step (R205). -/
theorem passes_relay {ms rest : List Micro} {s t : State} (c : Nat) (hms : ms.all Micro.passes = true)
    (h : runMicros (ms ++ .yield :: rest) s = .next t) : Relayed c s t [] [] ∧ t.pending = rest := by
  induction ms generalizing s with
  | nil =>
    cases h
    exact ⟨.setPending c s _, rfl⟩
  | cons m ms ih =>
    rw [List.all_cons, Bool.and_eq_true] at hms
    obtain ⟨hm, hms⟩ := hms
    obtain ⟨u, hrun, hfirst⟩ := runMicro_passes hm c s
    obtain ⟨hrest, hpending⟩ := ih hms ((runMicros_done hrun).symm.trans h)
    exact ⟨hfirst.trans hrest, hpending⟩

/-- The accesses of one echo iteration, after its pulse (R208). -/
def echoReads (s : State) : Res Progress :=
  (busRead (uartAddr s s.config.chA .fr) s).bind fun r t =>
    if r.flag t.config.layout.rxfe then .ok (.become (echoNext t none)) t
    else (busRead (uartAddr t t.config.chA .dr) t).bind fun d u => .ok (.become (echoNext u (some d.low8))) u

/-- A byte just received is transmitted; then come a pulse and the next iteration (R205). -/
theorem echoNext_some (s : State) (b : Byte) : echoNext s (some b) =
    transmitSteps s.config s.config.chA b ++ [.led s.config.colorTransmitted, .yield, .echo] := rfl

theorem echoOnce_eq (s : State) : echoOnce s = echoReads (ledPulse s.config.colorReceived s) := rfl

/-- They find no byte, or read the oldest one received, which is then to be sent. -/
theorem echoReads_relays {s t : State} {p : Progress} (hl : layoutWf s.config.layout = true)
    (hn : s.config.chA < nChannels s.config) (h : echoReads s = .ok p t) :
    (Relayed s.config.chA s t [] [] ∧ p = .become [.echo]) ∨
      ∃ b, Relayed s.config.chA s t [] [b] ∧ p = .become (echoNext t (some b)) := by
  obtain ⟨v, u, hread, hrest⟩ := bind_ok h
  obtain ⟨hclocked, ch, hch, rfl, rfl⟩ := busRead_fr_ok hl hn hread
  have hpoll := afterFrRead_relayed s.config.chA s s.config.chA ch
  have hconfig := hpoll.config
  simp only [hconfig, (frValue_tick_flags hl ch).2] at hrest
  cases hempty : rxEmpty ch with
  | true =>
    rw [hempty] at hrest
    cases hrest
    exact .inl ⟨hpoll, rfl⟩
  | false =>
    rw [hempty] at hrest
    obtain ⟨d, w, hdata, hnext⟩ := bind_ok hrest
    cases hnext
    obtain ⟨ch', hch', -, -, hprefix⟩ := drained_agents.tick (afterFrRead s s.config.chA ch) s.config.chA ch hch
    obtain ⟨b, q, hq⟩ : ∃ b q, ch'.rxq = b :: q := by
      refine List.exists_cons_of_ne_nil fun hnil => ?_
      rw [hnil, List.prefix_nil] at hprefix
      simp [rxEmpty, hprefix] at hempty
    have hdr := busRead_dr (s := afterFrRead s s.config.chA ch) (by rwa [hconfig]) (by rwa [hconfig])
      (by simpa [afterFrRead] using hclocked) hch'
    cases hdr.symm.trans hdata
    rw [drValue_low8 hq]
    exact .inr ⟨b, hpoll.trans ((((Relayed.tick _ _).trans (.popped hch' hq)).trans (.countDraw _ _)).trans
      (.logBus ..)), rfl⟩

/-- One iteration of the echo loop (R208). -/
theorem echo_relays {s t : State} (hl : layoutWf s.config.layout = true) (hn : s.config.chA < nChannels s.config)
    (h : runMicros [.echo] s = .next t) :
    (Relayed s.config.chA s t [] [] ∧ t.pending = [.echo]) ∨
      ∃ b, Relayed s.config.chA s t [] [b] ∧ t.pending = echoNext t (some b) := by
  obtain ⟨p, u, hecho, -⟩ := runMicros_cons h
  have hpulse := Relayed.idle s.config.chA s.config.ledPulseSpins s
  have hreads := echoReads_relays (s := ledPulse s.config.colorReceived s) (by simpa using hl) (by simpa using hn) hecho
  rw [ledPulse_eq, idle_config] at hreads
  obtain ⟨hrelayed, rfl⟩ | ⟨b, hrelayed, rfl⟩ := hreads
  · cases (runMicros_become hecho).symm.trans h
    exact .inl ⟨(hpulse.trans hrelayed).trans (.setPending ..), rfl⟩
  · cases (runMicros_become hecho).symm.trans h
    exact .inr ⟨b, (hpulse.trans hrelayed).trans (.setPending ..), rfl⟩

end Sys2Proof.Machine
end

section
/-! SUPPORT. The service from CHANNELS_READY on (44_serial_echo_service.md R207, R208, R212): what is pending between
its steps, the bytes that it has still to send, and what its runs keep. -/

namespace Sys2Proof.Machine

/-- What is left of the greeting between two steps, when `bytes` of it are still to be sent (R205, R207). -/
inductive Greeting (cfg : Config) : List Micro → List Byte → Prop
  /-- Before GREETING_SENT. -/
  | unsent (bytes : List Byte) :
      Greeting cfg (bytes.flatMap (greetingByteSteps cfg) ++
        [.stage .greetingSent, .yield, .stage .echoing, .yield, .echo]) bytes
  /-- At GREETING_SENT. -/
  | sent : Greeting cfg [.stage .echoing, .yield, .echo] []

/-- A step of the greeting sends at most the next byte, and reads nothing. -/
theorem greeting_step {s t : State} {bytes : List Byte} (hi : s.Inv) (hn : s.config.chA < nChannels s.config)
    (hg : Greeting s.config s.pending bytes) (h : step s = .next t) :
    ∃ out bytes', Relayed s.config.chA s t out [] ∧ out ++ bytes' = bytes ∧
      (Greeting s.config t.pending bytes' ∨ (t.pending = [.echo] ∧ bytes' = [])) := by
  obtain ⟨ms, hms⟩ : ∃ ms, s.pending = ms := ⟨_, rfl⟩
  have hstep : ms ≠ [] → runMicros ms s = .next t := fun hne => by
    rw [← hms] at hne ⊢
    exact (step_pending hne).symm.trans h
  rw [hms] at hg
  cases hg with
  | sent =>
    obtain ⟨hrelayed, hpending⟩ := passes_relay (ms := [.stage .echoing]) s.config.chA rfl (hstep nofun)
    exact ⟨[], [], hrelayed, rfl, .inr ⟨hpending, rfl⟩⟩
  | unsent =>
    cases bytes with
    | nil =>
      obtain ⟨hrelayed, hpending⟩ := passes_relay (ms := [.stage .greetingSent]) s.config.chA rfl (hstep nofun)
      exact ⟨[], [], hrelayed, rfl, .inl (hpending ▸ .sent)⟩
    | cons b bytes =>
      obtain ⟨hrelayed, hpending⟩ | ⟨u, hsent, hrest⟩ := transmitSteps_relays (b := b) hi.core hn (hstep nofun)
      · exact ⟨[], b :: bytes, hrelayed, rfl, .inl (hpending ▸ .unsent (b :: bytes))⟩
      · obtain ⟨hrelayed, hpending⟩ :=
          passes_relay (ms := [.led s.config.colorTransmitted, .idle s.config.greetingDelay]) s.config.chA rfl hrest
        exact ⟨[b], bytes, hsent.trans hrelayed, rfl, .inl (hpending ▸ .unsent bytes)⟩

/-- A step of the echo loop sends the byte in hand, or reads one into the empty hand. -/
theorem inHand_step {s t : State} {hand : List Byte} (hi : s.Inv) (hn : s.config.chA < nChannels s.config)
    (hh : InHand s hand) (h : step s = .next t) :
    ∃ out read hand', Relayed s.config.chA s t out read ∧ out ++ hand' = hand ++ read ∧ InHand t hand' := by
  have hstep : s.pending ≠ [] → runMicros s.pending s = .next t := fun hne => (step_pending hne).symm.trans h
  obtain ⟨hp, rfl⟩ | ⟨b, hp, rfl⟩ := hh
  · rw [hp] at hstep
    obtain ⟨hrelayed, hpending⟩ | ⟨b, hrelayed, hpending⟩ := echo_relays (configWf_layout hi.config) hn (hstep nofun)
    · exact ⟨[], [], [], hrelayed, rfl, .inl ⟨hpending, rfl⟩⟩
    · exact ⟨[], [b], [b], hrelayed, rfl, .inr ⟨b, hpending, rfl⟩⟩
  · rw [hp] at hstep
    obtain ⟨hrelayed, hpending⟩ | ⟨u, hsent, hrest⟩ := transmitSteps_relays (b := b) hi.core hn (hstep nofun)
    · refine ⟨[], [], [b], hrelayed, rfl, .inr ⟨b, ?_, rfl⟩⟩
      rw [hpending, echoNext_some, hrelayed.config]
    · obtain ⟨hrelayed, hpending⟩ := passes_relay (ms := [.led s.config.colorTransmitted]) s.config.chA rfl hrest
      exact ⟨[b], [], [], hsent.trans hrelayed, rfl, .inl ⟨hpending, rfl⟩⟩

/-! Runs of the service. -/

/-- Where `P s bytes` says that the service has `bytes` still to send: every step from a state of the invariant sends
some of them, the first ones first, and has the others and what it read still to send. -/
def KeepsRelaying (P : State → List Byte → Prop) : Prop :=
  ∀ s t bytes, s.Inv → s.config.chA < nChannels s.config → P s bytes → step s = .next t →
    ∃ out read bytes', Relayed s.config.chA s t out read ∧ out ++ bytes' = bytes ++ read ∧ P t bytes'

theorem core_run_succ (M : Host.Core) (n : Nat) (s t : M.State) :
    M.run (n + 1) s = .next t ↔ ∃ u, M.step s = .next u ∧ M.run n u = .next t := by
  rw [Host.Core.run]
  cases M.step s <;> simp

theorem runsTo_succ {n : Nat} {s t : State} : runsTo (n + 1) s t ↔ ∃ u, step s = .next u ∧ runsTo n u t :=
  core_run_succ Sys2Proof.core n s t

/-- Every run goes on so. -/
theorem KeepsRelaying.run {P : State → List Byte → Prop} (hP : KeepsRelaying P) {n : Nat} {s t : State}
    {bytes : List Byte} (hi : s.Inv) (hn : s.config.chA < nChannels s.config) (hs : P s bytes) (h : runsTo n s t) :
    t.Inv ∧ ∃ out read bytes', Relayed s.config.chA s t out read ∧ out ++ bytes' = bytes ++ read ∧ P t bytes' := by
  induction n generalizing s bytes with
  | zero =>
    cases h
    exact ⟨hi, [], [], bytes, .refl _ _, (List.append_nil _).symm, hs⟩
  | succ n ih =>
    obtain ⟨u, hstep, hrest⟩ := runsTo_succ.1 h
    obtain ⟨out, read, bytes₁, hfirst, hbytes₁, hu⟩ := hP s u bytes hi hn hs hstep
    have hconfig := hfirst.config
    obtain ⟨hinv, out', read', bytes₂, hlater, hbytes₂, ht⟩ :=
      ih (everyStepKeepsTheInvariant s u hi hstep) (by rwa [hconfig]) hu hrest
    rw [hconfig] at hlater
    refine ⟨hinv, out ++ out', read ++ read', bytes₂, hfirst.trans hlater, ?_, ht⟩
    rw [List.append_assoc, hbytes₂, ← List.append_assoc, hbytes₁, List.append_assoc]

/-! The echo loop (R208). -/

theorem inHand_keepsRelaying : KeepsRelaying InHand := fun _ _ _ hi hn hh h => inHand_step hi hn hh h

/-- Settles O54: what was sent and read since is `Relayed`, and between two steps the byte in hand is all that was read
and not yet sent. -/
theorem echoIsFaithful : Obligations.EchoIsFaithful := by
  intro s hand hi hn hh n t h
  obtain ⟨-, out, read, hand', hrelayed, hhand, hh'⟩ := inHand_keepsRelaying.run hi hn hh h
  obtain ⟨got, hgot, hsub⟩ := hrelayed.heard
  refine ⟨hand', got, hh', (List.sublist_append_left ..).trans hsub, ?_, hrelayed.others⟩
  calc sent t s.config.chA ++ hand' ++ received t s.config.chA
      = sent s s.config.chA ++ (out ++ hand') ++ received t s.config.chA := by
        rw [hrelayed.sent, List.append_assoc _ out]
    _ = sent s s.config.chA ++ hand ++ (read ++ received t s.config.chA) := by rw [hhand]; simp
    _ = sent s s.config.chA ++ hand ++ received s s.config.chA ++ got := by rw [hgot]; simp

/-! The greeting on a silent line (R207, R212). -/

/-- Channel A has received nothing and will receive nothing. -/
def SilentA (s : State) : Prop :=
  received s s.config.chA = [] ∧ lineBytes s.config.chA s.schedule = []

/-- On a silent line there is nothing to read. -/
theorem Relayed.silent {s t : State} {out read : List Byte} (h : Relayed s.config.chA s t out read) (hs : SilentA s) :
    read = [] ∧ SilentA t := by
  obtain ⟨hreceived, hline⟩ := hs
  obtain ⟨got, hgot, hsub⟩ := h.heard
  rw [hline, List.sublist_nil, List.append_eq_nil_iff] at hsub
  obtain ⟨rfl, hline'⟩ := hsub
  rw [hreceived, List.append_nil, List.append_eq_nil_iff] at hgot
  exact ⟨hgot.1, by rw [SilentA, h.config]; exact ⟨hgot.2, hline'⟩⟩

/-- The service on a silent line: the greeting, and then an echo loop that never has a byte in hand. -/
def GreetsSilence (s : State) (bytes : List Byte) : Prop :=
  SilentA s ∧ (Greeting s.config s.pending bytes ∨ (s.pending = [.echo] ∧ bytes = []))

theorem greetsSilence_keepsRelaying : KeepsRelaying GreetsSilence := by
  rintro s t bytes hi hn ⟨hsilent, hg | ⟨hpending, rfl⟩⟩ h
  · obtain ⟨out, bytes', hrelayed, hbytes, hnext⟩ := greeting_step hi hn hg h
    refine ⟨out, [], bytes', hrelayed, by rw [hbytes, List.append_nil], (hrelayed.silent hsilent).2, ?_⟩
    rwa [hrelayed.config]
  · obtain ⟨out, read, hand', hrelayed, hhand, hh⟩ := inHand_step hi hn (.inl ⟨hpending, rfl⟩) h
    obtain ⟨rfl, hsilent'⟩ := hrelayed.silent hsilent
    obtain ⟨rfl, rfl⟩ := List.append_eq_nil_iff.1 hhand
    refine ⟨[], [], [], hrelayed, rfl, hsilent', .inr ?_⟩
    obtain hloop | ⟨b, -, hb⟩ := hh
    · exact hloop
    · cases hb

/-- A stage that is still to be assigned lies ahead (R23). -/
theorem svcIndex_lt_of_mem {ms : List Micro} {n : Nat} {st : SvcStage} (h : stagesForward n ms = true)
    (hmem : .stage st ∈ ms) : n < svcIndex st := by
  induction ms generalizing n with
  | nil => cases hmem
  | cons m ms ih =>
    cases m with
    | stage st' =>
      rw [stagesForward, Bool.and_eq_true, beq_iff_eq] at h
      obtain ⟨hhead, htail⟩ := h
      obtain heq | hmem := List.mem_cons.1 hmem
      · cases heq
        omega
      · have := ih htail hmem
        omega
    | _ => exact ih h ((List.mem_cons.1 hmem).resolve_left nofun)

/-- While bytes of the greeting are to be sent, GREETING_SENT is not reached. -/
theorem Greeting.stage {s : State} {bytes : List Byte} (hi : s.Inv) (h : Greeting s.config s.pending bytes)
    (hne : bytes ≠ []) : svcIndex s.svcStage < 3 := by
  refine svcIndex_lt_of_mem (st := .greetingSent) hi.forward ?_
  generalize s.pending = ms at h
  cases h with
  | unsent => simp
  | sent => exact absurd rfl hne

/-- Settles O53: on a silent line nothing is read, so that what was sent and what is still to be sent make up the
greeting. -/
theorem greetingIsSentExactlyOnce : Obligations.GreetingIsSentExactlyOnce := by
  intro s hi hn hpending hline hreceived n t h
  have hstart : GreetsSilence s greeting := ⟨⟨hreceived, hline⟩, .inl (hpending ▸ .unsent greeting)⟩
  obtain ⟨hinv, out, read, bytes, hrelayed, hbytes, -, hleft⟩ := greetsSilence_keepsRelaying.run hi hn hstart h
  obtain ⟨rfl, -⟩ := hrelayed.silent ⟨hreceived, hline⟩
  rw [List.append_nil] at hbytes
  have hlength : out.length + bytes.length = 36 := by rw [← List.length_append, hbytes]; rfl
  refine ⟨out.length, by omega, ?_, fun hstage => ?_, hrelayed.others⟩
  · rw [hrelayed.sent, ← hbytes, List.take_left]
  · have hsent : bytes = [] := by
      by_contra hne
      obtain hg | ⟨-, hnil⟩ := hleft
      · exact absurd (hg.stage hinv hne) (by omega)
      · exact hne hnil
    rw [hsent] at hlength
    exact hlength

/-! The wire (R206, R212). -/

/-- The service in the greeting or in the echo loop. -/
def Serves (s : State) (bytes : List Byte) : Prop := Greeting s.config s.pending bytes ∨ InHand s bytes

theorem serves_keepsRelaying : KeepsRelaying Serves := by
  rintro s t bytes hi hn (hg | hh) h
  · obtain ⟨out, bytes', hrelayed, hbytes, hnext⟩ := greeting_step hi hn hg h
    refine ⟨out, [], bytes', hrelayed, by rw [hbytes, List.append_nil], ?_⟩
    rw [Serves, hrelayed.config]
    exact hnext.imp_right .inl
  · obtain ⟨out, read, hand', hrelayed, hhand, hh'⟩ := inHand_step hi hn hh h
    exact ⟨out, read, hand', hrelayed, hhand, .inr hh'⟩

/-- Settles O57: whatever the service still has to send, `Relayed` keeps what `SourceUp` says. -/
theorem serviceSendsOnlyInTheSourceFormat : Obligations.ServiceSendsOnlyInTheSourceFormat := by
  intro s hi hclock hchannel hwire hpending n t h
  have hn : s.config.chA < nChannels s.config := by
    obtain ⟨ch, hch, -⟩ := hchannel.regs
    obtain ⟨hlt, -⟩ := List.getElem?_eq_some_iff.1 hch
    rwa [← hi.channels]
  obtain ⟨bytes, hserves⟩ : ∃ bytes, Serves s bytes := by
    obtain hp | hp := hpending
    · exact ⟨greeting, .inl (hp ▸ .unsent greeting)⟩
    · exact ⟨[], .inr (.inl ⟨hp, rfl⟩)⟩
  obtain ⟨-, out, read, bytes', hrelayed, -⟩ := serves_keepsRelaying.run hi hn hserves h
  obtain ⟨hclock', hchannel', hwire'⟩ := hrelayed.sourceUp ⟨hclock, hchannel, hwire⟩
  exact ⟨hclock', hchannel', hwire'⟩

end Sys2Proof.Machine
end

section
/-! SUPPORT. `DELAY` and `LED_PULSE` (44_serial_echo_service.md R210, R211): idle steps and nothing else. -/

namespace Sys2Proof.Machine

/-- A command that only idles completes, and leaves what the agents scheduled meanwhile made of the state. -/
theorem idling_completes {m : Micro} {n : Nat} {s : State}
    (h : runMicro m (clearResult s) = .ok .done (idle n (clearResult s))) :
    ∃ t, runCommand [m] s = .next t ∧ t.soft = s.soft ∧ t.hidden = (idle n s).hidden ∧ t.trace = s.trace ∧
      Issued s t none n 0 ∧ ∀ c, sent t c = sent s c :=
  ⟨_, (runMicros_done h).trans (runMicros_nil _), by simp, by simp, by simp, ⟨by simp, rfl, by simp, by simp⟩,
    fun c => by simp⟩

/-- Settles O58: both are one micro-step that idles. -/
theorem delaysOnlyLetAgentsStep : Obligations.DelaysOnlyLetAgentsStep := fun _ count color =>
  ⟨idling_completes (m := .idle count.toNat) rfl, idling_completes (m := .led color) rfl⟩

end Sys2Proof.Machine
end

section
/-! SUPPORT. The echo loop with no agent scheduled (44_serial_echo_service.md R208): the two steps that send back one
byte. -/

namespace Sys2Proof.Machine

/-- From `s` to `t` the queues of channel `c` changed to those of `ch`, and nothing else but what only the issuer sees;
no agent is scheduled. -/
structure QueuesBecome (s t : State) (c : Nat) (ch : Channel) : Prop where
  soft : t.soft = s.soft
  hidden : t.hidden = (setChannel s c ch).hidden
  channel : t.channels[c]? = some ch
  quiet : t.quiet

theorem QueuesBecome.refl {s : State} {c : Nat} {ch : Channel} (hq : s.quiet) (hch : s.channels[c]? = some ch) :
    QueuesBecome s s c ch :=
  ⟨rfl, by rw [setChannel_same hch], hch, hq⟩

theorem QueuesBecome.trans {s t u : State} {c : Nat} {ch ch' : Channel} (h1 : QueuesBecome s t c ch)
    (h2 : QueuesBecome t u c ch') : QueuesBecome s u c ch' where
  soft := h2.soft.trans h1.soft
  hidden := by
    rw [h2.hidden, hidden_setChannel, h1.hidden, hidden_setChannel, hidden_setChannel]
    simp
  channel := h2.channel
  quiet := h2.quiet

/-- Replacing a channel by one with the same registers. -/
theorem queuesBecome_set {s : State} {c : Nat} {ch ch' : Channel} (hq : s.quiet) (hch : s.channels[c]? = some ch)
    (hregs : chanRegsOf ch' = chanRegsOf ch) : QueuesBecome s (setChannel s c ch') c ch' := by
  obtain ⟨hlt, -⟩ := List.getElem?_eq_some_iff.1 hch
  exact ⟨soft_setChannel_same hch hregs, rfl, List.getElem?_set_self hlt, hq⟩

namespace QueuesBecome

variable {s t : State} {c : Nat} {ch : Channel}

theorem logBus (h : QueuesBecome s t c ch) (k : BusKind) (a v : Word) : QueuesBecome s (logBus k a v t) c ch :=
  ⟨h.soft, h.hidden, h.channel, h.quiet⟩

theorem countDraw (h : QueuesBecome s t c ch) : QueuesBecome s (countDraw t) c ch :=
  ⟨h.soft, h.hidden, h.channel, h.quiet⟩

theorem setPending (h : QueuesBecome s t c ch) (ms : List Micro) : QueuesBecome s (setPending t ms) c ch :=
  ⟨h.soft, h.hidden, h.channel, h.quiet⟩

end QueuesBecome

variable {s : State} {ch : Channel}

/-- The echo loop can run: channel A is `ch`, and no agent is scheduled. -/
structure EchoReady (s : State) (ch : Channel) : Prop where
  wf : configWf s.config = true
  quiet : s.quiet
  inRange : s.config.chA < nChannels s.config
  clocked : chanClocked s s.config.chA = true
  channel : s.channels[s.config.chA]? = some ch

theorem EchoReady.next {t : State} {ch' : Channel} (h : EchoReady s ch) (ht : QueuesBecome s t s.config.chA ch') :
    EchoReady t ch' := by
  have hconfig : t.config = s.config := congrArg SoftView.config ht.soft
  have hclocked := clocked_of_soft ht.soft (.uart s.config.chA .dr)
  exact ⟨by rw [hconfig]; exact h.wf, ht.quiet, by rw [hconfig]; exact h.inRange,
    by rw [hconfig]; exact hclocked.trans h.clocked, by rw [hconfig]; exact ht.channel⟩

theorem EchoReady.tick_channel (h : EchoReady s ch) : (tick s).channels[s.config.chA]? = some ch := by
  rw [tick_quiet h.quiet]
  exact h.channel

/-- The read of `FR` when no agent is scheduled. -/
theorem EchoReady.afterFrRead (h : EchoReady s ch) :
    QueuesBecome s (afterFrRead s s.config.chA ch) s.config.chA ch := by
  rw [Machine.afterFrRead, tick_quiet h.quiet]
  exact (QueuesBecome.refl h.quiet h.channel).countDraw.logBus ..

/-- The read of `DR` takes the oldest received byte (R51). -/
theorem EchoReady.reads {b : Byte} {q : List Byte} (h : EchoReady s ch) (hrx : ch.rxq = b :: q) :
    ∃ v t, busRead (chanAddr s.config s.config.chA .dr) s = .ok v t ∧ v.low8 = b ∧
      QueuesBecome s t s.config.chA { ch with rxq := q } := by
  have hdr := busRead_dr (configWf_layout h.wf) h.inRange h.clocked h.tick_channel
  have hset := queuesBecome_set h.quiet h.channel (chanRegsOf_popped ch)
  rw [tick_quiet h.quiet] at hdr
  rw [show popped ch = { ch with rxq := q } by rw [popped, hrx]; rfl] at hset hdr
  exact ⟨_, _, hdr, drValue_low8 hrx, hset.countDraw.logBus ..⟩

/-- The write of `DR` queues a byte where there is room (R50). -/
theorem EchoReady.writes (b : Byte) (h : EchoReady s ch) (hroom : ch.txq.length < fifoCap s.config ch) :
    ∃ t, busWrite (chanAddr s.config s.config.chA .dr) (byteWord b) s = .ok () t ∧
      QueuesBecome s t s.config.chA { ch with txq := ch.txq ++ [b] } := by
  have hdr := busWrite_dr (byteWord b) (configWf_layout h.wf) h.inRange h.clocked h.tick_channel
  rw [byteWord_setWidth, pushTx_of_room b hroom, tick_quiet h.quiet] at hdr
  have hset := queuesBecome_set (ch' := { ch with txq := ch.txq ++ [b] }) h.quiet h.channel rfl
  exact ⟨_, hdr, hset.logBus ..⟩

/-- An iteration of the loop that finds a byte takes it from the FIFO (R208). -/
theorem EchoReady.echoReads {b : Byte} {q : List Byte} (h : EchoReady s ch) (hrx : ch.rxq = b :: q) :
    ∃ t, echoReads s = .ok (.become (echoNext t (some b))) t ∧
      QueuesBecome s t s.config.chA { ch with rxq := q } := by
  have hpolled := h.afterFrRead
  have hconfig : (Machine.afterFrRead s s.config.chA ch).config = s.config := afterFrRead_config ..
  have hfr : busRead (uartAddr s s.config.chA .fr) s =
      .ok (frValue (tick s) ch) (Machine.afterFrRead s s.config.chA ch) :=
    busRead_fr (configWf_layout h.wf) h.inRange h.clocked h.tick_channel
  have hempty : rxEmpty ch = false := by rw [rxEmpty, hrx]; rfl
  obtain ⟨v, t, hdr, hb, htaken⟩ := (h.next hpolled).reads hrx
  rw [hconfig] at htaken
  refine ⟨t, ?_, hpolled.trans htaken⟩
  rw [Machine.echoReads, hfr, ok_bind, hconfig, (frValue_tick_flags (configWf_layout h.wf) ch).2, hempty, if_neg nofun,
    ← hb]
  rw [hconfig] at hdr
  refine (congrArg (Res.bind · _) (Eq.trans ?_ hdr)).trans (ok_bind ..)
  rw [uartAddr, hconfig, chanAddr]

/-- The first step for a byte takes it from the receive FIFO (R208). -/
theorem EchoReady.step_reads {b : Byte} {q : List Byte} (h : EchoReady s ch) (hp : s.pending = [.echo])
    (hrx : ch.rxq = b :: q) :
    ∃ t, step s = .next t ∧ QueuesBecome s t s.config.chA { ch with rxq := q } ∧ t.pending = echoNext t (some b) := by
  obtain ⟨t, hreads, hqueues⟩ := h.echoReads hrx
  have hecho : runMicro .echo s = .ok (.become (echoNext t (some b))) t := by
    have hpulse : ledPulse s.config.colorReceived s = s := by rw [ledPulse_eq, idle_quiet h.quiet]
    show echoOnce s = _
    rw [echoOnce_eq, hpulse, hreads]
  refine ⟨_, ?_, hqueues.setPending (echoNext t (some b) ++ []), rfl⟩
  rw [step_pending (by rw [hp]; exact nofun), hp]
  exact runMicros_become hecho

/-- The second step for a byte puts it in the transmit FIFO, where there is room (R208). -/
theorem EchoReady.step_sends {b : Byte} (h : EchoReady s ch) (hp : s.pending = echoNext s (some b))
    (hroom : ch.txq.length < fifoCap s.config ch) :
    ∃ t, step s = .next t ∧ QueuesBecome s t s.config.chA { ch with txq := ch.txq ++ [b] } ∧ t.pending = [.echo] := by
  have hpolled := h.afterFrRead
  have hconfig : (Machine.afterFrRead s s.config.chA ch).config = s.config := afterFrRead_config ..
  have hwait := runMicro_txWait_room (configWf_layout h.wf) h.inRange h.clocked h.tick_channel
    (by rw [txFull_eq]; exact decide_eq_false (Nat.ne_of_lt hroom))
  obtain ⟨t, hwrite, hput⟩ := (h.next hpolled).writes b (by rwa [hconfig])
  rw [hconfig] at hwrite hput
  have hpulse : runMicro (.led s.config.colorTransmitted) t = .ok .done t := by
    rw [runMicro, ledPulse_eq, idle_quiet hput.quiet]
  refine ⟨_, ?_, hpolled.trans (hput.setPending [.echo]), rfl⟩
  rw [step_pending (by rw [hp]; exact nofun), hp, echoNext_some]
  exact (runMicros_done hwait).trans ((runMicros_done (runMicro_write hwrite)).trans (runMicros_done hpulse))

/-- Two steps for each received byte. -/
theorem EchoReady.returns (h : EchoReady s ch) (hp : s.pending = [.echo])
    (hroom : ch.txq.length + ch.rxq.length ≤ fifoCap s.config ch) :
    ∃ t, runsTo (2 * ch.rxq.length) s t ∧ t.pending = [.echo] ∧
      QueuesBecome s t s.config.chA { ch with txq := ch.txq ++ ch.rxq, rxq := [] } := by
  obtain ⟨rx, hrx⟩ : ∃ rx, ch.rxq = rx := ⟨_, rfl⟩
  induction rx generalizing s ch with
  | nil =>
    have hsame : ({ ch with txq := ch.txq ++ ch.rxq, rxq := [] } : Channel) = ch := by
      rw [hrx, List.append_nil, ← hrx]
    rw [hsame, hrx]
    exact ⟨s, rfl, hp, .refl h.quiet h.channel⟩
  | cons b q ih =>
    rw [hrx, List.length_cons] at hroom
    obtain ⟨t, hread, htake, hp₁⟩ := h.step_reads hp hrx
    have ht := h.next htake
    have hconfig : t.config = s.config := congrArg SoftView.config htake.soft
    obtain ⟨u, hsend, hput, hp₂⟩ := ht.step_sends hp₁ (by rw [hconfig]; simp only [fifoCap] at hroom ⊢; omega)
    have hu := ht.next hput
    rw [hconfig] at hput
    have hconfig' : u.config = s.config := congrArg SoftView.config (hput.soft.trans htake.soft)
    obtain ⟨v, hrest, hp₃, hlast⟩ := ih hu hp₂
      (by rw [hconfig']; simp only [fifoCap, List.length_append, List.length_singleton] at hroom ⊢; omega) rfl
    refine ⟨v, ?_, hp₃, ?_⟩
    · rw [hrx, List.length_cons, Nat.mul_succ]
      exact runsTo_succ.2 ⟨t, hread, runsTo_succ.2 ⟨u, hsend, hrest⟩⟩
    · rw [hconfig'] at hlast
      simpa [hrx] using (htake.trans hput).trans hlast

/-- Settles O55, by `EchoReady.returns`. -/
theorem echoReturnsEveryByte : Obligations.EchoReturnsEveryByte := by
  intro s ch hwf hq hp hn hc hch hroom
  obtain ⟨t, hrun, hp', hqueues⟩ := EchoReady.returns ⟨hwf, hq, hn, hc, hch⟩ hp hroom
  exact ⟨t, hrun, hp', hqueues.soft, hqueues.hidden.trans (hidden_setChannel ..)⟩

end Sys2Proof.Machine
end

section
/-! SUPPORT. The service from BOOTING to CLOCK_READY (44_serial_echo_service.md R205, R206): the bring-up of the clock
with the rest of the service behind it. -/

namespace Sys2Proof.Machine

/-! The bring-up inside a longer command. -/

namespace ReachesWait

variable {s off on gate u : State} {h : configWf s.config = true} {reads : List BusEvent} {n : Nat}

theorem clkStep_gate (r : ReachesWait h off on gate u reads n) (hk : s.clkStep = 0) : gate.clkStep = 8 := by
  have hstep : u.clkStep = s.clkStep + 8 := congrArg SoftView.clkStep r.softWait
  have hwait : u.clkStep = gate.clkStep := congrArg SoftView.clkStep r.wait.soft
  rw [← hwait, hstep, hk]

theorem config_gate (r : ReachesWait h off on gate u reads n) : gate.config = s.config :=
  r.powered.went.config.trans r.config_on

/-- The micro-steps before the wait run to their end, whatever comes after the bring-up. -/
theorem run_to_gate (r : ReachesWait h off on gate u reads n) (hk : s.clkStep = 0) (rest : List Micro) :
    runMicros (bringUpSteps s.config ++ rest) (clearResult s) =
      runMicros (.clkWait :: bypassOffStep s.config :: rest) gate := by
  have hoff : off.clkStep = s.clkStep + 5 := congrArg SoftView.clkStep r.unpowered.soft
  have hon : on.clkStep = 6 := by rw [r.pllOn.clkStep, hoff, hk]
  have hrun_off := r.unpowered.run ((pllOnUpdate h).micro s.config 5 ::
    (clkMicros s.config 6 (poweredUpdates h) ++ (.clkWait :: bypassOffStep s.config :: rest)))
  have hrun_on := r.pllOn.run (clkMicros s.config 6 (poweredUpdates h) ++ (.clkWait :: bypassOffStep s.config :: rest))
  have hrun_gate := r.powered.run (.clkWait :: bypassOffStep s.config :: rest)
  rw [clearResult_config, clearResult_clkStep, hk] at hrun_off
  rw [r.config_off, hoff, hk] at hrun_on
  rw [r.config_on, hon] at hrun_gate
  exact hrun_off.trans (hrun_on.trans hrun_gate)

end ReachesWait

/-- A clock micro-step that ends a command well does so inside a longer one. -/
theorem runMicros_clk {k : Nat} {stage : Option ClkStage} {a st cl : Word} {s t : State}
    (h : runMicros [.clk k stage a st cl] s = .next (setPending t [])) :
    ∃ ms, ∀ rest, runMicros (.clk k stage a st cl :: rest) s = runMicros rest (setPending t ms) := by
  obtain ⟨p, u, hmicro, -⟩ := runMicros_cons h
  obtain rfl : p = .done := by
    have hrun := hmicro
    rw [runMicro] at hrun
    split at hrun
    · obtain ⟨_, _, _, hdone⟩ := bind_ok hrun
      cases hdone
      rfl
    · cases hrun
  have heq : setPending u [] = setPending t [] := by
    have hnext := (runMicros_done hmicro).symm.trans h
    rwa [runMicros_nil, Host.Outcome.next.injEq] at hnext
  have hu : u = setPending t u.pending :=
    calc u = setPending (setPending u []) u.pending := rfl
      _ = setPending t u.pending := by rw [heq]; rfl
  exact ⟨u.pending, fun rest => hu ▸ runMicros_done hmicro⟩

theorem BroughtUp.setPending {s u t : State} {h : configWf s.config = true} (b : BroughtUp h u t) (ms : List Micro) :
    BroughtUp h u (setPending t ms) :=
  ⟨{ b.went with }, b.alt, b.legacy, b.soft, { b.lockFollows with }⟩

/-- The bring-up with `rest` behind it: it completes and `rest` runs, or the wait stays pending with `rest` (R150,
R160). -/
theorem bringUp_runs {s : State} (h : configWf s.config = true) (hk : s.clkStep = 0) :
    ∃ off on gate u reads n, ReachesWait h off on gate u reads n ∧
      ((u.risPllLock = true ∧ ∃ t, BroughtUp h u t ∧
          ∀ rest, runMicros (bringUpSteps s.config ++ rest) (clearResult s) = runMicros rest t) ∨
        (u.risPllLock = false ∧ u.schedule = [] ∧
          ∀ rest, runMicros (bringUpSteps s.config ++ rest) (clearResult s) =
            .next (setPending u (.clkWait :: bypassOffStep s.config :: rest)))) := by
  obtain ⟨off, on, gate, _, _, _, r₀, -⟩ := bringUp_reachesWait h hk
  have hl : layoutWf gate.config.layout = true := by rw [r₀.config_gate]; exact configWf_layout h
  obtain ⟨u, reads, n, hpolled, hwait⟩ := clkWait_cases hl (r₀.clkStep_gate hk)
  have r : ReachesWait h off on gate u reads n := { r₀ with wait := hpolled }
  refine ⟨off, on, gate, u, reads, n, r, ?_⟩
  obtain ⟨hris, hdone⟩ | ⟨hris, hsched, hpending⟩ := hwait
  · obtain ⟨t, hrun, b⟩ := r.broughtUp
    obtain ⟨ms, hrest⟩ := runMicros_clk hrun
    exact .inl ⟨hris, _, b.setPending ms, fun rest =>
      (r.run_to_gate hk rest).trans ((runMicros_done hdone).trans (hrest rest))⟩
  · exact .inr ⟨hris, hsched, fun rest => (r.run_to_gate hk rest).trans (runMicros_wait hpending)⟩

/-! CLOCK_READY (R205). -/

/-- The state when `n` idle steps have passed and the service has reached a stage, with `ms` still to be done. -/
def stageReached (n : Nat) (st : SvcStage) (ms : List Micro) (s : State) : State :=
  setPending (setSvcStage (idle n s) st) ms

/-- A pulse, a stage of the service, and the end of the step. -/
theorem runMicros_reachStage (color : Byte) (st : SvcStage) (rest : List Micro) (s : State) :
    runMicros (.led color :: .stage st :: .yield :: rest) s =
      .next (stageReached s.config.ledPulseSpins st rest s) := rfl

section

variable {s : State} (n : Nat) (st : SvcStage) (ms : List Micro)

theorem stageReached_soft (s : State) : (stageReached n st ms s).soft = { s.soft with svcStage := st } := by
  rw [← idle_soft n s]
  rfl

theorem stageReached_sent (s : State) (c : Nat) : sent (stageReached n st ms s) c = sent s c := idle_sent n s c

theorem stageReached_locked (h : s.pllLocked = true) : (stageReached n st ms s).pllLocked = true :=
  locked_agents.idle n s h

theorem ClockProgrammed.stageReached (h : ClockProgrammed s) : ClockProgrammed (stageReached n st ms s) := by
  have hregs : clockRegs (Machine.stageReached n st ms s).soft = clockRegs s.soft := by rw [stageReached_soft]; rfl
  exact h.of_regs hregs (idle_sticky n h.risPllLock)

theorem ClockUp.stageReached (h : ClockUp s) : ClockUp (stageReached n st ms s) :=
  (h.toClockProgrammed.stageReached n st ms).clockUp (stageReached_locked n st ms h.pllLocked)

theorem ChannelUp.stageReached {c : Nat} {bi : BitVec 16} {bf : BitVec 6} {fifo : Bool} (h : ChannelUp s c bi bf fifo) :
    ChannelUp (stageReached n st ms s) c bi bf fifo :=
  h.of_regs (idle_config n s) (idle_clocked n s (.uart c .dr))
    (by rw [stageReached_soft])

end

/-- What follows the bring-up in the service. -/
def afterBringUp (c : Config) : List Micro :=
  .led c.colorClockReady :: .stage .clockReady :: .yield :: (channelsSteps c ++ greetingSteps c)

theorem serviceSteps_eq (c : Config) : serviceSteps c = bringUpSteps c ++ afterBringUp c := by
  simp [serviceSteps, afterBringUp]

theorem exec_runEchoService {s : State} (hstage : s.svcStage = .booting) (hk : s.clkStep = 0) :
    exec .runEchoService s = runMicros (bringUpSteps s.config ++ afterBringUp s.config) (clearResult s) := by
  rw [← serviceSteps_eq]
  exact if_pos ⟨hstage, hk⟩

/-- What the service leaves at CLOCK_READY, which it reaches from `s` when the wait has ended in `u`. -/
structure ClockReached {s : State} (h : configWf s.config = true) (u w : State) : Prop where
  programmed : ClockProgrammed w
  sent : ∀ c, sent w c = sent u c
  soft : w.soft = { s.soft with
    clkLegacy := w.clkLegacy, clkAlt := w.clkAlt, clkStep := 10, clkStage := .dividerActive, svcStage := .clockReady }
  locked : LockInStep u → w.pllLocked = true

/-- The pulse after the bring-up, and CLOCK_READY. -/
theorem BroughtUp.clockReached {s u t : State} {h : configWf s.config = true} (b : BroughtUp h u t)
    (hconfig : u.config = s.config) (hris : u.risPllLock = true) (n : Nat) (ms : List Micro) :
    ClockReached h u (stageReached n .clockReady ms t) where
  programmed := (b.clockProgrammed hconfig hris).stageReached n .clockReady ms
  sent c := (stageReached_sent n .clockReady ms t c).trans (b.went.sent c)
  soft := by
    have hsoft := stageReached_soft n .clockReady ms t
    rw [b.soft] at hsoft
    rw [show (stageReached n .clockReady ms t).clkLegacy = t.clkLegacy from congrArg SoftView.clkLegacy hsoft,
      show (stageReached n .clockReady ms t).clkAlt = t.clkAlt from congrArg SoftView.clkAlt hsoft, hsoft]
  locked hstep := stageReached_locked n .clockReady ms ((b.lockFollows.inStep hstep).trans (b.went.sticky hris))

/-- From reset the lock is in step with the status bit when the wait ends. -/
theorem ReachesWait.lockInStep_of_atReset {s off on gate u : State} {h : configWf s.config = true}
    {reads : List BusEvent} {n : Nat} (r : ReachesWait h off on gate u reads n) (hr : s.AtReset) : LockInStep u := by
  obtain ⟨hlocked, hris⟩ := r.unlocked_on (pllOff_of_atReset hr)
  exact r.lockFollows.2.inStep (hlocked.trans hris.symm)

/-- Settles O51: the bring-up by `bringUp_runs`, CLOCK_READY by `BroughtUp.clockReached`, and whether the wait ends as
for `BRING_UP_CLOCK` alone. -/
theorem serviceBringsTheClockUpFirst : Obligations.ServiceBringsTheClockUpFirst := by
  intro s h hstage hk
  have hexec := exec_runEchoService hstage hk
  obtain ⟨off, on, gate, u, reads, n, r, ⟨hris, t, b, hrun⟩ | ⟨hris, hsched, hrun⟩⟩ := bringUp_runs h hk
  · have w := b.clockReached r.wentWait.config hris t.config.ledPulseSpins
      (channelsSteps s.config ++ greetingSteps s.config)
    have hend := hexec.trans ((hrun _).trans (runMicros_reachStage ..))
    refine ⟨_, hend, .inl ⟨rfl, w.programmed.risPllLock, rfl⟩, fun _ => rfl,
      fun _ => ⟨w.programmed, w.programmed.clockUp, fun c => ?_, w.soft⟩, fun hr => ⟨⟨fun _ => ?_, fun _ => rfl⟩,
      fun _ => w.programmed.clockUp (w.locked (r.lockInStep_of_atReset hr))⟩⟩
    · exact (w.sent c).trans (r.wentWait.sent c)
    · exact (r.lockDue_iff_lockComes (pllOff_of_atReset hr)).1 (.inl hris)
  · have hnotDue : ¬ lockDue u := by rw [lockDue_of_ended (.inr hsched), hris]; exact Bool.false_ne_true
    have hstep : u.clkStep = s.clkStep + 8 := congrArg SoftView.clkStep r.softWait
    have hbooting : u.svcStage = .booting := (congrArg SoftView.svcStage r.softWait).trans hstage
    have hready : u.svcStage ≠ .clockReady := by rw [hbooting]; exact nofun
    refine ⟨_, hexec.trans (hrun _), .inr ⟨hbooting, by rw [setPending_clkStep, hstep, hk], hris, hsched, rfl⟩,
      fun hw => absurd (r.lockDue_of_waitEnds hw) hnotDue, fun ht => absurd ht hready,
      fun hr => ⟨⟨fun ht => absurd ht hready, fun hcomes => ?_⟩, fun ht => absurd ht hready⟩⟩
    exact absurd ((r.lockDue_iff_lockComes (pllOff_of_atReset hr)).2 hcomes) hnotDue

end Sys2Proof.Machine
end

section
/-! SUPPORT. The service from CLOCK_READY to CHANNELS_READY (44_serial_echo_service.md R206): two runs of
`UART_CONFIGURE` inside one command, which leave the clock, and the second the first one's channel, as they were. -/

namespace Sys2Proof.Machine

/-! The lock (R31). -/

/-- Between `s` and `t` a locked PLL fell out of lock by a write of a clock-control register at most. -/
def LockKept (s t : State) : Prop :=
  t.config = s.config ∧ ∃ tr, t.trace = s.trace ++ tr ∧
    (noWriteTo (addrOf s.config.layout .legacy) tr = true → noWriteTo (addrOf s.config.layout .alt) tr = true →
      s.pllLocked = true → t.pllLocked = true)

theorem lockKept_of_same {s t : State} (hconfig : t.config = s.config) (htrace : t.trace = s.trace)
    (hlocked : s.pllLocked = true → t.pllLocked = true) : LockKept s t :=
  ⟨hconfig, [], by rw [htrace, List.append_nil], fun _ _ => hlocked⟩

theorem busRead_locked {a : Word} {s t : State} {v : ReadValue} (h : busRead a s = .ok v t)
    (hlocked : s.pllLocked = true) : t.pllLocked = true := by
  obtain ⟨r, u, -, -, hread, rfl⟩ := busRead_ok h
  have htick := locked_agents.tick s hlocked
  obtain rfl | rfl | ⟨c, ch, b, q, -, -, -, -, rfl⟩ := readReg_ok hread <;> exact htick

theorem busWrite_locked {a v : Word} {s t : State} (h : busWrite a v s = .ok () t)
    (hlegacy : a ≠ addrOf s.config.layout .legacy) (halt : a ≠ addrOf s.config.layout .alt)
    (hlocked : s.pllLocked = true) : t.pllLocked = true := by
  obtain ⟨r, u, hlocate, -, -, hwrite, rfl⟩ := busWrite_ok h
  obtain ⟨-, haddr⟩ := locate_mem hlocate
  have htick := locked_agents.tick s hlocked
  obtain ⟨rfl, -⟩ | ⟨rfl, -⟩ | ⟨-, rfl⟩ | ⟨-, rfl⟩ | ⟨p, g, pt, -, -, rfl⟩ | ⟨c, w, ch, -, -, hchannel⟩ :=
    writeReg_ok hwrite
  · exact absurd haddr.symm hlegacy
  · exact absurd haddr.symm halt
  · exact htick
  · exact htick
  · exact htick
  · obtain ⟨ch', rfl, -⟩ := writeChannel_ok hchannel
    exact htick

theorem lockKept_stepRel : StepRel LockKept where
  refl _ := lockKept_of_same rfl rfl id
  trans := by
    rintro s t u ⟨hconfig, tr, htrace, hkept⟩ ⟨hconfig', tr', htrace', hkept'⟩
    rw [hconfig] at hkept'
    refine ⟨hconfig'.trans hconfig, tr ++ tr', by rw [htrace', htrace, List.append_assoc], fun hl ha => ?_⟩
    rw [noWriteTo_append, Bool.and_eq_true] at hl ha
    exact hkept' hl.2 ha.2 ∘ hkept hl.1 ha.1
  idle n s := lockKept_of_same (idle_config n s) (idle_trace n s) (locked_agents.idle n s)
  read h := ⟨congrArg SoftView.config (busRead_soft h), _, busRead_trace h, fun _ _ => busRead_locked h⟩
  write h := ⟨elementary_config.busWrite h, _, busWrite_trace h, fun hl ha => busWrite_locked h
    (by simpa [noWriteTo, writeTrace] using hl) (by simpa [noWriteTo, writeTrace] using ha)⟩
  clock _ _ _ _ := lockKept_of_same rfl rfl id
  stage _ _ := lockKept_of_same rfl rfl id
  unlock _ _ := lockKept_of_same rfl rfl id
  result _ _ := lockKept_of_same rfl rfl id
  pending _ _ := lockKept_of_same rfl rfl id
  program _ _ := lockKept_of_same rfl rfl id

/-! Where `UART_CONFIGURE` can run (D29). -/

theorem layoutWf_gates {l : Layout} (h : layoutWf l = true) :
    l.gatePort.length = l.gpioBase.length ∧ l.gateChan.length = l.uartBase.length ∧
      fieldsDisjoint l.gateChan = true := by
  simp only [layoutWf, Bool.and_eq_true, beq_iff_eq] at h
  tauto

theorem fieldsApart_of_disjoint {fs : List Field} {i j : Nat} {f g : Field} (h : fieldsDisjoint fs = true)
    (hf : fs[i]? = some f) (hg : fs[j]? = some g) (hne : i ≠ j) : fieldsApart f g = true := by
  induction fs generalizing i j with
  | nil => cases hf
  | cons x fs ih =>
    rw [fieldsDisjoint, Bool.and_eq_true, List.all_eq_true] at h
    obtain ⟨hfirst, hrest⟩ := h
    cases i with
    | zero =>
      cases j with
      | zero => exact absurd rfl hne
      | succ j =>
        cases hf
        exact hfirst g (List.mem_of_getElem? hg)
    | succ i =>
      cases j with
      | zero =>
        cases hg
        exact fieldsApart_symm (hfirst f (List.mem_of_getElem? hf))
      | succ j => exact ih hrest hf hg (fun h => hne (congrArg _ h))

namespace UartOp

variable {o : UartOp} {s t : State} {pt : Port} {ch : Channel} {fp fc : Field}

theorem site_exists (hi : s.Inv) (hp : o.port < nPorts s.config) (hn : o.channel < nChannels s.config) :
    ∃ pt ch fp fc, o.Site s pt ch fp fc := by
  obtain ⟨hports, hchannels, -⟩ := layoutWf_gates (configWf_layout hi.config)
  exact ⟨_, _, _, _, hi.config, List.getElem?_eq_getElem (by rwa [hi.ports]),
    List.getElem?_eq_getElem (by rwa [hi.channels]), List.getElem?_eq_getElem (by rwa [hports]),
    List.getElem?_eq_getElem (by rwa [hchannels])⟩

/-- What `UART_CONFIGURE` with the FIFO on leaves for the service: the channel up, the clock and every other channel as
they were, and nothing given to any channel to send. -/
structure ServiceConfigured (o : UartOp) (s t : State) : Prop where
  run : ∀ rest, runMicros (o.steps s.config ++ rest) s = runMicros rest t
  config : t.config = s.config
  up : ChannelUp t o.channel o.baudInt o.baudFrac o.fifo
  clock : ClockUp s → ClockUp t
  others : ∀ {c bi bf fifo}, c ≠ o.channel → ChannelUp s c bi bf fifo → ChannelUp t c bi bf fifo
  sent : ∀ c, sent t c = sent s c

/-- The gates of the other channels stay as they are (R30). -/
theorem Site.chanClocked_other (h : o.Site s pt ch fp fc) {x : ChanRegs} (hsoft : t.soft = o.view s.soft pt fp fc x)
    {c : Nat} (hne : c ≠ o.channel) : chanClocked t c = chanClocked s c := by
  have hl := configWf_layout h.wf
  have hconfig : t.config = s.config := congrArg SoftView.config hsoft
  have hgate : t.gateUart = clearThenSet s.gateUart (fieldBit fc) 0#32 := congrArg SoftView.gateUart hsoft
  cases hf : s.config.layout.gateChan[c]? with
  | none => simp [chanClocked, hconfig, hf]
  | some f =>
    obtain ⟨-, -, hdisjoint⟩ := layoutWf_gates hl
    obtain ⟨hfc, -⟩ := gateChan_field hl h.chanGate
    obtain ⟨hok, -⟩ := gateChan_field hl hf
    obtain ⟨hle, -⟩ := fieldOk_width hok
    rw [chanClocked_eq (by rw [hconfig]; exact hf), chanClocked_eq hf, hgate]
    exact fieldFlag_of_outside hle (fieldsApart_of_disjoint hdisjoint h.chanGate hf hne.symm)
      fun j hj => setBit_outside hfc _ hj

theorem Site.serviceConfigured (h : o.Site s pt ch fp fc) (hi : s.Inv) (hfifo : o.fifo = true) :
    ∃ t, ServiceConfigured o s t := by
  have hl := configWf_layout h.wf
  obtain ⟨ch', -, hcompletes, -⟩ := h.ends
  obtain ⟨t, tr, hran⟩ := hcompletes (not_lowersBelow_lcrhWord h.wf (.inl hfifo))
  have hsoft := hran.moved.soft
  have hconfig := hran.moved.config
  obtain ⟨-, hclocked, -, hregs⟩ := h.of_view hsoft
  have hacc := accesses_of_ran hran
  refine ⟨t, hran.run, hconfig, channelUp_of_regs hl hconfig hclocked hregs, fun hclock => ?_, fun hne hup => ?_,
    hran.moved.sent⟩
  · obtain ⟨-, hforward⟩ := runMicros_keeps hi.core (Ordered.of_plain (uartConfigureSteps_plain ..) _) hran.ends
    have hris : t.risPllLock = true := hforward.sticky hclock.risPllLock
    obtain ⟨-, tr', htrace, hkept⟩ := lockKept_stepRel.micros hran.ends
    obtain rfl : tr = tr' := List.append_cancel_left (hran.moved.trace.symm.trans htrace)
    have hlocked : t.pllLocked = true :=
      hkept (h.noWriteTo_clock (.inl rfl) hacc) (h.noWriteTo_clock (.inr rfl) hacc) hclock.pllLocked
    have hclockRegs : clockRegs t.soft = clockRegs s.soft := by rw [hsoft]; rfl
    exact (hclock.toClockProgrammed.of_regs hclockRegs hris).clockUp hlocked
  · refine hup.of_regs hconfig (h.chanClocked_other hsoft hne) ?_
    rw [hsoft]
    exact List.getElem?_set_ne hne.symm

theorem serviceConfigured (hi : s.Inv) (hp : o.port < nPorts s.config) (hn : o.channel < nChannels s.config)
    (hfifo : o.fifo = true) : ∃ t, ServiceConfigured o s t := by
  obtain ⟨pt, ch, fp, fc, h⟩ := site_exists hi hp hn
  exact h.serviceConfigured hi hfifo

end UartOp

/-! The two steps (R206). -/

/-- `UART_CONFIGURE` of channel A in the service. -/
def configureA (c : Config) : UartOp := ⟨c.chA, c.portA, c.pinsA, c.fcodeA, baudIntWanted, baudFracWanted, true⟩

/-- `UART_CONFIGURE` of channel B in the service. -/
def configureB (c : Config) : UartOp := ⟨c.chB, c.portB, c.pinsB, c.fcodeB, baudIntWanted, baudFracWanted, true⟩

/-- What follows channel A. -/
def afterChannelA (c : Config) : List Micro :=
  (configureB c).steps c ++ .led c.colorConfigured :: .stage .channelsReady :: .yield :: greetingSteps c

theorem channelsSteps_eq (c : Config) :
    channelsSteps c ++ greetingSteps c = (configureA c).steps c ++ .yield :: afterChannelA c := by
  simp [channelsSteps, afterChannelA, configureA, configureB, UartOp.steps, wordLengthWanted]

/-- Settles O52: each step by `UartOp.serviceConfigured`. -/
theorem serviceConfiguresBothChannels : Obligations.ServiceConfiguresBothChannels := by
  intro s hi hb hclock hpending
  obtain ⟨hchA, hchB, hne, hportA, hportB⟩ : s.config.chA < nChannels s.config ∧ s.config.chB < nChannels s.config ∧
      s.config.chA ≠ s.config.chB ∧ s.config.portA < nPorts s.config ∧ s.config.portB < nPorts s.config := by
    simp only [bindingsOk, Bool.and_eq_true, decide_eq_true_eq, bne_iff_ne] at hb
    tauto
  obtain ⟨u, hA⟩ := UartOp.serviceConfigured (o := configureA s.config) hi hportA hchA rfl
  let u' := setPending u (afterChannelA s.config)
  have hconfig : u'.config = s.config := hA.config
  have hstepA : step s = .next u' := by
    rw [step_pending (by rw [hpending, channelsSteps_eq]; simp), hpending, channelsSteps_eq, hA.run]
    rfl
  have hiA := everyStepKeepsTheInvariant s u' hi hstepA
  have hclockA : ClockUp u' := { hA.clock hclock with }
  have hupA : ChannelUp u' s.config.chA 27 8 true := { hA.up with }
  obtain ⟨v, hB⟩ := UartOp.serviceConfigured (o := configureB s.config) (s := u') hiA (by rw [hconfig]; exact hportB)
    (by rw [hconfig]; exact hchB) rfl
  have hstepB : step u' = .next (stageReached v.config.ledPulseSpins .channelsReady (greetingSteps s.config) v) := by
    have hrun := hB.run (.led s.config.colorConfigured :: .stage .channelsReady :: .yield :: greetingSteps s.config)
    rw [hconfig] at hrun
    rw [step_pending (s := u') (by simp [u', afterChannelA])]
    exact hrun.trans (runMicros_reachStage ..)
  refine ⟨_, runsTo_succ.2 ⟨u', hstepA, runsTo_succ.2 ⟨_, hstepB, rfl⟩⟩, (hB.clock hclockA).stageReached ..,
    (hB.others hne hupA).stageReached .., hB.up.stageReached .., rfl, rfl, fun c => ?_⟩
  rw [stageReached_sent, hB.sent]
  exact hA.sent c

end Sys2Proof.Machine
end

section
/-! SUPPORT. The registers change by bus writes alone (45_hardware_agents.md R231; 20_memory.md R96): the relation between
two states that every access, every idle step and every change of the sequencer's own fields respects. -/

namespace Sys2Proof.Machine

/-- Between `s` and `t` the trace grew, and a register, or a channel's latched divisors, changed only if a write of the
register, or of the channel's `LCRH`, joined the trace. -/
def ChangedByWrites (s t : State) : Prop :=
  t.config = s.config ∧ ∃ new, t.trace = s.trace ++ new ∧
    (∀ r, noWriteTo (addrOf s.config.layout r) new = true → softWord t.soft r = softWord s.soft r) ∧
    (∀ c, noWriteTo (addrOf s.config.layout (.uart c .lcrh)) new = true → softLatch t.soft c = softLatch s.soft c)

/-- A change that leaves the trace and every register alone. -/
theorem changedByWrites_of_same {s t : State} (hconfig : t.config = s.config) (htrace : t.trace = s.trace)
    (hword : ∀ r, softWord t.soft r = softWord s.soft r) (hlatch : ∀ c, softLatch t.soft c = softLatch s.soft c) :
    ChangedByWrites s t :=
  ⟨hconfig, [], by rw [htrace, List.append_nil], fun r _ => hword r, fun c _ => hlatch c⟩

theorem ChangedByWrites.trans {s t u : State} (h1 : ChangedByWrites s t) (h2 : ChangedByWrites t u) :
    ChangedByWrites s u := by
  obtain ⟨hconfig, tr, htrace, hword, hlatch⟩ := h1
  obtain ⟨hconfig', tr', htrace', hword', hlatch'⟩ := h2
  rw [hconfig] at hword' hlatch'
  refine ⟨hconfig'.trans hconfig, tr ++ tr', by rw [htrace', htrace, List.append_assoc], fun r h => ?_, fun c h => ?_⟩
  all_goals rw [noWriteTo_append, Bool.and_eq_true] at h
  · exact (hword' r h.2).trans (hword r h.1)
  · exact (hlatch' c h.2).trans (hlatch c h.1)

theorem changedByWrites_read {a : Word} {s t : State} {v : ReadValue} (h : busRead a s = .ok v t) :
    ChangedByWrites s t := by
  have hsoft := busRead_soft h
  exact ⟨congrArg SoftView.config hsoft, _, busRead_trace h, fun r _ => by rw [hsoft], fun c _ => by rw [hsoft]⟩

/-- The word of a write goes to the register that answers at its address (R80, R85). -/
theorem busWrite_soft {a v : Word} {s t : State} (h : busWrite a v s = .ok () t) :
    ∃ r, addrOf s.config.layout r = a ∧ t.soft = softWrite s.soft r v := by
  obtain ⟨r, u, hlocate, -, -, hwrite, rfl⟩ := busWrite_ok h
  exact ⟨r, (locate_mem hlocate).2, by rw [soft_logBus, writeReg_soft hwrite, tick_soft]⟩

theorem noWriteTo_writeTrace {a b v : Word} : noWriteTo a (writeTrace b v) = true ↔ b ≠ a := by
  simp [noWriteTo, writeTrace]

/-- A write changes the register at its address only: every register with another address is another register. -/
theorem changedByWrites_write {a v : Word} {s t : State} (h : busWrite a v s = .ok () t) : ChangedByWrites s t := by
  obtain ⟨r, rfl, hsoft⟩ := busWrite_soft h
  refine ⟨elementary_config.busWrite h, _, busWrite_trace h, fun r' hr' => ?_, fun c hc => ?_⟩
  · have hne : r' ≠ r := by
      rintro rfl
      exact noWriteTo_writeTrace.1 hr' rfl
    rw [hsoft, softWord_other _ _ hne]
  · have hne : r ≠ .uart c .lcrh := by
      rintro rfl
      exact noWriteTo_writeTrace.1 hc rfl
    rw [hsoft, softLatch_other _ _ _ hne]

/-- The sequencer's own fields are no registers. -/
theorem softWord_sequencer (v : SoftView) (k : Nat) (st : ClkStage) (sv : SvcStage) (ws : List Word) (r : Reg) :
    softWord { v with clkStep := k, clkStage := st, svcStage := sv, program := ws } r = softWord v r := by
  cases r <;> rfl

/-- The record of an unlock is no register (R43, log 14). -/
theorem softWord_noteUnlock (s : State) (p : Nat) (r : Reg) :
    softWord (noteUnlock s p).soft r = softWord s.soft r := by
  cases r with
  | gpio q g =>
    simp only [softWord, soft_ports, noteUnlock_ports, List.getElem?_modify]
    cases s.ports[q]? with
    | none => rfl
    | some pt => by_cases h : p = q <;> cases g <;> simp [h, readPort]
  | _ => rfl

theorem changedByWrites_stepRel : StepRel ChangedByWrites where
  refl _ := changedByWrites_of_same rfl rfl (fun _ => rfl) (fun _ => rfl)
  trans := ChangedByWrites.trans
  idle n s := changedByWrites_of_same (idle_config n s) (idle_trace n s) (fun _ => by rw [idle_soft])
    (fun _ => by rw [idle_soft])
  read := changedByWrites_read
  write := changedByWrites_write
  clock _ _ s _ := changedByWrites_of_same rfl rfl (softWord_sequencer s.soft _ _ _ _) (fun _ => rfl)
  stage _ s := changedByWrites_of_same rfl rfl (softWord_sequencer s.soft _ _ _ _) (fun _ => rfl)
  unlock p s := changedByWrites_of_same rfl rfl (softWord_noteUnlock s p) (fun _ => rfl)
  result _ _ := changedByWrites_of_same rfl rfl (fun _ => rfl) (fun _ => rfl)
  pending _ _ := changedByWrites_of_same rfl rfl (fun _ => rfl) (fun _ => rfl)
  program _ s := changedByWrites_of_same rfl rfl (softWord_sequencer s.soft _ _ _ _) (fun _ => rfl)

/-- Settles O9: a step is made of changes that `ChangedByWrites` allows. -/
theorem registersChangeOnlyByBusWrites : Obligations.RegistersChangeOnlyByBusWrites := by
  intro s t h
  obtain ⟨-, new, htrace, hword, hlatch⟩ := changedByWrites_stepRel.step h
  refine ⟨new, htrace, fun r _ hr => ?_, fun c _ hc => ?_⟩
  · rw [plainWord_eq, plainWord_eq]
    exact hword r hr
  · rw [latch_eq, latch_eq]
    exact hlatch c hc

end Sys2Proof.Machine
end

section
/-! SUPPORT. The autonomous agents one by one (45_hardware_agents.md R220, R222, R223, R225, R226, R228): when each is
enabled, and that the step of a channel's agent is one function applied to that channel, which looks at no channel. -/

namespace Sys2Proof.Machine

/-! Enabling conditions. -/

theorem pllEnabled_iff (s : State) : pllEnabled s = true ↔ effPwrdn s = false ∧ s.pllLocked = false := by
  simp [pllEnabled]

theorem transmitEnabled_iff (s : State) (c : Nat) (ch : Channel) :
    transmitEnabled s c ch = true ↔
      chanClocked s c = true ∧ fieldFlag s.config.layout.en ch.ctl = true ∧ ch.txq ≠ [] := by
  simp [transmitEnabled, enabled, and_assoc]

theorem lineAccepts_iff (s : State) (c : Nat) (ch : Channel) :
    lineAccepts s c ch = true ↔
      chanClocked s c = true ∧ fieldFlag s.config.layout.en ch.ctl = true ∧ pinRouted s c = true ∧
        channelFormat s ch ≠ none ∧ ch.rxq.length < fifoCap s.config ch := by
  simp [lineAccepts, enabled, and_assoc, Option.isSome_iff_ne_none]

/-! The step of a channel's agent, as a function on the channel. -/

/-- What the transmitter of channel `c` makes of the channel `ch` (R223). -/
def afterTransmit (s : State) (c : Nat) (ch : Channel) : Channel :=
  match ch.txq with
  | b :: q =>
    if transmitEnabled s c ch then
      { ch with
        txq := q
        wireTx := ch.wireTx ++ [{ byte := b, fmt := channelFormat s ch, routed := pinRouted s c }] }
    else ch
  | [] => ch

/-- What a byte on the line of channel `c` makes of the channel `ch` (R225, R226). -/
def afterLine (s : State) (c : Nat) (b : Byte) (ch : Channel) : Channel :=
  if lineAccepts s c ch then { ch with rxq := ch.rxq ++ [b] } else ch

theorem afterTransmit_enabled {s : State} {c : Nat} {ch : Channel} {b : Byte} {q : List Byte} (hq : ch.txq = b :: q)
    (h : transmitEnabled s c ch = true) :
    afterTransmit s c ch =
      { ch with
        txq := q
        wireTx := ch.wireTx ++ [{ byte := b, fmt := channelFormat s ch, routed := pinRouted s c }] } := by
  simp [afterTransmit, hq, h]

theorem afterTransmit_disabled {s : State} {c : Nat} {ch : Channel} (h : ¬ transmitEnabled s c ch = true) :
    afterTransmit s c ch = ch := by
  unfold afterTransmit
  split
  · exact if_neg h
  · rfl

theorem afterLine_accepts {s : State} {c : Nat} {ch : Channel} (b : Byte) (h : lineAccepts s c ch = true) :
    afterLine s c b ch = { ch with rxq := ch.rxq ++ [b] } := if_pos h

theorem afterLine_loses {s : State} {c : Nat} {ch : Channel} (b : Byte) (h : ¬ lineAccepts s c ch = true) :
    afterLine s c b ch = ch := if_neg h

theorem modify_of_getElem? {α : Type} {l : List α} {i : Nat} {x : α} (f : α → α) (h : l[i]? = some x) :
    l.modify i f = l.set i (f x) := by
  simp [List.modify_eq_set_getElem?, h]

theorem transmitStep_of_channel {s : State} {c : Nat} {ch : Channel} (hch : s.channels[c]? = some ch) :
    transmitStep s c = setChannel s c (afterTransmit s c ch) := by
  have hsame : setChannel s c ch = s := by rw [setChannel, set_same hch]
  simp only [transmitStep, hch]
  cases hq : ch.txq with
  | nil => rw [afterTransmit_disabled (by simp [transmitEnabled_iff, hq]), hsame]
  | cons b q =>
    by_cases h : transmitEnabled s c ch = true
    · simp only [afterTransmit_enabled hq h, h, if_true]
    · simp only [afterTransmit_disabled h, h, hsame]
      rfl

theorem lineStep_of_channel {s : State} {c : Nat} {ch : Channel} (b : Byte) (hch : s.channels[c]? = some ch) :
    lineStep s c b = setChannel s c (afterLine s c b ch) := by
  simp only [lineStep, hch]
  by_cases h : lineAccepts s c ch = true
  · rw [if_pos h, afterLine_accepts b h]
  · rw [if_neg h, afterLine_loses b h, setChannel, set_same hch]

/-! The three agents (R220, R223, R225, R226). -/

/-- Settles O47, by the enabling condition of the PLL's step. -/
theorem pllLocksOnlyWhilePowered : Obligations.PllLocksOnlyWhilePowered := fun s =>
  ⟨fun h => if_pos ((pllEnabled_iff s).2 h), fun h => if_neg (mt (pllEnabled_iff s).1 h)⟩

/-- Settles O48: the transmit step is `afterTransmit` on its channel. -/
theorem transmitterSendsTheOldestByte : Obligations.TransmitterSendsTheOldestByte := by
  intro s c ch hch
  have hstep : agentStep s (.transmit c) = setChannel s c (afterTransmit s c ch) := transmitStep_of_channel hch
  constructor
  · intro b q hclocked hen hq
    rw [hstep, afterTransmit_enabled hq ((transmitEnabled_iff s c ch).2 ⟨hclocked, hen, by simp [hq]⟩)]
    rfl
  · intro h
    rw [hstep, afterTransmit_disabled (mt (transmitEnabled_iff s c ch).1 h), setChannel, set_same hch]

/-- Settles O49: the line step is `afterLine` on its channel. -/
theorem lineByteIsQueuedOrLost : Obligations.LineByteIsQueuedOrLost := by
  intro s c b ch hch
  have hstep : agentStep s (.line c b) = setChannel s c (afterLine s c b ch) := lineStep_of_channel b hch
  constructor
  · intro hclocked hen hrouted hformat hroom
    rw [hstep, afterLine_accepts b ((lineAccepts_iff s c ch).2 ⟨hclocked, hen, hrouted, hformat, hroom⟩)]
    rfl
  · intro h
    rw [hstep, afterLine_loses b (mt (lineAccepts_iff s c ch).1 h), setChannel, set_same hch]

/-! Two channels (R228). -/

/-- The state with the channels replaced. No enabling condition of an agent of a channel, and neither `afterTransmit` nor
`afterLine`, looks at them. -/
def withChannels (s : State) (l : List Channel) : State := { s with channels := l }

theorem withChannels_enabling (s : State) (l : List Channel) (d : Nat) (ch : Channel) :
    transmitEnabled (withChannels s l) d ch = transmitEnabled s d ch ∧
      lineAccepts (withChannels s l) d ch = lineAccepts s d ch := ⟨rfl, rfl⟩

/-- An event of channel `c` applies `f` to that channel, whatever the channels are. -/
def ActsOn (s : State) (c : Nat) (e : AgentEvent) (f : Channel → Channel) : Prop :=
  ∀ l, agentStep (withChannels s l) e = withChannels s (l.modify c f)

theorem transmit_actsOn (s : State) (c : Nat) : ActsOn s c (.transmit c) (afterTransmit s c) := by
  intro l
  show transmitStep (withChannels s l) c = _
  cases hch : l[c]? with
  | none => simp [transmitStep, withChannels, hch, List.modify_eq_self (List.getElem?_eq_none_iff.1 hch)]
  | some ch =>
    rw [transmitStep_of_channel (s := withChannels s l) hch, modify_of_getElem? _ hch]
    rfl

theorem line_actsOn (s : State) (c : Nat) (b : Byte) : ActsOn s c (.line c b) (afterLine s c b) := by
  intro l
  show lineStep (withChannels s l) c b = _
  cases hch : l[c]? with
  | none => simp [lineStep, withChannels, hch, List.modify_eq_self (List.getElem?_eq_none_iff.1 hch)]
  | some ch =>
    rw [lineStep_of_channel (s := withChannels s l) b hch, modify_of_getElem? _ hch]
    rfl

theorem channelEvent_acts (s : State) {c : Nat} {e : AgentEvent} (h : e = .transmit c ∨ ∃ b, e = .line c b) :
    ∃ f, ActsOn s c e f := by
  obtain rfl | ⟨b, rfl⟩ := h
  · exact ⟨_, transmit_actsOn s c⟩
  · exact ⟨_, line_actsOn s c b⟩

/-- Settles O50: each event applies a function to its own channel, and two such changes commute. -/
theorem channelsAreIndependent : Obligations.ChannelsAreIndependent := by
  intro s c d e e' hne he he'
  obtain ⟨f, hf⟩ := channelEvent_acts s he
  obtain ⟨g, hg⟩ := channelEvent_acts s he'
  have hstep : agentStep s e = withChannels s (s.channels.modify c f) := hf s.channels
  have hstep' : agentStep s e' = withChannels s (s.channels.modify d g) := hg s.channels
  refine ⟨?_, fun ch => ?_, ?_⟩
  · rw [hstep]
    exact List.getElem?_modify_ne f s.channels hne
  · rw [hstep]
    exact withChannels_enabling s _ d ch
  · rw [hstep, hstep', hf, hg, List.modify_modify_ne f g s.channels hne]

/-! The source's format (R212, R222). -/

/-- Settles O46, by `channelFormat_of_up`. -/
theorem configuredChannelSendsInTheSourceFormat : Obligations.ConfiguredChannelSendsInTheSourceFormat :=
  fun _ _ _ _ => channelFormat_of_up

end Sys2Proof.Machine
end

section
/-! SUPPORT. The two busy-waits that no agent ends (60_exceptions.md R244; 41_clock_controller.md R160; 43_uart_channel.md
R190): with no agent scheduled a wait that is blocked stays blocked, so it goes on for any number of steps. -/

namespace Sys2Proof.Machine

/-- From `s` to `t` nothing changed but the trace, the answer, the count of draws and what is pending. -/
def OnlyLogged (s t : State) : Prop :=
  ∃ (tr : List BusEvent) (r : Option Word) (n : Nat) (pe : List Micro), t = withIssuer s tr r n s.program pe

namespace OnlyLogged

variable {s t u : State}

theorem refl (s : State) : OnlyLogged s s := ⟨_, _, _, _, (withIssuer_self s).symm⟩

theorem trans (h1 : OnlyLogged s t) (h2 : OnlyLogged t u) : OnlyLogged s u := by
  obtain ⟨_, _, _, _, rfl⟩ := h1
  obtain ⟨_, _, _, _, rfl⟩ := h2
  exact ⟨_, _, _, _, rfl⟩

theorem clearResult (s : State) : OnlyLogged s (clearResult s) := ⟨_, _, _, _, rfl⟩

theorem setPending (s : State) (ms : List Micro) : OnlyLogged s (setPending s ms) := ⟨_, _, _, _, rfl⟩

theorem soft (h : OnlyLogged s t) : t.soft = s.soft := by
  obtain ⟨_, _, _, _, rfl⟩ := h
  rfl

theorem hidden (h : OnlyLogged s t) : t.hidden = s.hidden := by
  obtain ⟨_, _, _, _, rfl⟩ := h
  rfl

theorem schedule (h : OnlyLogged s t) : t.schedule = s.schedule := by
  obtain ⟨_, _, _, _, rfl⟩ := h
  rfl

/-- Reads of `CLK_RIS` before which no agent steps (R28). -/
theorem of_risPolled {reads : List BusEvent} {n : Nat} (h : RisPolled s t reads n) (hq : s.quiet) : OnlyLogged s t :=
  ⟨_, _, _, _, by rw [h.state, idle_quiet hq]⟩

/-- A read of `FR` before which no agent steps (R49). -/
theorem afterFrRead (hq : s.quiet) (c : Nat) (ch : Channel) : OnlyLogged s (afterFrRead s c ch) :=
  ⟨_, _, _, _, by rw [Machine.afterFrRead, tick_quiet hq]; rfl⟩

end OnlyLogged

/-- What each of the two waits needs to find to go on, with no agent scheduled (R160, R190). -/
inductive Blocked : Micro → State → Prop
  | clkWait {s : State} (wf : configWf s.config = true) (quiet : s.quiet) (clkStep : s.clkStep = 8)
      (unlocked : s.risPllLock = false) : Blocked .clkWait s
  | txWait {s : State} {c : Nat} {ch : Channel} (wf : configWf s.config = true) (quiet : s.quiet)
      (inRange : c < nChannels s.config) (clocked : chanClocked s c = true) (channel : s.channels[c]? = some ch)
      (full : txFull s.config ch = true) : Blocked (.txWait c) s

/-- With a full FIFO and no agent scheduled the wait makes one read, and has not ended (R190). -/
theorem runMicro_txWait_full {s : State} {c : Nat} {ch : Channel} (hl : layoutWf s.config.layout = true) (hq : s.quiet)
    (hn : c < nChannels s.config) (hc : chanClocked s c = true) (hch : s.channels[c]? = some ch)
    (hfull : txFull s.config ch = true) : runMicro (.txWait c) s = .ok .wait (afterFrRead s c ch) := by
  have hread : busRead (chanAddr s.config c .fr) s = .ok (frValue (tick s) ch) (afterFrRead s c ch) :=
    busRead_fr hl hn hc (by rwa [tick_quiet hq])
  have honce : s.schedule.length + 1 = 1 := by rw [hq]; rfl
  refine runMicro_txWait (ended := false) ?_
  rw [poll, honce, pollFor, hread, ok_bind, (frValue_tick_flags hl ch).1, hfull]
  rfl

namespace Blocked

variable {m : Micro} {s t : State}

/-- What a wait writes to the trace does not unblock it. -/
theorem of_onlyLogged (h : Blocked m s) (ht : OnlyLogged s t) : Blocked m t := by
  obtain ⟨_, _, _, _, rfl⟩ := ht
  cases h with
  | clkWait hwf hq hk hris => exact .clkWait hwf hq hk hris
  | txWait hwf hq hn hc hch hfull => exact .txWait hwf hq hn hc hch hfull

/-- A blocked wait has not ended after its reads, and they change nothing (R244). -/
theorem waits (h : Blocked m s) : ∃ t, runMicro m s = .ok .wait t ∧ OnlyLogged s t := by
  cases h with
  | clkWait hwf hq hk hris =>
    obtain ⟨t, reads, n, hpolled, hcase⟩ := clkWait_cases (configWf_layout hwf) hk
    have hlogged := OnlyLogged.of_risPolled hpolled hq
    have hstill : t.risPllLock = false := (congrArg HiddenView.risPllLock hlogged.hidden).trans hris
    obtain ⟨hseen, -⟩ | ⟨-, -, hwait⟩ := hcase
    · cases hstill.symm.trans hseen
    · exact ⟨t, hwait, hlogged⟩
  | txWait hwf hq hn hc hch hfull =>
    exact ⟨_, runMicro_txWait_full (configWf_layout hwf) hq hn hc hch hfull, .afterFrRead hq _ _⟩

/-- It is still pending, and so is what comes after it (R244). -/
theorem runMicros (h : Blocked m s) (rest : List Micro) :
    ∃ t, runMicros (m :: rest) s = .next t ∧ t.pending = m :: rest ∧ OnlyLogged s t := by
  obtain ⟨t, hwait, hlogged⟩ := h.waits
  exact ⟨_, runMicros_wait hwait, rfl, hlogged.trans (.setPending t _)⟩

/-- A command that begins with a blocked wait. -/
theorem command (h : Blocked m s) (rest : List Micro) :
    ∃ t, runCommand (m :: rest) s = .next t ∧ t.pending = m :: rest ∧ t.soft = s.soft ∧ t.hidden = s.hidden := by
  have hcleared := OnlyLogged.clearResult s
  obtain ⟨t, hrun, hpending, hlogged⟩ := (h.of_onlyLogged hcleared).runMicros rest
  have hall := hcleared.trans hlogged
  exact ⟨t, hrun, hpending, hall.soft, hall.hidden⟩

/-- Any number of steps later a blocked wait that is pending still is (R244). -/
theorem run (h : Blocked m s) {rest : List Micro} (hp : s.pending = m :: rest) (n : Nat) :
    ∃ t, runsTo n s t ∧ t.pending = m :: rest ∧ OnlyLogged s t := by
  induction n generalizing s with
  | zero => exact ⟨s, rfl, hp, .refl s⟩
  | succ n ih =>
    obtain ⟨u, hrun, hpu, hfirst⟩ := h.runMicros rest
    have hstep : step s = .next u := by rw [step_pending (by rw [hp]; exact nofun), hp, hrun]
    obtain ⟨t, hrest, hpt, hlater⟩ := ih (h.of_onlyLogged hfirst) hpu
    exact ⟨t, runsTo_succ.2 ⟨u, hstep, hrest⟩, hpt, hfirst.trans hlater⟩

theorem quiet (h : Blocked m s) : s.quiet := by
  cases h with
  | clkWait _ hq | txWait _ hq => exact hq

/-- The run of `run`, seen through the two views of the state. -/
theorem goesOn (h : Blocked m s) (rest : List Micro) (n : Nat) (hp : s.pending = m :: rest) :
    ∃ t, runsTo n s t ∧ t.pending = s.pending ∧ t.soft = s.soft ∧ t.hidden = s.hidden ∧ t.schedule = [] := by
  obtain ⟨t, hrun, hpt, hlogged⟩ := h.run hp n
  exact ⟨t, hrun, hpt.trans hp.symm, hlogged.soft, hlogged.hidden, hlogged.schedule.trans h.quiet⟩

end Blocked

/-- Settles O28: both waits are `Blocked`, which their reads keep. -/
theorem busyWaitsNeverGiveUp : Obligations.BusyWaitsNeverGiveUp := by
  intro s hwf hq
  refine ⟨fun hk hris => ?_, fun c ch hn hc hch hfull => ?_⟩
  · have hblocked : Blocked .clkWait s := .clkWait hwf hq hk hris
    exact ⟨hblocked.command [], hblocked.goesOn⟩
  · have hblocked : Blocked (.txWait c) s := .txWait hwf hq hn hc hch hfull
    refine ⟨fun b => ?_, hblocked.goesOn⟩
    obtain ⟨t, hrun, hsame⟩ := hblocked.command [.write (chanAddr s.config c .dr) (byteWord b)]
    exact ⟨t, (runCommand_onChannel _ hn).trans hrun, hsame⟩

end Sys2Proof.Machine
end

section
/-! SUPPORT. Command words that are written out (95_test_vectors.md): each is the encoding of the operation that it is
listed for. -/

namespace Sys2Proof

/-- Words that are an operation's encoding decode to it (R112). -/
theorem decode_of_eq_encode {ws : List Word} {i : Instr} (hwords : ws = encode i) (hwf : i.wellFormed = true) :
    decode ws = .ok (i, []) := by
  have hdecode := decode_encode [] hwf
  rwa [List.append_nil, ← hwords] at hdecode

/-- Settles O3: each list of words is the encoding of its operation. -/
theorem listedCommandWordsDecode : Obligations.ListedCommandWordsDecode :=
  ⟨decode_of_eq_encode (by decide) rfl, decode_of_eq_encode (by decide) rfl, decode_of_eq_encode (by decide) rfl,
    decode_of_eq_encode (by decide) rfl, decode_of_eq_encode (by decide) rfl, decode_of_eq_encode (by decide) rfl⟩

end Sys2Proof
end

section
/-! SUPPORT. The agents right after reset (70_reset_and_hazards.md R261): the PLL is powered down and every gate is
closed, so none of them is enabled. -/

namespace Sys2Proof.Machine

theorem portClocked_of_closed {s : State} (h : s.gateGpio = 0#32) (p : Nat) : portClocked s p = false := by
  unfold portClocked
  split
  · rw [h]; exact BitVec.getLsbD_zero
  · rfl

/-- With the PLL powered down and the channels' gates closed an agent step changes nothing (R220, R223, R225). -/
theorem agentStep_of_disabled {s : State} (hpower : effPwrdn s = true) (hgates : s.gateUart = 0#32) (e : AgentEvent) :
    agentStep s e = s := by
  obtain hs | ⟨henabled, -⟩ | ⟨c, ch, _, _, -, -, henabled, -⟩ | ⟨c, ch, _, -, haccepts, -⟩ := agentStep_cases s e
  · exact hs
  · rw [pllEnabled, hpower] at henabled
    cases henabled
  · rw [transmitEnabled, chanClocked_of_closed hgates] at henabled
    cases henabled
  · rw [lineAccepts, chanClocked_of_closed hgates] at haccepts
    cases haccepts

/-- The same over idle steps, for what agents write. -/
theorem idle_hidden_of_disabled {s : State} (hpower : effPwrdn s = true) (hgates : s.gateUart = 0#32) (n : Nat) :
    (idle n s).hidden = s.hidden := by
  obtain ⟨-, hlocked, hris⟩ := unpowered_agents.idle n s hpower
  obtain ⟨-, hchannels⟩ := closed_agents.idle n s hgates
  rw [State.hidden, hlocked, hris, hchannels, State.hidden]

theorem fifoCap_pos {cfg : Config} (hwf : configWf cfg = true) (ch : Channel) : 0 < fifoCap cfg ch := by
  unfold fifoCap
  split
  · exact configWf_fifoDepth hwf
  · exact Nat.one_pos

/-- An empty transmit FIFO is not full (R49, R52). -/
theorem txFull_of_empty {cfg : Config} {ch : Channel} (hwf : configWf cfg = true) (h : ch.txq = []) :
    txFull cfg ch = false := by
  rw [txFull_eq, h, decide_eq_false_iff_not]
  exact (fifoCap_pos hwf ch).ne

/-- Settles O11: after reset the PLL is off (`pllOff_of_atReset`) and both gate registers are 0. -/
theorem nothingMovesAtReset : Obligations.NothingMovesAtReset := by
  intro s hwf hr
  have hoff := pllOff_of_atReset hr
  have hpower := effPwrdn_of_unpowered hoff.regs
  obtain ⟨-, -, -, hclock, hgpio, huart, -, -, -, hchannels, -⟩ := hr
  refine ⟨agentStep_of_disabled hpower huart, fun n => ⟨idle_soft n s, idle_hidden_of_disabled hpower huart n⟩,
    clockAtReset_sysclkHz hclock, fun ch hch => ?_, fun c _ _ => chanClocked_of_closed huart c,
    fun p _ _ => portClocked_of_closed hgpio p, ?_⟩
  · obtain ⟨htxq, hrxq, -⟩ := hchannels ch hch
    exact ⟨txFull_of_empty hwf htxq, by rw [rxEmpty, hrxq, List.isEmpty_nil]⟩
  · obtain ⟨t, _, hexec, -, -, -, hissued⟩ := isPllLockedAnswersTheStatusBit s hwf
    obtain ⟨-, -, hris⟩ := unpowered_agents.tick s hpower
    exact ⟨t, hexec, by rw [hissued.result, hris, hoff.risPllLock]; rfl⟩

end Sys2Proof.Machine
end

section
/-! SUPPORT. Infinite runs (70_reset_and_hazards.md R281): what a relation that every step respects gives for a run, and
the two ways a run can go on from a wait. -/

namespace Sys2Proof.Machine

theorem State.Inv.withSchedule {s : State} (h : s.Inv) (l : List (List AgentEvent)) : { s with schedule := l }.Inv :=
  { h with }

/-- A relation that every step from a state with the invariant respects, whatever is scheduled, holds along a run. -/
structure RunRel (R : State → State → Prop) : Prop where
  refl : ∀ s, R s s
  trans : ∀ {s t u}, R s t → R t u → R s u
  schedule : ∀ s l, R s { s with schedule := l }
  step : ∀ {s t}, s.Inv → Machine.step s = .next t → R s t

theorem StepRel.run {R : State → State → Prop} (E : StepRel R) (hschedule : ∀ s l, R s { s with schedule := l }) :
    RunRel R := ⟨E.refl, E.trans, hschedule, fun _ => E.step⟩

theorem forward_run : RunRel Forward :=
  ⟨Forward.refl, Forward.trans, forward_elementary.schedule, fun hi h => (step_keeps hi h).2⟩

namespace IsRun

variable {ρ : Nat → State}

/-- The invariant holds at every state of a run that begins with it. -/
theorem inv (hρ : IsRun ρ) (hi : (ρ 0).Inv) (n : Nat) : (ρ n).Inv := by
  induction n with
  | zero => exact hi
  | succ n ih =>
    obtain ⟨l, h⟩ := hρ n
    exact (step_keeps (ih.withSchedule l) h).1

theorem rel (hρ : IsRun ρ) (hi : (ρ 0).Inv) {R : State → State → Prop} (E : RunRel R) {m n : Nat} (h : m ≤ n) :
    R (ρ m) (ρ n) := by
  induction n, h using Nat.le_induction with
  | base => exact E.refl _
  | succ n _ ih =>
    obtain ⟨l, hstep⟩ := hρ n
    exact E.trans ih (E.trans (E.schedule _ l) (E.step ((hρ.inv hi n).withSchedule l) hstep))

theorem config (hρ : IsRun ρ) (hi : (ρ 0).Inv) (n : Nat) : (ρ n).config = (ρ 0).config :=
  (hρ.rel hi forward_run (Nat.zero_le n)).config

/-- A run that is in a wait leaves it or stays in it for ever, if every step from the wait does the one or the other. -/
theorem leaves_or_stays (hρ : IsRun ρ) (hi : (ρ 0).Inv) {W Q : State → Prop}
    (hschedule : ∀ s l, W s → W { s with schedule := l })
    (hstep : ∀ s t, s.Inv → s.config = (ρ 0).config → W s → step s = .next t → Q t ∨ W t) {n : Nat} (hn : W (ρ n)) :
    (∃ m, n < m ∧ Q (ρ m)) ∨ ∀ m, n ≤ m → W (ρ m) := by
  by_cases hleaves : ∃ m, n < m ∧ Q (ρ m)
  · exact .inl hleaves
  refine .inr fun m hm => ?_
  induction m, hm using Nat.le_induction with
  | base => exact hn
  | succ m hm ih =>
    obtain ⟨l, h⟩ := hρ m
    exact (hstep _ _ ((hρ.inv hi m).withSchedule l) (hρ.config hi m) (hschedule _ l ih) h).resolve_left fun hq =>
      hleaves ⟨m + 1, Nat.lt_succ_of_le hm, hq⟩

end IsRun

/-- A step with a command under way runs what is left of it; only the answer and the rest of the program depend on
whether it had begun (R144). -/
theorem step_underWay {s : State} {i : Instr} {m : Micro} {ms : List Micro}
    (hexec : ∀ ws, exec i { s with program := ws } = runMicros (m :: ms) (clearResult { s with program := ws }))
    (h : underWay s i (m :: ms)) :
    ∃ r ws, step s = runMicros (m :: ms) { s with result := r, program := ws } := by
  obtain hpending | ⟨hpending, rest, hdecode⟩ := h
  · have hstep := step_pending (s := s) (by rw [hpending]; exact nofun)
    rw [hpending] at hstep
    exact ⟨s.result, s.program, hstep⟩
  · exact ⟨none, rest, by rw [step_decoded hpending hdecode, hexec]; rfl⟩

end Sys2Proof.Machine
end

section
/-! SUPPORT. The wait for the lock in a run (41_clock_controller.md R160, R162; 70_reset_and_hazards.md R281): under
`PLL_FAIR` the status bit does not stay clear while the PLL is powered. -/

namespace Sys2Proof.Machine

/-- A step that begins in the wait for the lock makes reads of `CLK_RIS`; then either one showed the status bit and what
comes after the wait runs, or the wait is still pending. -/
theorem runMicros_clkWait {s t : State} {rest : List Micro} (hl : layoutWf s.config.layout = true)
    (h : runMicros (.clkWait :: rest) s = .next t) :
    ∃ u reads n, RisPolled s u reads n ∧
      ((u.risPllLock = true ∧ runMicros rest (advanceClock 8 (some .pllLocked) u) = .next t) ∨
        (u.risPllLock = false ∧ t = setPending u (.clkWait :: rest))) := by
  have hk : s.clkStep = 8 := by
    by_contra hk
    have hrefused : runMicro .clkWait s = .refused .configurationOrderingViolation := if_neg hk
    cases (runMicros_refused hrefused).symm.trans h
  obtain ⟨u, reads, n, hpolled, ⟨hris, hdone⟩ | ⟨hris, -, hwait⟩⟩ := clkWait_cases hl hk
  · exact ⟨u, reads, n, hpolled, .inl ⟨hris, (runMicros_done hdone).symm.trans h⟩⟩
  · refine ⟨u, reads, n, hpolled, .inr ⟨hris, ?_⟩⟩
    cases (runMicros_wait hwait).symm.trans h
    rfl

/-- A powered PLL whose status bit stays clear stays enabled to lock, so `PLL_FAIR` rules that out (R220, R281). -/
theorem PllFair.not_clear_forever {ρ : Nat → State} (hfair : PllFair ρ) (hinv : ∀ n, (ρ n).Inv) (n : Nat) :
    ¬ ∀ m, n ≤ m → effPwrdn (ρ m) = false ∧ (ρ m).risPllLock = false := fun hclear => by
  obtain ⟨m, hm, hdisabled⟩ := hfair n
  obtain ⟨hpower, hris⟩ := hclear m hm
  have hlocked : (ρ m).pllLocked = true := by simpa [pllEnabled, hpower] using hdisabled
  cases hris.symm.trans ((hinv m).lockSeen hlocked)

/-! `CLK_WAIT_LOCK` (R160). -/

/-- `CLK_WAIT_LOCK` is pending with the PLL powered and its status bit clear. -/
structure AwaitsLock (s : State) : Prop where
  pending : s.pending = [.clkWait]
  powered : effPwrdn s = false
  clear : s.risPllLock = false

/-- A step of `CLK_WAIT_LOCK` completes it, or leaves it waiting (R160). -/
theorem clkWaitLock_step {s t : State} (hi : s.Inv) (hw : underWay s .clkWaitLock [.clkWait])
    (hp : effPwrdn s = false) (h : step s = .next t) : (t.clkStep = 9 ∧ t.pending = []) ∨ AwaitsLock t := by
  obtain ⟨r, ws, hstep⟩ := step_underWay (fun _ => rfl) hw
  obtain ⟨u, reads, n, hpolled, ⟨-, hdone⟩ | ⟨hris, rfl⟩⟩ :=
    runMicros_clkWait (s := { s with result := r, program := ws }) (configWf_layout hi.config) (hstep.symm.trans h)
  · cases hdone
    exact .inl ⟨rfl, rfl⟩
  · exact .inr ⟨rfl, (effPwrdn_of_soft hpolled.soft).trans hp, hris⟩

/-- Under `PLL_FAIR` the wait of `CLK_WAIT_LOCK` ends (R160, R281). -/
theorem clkWaitLock_ends {ρ : Nat → State} (hρ : IsRun ρ) (hi : (ρ 0).Inv) (hfair : PllFair ρ) {n : Nat}
    (hw : underWay (ρ n) .clkWaitLock [.clkWait]) (hp : effPwrdn (ρ n) = false) :
    ∃ m, n < m ∧ (ρ m).clkStep = 9 ∧ (ρ m).pending = [] := by
  obtain ⟨l, h⟩ := hρ n
  obtain hends | hwaits := clkWaitLock_step ((hρ.inv hi n).withSchedule l) hw hp h
  · exact ⟨n + 1, Nat.lt_succ_self n, hends⟩
  obtain ⟨m, hm, hends⟩ | hstays := hρ.leaves_or_stays hi (fun _ _ hs => { hs with })
    (fun s t hs _ hawaits => clkWaitLock_step hs (.inl hawaits.pending) hawaits.powered) hwaits
  · exact ⟨m, Nat.lt_of_succ_lt hm, hends⟩
  · exact absurd (fun m hm => ⟨(hstays m hm).powered, (hstays m hm).clear⟩)
      (hfair.not_clear_forever (hρ.inv hi) (n + 1))

/-! `BRING_UP_CLOCK` from reset (R150, R162). -/

/-- What the bring-up from reset has made of the clock block at its wait: all but `BYPASS` is programmed (R151 to R158),
and the PLL is locked exactly if its status bit is set. -/
structure AtWaitGate (s : State) : Prop where
  config : configWf s.config = true
  powered : PoweredRegs s.config.layout s.soft
  oscsrc : fieldGet s.config.layout.oscsrc s.clkAlt = oscsrcExternal
  sysdiv : fieldGet s.config.layout.sysdiv s.clkAlt = sysdivCode sysDivisor
  diven : fieldFlag s.config.layout.diven s.clkLegacy = true
  xtal : fieldGet s.config.layout.xtal s.clkLegacy = s.config.xtalCode16MHz
  inStep : LockInStep s

theorem ReachesWait.atWaitGate {s off on gate u : State} {h : configWf s.config = true} {reads : List BusEvent}
    {n : Nat} (r : ReachesWait h off on gate u reads n) (hr : s.AtReset) : AtWaitGate u := by
  have hf := configWf_clockFields h
  have hconfig : u.config = s.config := r.wentWait.config
  have halt := congrArg SoftView.clkAlt r.softWait
  have hlegacy := congrArg SoftView.clkLegacy r.softWait
  have hdiv := (ClkUpdate.put .alt none hf.sysdiv (v := 3) (by decide)).update
  constructor
  case config => rwa [hconfig]
  case powered => rw [hconfig]; exact r.lockFollows.1
  case inStep => exact r.lockInStep_of_atReset hr
  case oscsrc =>
    rw [hconfig, show u.clkAlt = _ from halt]
    exact ((hdiv _).get hf.oscsrc hf.apart.sysdiv_oscsrc).trans
      ((((ClkUpdate.clearFlag .alt none hf.pwrdn).update _).get hf.oscsrc hf.apart.pwrdn_oscsrc).trans
        ((ClkUpdate.clear .alt none hf.oscsrc).update _).good)
  case sysdiv =>
    rw [hconfig, show u.clkAlt = _ from halt]
    exact (hdiv _).good
  case diven =>
    rw [hconfig, show u.clkLegacy = _ from hlegacy]
    exact ((ClkUpdate.setFlag .legacy none hf.diven).update _).good
  case xtal =>
    rw [hconfig, show u.clkLegacy = _ from hlegacy]
    exact (((ClkUpdate.setFlag .legacy none hf.diven).update _).get hf.xtal hf.apart.diven_xtal).trans
      ((ClkUpdate.put .legacy none hf.xtal (configWf_xtalCode h)).update _).good

/-- More reads of `CLK_RIS`. -/
theorem AtWaitGate.polled {s t : State} {reads : List BusEvent} {n : Nat} (h : AtWaitGate s)
    (hp : RisPolled s t reads n) : AtWaitGate t := by
  have hsoft := hp.soft
  have hconfig : t.config = s.config := congrArg SoftView.config hsoft
  have halt : t.clkAlt = s.clkAlt := congrArg SoftView.clkAlt hsoft
  have hlegacy : t.clkLegacy = s.clkLegacy := congrArg SoftView.clkLegacy hsoft
  have hlock := hp.lockFollows (effPwrdn_of_powered h.powered)
  constructor
  case inStep => exact hlock.inStep h.inStep
  case powered => rw [hsoft, hconfig]; exact h.powered
  all_goals simp only [hconfig, halt, hlegacy, h.config, h.oscsrc, h.sysdiv, h.diven, h.xtal]

/-- Once the status bit was seen `CLK_BYPASS_OFF` completes the bring-up, with the clock up (R161, R162). -/
theorem AtWaitGate.bypassOff {u t : State} (h : AtWaitGate u) (hris : u.risPllLock = true)
    (hrun : runMicros [bypassOffStep u.config] (advanceClock 8 (some .pllLocked) u) = .next t) :
    ClockUp t ∧ t.pending = [] := by
  have hf := configWf_clockFields h.config
  obtain ⟨v, hv⟩ := clkRan_exists (bypassOffUpdate h.config) (s := advanceClock 8 (some .pllLocked) u)
    (configWf_layout h.config)
  cases (hv.run []).symm.trans hrun
  obtain ⟨-, hlock⟩ := hv.leavesPll hf (bypassOffUpdate_leavesPll h.config) h.powered
  have hconfig : v.config = u.config := hv.moved.config
  have hseen : v.risPllLock = true := hv.went.sticky hris
  obtain ⟨hlegacy, halt⟩ := (bypassOffUpdate h.config).apply_of_alt rfl (advanceClock 8 (some .pllLocked) u).soft
  rw [← hv.moved.soft] at hlegacy halt
  have hlegacy : v.clkLegacy = u.clkLegacy := hlegacy
  have hprogrammed : ClockProgrammed v := by
    constructor
    case clkStep => exact congrArg SoftView.clkStep hv.moved.soft
    case clkStage => exact congrArg SoftView.clkStage hv.moved.soft
    case risPllLock => exact hseen
    all_goals rw [hconfig]
    case altsel => exact (halt.flag hf.altsel hf.apart.bypass_altsel).trans h.powered.1
    case bypass => exact halt.good
    case oscsrc => exact (halt.get hf.oscsrc hf.apart.bypass_oscsrc).trans h.oscsrc
    case pwrdn => exact (halt.flag hf.pwrdn hf.apart.bypass_pwrdn).trans h.powered.2
    case sysdiv => exact (halt.get hf.sysdiv hf.apart.bypass_sysdiv).trans h.sysdiv
    case diven => rw [hlegacy]; exact h.diven
    case xtal => rw [hlegacy]; exact h.xtal
  exact ⟨{ hprogrammed.clockUp ((hlock.inStep h.inStep).trans hseen) with }, rfl⟩

/-- The bring-up from reset is pending at its wait, with the status bit clear. -/
structure BringUpWaits (s : State) : Prop extends AtWaitGate s where
  pending : s.pending = [.clkWait, bypassOffStep s.config]
  clear : s.risPllLock = false

theorem BringUpWaits.step {s t : State} (hw : BringUpWaits s) (h : step s = .next t) :
    (ClockUp t ∧ t.pending = []) ∨ BringUpWaits t := by
  rw [step_pending (by rw [hw.pending]; exact nofun), hw.pending] at h
  obtain ⟨u, reads, n, hpolled, hcase⟩ := runMicros_clkWait (configWf_layout hw.config) h
  have hgate := hw.polled hpolled
  have hconfig : u.config = s.config := congrArg SoftView.config hpolled.soft
  rw [← hconfig] at hcase
  obtain ⟨hris, hdone⟩ | ⟨hris, rfl⟩ := hcase
  · exact .inl (hgate.bypassOff hris hdone)
  · exact .inr { hgate with pending := rfl, clear := hris }

theorem State.AtReset.pending {s : State} (h : s.AtReset) : s.pending = [] := by
  obtain ⟨-, -, -, -, -, -, -, -, -, -, -, hpending⟩ := h
  exact hpending

/-- The first step from reset completes the bring-up, or leaves it at its wait (R150, R160). -/
theorem bringUp_fromReset {s t : State} {rest : List Word} (h : configWf s.config = true) (hr : s.AtReset)
    (hdecode : decode s.program = .ok (.bringUpClock, rest)) (hstep : step s = .next t) :
    (ClockUp t ∧ t.pending = []) ∨ BringUpWaits t := by
  have hexec := (step_decoded hr.pending hdecode).symm.trans hstep
  have hr : { s with program := rest }.AtReset := hr
  obtain ⟨off, on, gate, u, reads, n, r, hcase⟩ := bringUp_reachesWait (s := { s with program := rest }) h hr.1
  have hgate := r.atWaitGate hr
  have hconfig : u.config = s.config := r.wentWait.config
  rw [hexec, ← hconfig] at hcase
  obtain ⟨hris, hdone⟩ | ⟨hris, -, hwaits⟩ := hcase
  · exact .inl (hgate.bypassOff hris hdone.symm)
  · cases hwaits
    exact .inr { hgate with pending := rfl, clear := hris }

/-- Under `PLL_FAIR` the bring-up from reset ends, with the clock up (R162, R281). -/
theorem bringUpClock_ends {ρ : Nat → State} (hρ : IsRun ρ) (hi : (ρ 0).Inv) (hfair : PllFair ρ) {rest : List Word}
    (hr : (ρ 0).AtReset) (hdecode : decode (ρ 0).program = .ok (.bringUpClock, rest)) :
    ∃ m, ClockUp (ρ m) ∧ (ρ m).pending = [] := by
  obtain ⟨l, h⟩ := hρ 0
  obtain hends | hwaits := bringUp_fromReset (s := { ρ 0 with schedule := l }) hi.config hr hdecode h
  · exact ⟨1, hends⟩
  obtain ⟨m, -, hends⟩ | hstays :=
    hρ.leaves_or_stays hi (fun _ _ hs => { hs with }) (fun _ _ _ _ hs => hs.step) hwaits
  · exact ⟨m, hends⟩
  · exact absurd (fun m hm => ⟨effPwrdn_of_powered (hstays m hm).powered, (hstays m hm).clear⟩)
      (hfair.not_clear_forever (hρ.inv hi) 1)

end Sys2Proof.Machine
end

section
/-! SUPPORT. The transmitter of a channel in a run (43_uart_channel.md R190; 45_hardware_agents.md R223;
70_reset_and_hazards.md R281): under `TX_FAIR` the transmit FIFO of a channel that runs does not stay full, and every
byte that was queued reaches the wire. -/

namespace Sys2Proof.Machine

/-! What a channel was given, and what it has put on the wire. -/

theorem sent_eq_wireBytes_append {s : State} {c : Nat} {ch : Channel} (h : s.channels[c]? = some ch) :
    sent s c = wireBytes s c ++ ch.txq := by
  simp only [sent, wireBytes, h]

theorem wireBytes_prefix_of_forward {s t : State} (h : Forward s t) (c : Nat) : wireBytes s c <+: wireBytes t c := by
  unfold wireBytes
  cases hch : s.channels[c]? with
  | none => exact List.nil_prefix
  | some ch =>
    obtain ⟨ch', hch', hwire⟩ := h.wires c ch hch
    simp only [hch']
    exact hwire.map _

/-- A write of a data register gives its channel one more byte to send, or none (R50); no other write touches what any
channel was given. -/
theorem writeReg_sent_prefix {a v : Word} {r : Reg} {s t : State} (h : writeReg a r v s = .ok () t) (c : Nat) :
    sent s c <+: sent t c := by
  by_cases hdr : ∃ d, r = .uart d .dr
  · obtain ⟨d, rfl⟩ := hdr
    obtain ⟨hr, -⟩ | ⟨hr, -⟩ | ⟨hr, -⟩ | ⟨hr, -⟩ | ⟨_, _, _, hr, -⟩ | ⟨_, _, ch, hr, hch, hwrite⟩ := writeReg_ok h
    all_goals cases hr
    cases hwrite
    by_cases hcd : c = d
    · subst hcd
      unfold pushTx
      split
      · rw [sent_queue _ hch]
        exact List.prefix_append _ _
      · rw [setChannel_same hch]
    · rw [sent_setChannel_other _ hcd]
  · rw [(writeReg_queues h fun d hr => hdr ⟨d, hr⟩).2 c]

/-- No step takes back a byte that a channel was given to send. -/
theorem sent_stepRel (c : Nat) : StepRel fun s t => sent s c <+: sent t c where
  refl _ := List.prefix_refl _
  trans := List.IsPrefix.trans
  idle n s := by rw [idle_sent]
  read h := by rw [busRead_sent h]
  write h := by
    obtain ⟨r, u, -, -, -, hwrite, rfl⟩ := busWrite_ok h
    rw [sent_logBus, ← tick_sent]
    exact writeReg_sent_prefix hwrite c
  clock _ _ _ _ := List.prefix_refl _
  stage _ _ := List.prefix_refl _
  unlock _ _ := List.prefix_refl _
  result _ _ := List.prefix_refl _
  pending _ _ := List.prefix_refl _
  program _ _ := List.prefix_refl _

theorem IsRun.sent_prefix {ρ : Nat → State} (hρ : IsRun ρ) (hi : (ρ 0).Inv) (c : Nat) {m n : Nat} (h : m ≤ n) :
    sent (ρ m) c <+: sent (ρ n) c :=
  hρ.rel hi ((sent_stepRel c).run fun _ _ => List.prefix_refl _) h

theorem IsRun.wireBytes_prefix {ρ : Nat → State} (hρ : IsRun ρ) (hi : (ρ 0).Inv) (c : Nat) {m n : Nat} (h : m ≤ n) :
    wireBytes (ρ m) c <+: wireBytes (ρ n) c :=
  wireBytes_prefix_of_forward (hρ.rel hi forward_run h) c

/-! When a channel runs, and when its transmitter is enabled (R44, R45, R223). -/

/-- Whether a channel runs is said of its registers and its gate. -/
theorem channelRuns_eq (s : State) (c : Nat) :
    channelRuns s c =
      (chanClocked s c && (s.soft.channels[c]?).any fun x => fieldFlag s.config.layout.en x.ctl) := by
  rw [channelRuns, soft_channels_get]
  cases s.channels[c]? <;> rfl

theorem channelRuns_of_soft {s t : State} (h : t.soft = s.soft) (c : Nat) : channelRuns t c = channelRuns s c := by
  have hclocked : chanClocked t c = chanClocked s c := clocked_of_soft h (.uart c .dr)
  have hconfig : t.config = s.config := congrArg SoftView.config h
  rw [channelRuns_eq, channelRuns_eq, hclocked, hconfig, h]

theorem channel_of_runs {s : State} {c : Nat} (h : channelRuns s c = true) : ∃ ch, s.channels[c]? = some ch := by
  rw [channelRuns, Bool.and_eq_true, Option.any_eq_true] at h
  obtain ⟨-, ch, hch, -⟩ := h
  exact ⟨ch, hch⟩

theorem canTransmit_of_runs {s : State} {c : Nat} {ch : Channel} (hruns : channelRuns s c = true)
    (hch : s.channels[c]? = some ch) (hq : ch.txq ≠ []) : canTransmit s c = true := by
  simp only [channelRuns, hch, Option.any_some, Bool.and_eq_true] at hruns
  simp only [canTransmit, hch]
  exact (transmitEnabled_iff s c ch).2 ⟨hruns.1, hruns.2, hq⟩

/-! `TRANSMIT_BYTE` (R190). -/

/-- A wait that made a read and has not ended leaves the FIFO full: its last read showed that (R49, R190). -/
theorem pollTxff_full {cfg : Config} {c n : Nat} {s t : State} (hs : s.config = cfg) (hl : layoutWf cfg.layout = true)
    (hn : c < nChannels cfg) (h : pollTxff cfg c (n + 1) s = .ok false t) :
    ∃ ch, t.channels[c]? = some ch ∧ txFull cfg ch = true := by
  induction n generalizing s with
  | zero =>
    subst hs
    obtain ⟨v, u, hread, hrest⟩ := bind_ok h
    obtain ⟨-, ch, hch, rfl, rfl⟩ := busRead_fr_ok hl hn hread
    simp only [(frValue_tick_flags hl ch).1] at hrest
    cases hfull : txFull s.config ch with
    | false => rw [hfull] at hrest; cases hrest
    | true =>
      rw [hfull] at hrest
      cases hrest
      exact ⟨ch, hch, hfull⟩
  | succ n ih =>
    subst hs
    obtain ⟨v, u, hread, hrest⟩ := bind_ok h
    obtain ⟨-, ch, -, rfl, rfl⟩ := busRead_fr_ok hl hn hread
    split at hrest
    · cases hrest
    · exact ih (afterFrRead_config s c ch) hrest

theorem runMicros_write_pending {a v : Word} {s t : State} (h : runMicros [.write a v] s = .next t) :
    t.pending = [] := by
  obtain ⟨p, u, hwrite, hrun⟩ := runMicros_cons h
  obtain ⟨_, _, _, hdone⟩ := bind_ok hwrite
  cases hdone
  obtain ⟨-, hrun⟩ | rfl := hrun
  · cases hrun
    rfl
  · rfl

/-- `TRANSMIT_BYTE` is pending with its FIFO full, on a channel `c` that runs with the registers `regs` and was given
`given` to send. -/
structure AwaitsRoom (c : Nat) (b : Byte) (given : List Byte) (regs : ChanRegs) (s : State) : Prop where
  pending : s.pending = transmitSteps s.config c b
  runs : channelRuns s c = true
  given : sent s c = given
  regs : s.soft.channels[c]? = some regs
  full : ∃ ch, s.channels[c]? = some ch ∧ txFull s.config ch = true

/-- A step of `TRANSMIT_BYTE` queues the byte last, or the wait goes on with the FIFO full (R190). -/
theorem transmitSteps_step {s t : State} {c : Nat} {b : Byte} {regs : ChanRegs} (hc : CoreInv s)
    (hn : c < nChannels s.config) (hruns : channelRuns s c = true) (hregs : s.soft.channels[c]? = some regs)
    (h : runMicros (transmitSteps s.config c b) s = .next t) :
    (t.pending = [] ∧ sent t c = sent s c ++ [b]) ∨ AwaitsRoom c b (sent s c) regs t := by
  have hrun : runMicros (transmitSteps s.config c b ++ []) s = .next t := by rwa [List.append_nil]
  obtain ⟨-, hpending⟩ | ⟨u, hqueued, hdone⟩ := transmitSteps_relays hc hn hrun
  · have hl := configWf_layout hc.config
    obtain ⟨p, u, hwait, hrest⟩ := runMicros_cons h
    obtain ⟨ended, v, hpoll, hended⟩ := bind_ok hwait
    cases hended
    have hpoll : pollTxff s.config c (s.schedule.length + 1) s = .ok ended u := hpoll
    cases ended with
    | true =>
      have hnone := runMicros_write_pending ((runMicros_done hwait).symm.trans h)
      cases hnone.symm.trans hpending
    | false =>
      cases (runMicros_wait hwait).symm.trans h
      obtain ⟨full, last, hwaited⟩ := pollTxff_ok rfl hl hn hpoll
      have hsoft := hwaited.polled.soft
      have hconfig : u.config = s.config := congrArg SoftView.config hsoft
      obtain ⟨ch, hch, hfull⟩ := pollTxff_full rfl hl hn hpoll
      exact .inr
        { pending := congrArg (transmitSteps · c b) hconfig.symm
          runs := (channelRuns_of_soft hsoft c).trans hruns
          given := hwaited.polled.sent c
          regs := (congrArg (·.channels[c]?) hsoft).trans hregs
          full := ⟨ch, hch, (congrArg (txFull · ch) hconfig).trans hfull⟩ }
  · cases hdone
    exact .inl ⟨rfl, hqueued.sent⟩

theorem transmitByte_step {s t : State} {c : Nat} {b : Byte} {regs : ChanRegs} (hi : s.Inv)
    (hn : c < nChannels s.config) (hw : underWay s (.transmitByte c b) (transmitSteps s.config c b))
    (hruns : channelRuns s c = true) (hregs : s.soft.channels[c]? = some regs) (h : step s = .next t) :
    (t.pending = [] ∧ sent t c = sent s c ++ [b]) ∨ AwaitsRoom c b (sent s c) regs t := by
  have hexec : ∀ ws, exec (.transmitByte c b) { s with program := ws } =
      runMicros (transmitSteps s.config c b) (clearResult { s with program := ws }) :=
    fun ws => runCommand_onChannel (s := { s with program := ws }) _ hn
  obtain ⟨r, ws, hstep⟩ := step_underWay hexec hw
  exact transmitSteps_step (s := { s with result := r, program := ws }) { hi.core with } hn hruns hregs
    (hstep.symm.trans h)

namespace AwaitsRoom

variable {c : Nat} {b : Byte} {given : List Byte} {regs : ChanRegs} {s t : State}

theorem step (hs : AwaitsRoom c b given regs s) (hi : s.Inv) (hn : c < nChannels s.config) (h : step s = .next t) :
    (t.pending = [] ∧ sent t c = given ++ [b]) ∨ AwaitsRoom c b given regs t :=
  hs.given ▸ transmitByte_step hi hn (.inl hs.pending) hs.runs hs.regs h

/-- The transmitter is enabled while the wait goes on: a full FIFO holds a byte (R52, R223). -/
theorem canTransmit (hs : AwaitsRoom c b given regs s) (hwf : configWf s.config = true) : canTransmit s c = true := by
  obtain ⟨ch, hch, hfull⟩ := hs.full
  refine canTransmit_of_runs hs.runs hch fun hempty => ?_
  rw [txFull_of_empty hwf hempty] at hfull
  cases hfull

/-- All that the channel was given and that is not in the full FIFO is on the wire. -/
theorem wire_length (hs : AwaitsRoom c b given regs s) (ht : AwaitsRoom c b given regs t)
    (hconfig : t.config = s.config) : (wireBytes t c).length = (wireBytes s c).length := by
  obtain ⟨ch, hch, hfull⟩ := hs.full
  obtain ⟨ch', hch', hfull'⟩ := ht.full
  have hregs : chanRegsOf ch' = chanRegsOf ch :=
    Option.some.inj ((soft_channel hch').symm.trans (ht.regs.trans (hs.regs.symm.trans (soft_channel hch))))
  have hsent : sent t c = sent s c := ht.given.trans hs.given.symm
  rw [sent_eq_wireBytes_append hch, sent_eq_wireBytes_append hch'] at hsent
  have hlength := congrArg List.length hsent
  rw [txFull_eq, decide_eq_true_eq] at hfull hfull'
  rw [hconfig, fifoCap_of_regs _ hregs, ← hfull] at hfull'
  simp only [List.length_append, hfull'] at hlength
  exact Nat.add_right_cancel hlength

end AwaitsRoom

/-- Under `TX_FAIR` the wait of `TRANSMIT_BYTE` ends: while it goes on the transmitter is enabled, and yet the wire log
cannot grow (R190, R281). -/
theorem transmitByte_ends {ρ : Nat → State} {c : Nat} (hρ : IsRun ρ) (hi : (ρ 0).Inv) (hfair : TxFair ρ c)
    (hn : c < nChannels (ρ 0).config) {n : Nat} {b : Byte}
    (hw : underWay (ρ n) (.transmitByte c b) (transmitSteps (ρ n).config c b)) (hruns : channelRuns (ρ n) c = true) :
    ∃ m, n < m ∧ (ρ m).pending = [] ∧ sent (ρ m) c = sent (ρ n) c ++ [b] := by
  have hconfig := hρ.config hi
  obtain ⟨ch, hch⟩ := channel_of_runs hruns
  obtain ⟨l, h⟩ := hρ n
  obtain hends | hwaits :=
    transmitByte_step ((hρ.inv hi n).withSchedule l) (by rwa [hconfig n]) hw hruns (soft_channel hch) h
  · exact ⟨n + 1, Nat.lt_succ_self n, hends⟩
  obtain ⟨m, hm, hends⟩ | hstays := hρ.leaves_or_stays hi (fun _ _ hs => { hs with })
    (fun _ _ hs hc hawaits => hawaits.step hs (by rwa [hc])) hwaits
  · exact ⟨m, Nat.lt_of_succ_lt hm, hends⟩
  obtain ⟨m, hm, hdisabled | hgrows⟩ := hfair (n + 1)
  · cases hdisabled.symm.trans ((hstays m hm).canTransmit (hρ.inv hi m).config)
  · have hsame := (hstays m hm).wire_length (hstays (m + 1) (Nat.le_succ_of_le hm))
      ((hconfig (m + 1)).trans (hconfig m).symm)
    exact absurd hgrows hsame.not_gt

/-! All that a channel was given reaches the wire (R282). -/

/-- However many bytes the channel was given, its wire log reaches that length: while it is shorter a byte is queued,
and its transmitter is enabled (R223). -/
theorem TxFair.wire_reaches {ρ : Nat → State} {c n : Nat} (hfair : TxFair ρ c) (hρ : IsRun ρ) (hi : (ρ 0).Inv)
    (hruns : ∀ m, n ≤ m → channelRuns (ρ m) c = true) (k : Nat) (hk : k ≤ (sent (ρ n) c).length) :
    ∃ m, n ≤ m ∧ k ≤ (wireBytes (ρ m) c).length := by
  induction k with
  | zero => exact ⟨n, le_rfl, Nat.zero_le _⟩
  | succ k ih =>
    obtain ⟨m, hm, hwire⟩ := ih (Nat.le_of_succ_le hk)
    obtain ⟨m', hm', hfires⟩ := hfair m
    have hwire' := hwire.trans (hρ.wireBytes_prefix hi c hm').length_le
    obtain hdone | hmore := Nat.lt_or_ge k (wireBytes (ρ m') c).length
    · exact ⟨m', hm.trans hm', hdone⟩
    have hgiven := (hρ.sent_prefix hi c (hm.trans hm')).length_le
    obtain ⟨ch, hch⟩ := channel_of_runs (hruns m' (hm.trans hm'))
    have hqueue : ch.txq ≠ [] := fun hempty => by
      rw [sent_eq_wireBytes_append hch, hempty, List.append_nil] at hgiven
      omega
    obtain hdisabled | hgrows := hfires
    · cases hdisabled.symm.trans (canTransmit_of_runs (hruns m' (hm.trans hm')) hch hqueue)
    · exact ⟨m' + 1, by omega, by omega⟩

/-- Under `TX_FAIR` a channel that runs for ever has, some time, put all that it was given on its wire (R281). -/
theorem TxFair.all_sent {ρ : Nat → State} {c n : Nat} (hfair : TxFair ρ c) (hρ : IsRun ρ) (hi : (ρ 0).Inv)
    (hruns : ∀ m, n ≤ m → channelRuns (ρ m) c = true) : ∃ m, n ≤ m ∧ sent (ρ n) c <+: wireBytes (ρ m) c := by
  obtain ⟨m, hm, hlength⟩ := hfair.wire_reaches hρ hi hruns _ le_rfl
  obtain ⟨ch, hch⟩ := channel_of_runs (hruns m hm)
  have hwire : wireBytes (ρ m) c <+: sent (ρ m) c := by
    rw [sent_eq_wireBytes_append hch]
    exact List.prefix_append _ _
  exact ⟨m, hm, List.prefix_of_prefix_length_le (hρ.sent_prefix hi c hm) hwire hlength⟩

/-- Settles O60: `PLL_FAIR` rules out that the status bit stays clear (`PllFair.not_clear_forever`), and `TX_FAIR` that
a full FIFO, or one that holds a byte, stays as it is (`transmitByte_ends`, `TxFair.all_sent`). -/
theorem fairRunsLeaveTheirWaits : Obligations.FairRunsLeaveTheirWaits := fun _ hρ hi =>
  ⟨fun hfair => ⟨fun _ => clkWaitLock_ends hρ hi hfair, fun _ => bringUpClock_ends hρ hi hfair⟩,
    fun _ hn hfair => ⟨fun _ _ => transmitByte_ends hρ hi hfair hn, fun _ => hfair.all_sent hρ hi⟩⟩

end Sys2Proof.Machine
end
